-- ==== Sys2Proof/Word.lean ====
section
/-! DEFINITION. The byte of a link and the numbered places of the part (00, section 5, Names).

Numbers that the manual states as ranges are natural numbers or integers; only a byte on a link and a set of attention
classes (11, R184) are bit vectors. -/

namespace Sys2Proof

/-- One byte heard or sent on a link (11, R178). -/
abbrev Byte := BitVec 8

/-- A set of attention classes, bit n standing for the class of bit n of its link (11, R184). -/
abbrev ClassSet := BitVec 16

/-- Kilns K0 to K7. -/
abbrev KilnNo := Fin 8

/-- Stackers S0 to S5. -/
abbrev StackerNo := Fin 6

/-- Hold points HP0 to HP3. -/
abbrev HoldPointNo := Fin 4

/-- Logical bins 0 to 15. -/
abbrev BinNo := Fin 16

end Sys2Proof
end

