-- ==== Sys2Proof/Syntax.lean ====
section
/-! DEFINITION. The commands of the part: one constructor for each row of spec/opcode_table.json.

A request row is a good frame (11, R179, R180) of that row's kind: the link it came in on, its tag and its body. The body is
kept as bytes, because R182 judges its length and R190 the codes of its fields (log 1). -/

namespace Sys2Proof

/-- The three links (11). -/
inductive Link where
  | office
  | kilnHouse
  | planer
deriving DecidableEq, Repr

/-- What a good frame carries besides its kind (11, section 11.5, Frame). -/
structure Request where
  link : Link
  tag  : Byte
  body : List Byte
deriving DecidableEq, Repr

/-- The levels of the rate straps at a start-up, true for high (11, R178, R179; log 23). -/
structure Straps where
  rate1 : Bool
  rate0 : Bool
deriving DecidableEq, Repr

/-- The commands, in the order of spec/opcode_table.json. -/
inductive Instr where
  -- read requests and attention, served on every link (R182)
  | ident (f : Request)
  | clockRead (f : Request)
  | attentionTake (f : Request)
  | attentionMask (f : Request)
  | lotRead (f : Request)
  | lotList (f : Request)
  | kilnRead (f : Request)
  | stackerRead (f : Request)
  | binMapRead (f : Request)
  | queueRead (f : Request)
  -- office requests
  | lotCreate (f : Request)
  | lotModify (f : Request)
  | lotHold (f : Request)
  | lotRelease (f : Request)
  | lotFinish (f : Request)
  | lotRemove (f : Request)
  | redryRange (f : Request)
  | scheduleWrite (f : Request)
  | scheduleDelete (f : Request)
  | scheduleRead (f : Request)
  | speciesWrite (f : Request)
  | speciesDelete (f : Request)
  | speciesRead (f : Request)
  | sampleEnter (f : Request)
  | sampleWeigh (f : Request)
  | sampleRemove (f : Request)
  | kilnCharge (f : Request)
  | kilnStart (f : Request)
  | kilnStop (f : Request)
  | kilnUnload (f : Request)
  | kilnSetup (f : Request)
  | kilnHold (f : Request)
  | kilnRelease (f : Request)
  | kilnAdvance (f : Request)
  | holdPointSet (f : Request)
  | holdPointRead (f : Request)
  | boilerCapacity (f : Request)
  | binMapWrite (f : Request)
  | binMapSet (f : Request)
  | stackerSetup (f : Request)
  | labelRead (f : Request)
  | labelRelease (f : Request)
  | clearAll (f : Request)
  -- kiln-house request
  | kilnReport (f : Request)
  -- planer requests
  | measure (f : Request)
  | drop (f : Request)
  | lost (f : Request)
  | lineHold (f : Request)
  | lineRun (f : Request)
  | shadowOn (f : Request)
  | shadowOff (f : Request)
  | packClose (f : Request)
  /-- A good frame whose kind byte is none of those served (R182). -/
  | unknownKind (kind : Byte) (f : Request)
  /-- `heard`: the bytes heard after the sync byte, length byte first (R179). -/
  | frameAbandoned (l : Link) (heard : List Byte)
  | byteGapTimeout (l : Link)
  | lineBreak (l : Link)
  | responseSent (l : Link)
  -- time-driven events
  | minuteEvent
  | minuteCountStopped
  | stepForced (k : KilnNo)
  | heatWaitAged (k : KilnNo)
  | idleClose (st : StackerNo)
  -- lines and supply
  | millStop
  | millStopReleased
  | powerLoss
  /-- `cellHeld`: the backup-cell monitor reports no fall below retention level while supply was off (R187). -/
  | powerOn (cellHeld : Bool) (straps : Straps)
  | resetAsserted
  | resetReleased (straps : Straps)
  | syncByte (l : Link)
deriving DecidableEq, Repr

end Sys2Proof
end

