-- ==== Sys2Proof/Decode.lean ====
section
/-! DEFINITION. The command that a word spells by the table's bits. No row of spec/opcode_table.json gives bits ("fields" is
empty in each): a request is a frame of bytes on a link (11, section 11.5), and an event is no word at all (log 22). -/

namespace Sys2Proof

/-- No word spells a command. -/
def decodeTableWord (_nbits _w : Nat) : Option Instr := none

end Sys2Proof
end

