-- ==== Sys2Proof/Config.lean ====
section
/-! DEFINITION. What the manual leaves to the part, and the fixed figures of the introduction (00, section 7).

The free values are `agingPassFirst` (log 4) and `releasedActive` (log 25): they have no body, so nothing can be proved of them
and every claim holds for both orders and both phases. -/

namespace Sys2Proof.Config

/-- FREE VALUE (log 4). Whether, at the minute event counted n, the arbiter's aging pass is made before the kilns count:
"the actions of the blocks may be taken in either order" (05, R69; 06, R110). -/
opaque agingPassFirst : Nat → Bool

/-- FREE VALUE (log 25). Whether a HELD kiln released while suspended is ACTIVE although it holds a dormant request for a demand of
0: 06, R108 makes it ACTIVE, and 07, R121 and 06, R95 make it WAIT_HEAT. -/
opaque releasedActive : Bool

/-- The greatest mill minute count (05, R69). -/
def minuteMax : Nat := 4294967295

/-- The greatest label serial (10, R171). -/
def serialMax : Nat := 4294967295

/-- Lot records plus reserved slots (01, R1). -/
def lotSlots : Nat := 64

/-- Schedules in the store (02, R23). -/
def scheduleSlots : Nat := 16

/-- Boards in the tracking queue (08, R126). -/
def queueSlots : Nat := 48

/-- Label records plus reserved slots (10, R172). -/
def labelSlots : Nat := 16

/-- Minutes of waiting after which a request is aged (06, R95). -/
def agingMinutes : Nat := 240

/-- The freshness window of a kiln's moisture figures (03, R42). -/
def freshMinutes : Nat := 1440

/-- The base footage below which the redry check is not made (01, R11; 03, R50). -/
def redryBase : Nat := 20000

/-- The greatest board count and footage of a planer counter (01, R15). -/
def boardsMax : Nat := 999999
def footageMax : Nat := 9999999999

/-- Where an MC x footage sum saturates (03, R46). -/
def mcSumMax : Nat := 4294967295

/-- The longest body of a frame (11, R179). -/
def bodyMax : Nat := 248

/-- The part code and the revision that IDENT returns (11, R183). -/
def partCode : Nat := 0x0D16
def revision : Nat := 1

/-- Default redry range (01, R22), boiler capacity (06, R112) and pack count limit (09, R169). -/
def redryFirst : Nat := 60001
def redryLast : Nat := 65535
def boilerCapacity : Nat := 16
def countLimit : Nat := 250

/-- How many step ends can follow one another inside one command: eight kilns of at most twelve steps. It bounds the nested
evaluations of 06, R100 (log 5). -/
def stepEnds : Nat := 97

end Sys2Proof.Config
end

