-- ==== Sys2Proof/Machine/State.lean ====
section
/-! DEFINITION. The state of the part as plain data, and the state right after a power-on with retention lost.

Each structure follows the record table of its chapter. A field that the manual calls optional is an `Option`; a field that
exists only in some states is carried by the constructor of that state (the hold reason of a HELD lot, the phase of a RUNNING
kiln, the close reason of a CLOSING pack). -/

namespace Sys2Proof.Machine

/-! ### Links and start-up (chapter 11) -/

/-- The status byte of a response (11, R182). -/
inductive Status where
  | done | unknownKind | notPermitted | badLength | badField | noSuchLot | noSuchSchedule | noSuchSample | noBoard
  | wrongState | tableFull | inUse | duplicate | queueFull | lotFull | notReservable | millStopActive | partialBatch
deriving DecidableEq, Repr

/-- A response: the kind byte (request kind plus 80h), the request's tag, the status and the bytes after it (11, R181). -/
structure Response where
  kind    : Byte
  tag     : Byte
  status  : Status
  content : List Byte
deriving DecidableEq, Repr

/-- The states of a link's receiver (11, R179). TAKING holds the response that is about to begin, ANSWERING the one being
sent. -/
inductive Receiver where
  | hunting
  | receiving
  | taking (r : Response)
  | answering (r : Response)
deriving DecidableEq, Repr

/-- One link port: receiver, pending set and mask (11, R179, R184). -/
structure LinkPort where
  receiver : Receiver
  pending  : ClassSet
  mask     : ClassSet
deriving DecidableEq, Repr

/-- The kind of the last start-up or clear (11, R183). -/
inductive StartUpKind where
  | powerIntact | reset | powerLost | clearAll
deriving DecidableEq, Repr

/-- Whether the part runs, is held by the RESET line (with the kind of start-up it will make when the line is released), or
is stopped for want of main supply (11, R187, R188). -/
inductive Condition where
  | running
  | held (kind : StartUpKind)
  | stopped
deriving DecidableEq, Repr

/-- The four line rates (11, R178). -/
inductive LineRate where
  | r19200 | r38400 | r57600 | r115200
deriving DecidableEq, Repr

/-! ### Lot Table (chapter 1) -/

/-- The state a hold remembers (01, section 1.1). -/
inductive ReturnState where
  | waiting | dried | planing
deriving DecidableEq, Repr

/-- The reason of a hold, with its return state where it has one (01, section 1.1, R4, R9, R11). -/
inductive Hold where
  | office (ret : ReturnState)
  | redry (ret : ReturnState)
  | aborted
deriving DecidableEq, Repr

/-- Lot states (01, section 1.2). -/
inductive LotState where
  | waiting | inKiln | dried | planing
  | held (h : Hold)
  | closed
deriving DecidableEq, Repr

/-- What an unload from a FINISHED kiln writes into a lot (01, section 1.1, R9). -/
structure KilnResult where
  kiln        : KilnNo
  finalCmc    : Option Nat
  driest      : Option Nat
  wettest     : Option Nat
  driedMinute : Nat
  aborted     : Bool
deriving DecidableEq, Repr

/-- The three fields that only redry lots have (01, R19). -/
structure RedryOrigin where
  parent  : Nat
  boards  : Nat
  footage : Nat
deriving DecidableEq, Repr

/-- A pair of board count and footage (01, section 1.1, planer counters). -/
structure Tally where
  boards  : Nat
  footage : Nat
deriving DecidableEq, Repr

/-- A lot record (01, section 1.1). -/
structure LotRecord where
  number         : Nat
  species        : Nat
  thickness      : Nat
  targetMc       : Nat
  tolerance      : Nat
  redryLimit     : Nat
  state          : LotState
  createdMinute  : Nat
  kilnResult     : Option KilnResult
  origin         : Option RedryOrigin
  measured       : Tally
  passed         : Tally
  redry          : Tally
  rejected       : Tally
  heldBack       : Tally
  lost           : Tally
  verifiedBoards : Nat
  verifiedMcSum  : Nat
  waived         : Bool
deriving DecidableEq, Repr

/-! ### Schedule Store (chapter 2) -/

/-- Step kinds (02, R24). -/
inductive StepKind where
  | heatup | drying | equalize | condition | cool
deriving DecidableEq, Repr

/-- The exit kind of a step with its exit value where the kind takes one (02, R25). -/
inductive StepExit where
  | time
  | cmcAtOrBelow (value : Nat)
  | driestAtOrAbove (value : Nat)
  | drybulbReached
  | drybulbAtOrBelow (value : Nat)
deriving DecidableEq, Repr

/-- A step record (02, section 2.1). -/
structure ScheduleStep where
  kind       : StepKind
  dryBulb    : Nat
  depression : Nat
  demand     : Nat
  exit       : StepExit
  minMinutes : Nat
  maxMinutes : Nat
deriving DecidableEq, Repr

/-- A schedule record; an absent text is the empty list (02, section 2.1, R26). -/
structure Schedule where
  id    : Nat
  text  : List Byte
  steps : List ScheduleStep
deriving DecidableEq, Repr

/-- A species record (02, section 2.5). -/
structure Species where
  name : List Byte
  fs   : Nat
  kt   : Nat
deriving DecidableEq, Repr

/-! ### Kiln Contexts (chapters 4 and 5) -/

/-- The phase of a RUNNING kiln (05, section 5.1). -/
inductive Phase where
  | active | waitHeat
deriving DecidableEq, Repr

/-- Kiln states; only RUNNING has a phase (05, R68). -/
inductive KilnState where
  | empty | loaded
  | running (p : Phase)
  | held | finished
deriving DecidableEq, Repr

/-- A sample record (04, section 4.1). -/
structure Sample where
  id          : Nat
  greenWeight : Nat
  greenMc     : Nat
  odw         : Nat
  weight      : Nat
  mc          : Nat
  clamped     : Bool
  weighMinute : Nat
deriving DecidableEq, Repr

/-- Why a step ended (05, section 5.1). -/
inductive EndCause where
  | exit | forced | advanced | aborted
deriving DecidableEq, Repr

/-- A step history entry (05, section 5.1). -/
structure HistoryEntry where
  index   : Nat
  minutes : Nat
  cause   : EndCause
deriving DecidableEq, Repr

/-- The kiln's moisture figures (03, R40). -/
structure Figures where
  cmc     : Option Nat
  driest  : Option Nat
  wettest : Option Nat
deriving DecidableEq, Repr

/-- A kiln context (05, section 5.1). -/
structure KilnContext where
  state       : KilnState
  runEnable   : Bool
  aborted     : Bool
  scheduleId  : Option Nat
  charge      : List Nat
  stepIndex   : Nat
  stepEntered : Option Nat
  stepElapsed : Nat
  runMinutes  : Nat
  holdCounts  : Bool
  doorOpen    : Bool
  lastDry     : Option Int
  lastWet     : Option Int
  suspect     : Bool
  samples     : List Sample
  figures     : Figures
  history     : List HistoryEntry
deriving DecidableEq, Repr

/-! ### Heat Allotment Arbiter (chapter 6) -/

/-- A kiln's request: none, waiting since a minute, or dormant (06, R95). -/
inductive HeatRequest where
  | absent
  | waiting (demand since : Nat)
  | dormant (demand : Nat)
deriving DecidableEq, Repr

/-- A kiln's heat record (06, section 6.1). -/
structure HeatRecord where
  grant   : Nat
  request : HeatRequest
deriving DecidableEq, Repr

/-! ### Hold Point Unit (chapter 7) -/

/-- Which kilns a hold point covers (07, R113). -/
inductive HoldScope where
  | kiln (k : KilnNo)
  | any
deriving DecidableEq, Repr

/-- The kind of a hold point with its value (07, section 7.1). -/
inductive HoldKind where
  | stepEnter (index : Nat)
  | cmcAtOrBelow (value : Nat)
deriving DecidableEq, Repr

/-- The kiln and the minute of a hold point's last match (07, section 7.1). -/
structure Hit where
  kiln   : KilnNo
  minute : Nat
deriving DecidableEq, Repr

/-- A hold point record (07, section 7.1). -/
structure HoldPoint where
  enabled : Bool
  scope   : HoldScope
  kind    : HoldKind
  oneShot : Bool
  hit     : Option Hit
deriving DecidableEq, Repr

/-! ### Board Tracking Queue and Bin Map (chapter 8) -/

/-- The disposition of a board (08, R133 to R136). -/
inductive Disposition where
  | pass | redry | reject | holdback
deriving DecidableEq, Repr

/-- Where a board leaves the line (08, section 8.1). -/
inductive Destination where
  | stacker (st : StackerNo)
  | reject
  | holdback
deriving DecidableEq, Repr

/-- A bin map entry (08, section 8.6). -/
inductive BinEntry where
  | stacker (st : StackerNo)
  | reject
  | unmapped
deriving DecidableEq, Repr

/-- A board record (08, section 8.1). -/
structure Board where
  seq           : Nat
  lot           : Nat
  thickness     : Nat
  width         : Nat
  length        : Nat
  footage       : Nat
  bin           : BinNo
  raw           : Nat
  overRange     : Bool
  temperature   : Int
  mc            : Nat
  verified      : Bool
  disposition   : Disposition
  destination   : Destination
  pack          : Option Nat
  measureMinute : Nat
deriving DecidableEq, Repr

/-! ### Pack Builder and Label Queue (chapters 9 and 10) -/

/-- Why a stacker is blocked or a close fails (09, R155). -/
inductive BlockReason where
  | labels | lots | numbers | prior
deriving DecidableEq, Repr

/-- Why a pack closed (09, section 9.2). -/
inductive CloseReason where
  | count | footage | lotChange | binChange | idle | operator
deriving DecidableEq, Repr

/-- A pack record while OPEN (09, section 9.2). Its stacker is the one whose record holds it. -/
structure Pack where
  number          : Nat
  lot             : Nat
  bin             : BinNo
  countLimit      : Nat
  footageLimit    : Nat
  idleTime        : Nat
  boards          : Nat
  footage         : Nat
  verifiedBoards  : Nat
  verifiedFootage : Nat
  mcSum           : Nat
  saturated       : Bool
  highest         : Option Nat
  outstanding     : Nat
  openedMinute    : Nat
deriving DecidableEq, Repr

/-- A CLOSING pack: the fields present once CLOSING stand beside the pack (09, section 9.2). Its reserved label slot is its
being CLOSING (10, R172), and `redryLot` is its reservation of a lot slot and number (01, R17; log 8). -/
structure ClosingPack where
  pack        : Pack
  reason      : CloseReason
  closeMinute : Nat
  redryLot    : Option Nat
deriving DecidableEq, Repr

/-- A stacker record (09, section 9.1). -/
structure Stacker where
  countLimit   : Nat
  footageLimit : Nat
  idleParam    : Nat
  openPack     : Option Pack
  closing      : Option ClosingPack
  blocked      : Option BlockReason
  idleMinutes  : Nat
  idleDue      : Bool
deriving DecidableEq, Repr

/-- A label record (10, section 10.1). -/
structure Label where
  serial         : Nat
  pack           : Nat
  stacker        : StackerNo
  lot            : Nat
  species        : Nat
  thickness      : Nat
  bin            : BinNo
  boards         : Nat
  footage        : Nat
  verifiedBoards : Nat
  mean           : Option Nat
  highest        : Option Nat
  kiln           : Option KilnNo
  kilnCmc        : Option Nat
  reason         : CloseReason
  closeMinute    : Nat
  redryLot       : Option Nat
deriving DecidableEq, Repr

/-! ### The whole part -/

/-- Everything the part holds, and the queue of the commands that wait. -/
structure State where
  -- lines, supply and start-up (11)
  condition        : Condition
  resetLine        : Bool
  millStopLine     : Bool
  lineRate         : LineRate
  completionMarker : Bool
  startUpKind      : StartUpKind
  -- link ports (11)
  officePort       : LinkPort
  kilnHousePort    : LinkPort
  planerPort       : LinkPort
  -- minute base (05, R69)
  minute           : Nat
  -- Lot Table (01); the records stand in ascending number
  lots             : List LotRecord
  redryFirst       : Nat
  redryLast        : Nat
  redryNext        : Nat
  -- Schedule Store (02); the schedules stand in ascending id
  schedules        : List Schedule
  species          : Vector (Option Species) 16
  -- Kiln Contexts (04, 05)
  kilns            : Vector KilnContext 8
  -- Heat Allotment Arbiter (06)
  capacity         : Nat
  masterEnable     : Bool
  heat             : Vector HeatRecord 8
  -- Hold Point Unit (07)
  holdPoints       : Vector HoldPoint 4
  -- Board Tracking Queue and Bin Map (08); the oldest board first
  queue            : List Board
  nextSeq          : Nat
  lineHeld         : Bool
  shadow           : Bool
  binMap           : Vector BinEntry 16
  -- Pack Builder (09)
  stackers         : Vector Stacker 6
  nextPack         : Nat
  -- Label Queue (10); the oldest label first; `none` is the mark "spent"
  labels           : List Label
  serial           : Option Nat
  -- the model's own: which free order a minute event takes next (log 4), and the commands that wait, first in first out
  choices          : Nat
  pending          : List Instr
deriving DecidableEq, Repr

/-- No command of the part stops it: a request that cannot be served is answered with a status (11, R182). So there is no
fault. -/
inductive Fault where
deriving DecidableEq, Repr

/-- The one refusal. -/
inductive Refusal where
  /-- Raised by an arm of `exec` for a command that has no meaning yet; no arm uses it. Safe: nothing is claimed of such a
  command. -/
  | notModelled (mnemonic : String)
deriving DecidableEq, Repr

/-- A link port right after a start-up, its pending set given (11, R187). -/
def LinkPort.fresh (pending : ClassSet) : LinkPort where
  receiver := .hunting
  pending := pending
  mask := 0

/-- An EMPTY kiln after a start-up with retention lost (05, R92). -/
def KilnContext.unused : KilnContext where
  state := .empty
  runEnable := false
  aborted := false
  scheduleId := none
  charge := []
  stepIndex := 0
  stepEntered := none
  stepElapsed := 0
  runMinutes := 0
  holdCounts := false
  doorOpen := false
  lastDry := none
  lastWet := none
  suspect := false
  samples := []
  figures := ⟨none, none, none⟩
  history := []

/-- A hold point after a start-up with retention lost (07, R125). -/
def HoldPoint.unused : HoldPoint where
  enabled := false
  scope := .any
  kind := .stepEnter 0
  oneShot := false
  hit := none

/-- A stacker after a start-up with retention lost (09, R169). -/
def Stacker.unused : Stacker where
  countLimit := Config.countLimit
  footageLimit := 0
  idleParam := 0
  openPack := none
  closing := none
  blocked := none
  idleMinutes := 0
  idleDue := false

/-- The bin map after a start-up with retention lost: bins 0 to 14 UNMAPPED, bin 15 REJECT (08, R143). -/
def unmappedBins : Vector BinEntry 16 := (Vector.replicate 16 BinEntry.unmapped).set 15 .reject

/-- The part right after a power-on with retention lost (11, R187; each block by the rule of its chapter; log 13). The office
pending set holds RESTARTED (bit 9) and RETENTION_LOST (bit 10). -/
def State.reset : State where
  condition := .running
  resetLine := false
  millStopLine := false
  lineRate := .r19200
  completionMarker := false
  startUpKind := .powerLost
  officePort := LinkPort.fresh 0x0600
  kilnHousePort := LinkPort.fresh 0
  planerPort := LinkPort.fresh 0
  minute := 0
  lots := []
  redryFirst := Config.redryFirst
  redryLast := Config.redryLast
  redryNext := Config.redryFirst
  schedules := []
  species := Vector.replicate 16 none
  kilns := Vector.replicate 8 KilnContext.unused
  capacity := Config.boilerCapacity
  masterEnable := false
  heat := Vector.replicate 8 ⟨0, .absent⟩
  holdPoints := Vector.replicate 4 HoldPoint.unused
  queue := []
  nextSeq := 1
  lineHeld := false
  shadow := false
  binMap := unmappedBins
  stackers := Vector.replicate 6 Stacker.unused
  nextPack := 1
  labels := []
  serial := some 1
  choices := 0
  pending := []

end Sys2Proof.Machine
end

