-- ==== Sys2Proof/Machine/Bytes.lean ====
section
/-! DEFINITION. Fields as bytes: high byte first, signed fields in two's complement, a presence mark before an optional field
(00, section 5, Multi-byte values; 11, R190, R191). -/

namespace Sys2Proof.Machine

/-- A byte holding a number within 0 to 255. -/
def byteOf (n : Nat) : Byte := BitVec.ofNat 8 n

/-- A number as one byte (R191). -/
def u8 (n : Nat) : List Byte := [byteOf n]

/-- A number as two bytes, high byte first. -/
def u16 (n : Nat) : List Byte := [byteOf (n / 256), byteOf n]

/-- A number as four bytes. -/
def u32 (n : Nat) : List Byte := [byteOf (n / 16777216), byteOf (n / 65536), byteOf (n / 256), byteOf n]

/-- A number as five bytes (R191: a number above 4,294,967,295). -/
def u40 (n : Nat) : List Byte := byteOf (n / 4294967296) :: u32 n

/-- A signed number as one byte in two's complement. -/
def i8 (z : Int) : List Byte := [BitVec.ofInt 8 z]

/-- A signed number as two bytes in two's complement. -/
def i16 (z : Int) : List Byte := u16 (BitVec.ofInt 16 z).toNat

/-- A mark, flag or option (R190: 0 clear, 1 set). -/
def mark (b : Bool) : List Byte := u8 (if b then 1 else 0)

/-- An optional field: its presence mark, then the field, or zero of the field's size when absent (R190, R191). -/
def opt {α : Type} (size : Nat) (encode : α → List Byte) : Option α → List Byte
  | some a => mark true ++ encode a
  | none => mark false ++ List.replicate size 0

def optU8 : Option Nat → List Byte := opt 1 u8
def optU16 : Option Nat → List Byte := opt 2 u16
def optU32 : Option Nat → List Byte := opt 4 u32
def optU40 : Option Nat → List Byte := opt 5 u40
def optI16 : Option Int → List Byte := opt 2 i16

/-- A list: its count, then its entries (R191). -/
def counted {α : Type} (encode : α → List Byte) (l : List α) : List Byte := u8 l.length ++ l.flatMap encode

/-- A text: its length, then its characters (R191). -/
def text (t : List Byte) : List Byte := u8 t.length ++ t

/-- The number of a two-byte field heard high byte first. -/
def n16 (hi lo : Byte) : Nat := hi.toNat * 256 + lo.toNat

/-- The number of a four-byte field heard high byte first. -/
def n32 (b3 b2 b1 b0 : Byte) : Nat := n16 b3 b2 * 65536 + n16 b1 b0

/-- The signed number of a one-byte field. -/
def z8 (b : Byte) : Int := b.toInt

/-- The signed number of a two-byte field. -/
def z16 (hi lo : Byte) : Int := (BitVec.ofNat 16 (n16 hi lo)).toInt

/-- A flag, mark or option heard: 0 clear, 1 set, anything else outside its codes (R190). -/
def flagOf (b : Byte) : Option Bool :=
  if b = 0 then some false else if b = 1 then some true else none

/-- An optional field heard, as its mark and its value: `none` when the mark is outside its codes, `some none` when the field
is absent (R190, R191; the value under a clear mark is not looked at, log 7). -/
def optHeard (markByte : Byte) (value : Nat) : Option (Option Nat) :=
  (flagOf markByte).map fun present => if present then some value else none

/-- A character of a text (02, R26, R33: 20h to 7Eh). -/
def printable (b : Byte) : Bool := 0x20 ≤ b.toNat && b.toNat ≤ 0x7E

end Sys2Proof.Machine
end

