-- ==== Sys2Proof/Machine/Operands.lean ====
section
/-! DEFINITION. The request bodies: how the bytes of each kind are read into its fields (11, R190, R191; 02, R26). A reading
answers `none` exactly when the body length does not agree with the layout of the kind, which R182 answers with BAD_LENGTH.
Fields are left as heard: their ranges and codes are judged by the kind's own rule. -/

namespace Sys2Proof.Machine

/-- A body without fields. -/
def readEmpty : List Byte → Option Unit
  | [] => some ()
  | _ => none

/-- A body of one one-byte field. -/
def readU8 : List Byte → Option Nat
  | [a] => some a.toNat
  | _ => none

/-- A body of one two-byte field. -/
def readU16 : List Byte → Option Nat
  | [a, b] => some (n16 a b)
  | _ => none

/-- A body of two one-byte fields. -/
def readU8U8 : List Byte → Option (Nat × Nat)
  | [a, b] => some (a.toNat, b.toNat)
  | _ => none

/-- REDRY RANGE: first and last number (01, R16). -/
def readU16U16 : List Byte → Option (Nat × Nat)
  | [a, b, c, d] => some (n16 a b, n16 c d)
  | _ => none

/-- A body of a one-byte field and a flag, mark or direction byte (05, R84, R89). -/
def readU8Byte : List Byte → Option (Nat × Byte)
  | [a, b] => some (a.toNat, b)
  | _ => none

/-- ATTENTION MASK: a set of classes (11, R186). -/
def readClassSet : List Byte → Option ClassSet
  | [a, b] => some (BitVec.ofNat 16 (n16 a b))
  | _ => none

/-- LOT CREATE (01, R2). -/
structure LotCreateBody where
  number     : Nat
  species    : Nat
  thickness  : Nat
  targetMc   : Nat
  tolerance  : Nat
  redryLimit : Nat
  dryStock   : Option Bool
deriving DecidableEq, Repr

def readLotCreate : List Byte → Option LotCreateBody
  | [n1, n0, sp, th, t1, t0, tol, r1, r0, dry] =>
    some ⟨n16 n1 n0, sp.toNat, th.toNat, n16 t1 t0, tol.toNat, n16 r1 r0, flagOf dry⟩
  | _ => none

/-- LOT MODIFY (01, R3): each optional field is none when its mark is outside its codes. -/
structure LotModifyBody where
  number     : Nat
  species    : Option (Option Nat)
  thickness  : Option (Option Nat)
  targetMc   : Option (Option Nat)
  tolerance  : Option (Option Nat)
  redryLimit : Option (Option Nat)
deriving DecidableEq, Repr

def readLotModify : List Byte → Option LotModifyBody
  | [n1, n0, ms, sp, mth, th, mt, t1, t0, mtol, tol, mr, r1, r0] =>
    some ⟨n16 n1 n0, optHeard ms sp.toNat, optHeard mth th.toNat, optHeard mt (n16 t1 t0), optHeard mtol tol.toNat,
      optHeard mr (n16 r1 r0)⟩
  | _ => none

/-- LOT RELEASE (01, R5): the lot number and an optional return state, by its code. -/
structure LotReleaseBody where
  number : Nat
  ret    : Option (Option Nat)
deriving DecidableEq, Repr

def readLotRelease : List Byte → Option LotReleaseBody
  | [n1, n0, m, r] => some ⟨n16 n1 n0, optHeard m r.toNat⟩
  | _ => none

/-- One step of a SCHEDULE WRITE as heard (02, R26). -/
structure StepBody where
  kind       : Nat
  dryBulb    : Nat
  depression : Nat
  demand     : Nat
  exitKind   : Nat
  exitValue  : Option (Option Nat)
  minMinutes : Nat
  maxMinutes : Nat
deriving DecidableEq, Repr

/-- SCHEDULE WRITE (02, R26): the counts as heard, the characters and the steps. -/
structure ScheduleBody where
  id        : Nat
  textLen   : Nat
  text      : List Byte
  stepCount : Nat
  steps     : List StepBody
deriving DecidableEq, Repr

/-- Exactly so many steps of fourteen bytes each. -/
def readSteps : Nat → List Byte → Option (List StepBody)
  | 0, [] => some []
  | 0, _ :: _ => none
  | n + 1, k :: d1 :: d0 :: p1 :: p0 :: h :: e :: m :: v1 :: v0 :: a1 :: a0 :: b1 :: b0 :: rest =>
    (readSteps n rest).map fun l =>
      ⟨k.toNat, n16 d1 d0, n16 p1 p0, h.toNat, e.toNat, optHeard m (n16 v1 v0), n16 a1 a0, n16 b1 b0⟩ :: l
  | _ + 1, _ => none

def readScheduleWrite : List Byte → Option ScheduleBody
  | id :: len :: rest =>
    let chars := rest.take len.toNat
    match rest.drop len.toNat with
    | count :: steps =>
      if chars.length = len.toNat then
        (readSteps count.toNat steps).map fun l => ⟨id.toNat, len.toNat, chars, count.toNat, l⟩
      else none
    | [] => none
  | _ => none

/-- SPECIES WRITE (02, R33). -/
structure SpeciesBody where
  code    : Nat
  nameLen : Nat
  name    : List Byte
  fs      : Nat
  kt      : Nat
deriving DecidableEq, Repr

def readSpeciesWrite : List Byte → Option SpeciesBody
  | code :: len :: rest =>
    let chars := rest.take len.toNat
    match rest.drop len.toNat with
    | [f1, f0, kt] =>
      if chars.length = len.toNat then some ⟨code.toNat, len.toNat, chars, n16 f1 f0, kt.toNat⟩ else none
    | _ => none
  | _ => none

/-- SAMPLE ENTER (04, R55). -/
structure SampleEnterBody where
  kiln        : Nat
  id          : Nat
  greenWeight : Nat
  greenMc     : Nat
deriving DecidableEq, Repr

def readSampleEnter : List Byte → Option SampleEnterBody
  | [k, i, w1, w0, m1, m0] => some ⟨k.toNat, i.toNat, n16 w1 w0, n16 m1 m0⟩
  | _ => none

/-- One entry of a weighing batch: sample id and weight (04, R58). -/
structure WeighEntry where
  id     : Nat
  weight : Nat
deriving DecidableEq, Repr

/-- SAMPLE WEIGH (04, R58). -/
structure WeighBody where
  kiln    : Nat
  count   : Nat
  entries : List WeighEntry
deriving DecidableEq, Repr

/-- Exactly so many entries of three bytes each. -/
def readEntries : Nat → List Byte → Option (List WeighEntry)
  | 0, [] => some []
  | 0, _ :: _ => none
  | n + 1, i :: w1 :: w0 :: rest => (readEntries n rest).map fun l => ⟨i.toNat, n16 w1 w0⟩ :: l
  | _ + 1, _ => none

def readSampleWeigh : List Byte → Option WeighBody
  | k :: n :: rest => (readEntries n.toNat rest).map fun l => ⟨k.toNat, n.toNat, l⟩
  | _ => none

/-- KILN CHARGE (05, R70). -/
structure ChargeBody where
  kiln     : Nat
  schedule : Nat
  count    : Nat
  lots     : List Nat
deriving DecidableEq, Repr

/-- Exactly so many two-byte numbers. -/
def readNumbers : Nat → List Byte → Option (List Nat)
  | 0, [] => some []
  | 0, _ :: _ => none
  | n + 1, a :: b :: rest => (readNumbers n rest).map fun l => n16 a b :: l
  | _ + 1, _ => none

def readKilnCharge : List Byte → Option ChargeBody
  | k :: sc :: n :: rest => (readNumbers n.toNat rest).map fun l => ⟨k.toNat, sc.toNat, n.toNat, l⟩
  | _ => none

/-- HOLD POINT SET (07, R114). -/
structure HoldPointBody where
  number  : Nat
  enabled : Option Bool
  scope   : Nat
  kind    : Nat
  value   : Nat
  oneShot : Option Bool
deriving DecidableEq, Repr

def readHoldPointSet : List Byte → Option HoldPointBody
  | [n, e, sc, k, v1, v0, o] => some ⟨n.toNat, flagOf e, sc.toNat, k.toNat, n16 v1 v0, flagOf o⟩
  | _ => none

/-- BOILER CAPACITY: an optional capacity (06, R102). -/
def readCapacity : List Byte → Option (Option (Option Nat))
  | [m, c] => some (optHeard m c.toNat)
  | _ => none

/-- BIN MAP WRITE: fifteen destinations in bin order (08, R144). -/
def readBinMap (body : List Byte) : Option (List Nat) :=
  if body.length = 15 then some (body.map BitVec.toNat) else none

/-- STACKER SETUP (09, R150). -/
structure StackerSetupBody where
  stacker      : Nat
  countLimit   : Nat
  footageLimit : Nat
  idleParam    : Nat
deriving DecidableEq, Repr

def readStackerSetup : List Byte → Option StackerSetupBody
  | [st, c1, c0, f3, f2, f1, f0, p] => some ⟨st.toNat, n16 c1 c0, n32 f3 f2 f1 f0, p.toNat⟩
  | _ => none

/-- KILN REPORT, six bytes (05, R85; 11, R190). -/
structure ReportBody where
  kiln : Nat
  dry  : Int
  wet  : Int
  door : Option Bool
deriving DecidableEq, Repr

def readKilnReport : List Byte → Option ReportBody
  | [k, d1, d0, w1, w0, door] => some ⟨k.toNat, z16 d1 d0, z16 w1 w0, flagOf door⟩
  | _ => none

/-- MEASURE, ten bytes (08, R131; 11, R190). -/
structure MeasureBody where
  lot         : Nat
  thickness   : Nat
  width       : Nat
  length      : Nat
  bin         : Nat
  raw         : Nat
  overRange   : Option Bool
  temperature : Int
deriving DecidableEq, Repr

def readMeasure : List Byte → Option MeasureBody
  | [l1, l0, th, w, len, bin, r1, r0, ov, t] =>
    some ⟨n16 l1 l0, th.toNat, w.toNat, len.toNat, bin.toNat, n16 r1 r0, flagOf ov, z8 t⟩
  | _ => none

end Sys2Proof.Machine
end

