-- ==== Sys2Proof/Machine/Arith.lean ====
section
/-! DEFINITION. Moisture and tally arithmetic (chapter 3): every computation of the part, exact, with one division rounded
once (03, R37). -/

namespace Sys2Proof.Machine

/-- A division of whole numbers rounded half up (R37). -/
def divHalfUp (n d : Nat) : Nat := (n + d / 2) / d

/-- A division of a signed dividend rounded half away from zero (R37). -/
def divHalfAway (z : Int) (d : Nat) : Int :=
  if z < 0 then -(divHalfUp z.natAbs d : Int) else (divHalfUp z.natAbs d : Int)

/-- A value clamped to a range (00, section 5, Arithmetic). -/
def clampInt (lo hi z : Int) : Int := if z < lo then lo else if hi < z then hi else z

def clampNat (lo hi n : Nat) : Nat := if n < lo then lo else if hi < n then hi else n

/-! ### Samples (R38 to R42) -/

/-- The estimated oven-dry weight of a sample from its green weight and green MC (R38). -/
def odwOf (greenWeight greenMc : Nat) : Nat := divHalfUp (greenWeight * 1000) (1000 + greenMc)

/-- The MC of a weighing before the clamp (R39). -/
def weighedMc (weight odw : Nat) : Int := divHalfAway (((weight : Int) - odw) * 1000) odw

/-- The MC a weighing stores (R39). -/
def sampleMc (weight odw : Nat) : Nat := (clampInt 0 2000 (weighedMc weight odw)).toNat

/-- Whether the clamp changed the MC of a weighing (R39). -/
def sampleClamped (weight odw : Nat) : Bool := weighedMc weight odw < 0 || 2000 < weighedMc weight odw

/-- A value put into a list that stands from highest to lowest. -/
def insertWettest (m : Nat) : List Nat → List Nat
  | [] => [m]
  | x :: xs => if x ≤ m then m :: x :: xs else x :: insertWettest m xs

/-- MCs ranked from wettest to driest (R40). -/
def rankWettest : List Nat → List Nat
  | [] => []
  | m :: ms => insertWettest m (rankWettest ms)

/-- The kiln's moisture figures from the current MCs of its samples (R40). -/
def figuresOf (mcs : List Nat) : Figures :=
  if mcs.length < 2 then ⟨none, none, none⟩
  else
    let ranked := rankWettest mcs
    let k := (mcs.length + 1) / 2
    ⟨some (divHalfUp (ranked.take k).sum k), ranked.getLast?, ranked.head?⟩

/-- Whether moisture figures are fresh at a minute (R42). -/
def freshAt (minute : Nat) (figures : Figures) (samples : List Sample) : Bool :=
  figures.cmc.isSome && samples.all fun x => minute - x.weighMinute ≤ Config.freshMinutes

/-! ### Boards (R43 to R45) -/

/-- The board temperature used, clamped to -30 to +60 (R43). -/
def clampTemp (t : Int) : Int := clampInt (-30) 60 t

/-- A board is verified when its clamped temperature is 0 or above (R43). -/
def verifiedAt (t : Int) : Bool := 0 ≤ clampTemp t

/-- The corrected MC of a board (R44). -/
def correctedMc (raw : Nat) (overRange : Bool) (t : Int) (fs kt : Nat) : Nat :=
  if overRange || 999 < raw then 999
  else (clampInt 0 999 (divHalfAway ((raw : Int) * fs + (20 - clampTemp t) * kt * 100) 1000)).toNat

def clampThickness (n : Nat) : Nat := clampNat 4 16 n
def clampWidth (n : Nat) : Nat := clampNat 8 64 n
def clampLength (n : Nat) : Nat := clampNat 4 20 n

/-- Whether a reported dimension lay outside its range (R45). -/
def dimensionFault (thickness width length : Nat) : Bool :=
  clampThickness thickness != thickness || clampWidth width != width || clampLength length != length

/-- The footage of a board in bf100, on the clamped dimensions (R45). -/
def boardFootage (thickness width length : Nat) : Nat :=
  divHalfUp (clampThickness thickness * clampWidth width * clampLength length * 100) 192

/-! ### Tallies (R46 to R50) -/

def Tally.add (t : Tally) (footage : Nat) : Tally := ⟨t.boards + 1, t.footage + footage⟩
def Tally.sub (t : Tally) (footage : Nat) : Tally := ⟨t.boards - 1, t.footage - footage⟩

/-- A pack that takes a board (R46). -/
def Pack.addBoard (p : Pack) (footage mc : Nat) (verified : Bool) : Pack :=
  let p := { p with boards := p.boards + 1, footage := p.footage + footage }
  if verified then
    { p with
      verifiedBoards := p.verifiedBoards + 1
      verifiedFootage := p.verifiedFootage + footage
      mcSum := if p.saturated then p.mcSum
        else if Config.mcSumMax < p.mcSum + mc * footage then Config.mcSumMax else p.mcSum + mc * footage
      saturated := p.saturated || Config.mcSumMax < p.mcSum + mc * footage
      highest := match p.highest with
        | none => some mc
        | some h => some (if h < mc then mc else h) }
  else p

/-- A pack that loses a board (R47). -/
def Pack.removeBoard (p : Pack) (footage mc : Nat) (verified : Bool) : Pack :=
  let p := { p with boards := p.boards - 1, footage := p.footage - footage }
  if verified then
    { p with
      verifiedBoards := p.verifiedBoards - 1
      verifiedFootage := p.verifiedFootage - footage
      mcSum := if p.saturated then p.mcSum else p.mcSum - mc * footage
      highest := if p.verifiedBoards - 1 = 0 then none else p.highest }
  else p

/-- The weighted mean MC of a completing pack (R48). -/
def Pack.mean (p : Pack) : Option Nat :=
  if p.verifiedBoards = 0 || p.saturated then none else some (divHalfUp p.mcSum p.verifiedFootage)

/-- The lot planer mean MC (R49). -/
def LotRecord.planerMean (l : LotRecord) : Option Nat :=
  if l.verifiedBoards = 0 then none else some (divHalfUp l.verifiedMcSum l.verifiedBoards)

/-- Whether the redry check places a lot on hold: the base is large enough and the truncated fraction is above the limit
(R50). -/
def redryFractionAbove (passedFootage redryFootage limit : Nat) : Bool :=
  Config.redryBase ≤ passedFootage + redryFootage && limit < redryFootage * 1000 / (passedFootage + redryFootage)

end Sys2Proof.Machine
end

