-- ==== Sys2Proof/Machine/Codes.lean ====
section
/-! DEFINITION. The code tables: kinds and the links they are served on (11, R182), status codes (R182), attention classes
(11, section 11.3), and the codes of enumerated fields (11, R190). -/

namespace Sys2Proof.Machine

/-- On which links a kind is served (11, R182). -/
inductive ServedOn where
  | everyLink
  | only (l : Link)
deriving DecidableEq, Repr

/-- R182's table of kinds: the links that serve the kind of this code, none when no link does. -/
def kindTable (kind : Nat) : Option ServedOn :=
  if 0x01 ≤ kind ∧ kind ≤ 0x0A then some .everyLink
  else if 0x10 ≤ kind ∧ kind ≤ 0x16 then some (.only .office)
  else if 0x18 ≤ kind ∧ kind ≤ 0x1D then some (.only .office)
  else if 0x20 ≤ kind ∧ kind ≤ 0x22 then some (.only .office)
  else if 0x24 ≤ kind ∧ kind ≤ 0x2E then some (.only .office)
  else if 0x30 ≤ kind ∧ kind ≤ 0x32 then some (.only .office)
  else if 0x34 ≤ kind ∧ kind ≤ 0x35 then some (.only .office)
  else if kind = 0x3F then some (.only .office)
  else if kind = 0x40 then some (.only .kilnHouse)
  else if 0x50 ≤ kind ∧ kind ≤ 0x57 then some (.only .planer)
  else none

/-- Whether a kind is served on a link (R182, check 2). -/
def served (kind : Nat) (l : Link) : Bool :=
  match kindTable kind with
  | some .everyLink => true
  | some (.only owner) => owner == l
  | none => false

/-- The status byte (R182). -/
def Status.code : Status → Nat
  | .done => 0x00
  | .unknownKind => 0x01
  | .notPermitted => 0x02
  | .badLength => 0x03
  | .badField => 0x04
  | .noSuchLot => 0x05
  | .noSuchSchedule => 0x06
  | .noSuchSample => 0x07
  | .noBoard => 0x08
  | .wrongState => 0x09
  | .tableFull => 0x0A
  | .inUse => 0x0B
  | .duplicate => 0x0C
  | .queueFull => 0x0D
  | .lotFull => 0x0E
  | .notReservable => 0x0F
  | .millStopActive => 0x10
  | .partialBatch => 0x11

/-- The attention classes of the three links (11, section 11.3). -/
inductive AttnClass where
  | holdHit | kilnFinished | stepForced | heatWait | officeMillStop | officeMillResume | officeLotHeld
  | officeStackerBlocked | labelReady | restarted | retentionLost
  | setpointChanged | kilnMillStop | kilnMillResume
  | planerStackerBlocked | stackerFreed | planerLotHeld | packClosed
deriving DecidableEq, Repr

/-- The link of a class (11, section 11.3). -/
def AttnClass.link : AttnClass → Link
  | .holdHit | .kilnFinished | .stepForced | .heatWait | .officeMillStop | .officeMillResume | .officeLotHeld
  | .officeStackerBlocked | .labelReady | .restarted | .retentionLost => .office
  | .setpointChanged | .kilnMillStop | .kilnMillResume => .kilnHouse
  | .planerStackerBlocked | .stackerFreed | .planerLotHeld | .packClosed => .planer

/-- The bit of a class in its link's sets (11, section 11.3). -/
def AttnClass.bit : AttnClass → Nat
  | .holdHit => 0 | .kilnFinished => 1 | .stepForced => 2 | .heatWait => 3 | .officeMillStop => 4
  | .officeMillResume => 5 | .officeLotHeld => 6 | .officeStackerBlocked => 7 | .labelReady => 8 | .restarted => 9
  | .retentionLost => 10
  | .setpointChanged => 0 | .kilnMillStop => 1 | .kilnMillResume => 2
  | .planerStackerBlocked => 0 | .stackerFreed => 1 | .planerLotHeld => 2 | .packClosed => 3

/-- The set of one class. -/
def AttnClass.set (c : AttnClass) : ClassSet := 1#16 <<< c.bit

/-- How many classes a link has: bits at or above it name no class (11, R186). -/
def classCount : Link → Nat
  | .office => 11
  | .kilnHouse => 3
  | .planer => 4

/-! ### Enumerated fields (R190) -/

/-- The modes of a kiln (05, R86). -/
inductive Mode where
  | idle | run | wait | hold | coast
deriving DecidableEq, Repr

/-- Why a board is held back (08, R139). -/
inductive HoldCause where
  | lotHeld | unverified | unmapped | notGradeBin | stackerBlocked
deriving DecidableEq, Repr

/-- What a loss did to its pack (08, R142). -/
inductive PackOutcome where
  | none | completed | discarded
deriving DecidableEq, Repr

def Mode.code : Mode → Nat
  | .idle => 0 | .run => 1 | .wait => 2 | .hold => 3 | .coast => 4

def StepKind.code : StepKind → Nat
  | .heatup => 0 | .drying => 1 | .equalize => 2 | .condition => 3 | .cool => 4

def StepKind.ofCode : Nat → Option StepKind
  | 0 => some .heatup | 1 => some .drying | 2 => some .equalize | 3 => some .condition | 4 => some .cool
  | _ => none

def Disposition.code : Disposition → Nat
  | .pass => 0 | .redry => 1 | .reject => 2 | .holdback => 3

def Destination.code : Destination → Nat
  | .stacker st => st.val
  | .reject => 6
  | .holdback => 7

def Destination.ofCode (n : Nat) : Option Destination :=
  if h : n < 6 then some (.stacker ⟨n, h⟩)
  else if n = 6 then some .reject
  else if n = 7 then some .holdback
  else none

def HoldCause.code : Option HoldCause → Nat
  | none => 0
  | some .lotHeld => 1 | some .unverified => 2 | some .unmapped => 3 | some .notGradeBin => 4 | some .stackerBlocked => 5

def CloseReason.code : CloseReason → Nat
  | .count => 0 | .footage => 1 | .lotChange => 2 | .binChange => 3 | .idle => 4 | .operator => 5

def LotState.code : LotState → Nat
  | .waiting => 0 | .inKiln => 1 | .dried => 2 | .planing => 3 | .held _ => 4 | .closed => 5

/-- A return state, coded as the lot state of the same name. -/
def ReturnState.code : ReturnState → Nat
  | .waiting => 0 | .dried => 2 | .planing => 3

def ReturnState.lotState : ReturnState → LotState
  | .waiting => .waiting | .dried => .dried | .planing => .planing

def Hold.code : Hold → Nat
  | .office _ => 0 | .redry _ => 1 | .aborted => 2

/-- The return state of a hold, absent for ABORTED (01, section 1.1). -/
def Hold.ret : Hold → Option ReturnState
  | .office r => some r
  | .redry r => some r
  | .aborted => none

/-- The hold of a HELD lot. -/
def LotState.hold? : LotState → Option Hold
  | .held h => some h
  | _ => none

def KilnState.code : KilnState → Nat
  | .empty => 0 | .loaded => 1 | .running _ => 2 | .held => 3 | .finished => 4

def Phase.code : Phase → Nat
  | .active => 0 | .waitHeat => 1

/-- The phase, which only a RUNNING kiln has (05, section 5.1). -/
def KilnState.phase? : KilnState → Option Phase
  | .running p => some p
  | _ => none

def StepExit.code : StepExit → Nat
  | .time => 0 | .cmcAtOrBelow _ => 1 | .driestAtOrAbove _ => 2 | .drybulbReached => 3 | .drybulbAtOrBelow _ => 4

def StepExit.value? : StepExit → Option Nat
  | .cmcAtOrBelow v => some v
  | .driestAtOrAbove v => some v
  | .drybulbAtOrBelow v => some v
  | .time => none
  | .drybulbReached => none

def EndCause.code : EndCause → Nat
  | .exit => 0 | .forced => 1 | .advanced => 2 | .aborted => 3

def HoldKind.code : HoldKind → Nat
  | .stepEnter _ => 0 | .cmcAtOrBelow _ => 1

def HoldScope.code : HoldScope → Nat
  | .kiln k => k.val
  | .any => 8

def HoldScope.ofCode (n : Nat) : Option HoldScope :=
  if h : n < 8 then some (.kiln ⟨n, h⟩) else if n = 8 then some .any else none

def BinEntry.code : BinEntry → Nat
  | .stacker st => st.val
  | .reject => 6
  | .unmapped => 8

/-- The entry a code names for a bin: REJECT only in the grade bins 0 to 13, and bin 15 takes none (08, section 8.6). -/
def BinEntry.ofCode (bin n : Nat) : Option BinEntry :=
  if bin = 15 then none
  else if h : n < 6 then some (.stacker ⟨n, h⟩)
  else if n = 6 ∧ bin ≤ 13 then some .reject
  else if n = 8 then some .unmapped
  else none

def BlockReason.code : BlockReason → Nat
  | .labels => 0 | .lots => 1 | .numbers => 2 | .prior => 3

def PackOutcome.code : PackOutcome → Nat
  | .none => 0 | .completed => 1 | .discarded => 2

def StartUpKind.code : StartUpKind → Nat
  | .powerIntact => 0 | .reset => 1 | .powerLost => 2 | .clearAll => 3

/-- The line rate that the straps select (11, R178). -/
def lineRateOf (p : Straps) : LineRate :=
  match p.rate1, p.rate0 with
  | false, false => .r19200
  | false, true => .r38400
  | true, false => .r57600
  | true, true => .r115200

/-- A line rate in bits a second (11, R178). -/
def LineRate.bitsPerSecond : LineRate → Nat
  | .r19200 => 19200
  | .r38400 => 38400
  | .r57600 => 57600
  | .r115200 => 115200

end Sys2Proof.Machine
end

