-- ==== Sys2Proof/Machine/Framing.lean ====
section
/-! DEFINITION. Characters and frames: the character format, the check, the response frame on the line, and what makes a
receiver abandon a frame (11, R178 to R181, and section 11.5, Frame). -/

namespace Sys2Proof.Machine

/-! ### Characters (R178) -/

/-- One byte as the levels of the line, true for mark: a start bit (log 27), eight data bits from the least significant, no
parity bit, and one stop bit (R178). -/
def charLevels (b : Byte) : List Bool :=
  [false, b.getLsbD 0, b.getLsbD 1, b.getLsbD 2, b.getLsbD 3, b.getLsbD 4, b.getLsbD 5, b.getLsbD 6, b.getLsbD 7, true]

/-- The bytes that a run of whole characters carries; none when a start or stop bit stands at the wrong level (R178). -/
def bytesHeard : List Bool → Option (List Byte)
  | [] => some []
  | false :: d0 :: d1 :: d2 :: d3 :: d4 :: d5 :: d6 :: d7 :: true :: rest =>
    (bytesHeard rest).map fun bytes => BitVec.ofBoolListLE [d0, d1, d2, d3, d4, d5, d6, d7] :: bytes
  | _ => none

/-! ### The check and the frame -/

/-- The generator x^16 + x^12 + x^5 + 1 without its leading term (R180). -/
def checkGenerator : BitVec 16 := 0x1021

/-- One bit of the check: shift left, and take in the generator when the bit shifted out was set (R180). -/
def checkBit (r : BitVec 16) : BitVec 16 :=
  if r.msb then (r <<< 1) ^^^ checkGenerator else r <<< 1

/-- The check register after one more byte, most significant bit first (R180). -/
def checkByte (r : BitVec 16) (b : Byte) : BitVec 16 :=
  let r := r ^^^ (b.zeroExtend 16 <<< 8)
  checkBit (checkBit (checkBit (checkBit (checkBit (checkBit (checkBit (checkBit r)))))))

/-- The check over a run of bytes, from the initial register FFFFh; it is neither reflected nor inverted (R180). -/
def frameCheck (bytes : List Byte) : BitVec 16 := bytes.foldl checkByte 0xFFFF

/-- A frame's bytes: sync, length, kind, tag, body and check (11, section 11.5, Frame). -/
def frameBytes (kind tag : Byte) (body : List Byte) : List Byte :=
  let checked := byteOf body.length :: kind :: tag :: body
  0xA5 :: checked ++ u16 (frameCheck checked).toNat

/-- The body of a response: its status byte, then the fields its rule gives (R181). -/
def Response.body (r : Response) : List Byte := byteOf r.status.code :: r.content

/-- A response as it goes out on the line (R180, R181). -/
def Response.wire (r : Response) : List Byte := frameBytes r.kind r.tag r.body

/-- The levels of a whole response, character after character (R178). -/
def Response.levels (r : Response) : List Bool := r.wire.flatMap charLevels

/-- Whether a receiver in RECEIVING abandons its frame on the bytes heard after the sync byte (R179): a length byte above
248, a kind byte of 80h or above, or a whole frame whose check does not agree. -/
def abandons (heard : List Byte) : Bool :=
  match heard with
  | len :: rest =>
    if Config.bodyMax < len.toNat then true
    else match rest with
      | [] => false
      | kind :: rest =>
        if 0x80 ≤ kind.toNat then true
        else match rest with
          | [] => false
          | tag :: rest =>
            let body := rest.take len.toNat
            match rest.drop len.toNat with
            | hi :: lo :: _ =>
              frameCheck (len :: kind :: tag :: body) != BitVec.ofNat 16 (n16 hi lo)
            | _ => false
  | [] => false

end Sys2Proof.Machine
end

