-- ==== Sys2Proof/Machine/Ops.lean ====
section
/-! DEFINITION. The named operations over the records: link ports and attention (11), lots and the redry numbers (01), kilns
and heat records, stackers and label places, and `serve`, the routing of a good frame (11, R182) that every request shares. -/

namespace Sys2Proof.Machine

/-! ### Link ports and attention (R184) -/

def State.port (s : State) : Link → LinkPort
  | .office => s.officePort
  | .kilnHouse => s.kilnHousePort
  | .planer => s.planerPort

def State.setPort (s : State) (l : Link) (p : LinkPort) : State :=
  match l with
  | .office => { s with officePort := p }
  | .kilnHouse => { s with kilnHousePort := p }
  | .planer => { s with planerPort := p }

def State.setReceiver (s : State) (l : Link) (r : Receiver) : State :=
  s.setPort l { s.port l with receiver := r }

/-- A class joins its link's pending set unless it is masked (R184). -/
def State.raise (s : State) (c : AttnClass) : State :=
  let p := s.port c.link
  s.setPort c.link { p with pending := p.pending ||| (c.set &&& ~~~p.mask) }

/-- The attention line of a link: asserted while its pending set holds any class, and released while the part is held or
without supply (R184, R188). -/
def State.attentionLine (s : State) (l : Link) : Bool :=
  decide (s.condition = .running) && (s.port l).pending != 0

/-- What the part sends on a link: the levels of the response being sent in ANSWERING, and nothing in any other state, or while the
part is held or without supply (R178, R181, R187, R188). -/
def State.levelsSent (s : State) (l : Link) : List Bool :=
  match s.condition, (s.port l).receiver with
  | .running, .answering r => r.levels
  | _, _ => []

/-- LOT_HELD goes to the office and to the planer (01, R12). -/
def State.raiseLotHeld (s : State) : State := (s.raise .officeLotHeld).raise .planerLotHeld

/-! ### Serving a request (R181, R182) -/

/-- The status and the further content of a response. -/
structure Reply where
  status  : Status
  content : List Byte := []
deriving DecidableEq, Repr

/-- A refusal that carries the status alone (R181). -/
def Reply.refuse (st : Status) : Reply := ⟨st, []⟩

/-- An acceptance with its further content. -/
def Reply.done (content : List Byte := []) : Reply := ⟨.done, content⟩

/-- The receiver enters TAKING with the response it will begin: kind plus 80h, the request's tag, status and content (R179,
R181). -/
def State.answer (s : State) (kind : Nat) (f : Request) (r : Reply) : State :=
  s.setReceiver f.link (.taking ⟨byteOf (kind + 0x80), f.tag, r.status, r.content⟩)

/-- Whether a link's receiver takes a frame now: the part runs, and the receiver is HUNTING (the frame's own sync byte begins
it) or RECEIVING; in TAKING and ANSWERING every byte heard is discarded (R179; log 1). -/
def State.listens (s : State) (l : Link) : Bool :=
  decide (s.condition = .running) &&
    match (s.port l).receiver with
    | .hunting => true
    | .receiving => true
    | .taking _ => false
    | .answering _ => false

/-- R182 for a good frame of a kind in the table: NOT_PERMITTED, then BAD_LENGTH (no reading of the body), then the kind's
own rule. A body of more than 248 bytes has no good frame: the receiver abandons it (R179). -/
def serve {α : Type} (kind : Nat) (f : Request) (read : List Byte → Option α) (rule : α → State → State × Reply)
    (s : State) : Host.Outcome State Fault Refusal :=
  .next <|
    if s.listens f.link then
      if Config.bodyMax < f.body.length then s.setReceiver f.link .hunting
      else if served kind f.link then
        match read f.body with
        | none => s.answer kind f (.refuse .badLength)
        | some q => (rule q s).1.answer kind f (rule q s).2
      else s.answer kind f (.refuse .notPermitted)
    else s

/-- An event that acts only while the part runs (log 15). -/
def whileRunning (s : State) (event : State → State) : Host.Outcome State Fault Refusal :=
  .next (if s.condition = .running then event s else s)

/-! ### Lots (01) -/

def State.findLot (s : State) (n : Nat) : Option LotRecord := s.lots.find? fun l => l.number == n

def State.modifyLot (s : State) (n : Nat) (f : LotRecord → LotRecord) : State :=
  { s with lots := s.lots.map fun l => if l.number = n then f l else l }

/-- A record put into the ascending list (R1: lots have no order among themselves; R21 lists them ascending). -/
def insertByNumber (r : LotRecord) : List LotRecord → List LotRecord
  | [] => [r]
  | l :: ls => if r.number < l.number then r :: l :: ls else l :: insertByNumber r ls

def State.insertLot (s : State) (r : LotRecord) : State := { s with lots := insertByNumber r s.lots }

def State.removeLot (s : State) (n : Nat) : State := { s with lots := s.lots.filter fun l => l.number != n }

/-- How many boards of a lot are in the tracking queue (R20). -/
def State.boardsOf (s : State) (n : Nat) : Nat := s.queue.countP fun b => b.lot == n

/-- How many OPEN or CLOSING packs are keyed to a lot (R20). -/
def State.packsOf (s : State) (n : Nat) : Nat :=
  s.stackers.toList.countP (fun st => match st.openPack with | some p => p.lot == n | none => false) +
  s.stackers.toList.countP (fun st => match st.closing with | some c => c.pack.lot == n | none => false)

/-- Whether a lot still has boards in the queue or packs on a stacker (R5, R6). -/
def State.lotOnLine (s : State) (n : Nat) : Bool := 0 < s.boardsOf n || 0 < s.packsOf n

/-- How many lots name a species code (02, R32). -/
def State.lotsOfSpecies (s : State) (code : Nat) : Nat := s.lots.countP fun l => l.species == code

/-! ### Redry numbers (01, section 1.6) -/

/-- The reservation list: the numbers held by the CLOSING redry packs (R17; log 8). -/
def State.reservations (s : State) : List Nat :=
  s.stackers.toList.filterMap fun st => st.closing.bind fun c => c.redryLot

/-- A lot number is in use when a record carries it or a reservation holds it (R1). -/
def State.numberInUse (s : State) (n : Nat) : Bool :=
  (s.findLot n).isSome || s.reservations.contains n

/-- Records plus reserved slots (R1). -/
def State.slotsTaken (s : State) : Nat := s.lots.length + s.reservations.length

/-- The first number not taken, from `at` upward, wrapping from `last` to `first`, looking at `looks` numbers (R17, 08 R127,
09 R152). -/
def searchFree (taken : Nat → Bool) (first last : Nat) : (looks : Nat) → (cur : Nat) → Option Nat
  | 0, _ => none
  | looks + 1, cur =>
    if taken cur then searchFree taken first last looks (if cur = last then first else cur + 1) else some cur

/-- The number after the one taken (R17, 08 R127, 09 R152). -/
def following (first last n : Nat) : Nat := if n = last then first else n + 1

/-- The search of R17 over the redry range. -/
def State.redrySearch (s : State) : Option Nat :=
  searchFree s.numberInUse s.redryFirst s.redryLast (s.redryLast + 1 - s.redryFirst) s.redryNext

/-! ### Schedules and species (02) -/

def State.findSchedule (s : State) (id : Nat) : Option Schedule := s.schedules.find? fun c => c.id == id

def State.speciesAt (s : State) (code : Nat) : Option Species := (s.species[code]?).join

/-! ### Kilns and heat (05, 06) -/

/-- K0 to K7 in ascending number. -/
def allKilns : List KilnNo := [0, 1, 2, 3, 4, 5, 6, 7]

/-- S0 to S5 in ascending number. -/
def allStackers : List StackerNo := [0, 1, 2, 3, 4, 5]

/-- HP0 to HP3 in ascending number. -/
def allHoldPoints : List HoldPointNo := [0, 1, 2, 3]

/-- A kiln, stacker, hold point or bin number carried by a request; none when it is out of range. -/
def placeOf (size n : Nat) : Option (Fin size) := if h : n < size then some ⟨n, h⟩ else none

def State.kiln (s : State) (k : KilnNo) : KilnContext := s.kilns[k]

def State.setKiln (s : State) (k : KilnNo) (c : KilnContext) : State := { s with kilns := s.kilns.set k c }

def State.heatOf (s : State) (k : KilnNo) : HeatRecord := s.heat[k]

def State.setHeat (s : State) (k : KilnNo) (h : HeatRecord) : State := { s with heat := s.heat.set k h }

/-- The step a kiln works through, read from the store by the schedule id and step index it holds (02, R29). -/
def State.stepAt (s : State) (k : KilnNo) (index : Nat) : Option ScheduleStep :=
  ((s.kiln k).scheduleId.bind s.findSchedule).bind fun c => c.steps[index]?

def State.currentStep (s : State) (k : KilnNo) : Option ScheduleStep := s.stepAt k (s.kiln k).stepIndex

/-- The demand of the current step (02, R24). -/
def State.currentDemand (s : State) (k : KilnNo) : Nat :=
  match s.currentStep k with
  | some t => t.demand
  | none => 0

/-- How many steps the kiln's schedule has. -/
def State.stepCount (s : State) (k : KilnNo) : Nat :=
  match (s.kiln k).scheduleId.bind s.findSchedule with
  | some c => c.steps.length
  | none => 0

/-- The kilns whose contexts name a schedule (02, R28). -/
def State.kilnsNaming (s : State) (id : Nat) : List KilnNo :=
  allKilns.filter fun k => (s.kiln k).scheduleId == some id

/-- The sum of the eight grants (06, R94). -/
def State.grantSum (s : State) : Nat := (s.heat.toList.map HeatRecord.grant).sum

/-- The free units (06, R94). -/
def State.freeUnits (s : State) : Nat := s.capacity - s.grantSum

/-! ### Hold points (07) -/

def State.holdPoint (s : State) (h : HoldPointNo) : HoldPoint := s.holdPoints[h]

def State.setHoldPoint (s : State) (h : HoldPointNo) (p : HoldPoint) : State :=
  { s with holdPoints := s.holdPoints.set h p }

/-! ### Stackers and label places (09, 10) -/

def State.stacker (s : State) (st : StackerNo) : Stacker := s.stackers[st]

def State.setStacker (s : State) (st : StackerNo) (r : Stacker) : State := { s with stackers := s.stackers.set st r }

/-- How many stackers hold a CLOSING pack. -/
def State.closingCount (s : State) : Nat := s.stackers.toList.countP fun st => st.closing.isSome

/-- The serials left (10, R171). -/
def State.serialsLeft (s : State) : Nat :=
  match s.serial with
  | some n => Config.serialMax + 1 - n
  | none => 0

/-- The count of reserved label slots: one for each CLOSING pack, and in the last serials the places to which no serial could
be given (10, R172; log 8, log 9). A discard lowers it by one (09, R165), so a place comes free in the last serials too: the
model's choice, R172 saying that none does (log 9). -/
def State.labelsReserved (s : State) : Nat :=
  s.closingCount + ((Config.labelSlots - s.labels.length) - s.serialsLeft)

/-- Whether the Label Queue has a free slot (09, R155). -/
def State.labelSlotFree (s : State) : Bool := s.labels.length + s.labelsReserved < Config.labelSlots

end Sys2Proof.Machine
end

