-- ==== Sys2Proof/Machine/Flags.lean ====
section
/-! DEFINITION. The marks and figures the part derives from its records each time it uses them: suspension (05, R68), mode
(R86), freshness (03, R42), aging (06, R95), the derived wet-bulb (02, R24), the exit condition of a step (05, R78), and the
changes that raise SETPOINT_CHANGED (R88). -/

namespace Sys2Proof.Machine

def KilnState.isRunning : KilnState → Bool
  | .running _ => true
  | _ => false

/-- RUNNING or HELD: the states in which a kiln has a step under way. -/
def KilnState.isOn : KilnState → Bool
  | .running _ => true
  | .held => true
  | _ => false

/-- A RUNNING or HELD kiln is suspended while the master enable is clear (05, R68). -/
def State.suspended (s : State) (k : KilnNo) : Bool := (s.kiln k).state.isOn && !s.masterEnable

/-- The mode a kiln reports, by the first line that applies (05, R86). -/
def State.mode (s : State) (k : KilnNo) : Mode :=
  match (s.kiln k).state with
  | .empty => .idle
  | .loaded => .idle
  | .finished => .idle
  | .held => if s.masterEnable then .hold else .coast
  | .running p =>
    if !s.masterEnable then .coast
    else if (s.kiln k).doorOpen then .coast
    else match p with
      | .waitHeat => .wait
      | .active => .run

/-- The wet-bulb setpoint of a step: dry-bulb minus depression, 0 when that would be below 0 (02, R24). -/
def ScheduleStep.wetBulb (t : ScheduleStep) : Nat := t.dryBulb - t.depression

/-- The kiln's moisture figures are fresh now (03, R42). -/
def State.fresh (s : State) (k : KilnNo) : Bool := freshAt s.minute (s.kiln k).figures (s.kiln k).samples

/-- A request that has waited 240 minutes is aged (06, R95). -/
def State.aged (s : State) (k : KilnNo) : Bool :=
  match (s.heatOf k).request with
  | .waiting _ since => Config.agingMinutes ≤ s.minute - since
  | .dormant _ => false
  | .absent => false

/-- The requested demand, present while a request stands (06, section 6.1). -/
def HeatRequest.demand? : HeatRequest → Option Nat
  | .absent => none
  | .waiting d _ => some d
  | .dormant d => some d

/-- The wait-since minute, present while a request is waiting (06, section 6.1). -/
def HeatRequest.since? : HeatRequest → Option Nat
  | .waiting _ m => some m
  | .absent => none
  | .dormant _ => none

/-- The exit condition of a step (05, R78; 02, R25). -/
def State.exitHolds (s : State) (k : KilnNo) (t : ScheduleStep) : Bool :=
  let c := s.kiln k
  match t.exit with
  | .time => true
  | .cmcAtOrBelow v =>
    match c.figures.cmc with
    | some m => s.fresh k && m ≤ v
    | none => false
  | .driestAtOrAbove v =>
    match c.figures.driest with
    | some m => s.fresh k && v ≤ m
    | none => false
  | .drybulbReached =>
    match c.lastDry with
    | some z => !c.suspect && (t.dryBulb : Int) - 10 ≤ z
    | none => false
  | .drybulbAtOrBelow v =>
    match c.lastDry with
    | some z => !c.suspect && z ≤ (v : Int)
    | none => false

/-- Whether some kiln's mode or granted units differ between two states (05, R88). -/
def setpointsDiffer (before after : State) : Bool :=
  allKilns.any fun k => after.mode k != before.mode k || (after.heatOf k).grant != (before.heatOf k).grant

/-- SETPOINT_CHANGED is raised when a change altered a kiln's mode or granted units (05, R88; log 11). -/
def State.noteSetpoints (after before : State) : State :=
  if setpointsDiffer before after then after.raise .setpointChanged else after

end Sys2Proof.Machine
end

