-- ==== Sys2Proof/Machine/LotRecords.lean ====
section
/-! DEFINITION. What the kiln and planer sides do to one lot record: creation values, counting, loss, the state changes of a
counted board, the redry check and the unload (chapter 1, R2, R9 to R14, R19). -/

namespace Sys2Proof.Machine

/-- A lot right after its creation: counters zero, no kiln result, not waived (R2, R19). -/
def newLot (number species thickness targetMc tolerance redryLimit : Nat) (state : LotState) (minute : Nat)
    (origin : Option RedryOrigin) : LotRecord where
  number := number
  species := species
  thickness := thickness
  targetMc := targetMc
  tolerance := tolerance
  redryLimit := redryLimit
  state := state
  createdMinute := minute
  kilnResult := none
  origin := origin
  measured := ⟨0, 0⟩
  passed := ⟨0, 0⟩
  redry := ⟨0, 0⟩
  rejected := ⟨0, 0⟩
  heldBack := ⟨0, 0⟩
  lost := ⟨0, 0⟩
  verifiedBoards := 0
  verifiedMcSum := 0
  waived := false

/-- A lot in another state, all else kept. -/
def LotRecord.withState (l : LotRecord) (st : LotState) : LotRecord := { l with state := st }

/-- The redry lot that a completing redry pack makes of its parent (R19). -/
def redryLotOf (parent : LotRecord) (number boards footage minute : Nat) : LotRecord :=
  newLot number parent.species parent.thickness parent.targetMc parent.tolerance parent.redryLimit .waiting minute
    (some ⟨parent.number, boards, footage⟩)

/-- A change to the pair of a disposition (R13, R14). -/
def LotRecord.onPair (l : LotRecord) (d : Disposition) (f : Tally → Tally) : LotRecord :=
  match d with
  | .pass => { l with passed := f l.passed }
  | .redry => { l with redry := f l.redry }
  | .reject => { l with rejected := f l.rejected }
  | .holdback => { l with heldBack := f l.heldBack }

/-- Whether a board enters the verified figures of its lot: PASS or REDRY, and verified (R13). -/
def entersVerified (d : Disposition) (verified : Bool) : Bool := (d == .pass || d == .redry) && verified

/-- A counted board (R13). -/
def LotRecord.count (l : LotRecord) (d : Disposition) (footage mc : Nat) (verified : Bool) : LotRecord :=
  let l := { l with measured := l.measured.add footage }.onPair d fun t => t.add footage
  if entersVerified d verified then
    { l with verifiedBoards := l.verifiedBoards + 1, verifiedMcSum := l.verifiedMcSum + mc }
  else l

/-- A board reported lost moves from its disposition's pair to the lost pair (R14). -/
def LotRecord.loseBoard (l : LotRecord) (d : Disposition) (footage mc : Nat) (verified : Bool) : LotRecord :=
  let l := { l with lost := l.lost.add footage }.onPair d fun t => t.sub footage
  if entersVerified d verified then
    { l with verifiedBoards := l.verifiedBoards - 1, verifiedMcSum := l.verifiedMcSum - mc }
  else l

/-- The state change of a counted board (R10). -/
def planingBegun : LotState → LotState
  | .dried => .planing
  | .held (.office .dried) => .held (.office .planing)
  | .held (.redry .dried) => .held (.redry .planing)
  | st => st

/-- Whether the redry check of R11 places the lot on hold. -/
def LotRecord.redryFails (l : LotRecord) : Bool :=
  l.state == .planing && 0 < l.redryLimit && !l.waived &&
    redryFractionAbove l.passed.footage l.redry.footage l.redryLimit

/-- The kiln result an unload writes (R9). -/
def kilnResultOf (k : KilnNo) (c : KilnContext) (minute : Nat) : KilnResult :=
  ⟨k, c.figures.cmc, c.figures.driest, c.figures.wettest, minute, c.aborted⟩

/-- What an unload makes of a lot, by the kiln's state (R9). -/
def LotRecord.unload (l : LotRecord) (k : KilnNo) (c : KilnContext) (minute : Nat) : LotRecord :=
  match c.state with
  | .finished =>
    { l with
      state := if c.aborted then .held .aborted else .dried
      kilnResult := some (kilnResultOf k c minute) }
  | _ => { l with state := .waiting }

end Sys2Proof.Machine
end

