-- ==== Sys2Proof/Machine/Packs.lean ====
section
/-! DEFINITION. The Pack Builder and the entry of labels (chapters 9 and 10): the requirements of a close (09, R155), the close
itself, completion (R164), discard (R165), re-examination (R159), idle close (R160), and the placement of a board (R153, R154,
R156, R157). -/

namespace Sys2Proof.Machine

/-- The redry bin (01, section 1.6). -/
def redryBin : BinNo := 14

/-- A redry pack is one whose key bin is 14 (R152). -/
def Pack.isRedry (p : Pack) : Bool := p.bin == redryBin

/-! ### Labels (10, R170, R171) -/

/-- The kiln whose figures a label carries: present when the lot has a kiln result that is not aborted (R170). -/
def labelResult (lot : Option LotRecord) : Option KilnResult :=
  (lot.bind fun l => l.kilnResult).filter fun r => !r.aborted

/-- The label record of a completing pack (R170). The lot is in the table while a pack is keyed to it (09, R152). -/
def labelOf (serial : Nat) (st : StackerNo) (c : ClosingPack) (lot : Option LotRecord) : Label where
  serial := serial
  pack := c.pack.number
  stacker := st
  lot := c.pack.lot
  species := (lot.map fun l => l.species).getD 0
  thickness := (lot.map fun l => l.thickness).getD 0
  bin := c.pack.bin
  boards := c.pack.boards
  footage := c.pack.footage
  verifiedBoards := c.pack.verifiedBoards
  mean := c.pack.mean
  highest := c.pack.highest
  kiln := (labelResult lot).map fun r => r.kiln
  kilnCmc := (labelResult lot).bind fun r => r.finalCmc
  reason := c.reason
  closeMinute := c.closeMinute
  redryLot := c.redryLot

/-- The serial counter after a serial is given: one more, or spent after the last (R171). -/
def serialAfter (n : Nat) : Option Nat := if n = Config.serialMax then none else some (n + 1)

/-- A label joins the tail of the queue with the next serial (R164, R171). A spent counter gives none (log 17). -/
def State.pushLabel (s : State) (st : StackerNo) (c : ClosingPack) (lot : Option LotRecord) : State :=
  match s.serial with
  | some n => { s with labels := s.labels ++ [labelOf n st c lot], serial := serialAfter n }
  | none => s

/-! ### Completion and discard -/

/-- Items 1 to 5 of a completion: redry lot, label, the CLOSING place emptied, LABEL_READY and PACK_CLOSED (R164). -/
def State.completePack (s : State) (st : StackerNo) (c : ClosingPack) : State :=
  let lot := s.findLot c.pack.lot
  let s1 := match c.redryLot, lot with
    | some n, some l => s.insertLot (redryLotOf l n c.pack.boards c.pack.footage s.minute)
    | _, _ => s
  let s2 := s1.pushLabel st c lot
  let s3 := s2.setStacker st { s2.stacker st with closing := none }
  (s3.raise .labelReady).raise .packClosed

/-- Whether a reason still holds a stacker blocked (R159). -/
def State.stillBlocked (s : State) (st : StackerNo) : BlockReason → Bool
  | .prior => (s.stacker st).closing.isSome
  | .labels => !s.labelSlotFree
  | .lots => Config.lotSlots ≤ s.slotsTaken
  | .numbers => s.redrySearch.isNone

/-- Whether a re-examination frees a stacker whose reason is among those the event concerns (R159). -/
def State.freedBy (s : State) (concerns : BlockReason → Bool) (st : StackerNo) : Bool :=
  match (s.stacker st).blocked with
  | some r => concerns r && !s.stillBlocked st r
  | none => false

/-- The blocked flag and reason are cleared (R159). -/
def State.unblock (s : State) (st : StackerNo) : State :=
  s.setStacker st { s.stacker st with blocked := none }

/-- The stacker is judged, and cleared when freed; answers whether it was (R159). -/
def State.judgeBlock (s : State) (concerns : BlockReason → Bool) (st : StackerNo) : State × Bool :=
  if s.freedBy concerns st then (s.unblock st, true) else (s, false)

/-- STACKER_FREED, once for the event (R159). -/
def State.raiseFreed (s : State) (freed : Bool) : State := if freed then s.raise .stackerFreed else s

/-- A completion whose stacker then has no idle close to retry: R164 with the PRIOR judgement of its item 6. -/
def State.completeAndJudge (s : State) (st : StackerNo) (c : ClosingPack) : State :=
  let r := (s.completePack st c).judgeBlock (fun reason => reason == .prior) st
  r.1.raiseFreed r.2

/-! ### Closing -/

/-- The judgement of a close: the reason it fails, or the redry number it reserves where the pack is a redry pack (R155). -/
inductive CloseJudgement where
  | fails (r : BlockReason)
  | granted (redryLot : Option Nat)
deriving DecidableEq, Repr

/-- The reservation of a lot slot and a number, judged without moving the next pointer (01, R17). -/
def State.judgeReservation (s : State) : CloseJudgement :=
  if Config.lotSlots ≤ s.slotsTaken then .fails .lots
  else match s.redrySearch with
    | some n => .granted (some n)
    | none => .fails .numbers

/-- The requirements of a close, in order: PRIOR, LABELS, then LOTS or NUMBERS for a redry pack (R155). -/
def State.judgeClose (s : State) (st : StackerNo) (redry : Bool) : CloseJudgement :=
  if (s.stacker st).closing.isSome then .fails .prior
  else if !s.labelSlotFree then .fails .labels
  else if redry then s.judgeReservation
  else .granted none

/-- The pack becomes CLOSING with its reservations: the idle figures are cleared, and the next pointer passes the number
taken (R155; 01, R17). -/
def State.makeClose (s : State) (st : StackerNo) (p : Pack) (reason : CloseReason) (redryLot : Option Nat) : State :=
  let s1 := s.setStacker st
    { s.stacker st with
      openPack := none, closing := some ⟨p, reason, s.minute, redryLot⟩, idleMinutes := 0, idleDue := false }
  match redryLot with
  | some n => { s1 with redryNext := following s1.redryFirst s1.redryLast n }
  | none => s1

/-- An attempt at an idle close of a stacker's OPEN pack: made, with its completion when nothing is outstanding, or due
(R160, R163). -/
def State.attemptIdleClose (s : State) (st : StackerNo) (p : Pack) : State :=
  match s.judgeClose st p.isRedry with
  | .fails _ => s.setStacker st { s.stacker st with idleDue := true }
  | .granted n =>
    let s1 := s.makeClose st p .idle n
    if p.outstanding = 0 then s1.completeAndJudge st ⟨p, .idle, s.minute, n⟩ else s1

/-- The retry of a due idle close (R159, R160). -/
def State.retryIdleClose (s : State) (st : StackerNo) : State :=
  match (s.stacker st).openPack with
  | some p => if (s.stacker st).idleDue then s.attemptIdleClose st p else s
  | none => s

/-- A re-examination event over some stackers in ascending number: each is judged where the event concerns its reason, then
retries its due idle close; answers whether any was freed (R159). -/
def State.examineOver (concerns : StackerNo → BlockReason → Bool) (s : State) : List StackerNo → State × Bool
  | [] => (s, false)
  | st :: rest =>
    let r := s.judgeBlock (concerns st) st
    let r' := examineOver concerns (r.1.retryIdleClose st) rest
    (r'.1, r.2 || r'.2)

/-- A re-examination event with its one STACKER_FREED (R159). -/
def State.reexamine (s : State) (stackers : List StackerNo) (concerns : StackerNo → BlockReason → Bool) : State :=
  let r := State.examineOver concerns s stackers
  r.1.raiseFreed r.2

/-- A completion, with the re-examination of the pack's own stacker (R164, item 6; log 14). -/
def State.complete (s : State) (st : StackerNo) (c : ClosingPack) : State :=
  (s.completePack st c).reexamine [st] fun _ reason => reason == .prior

/-- A discard: the CLOSING place is emptied, which returns the label slot and any redry reservation, and every stacker is
re-examined (R165; 01, R18). -/
def State.discard (s : State) (st : StackerNo) : State :=
  (s.setStacker st { s.stacker st with closing := none }).reexamine allStackers fun j reason =>
    match reason with
    | .prior => j == st
    | .labels => true
    | .lots => true
    | .numbers => true

/-- The re-examination of a label release: LABELS on every stacker (R159; 10, R174). -/
def State.reexamineLabels (s : State) : State := s.reexamine allStackers fun _ reason => reason == .labels

/-- The re-examination of a lot removal: LOTS and NUMBERS on every stacker (R159; 01, R7). -/
def State.reexamineLots (s : State) : State :=
  s.reexamine allStackers fun _ reason => reason == .lots || reason == .numbers

/-- The re-examination of a new redry range: NUMBERS on every stacker (R159; 01, R16). -/
def State.reexamineNumbers (s : State) : State := s.reexamine allStackers fun _ reason => reason == .numbers

/-- The start-up's re-examination of every stacker, whatever its reason. It raises no class: STACKER_FREED is not raised here, and
the ports, where the completions of retried idle closes raise theirs, take their start-up values after it (R168; 11, R187). -/
def State.reexamineAll (s : State) : State := (State.examineOver (fun _ _ => true) s allStackers).1

/-! ### Placing a board -/

/-- The pack number a new pack takes: the first from the next pack number that no standing pack carries (R152). -/
def State.packNumberTaken (s : State) (n : Nat) : Bool :=
  s.stackers.toList.any fun st =>
    (match st.openPack with | some p => p.number == n | none => false) ||
      match st.closing with | some c => c.pack.number == n | none => false

def State.freePackNumber (s : State) : Nat := (searchFree s.packNumberTaken 1 65535 65535 s.nextPack).getD s.nextPack

/-- The idle time of an idle parameter: five minutes each, and 60 for the parameter 0 (R152). -/
def idleTimeOf (p : Nat) : Nat := if p = 0 then 60 else p * 5

/-- What the placement of a board needs of it (R137). -/
structure Placing where
  lot      : Nat
  bin      : BinNo
  footage  : Nat
  mc       : Nat
  verified : Bool
deriving DecidableEq, Repr

/-- A new pack with its opening board (R152, R46). It counts the board as outstanding once the board joins the queue. -/
def State.openedPack (s : State) (st : StackerNo) (b : Placing) : Pack :=
  Pack.addBoard
    { number := s.freePackNumber, lot := b.lot, bin := b.bin, countLimit := (s.stacker st).countLimit,
      footageLimit := (s.stacker st).footageLimit, idleTime := idleTimeOf (s.stacker st).idleParam, boards := 0,
      footage := 0, verifiedBoards := 0, verifiedFootage := 0, mcSum := 0, saturated := false, highest := none,
      outstanding := 0, openedMinute := s.minute }
    b.footage b.mc b.verified

/-- The next pack number after a pack was opened (R152). -/
def State.numberGiven (s : State) : State := { s with nextPack := following 1 65535 s.freePackNumber }

/-- The stacker's OPEN pack, with the idle figures cleared (R152, R156). -/
def State.standOpen (s : State) (st : StackerNo) (p : Pack) : State :=
  s.setStacker st { s.stacker st with openPack := some p, idleMinutes := 0, idleDue := false }

/-- What a board calls for on a stacker that is not blocked (R153, R154). -/
inductive CloseNeed where
  | before (p : Pack) (reason : CloseReason)
  | afterJoin (p : Pack)
  | afterOpen
  | noneJoin (p : Pack)
  | noneOpen
deriving DecidableEq, Repr

/-- The before-close a board calls for, by the first condition that holds (R153). -/
def beforeReason (p : Pack) (b : Placing) : Option CloseReason :=
  if p.lot ≠ b.lot then some .lotChange
  else if p.bin ≠ b.bin then some .binChange
  else if p.boards = p.countLimit then some .count
  else if 0 < p.footageLimit ∧ p.footageLimit < p.footage + b.footage then some .footage
  else none

def State.closeNeed (s : State) (st : StackerNo) (b : Placing) : CloseNeed :=
  match (s.stacker st).openPack with
  | some p =>
    match beforeReason p b with
    | some r => .before p r
    | none => if p.boards + 1 = p.countLimit then .afterJoin p else .noneJoin p
  | none => if (s.stacker st).countLimit = 1 then .afterOpen else .noneOpen

/-- The judgement of the close a board calls for (R155); a board that calls for none meets no requirement. -/
def State.needJudged (s : State) (st : StackerNo) (b : Placing) : CloseNeed → CloseJudgement
  | .before p _ => s.judgeClose st p.isRedry
  | .afterJoin p => s.judgeClose st p.isRedry
  | .afterOpen => s.judgeClose st (b.bin == redryBin)
  | .noneJoin _ => .granted none
  | .noneOpen => .granted none

/-- Whether a placement would hold the board back: the stacker is blocked, or the close called for fails (R153, R156, R157). -/
def State.wouldHoldBack (s : State) (st : StackerNo) (b : Placing) : Bool :=
  (s.stacker st).blocked.isSome ||
    match s.needJudged st b (s.closeNeed st b) with
    | .fails _ => true
    | .granted _ => false

/-- The stacker becomes blocked, and both controllers are told (R156). -/
def State.blockStacker (s : State) (st : StackerNo) (r : BlockReason) : State :=
  ((s.setStacker st { s.stacker st with blocked := some r }).raise .officeStackerBlocked).raise .planerStackerBlocked

/-- The placement of a board on a stacker; answers the number of the pack it joined, or none when it is held back (R156,
R163). -/
def State.place (s : State) (st : StackerNo) (b : Placing) : State × Option Nat :=
  if (s.stacker st).blocked.isSome then (s, none)
  else
    match s.closeNeed st b, s.needJudged st b (s.closeNeed st b) with
    | _, .fails r => (s.blockStacker st r, none)
    | .before p reason, .granted n =>
      let s1 := s.makeClose st p reason n
      -- R152: the number is one that no standing pack carries, the pack just closed among them
      let fresh := s1.openedPack st b
      let s2 := s1.numberGiven.standOpen st fresh
      (if p.outstanding = 0 then s2.complete st ⟨p, reason, s.minute, n⟩ else s2, some fresh.number)
    | .afterJoin p, .granted n =>
      (s.makeClose st (p.addBoard b.footage b.mc b.verified) .count n, some p.number)
    | .afterOpen, .granted n =>
      let fresh := s.openedPack st b
      (s.numberGiven.makeClose st fresh .count n, some fresh.number)
    | .noneJoin p, .granted _ => (s.standOpen st (p.addBoard b.footage b.mc b.verified), some p.number)
    | .noneOpen, .granted _ =>
      let fresh := s.openedPack st b
      (s.numberGiven.standOpen st fresh, some fresh.number)

/-- A change to the pack of a number on a stacker, OPEN or CLOSING (R162). -/
def State.onPack (s : State) (st : StackerNo) (n : Nat) (f : Pack → Pack) : State :=
  let r := s.stacker st
  match r.openPack, r.closing with
  | some p, some c =>
    if p.number = n then s.setStacker st { r with openPack := some (f p) }
    else if c.pack.number = n then s.setStacker st { r with closing := some { c with pack := f c.pack } }
    else s
  | some p, none => if p.number = n then s.setStacker st { r with openPack := some (f p) } else s
  | none, some c =>
    if c.pack.number = n then s.setStacker st { r with closing := some { c with pack := f c.pack } } else s
  | none, none => s

/-- An OPEN pack whose board count has fallen to 0 leaves its stacker: it is dissolved (R162). -/
def State.dissolveEmpty (s : State) (st : StackerNo) (n : Nat) : State :=
  match (s.stacker st).openPack with
  | some p =>
    if p.number = n ∧ p.boards = 0 then
      s.setStacker st { s.stacker st with openPack := none, idleMinutes := 0, idleDue := false }
    else s
  | none => s

/-- A CLOSING pack with nothing outstanding completes, or is discarded when it holds no board (R162). -/
def State.endClosing (s : State) (st : StackerNo) (c : ClosingPack) : State × PackOutcome :=
  if c.pack.outstanding = 0 then
    if 0 < c.pack.boards then (s.complete st c, .completed) else (s.discard st, .discarded)
  else (s, .none)

/-- What becomes of the pack of a number after one of its boards left the queue (R162). -/
def State.settlePack (s : State) (st : StackerNo) (n : Nat) : State × PackOutcome :=
  match (s.stacker st).closing with
  | some c => if c.pack.number = n then s.endClosing st c else (s.dissolveEmpty st n, .none)
  | none => (s.dissolveEmpty st n, .none)

end Sys2Proof.Machine
end

