-- ==== Sys2Proof/Machine/Lots.lean ====
section
/-! DEFINITION. The requests on lots and the redry range: LOT CREATE, LOT MODIFY, LOT HOLD, LOT RELEASE, LOT FINISH, LOT REMOVE,
REDRY RANGE, LOT READ and LOT LIST (chapter 1, R2 to R7, R16, R20, R21). -/

namespace Sys2Proof.Machine

/-! ### Ranges of the lot record table (section 1.1) -/

def thicknessOk (n : Nat) : Bool := 4 ≤ n && n ≤ 16
def targetOk (n : Nat) : Bool := 40 ≤ n && n ≤ 300
def toleranceOk (n : Nat) : Bool := n ≤ 50
def redryLimitOk (n : Nat) : Bool := n ≤ 500

/-! ### LOT CREATE -/

/-- R2, first line of its table; a mark outside its codes is a bad field too (11, R190). -/
def LotCreateBody.fieldsOk (q : LotCreateBody) : Bool :=
  q.number != 0 && q.species ≤ 15 && thicknessOk q.thickness && targetOk q.targetMc && toleranceOk q.tolerance &&
    redryLimitOk q.redryLimit && q.dryStock.isSome

def lotCreate (q : LotCreateBody) (s : State) : State × Reply :=
  if !q.fieldsOk then (s, .refuse .badField)
  else if (s.speciesAt q.species).isNone then (s, .refuse .badField)
  else if s.numberInUse q.number then (s, .refuse .duplicate)
  else if Config.lotSlots ≤ s.slotsTaken then (s, .refuse .tableFull)
  else
    (s.insertLot (newLot q.number q.species q.thickness q.targetMc q.tolerance q.redryLimit
      (if q.dryStock = some true then .dried else .waiting) s.minute none), .done)

/-- LOT CREATE (R2). -/
def execLotCreate (f : Request) (s : State) : Host.Outcome State Fault Refusal := serve 0x10 f readLotCreate lotCreate s

/-! ### LOT MODIFY -/

/-- An optional field is acceptable when its mark is inside its codes and its value, when present, is in range. -/
def optOk (inRange : Nat → Bool) : Option (Option Nat) → Bool
  | none => false
  | some none => true
  | some (some n) => inRange n

/-- The value of an optional field that is present. -/
def optPresent : Option (Option Nat) → Option Nat
  | some (some n) => some n
  | _ => none

/-- R3: the fields present are in range and name a species present. -/
def LotModifyBody.fieldsOk (q : LotModifyBody) (s : State) : Bool :=
  optOk (fun n => n ≤ 15 && (s.speciesAt n).isSome) q.species && optOk thicknessOk q.thickness &&
    optOk targetOk q.targetMc && optOk toleranceOk q.tolerance && optOk redryLimitOk q.redryLimit

/-- The targets of a lot replaced by the fields present (R3). -/
def LotRecord.retarget (l : LotRecord) (q : LotModifyBody) : LotRecord :=
  { l with
    species := (optPresent q.species).getD l.species
    thickness := (optPresent q.thickness).getD l.thickness
    targetMc := (optPresent q.targetMc).getD l.targetMc
    tolerance := (optPresent q.tolerance).getD l.tolerance
    redryLimit := (optPresent q.redryLimit).getD l.redryLimit }

/-- The states in which a lot is modified (R3). -/
def LotState.modifiable : LotState → Bool
  | .waiting => true
  | .dried => true
  | .held _ => true
  | .inKiln => false
  | .planing => false
  | .closed => false

def lotModify (q : LotModifyBody) (s : State) : State × Reply :=
  match s.findLot q.number with
  | none => (s, .refuse .noSuchLot)
  | some l =>
    if !q.fieldsOk s then (s, .refuse .badField)
    else if !l.state.modifiable then (s, .refuse .wrongState)
    else (s.modifyLot q.number fun l => l.retarget q, .done)

/-- LOT MODIFY (R3). -/
def execLotModify (f : Request) (s : State) : Host.Outcome State Fault Refusal := serve 0x11 f readLotModify lotModify s

/-! ### LOT HOLD -/

/-- The return state an office hold remembers, in the states in which a lot can be held (R4). -/
def LotState.holdable : LotState → Option ReturnState
  | .waiting => some .waiting
  | .dried => some .dried
  | .planing => some .planing
  | .inKiln => none
  | .held _ => none
  | .closed => none


def lotHold (n : Nat) (s : State) : State × Reply :=
  match s.findLot n with
  | none => (s, .refuse .noSuchLot)
  | some l =>
    match l.state.holdable with
    | none => (s, .refuse .wrongState)
    | some r => ((s.modifyLot n fun l => l.withState (.held (.office r))).raiseLotHeld, .done)

/-- LOT HOLD (R4). -/
def execLotHold (f : Request) (s : State) : Host.Outcome State Fault Refusal := serve 0x12 f readU16 lotHold s

/-! ### LOT RELEASE -/

/-- What a release makes of a HELD lot, by its hold and the return state carried; none is BAD_FIELD (R5). -/
def LotRecord.released (l : LotRecord) (h : Hold) (ret : Option (Option Nat)) : Option LotRecord :=
  match h, ret with
  | .office r, some none => some (l.withState r.lotState)
  | .redry r, some none => some { l with state := r.lotState, waived := true }
  | .aborted, some (some c) =>
    if c = ReturnState.waiting.code then some { l with state := .waiting, kilnResult := none }
    else if c = ReturnState.dried.code then
      some (l.withState (if 0 < l.measured.boards then .planing else .dried))
    else none
  | _, _ => none

def lotRelease (q : LotReleaseBody) (s : State) : State × Reply :=
  match s.findLot q.number with
  | none => (s, .refuse .noSuchLot)
  | some l =>
    match l.state.hold? with
    | none => (s, .refuse .wrongState)
    | some h =>
      match l.released h q.ret with
      | none => (s, .refuse .badField)
      | some l' =>
        if l'.state = .waiting ∧ s.lotOnLine q.number then (s, .refuse .inUse)
        else (s.modifyLot q.number fun _ => l', .done)

/-- LOT RELEASE (R5). -/
def execLotRelease (f : Request) (s : State) : Host.Outcome State Fault Refusal :=
  serve 0x13 f readLotRelease lotRelease s

/-! ### LOT FINISH and LOT REMOVE -/

def lotFinish (n : Nat) (s : State) : State × Reply :=
  match s.findLot n with
  | none => (s, .refuse .noSuchLot)
  | some l =>
    if l.state = .dried ∨ l.state = .planing then
      if s.lotOnLine n then (s, .refuse .inUse)
      else (s.modifyLot n fun l => l.withState .closed, .done)
    else (s, .refuse .wrongState)

/-- LOT FINISH (R6). -/
def execLotFinish (f : Request) (s : State) : Host.Outcome State Fault Refusal := serve 0x14 f readU16 lotFinish s

def lotRemove (n : Nat) (s : State) : State × Reply :=
  match s.findLot n with
  | none => (s, .refuse .noSuchLot)
  | some l =>
    if l.state = .waiting ∨ l.state = .closed then ((s.removeLot n).reexamineLots, .done)
    else (s, .refuse .wrongState)

/-- LOT REMOVE (R7). -/
def execLotRemove (f : Request) (s : State) : Host.Outcome State Fault Refusal := serve 0x15 f readU16 lotRemove s

/-! ### REDRY RANGE -/

def setRedryRange (q : Nat × Nat) (s : State) : State × Reply :=
  if q.1 = 0 ∨ q.2 = 0 ∨ q.2 < q.1 then (s, .refuse .badField)
  else (({ s with redryFirst := q.1, redryLast := q.2, redryNext := q.1 } : State).reexamineNumbers, .done)

/-- REDRY RANGE (R16). -/
def execRedryRange (f : Request) (s : State) : Host.Outcome State Fault Refusal :=
  serve 0x16 f readU16U16 setRedryRange s

/-! ### LOT READ and LOT LIST -/

def Tally.bytes (t : Tally) : List Byte := u32 t.boards ++ u40 t.footage

def KilnResult.bytes (r : KilnResult) : List Byte :=
  u8 r.kiln.val ++ optU16 r.finalCmc ++ optU16 r.driest ++ optU16 r.wettest ++ u32 r.driedMinute ++ mark r.aborted

/-- The fields R20 names, in its order (11, R191; log 6, log 19). -/
def LotRecord.bytes (l : LotRecord) : List Byte :=
  u16 l.number ++ u8 l.species ++ u8 l.thickness ++ u16 l.targetMc ++ u8 l.tolerance ++ u16 l.redryLimit ++
    u8 l.state.code ++ optU8 (l.state.hold?.map Hold.code) ++
    optU8 ((l.state.hold?.bind Hold.ret).map ReturnState.code) ++ u32 l.createdMinute ++
    opt 15 KilnResult.bytes l.kilnResult ++ optU16 (l.origin.map fun o => o.parent) ++
    optU16 (l.origin.map fun o => o.boards) ++ optU40 (l.origin.map fun o => o.footage) ++
    l.measured.bytes ++ l.passed.bytes ++ l.redry.bytes ++ l.rejected.bytes ++ l.heldBack.bytes ++ l.lost.bytes ++
    u32 l.verifiedBoards ++ mark l.waived ++ optU16 l.planerMean

def lotRead (n : Nat) (s : State) : State × Reply :=
  match s.findLot n with
  | none => (s, .refuse .noSuchLot)
  | some l => (s, .done (l.bytes ++ u8 (s.boardsOf n) ++ u8 (s.packsOf n)))

/-- LOT READ (R20). -/
def execLotRead (f : Request) (s : State) : Host.Outcome State Fault Refusal := serve 0x05 f readU16 lotRead s

/-- One entry of LOT LIST: number, state, hold reason of a HELD lot (R21). -/
def LotRecord.entry (l : LotRecord) : List Byte :=
  u16 l.number ++ u8 l.state.code ++ optU8 (l.state.hold?.map Hold.code)

def lotList (start : Nat) (s : State) : State × Reply :=
  if start = 0 then (s, .refuse .badField)
  else
    let found := s.lots.filter fun l => start ≤ l.number
    (s, .done (u8 s.lots.length ++ u8 s.reservations.length ++ u16 s.redryFirst ++ u16 s.redryLast ++
      u16 s.redryNext ++ counted LotRecord.entry (found.take 40) ++ mark (40 < found.length)))

/-- LOT LIST (R21). -/
def execLotList (f : Request) (s : State) : Host.Outcome State Fault Refusal := serve 0x06 f readU16 lotList s

end Sys2Proof.Machine
end

