-- ==== Sys2Proof/Machine/Boards.lean ====
section
/-! DEFINITION. The Board Tracking Queue and the Bin Map: MEASURE, DROP, LOST, LINE HOLD, LINE RUN, SHADOW ON, SHADOW OFF, BIN MAP
WRITE, BIN MAP SET, BIN MAP READ and QUEUE READ (chapter 8). -/

namespace Sys2Proof.Machine

/-! ### The figures and the decision of a MEASURE (R132 to R136) -/

/-- What a MEASURE computes from its request and the lot's species (R132; 03, R43 to R45). -/
structure Reading where
  thickness   : Nat
  width       : Nat
  length      : Nat
  footage     : Nat
  fault       : Bool
  temperature : Int
  mc          : Nat
  verified    : Bool
deriving DecidableEq, Repr

/-- The figures of a board; the lot's species record is present while the lot names it (02, R34; log 17). -/
def readingOf (q : MeasureBody) (overRange : Bool) (sp : Option Species) : Reading where
  thickness := clampThickness q.thickness
  width := clampWidth q.width
  length := clampLength q.length
  footage := boardFootage q.thickness q.width q.length
  fault := dimensionFault q.thickness q.width q.length
  temperature := clampTemp q.temperature
  mc := correctedMc q.raw overRange q.temperature ((sp.map fun r => r.fs).getD 0) ((sp.map fun r => r.kt).getD 0)
  verified := verifiedAt q.temperature

/-- The dry limit of a lot (R132). -/
def LotRecord.dryLimit (l : LotRecord) : Nat := l.targetMc + l.tolerance

/-- Whether an unverified board is treated as passing, by its lot's kiln result (R134). -/
def LotRecord.passesUnverified (l : LotRecord) : Bool :=
  match l.kilnResult with
  | some r => !r.aborted && (match r.finalCmc with | some m => m ≤ l.dryLimit | none => false)
  | none => false

/-- Where a decision sends a board: away from the stackers at once, or to a stacker for placement (R133 to R137). -/
inductive Route where
  | aside (d : Disposition) (dest : Destination) (cause : Option HoldCause)
  | stacker (d : Disposition) (st : StackerNo)
deriving DecidableEq, Repr

def holdBack (cause : HoldCause) : Route := .aside .holdback .holdback (some cause)

/-- The routing bin and the route of a board. -/
structure Decision where
  bin   : BinNo
  route : Route
deriving DecidableEq, Repr

/-- A board routed through a bin (R136). -/
def State.routeBin (s : State) (d : Disposition) (bin : BinNo) : Route :=
  match s.binMap[bin] with
  | .stacker st => .stacker d st
  | .reject => .aside .reject .reject none
  | .unmapped => holdBack .unmapped

/-- A board treated as passing, or dry: through its reported bin, unless that is bin 14 (R134, R135). -/
def State.routePass (s : State) (bin : BinNo) : Route :=
  if bin = redryBin then holdBack .notGradeBin else s.routeBin .pass bin

/-- The decision for a board of a lot (R133, R134, R135, in this order). The model's choices: an unverified board of bin 14 that is
not treated as passing has hold cause UNVERIFIED (log 26), and a wet board keeps the routing bin 14 when that bin is UNMAPPED
(log 10). -/
def State.decideBoard (s : State) (l : LotRecord) (r : Reading) (bin : BinNo) : Decision :=
  if l.state.hold?.isSome then ⟨bin, holdBack .lotHeld⟩
  else if r.fault || bin == 15 then ⟨bin, .aside .reject .reject none⟩
  else if !r.verified then
    if l.passesUnverified then ⟨bin, s.routePass bin⟩ else ⟨bin, holdBack .unverified⟩
  else if l.dryLimit < r.mc then ⟨redryBin, s.routeBin .redry redryBin⟩
  else ⟨bin, s.routePass bin⟩

/-! ### MEASURE (R131, R137 to R140) -/

/-- What became of a board: the final disposition and destination, its pack, and the hold cause (R137, R139). -/
structure Placed where
  disposition : Disposition
  destination : Destination
  pack        : Option Nat
  cause       : Option HoldCause
deriving DecidableEq, Repr

/-- The eleven bytes after the status of a MEASURE response (R139; 11, R190). -/
def measureBytes (seq : Nat) (p : Placed) (r : Reading) (shadow : Bool) : List Byte :=
  u16 seq ++ u8 p.disposition.code ++ u8 p.destination.code ++ u16 (p.pack.getD 0) ++ u16 r.mc ++ mark r.verified ++
    mark shadow ++ u8 (HoldCause.code p.cause)

/-- A board that placement turns away: HOLDBACK, and its original disposition is not recorded (R137). -/
def turnedAway : Placed := ⟨.holdback, .holdback, none, some .stackerBlocked⟩

/-- The route carried out: a board for a stacker is handed to the Pack Builder (R137). -/
def State.carryOut (s : State) (b : Placing) : Route → State × Placed
  | .aside d dest cause => (s, ⟨d, dest, none, cause⟩)
  | .stacker d st =>
    let r := s.place st b
    match r.2 with
    | some n => (r.1, ⟨d, .stacker st, some n, none⟩)
    | none => (r.1, turnedAway)

/-- The route judged without making it, for a shadow MEASURE (R140; 09, R157). -/
def State.judgeRoute (s : State) (b : Placing) : Route → Placed
  | .aside d dest cause => ⟨d, dest, none, cause⟩
  | .stacker d st => if s.wouldHoldBack st b then turnedAway else ⟨d, .stacker st, none, none⟩

/-- The sequence number the next board takes: the first from the next one that no queued board carries (R127). -/
def State.freeSeq (s : State) : Nat :=
  (searchFree (fun n => s.queue.any fun b => b.seq == n) 1 65535 65535 s.nextSeq).getD s.nextSeq

/-- A board joins the tail of the queue, and its pack counts it as outstanding (R138, item 1). -/
def State.joinQueue (s : State) (b : Board) : State :=
  let s1 := { s with queue := s.queue ++ [b], nextSeq := following 1 65535 b.seq }
  match b.pack, b.destination with
  | some n, .stacker st => s1.onPack st n fun p => { p with outstanding := p.outstanding + 1 }
  | _, _ => s1

/-- The lot after a counted board: counters, PLANING begun, and the hold of a failed redry check (R138, items 2 to 4; 01, R10,
R11, R13). -/
def LotRecord.afterBoard (l : LotRecord) (d : Disposition) (footage mc : Nat) (verified : Bool) : LotRecord :=
  let l1 := l.count d footage mc verified
  let l2 := l1.withState (planingBegun l1.state)
  if d = .redry ∧ l2.redryFails then l2.withState (.held (.redry .planing)) else l2

/-- Whether a counted board places its lot on hold (01, R11). -/
def LotRecord.heldByBoard (l : LotRecord) (d : Disposition) (footage mc : Nat) (verified : Bool) : Bool :=
  let l1 := l.count d footage mc verified
  d == .redry && (l1.withState (planingBegun l1.state)).redryFails

/-- The lot's part of a counted MEASURE, with LOT_HELD where the check holds the lot (R138; 01, R12). -/
def State.countBoard (s : State) (l : LotRecord) (p : Placed) (r : Reading) : State :=
  let s1 := s.modifyLot l.number fun x => x.afterBoard p.disposition r.footage r.mc r.verified
  if l.heldByBoard p.disposition r.footage r.mc r.verified then s1.raiseLotHeld else s1

/-- The board record of a counted MEASURE (section 8.1). -/
def boardOf (q : MeasureBody) (overRange : Bool) (seq : Nat) (bin : BinNo) (r : Reading) (p : Placed) (minute : Nat) :
    Board where
  seq := seq
  lot := q.lot
  thickness := r.thickness
  width := r.width
  length := r.length
  footage := r.footage
  bin := bin
  raw := q.raw
  overRange := overRange
  temperature := r.temperature
  mc := r.mc
  verified := r.verified
  disposition := p.disposition
  destination := p.destination
  pack := p.pack
  measureMinute := minute

/-- A MEASURE that passed its refusals, counted or in shadow (R138, R140). -/
def measureBoard (q : MeasureBody) (overRange : Bool) (bin : BinNo) (l : LotRecord) (s : State) : State × Reply :=
  let r := readingOf q overRange (s.speciesAt l.species)
  let d := s.decideBoard l r bin
  let b : Placing := ⟨l.number, d.bin, r.footage, r.mc, r.verified⟩
  if s.shadow then (s, .done (measureBytes 0 (s.judgeRoute b d.route) r true))
  else
    let c := s.carryOut b d.route
    let board := boardOf q overRange s.freeSeq d.bin r c.2 s.minute
    ((c.1.joinQueue board).countBoard l c.2 r, .done (measureBytes board.seq c.2 r false))

/-- The lot states whose boards are measured (R131). -/
def LotState.measurable : LotState → Bool
  | .dried => true
  | .planing => true
  | .held _ => true
  | .waiting => false
  | .inKiln => false
  | .closed => false

/-- Whether a counted board would take a lot's counters past their maximum (R131). -/
def LotRecord.isFull (l : LotRecord) (footage : Nat) : Bool :=
  Config.boardsMax ≤ l.measured.boards || Config.footageMax < l.measured.footage + footage

def takeMeasure (q : MeasureBody) (s : State) : State × Reply :=
  match placeOf 16 q.bin, q.overRange with
  | some bin, some overRange =>
    if q.lot = 0 then (s, .refuse .badField)
    else if s.lineHeld then (s, ⟨.wrongState, u8 1 ++ u8 0xFF⟩)
    else if !s.shadow && Config.queueSlots ≤ s.queue.length then (s, .refuse .queueFull)
    else match s.findLot q.lot with
      | none => (s, .refuse .noSuchLot)
      | some l =>
        if !l.state.measurable then (s, ⟨.wrongState, u8 2 ++ u8 l.state.code⟩)
        else if !s.shadow && l.isFull (boardFootage q.thickness q.width q.length) then (s, .refuse .lotFull)
        else measureBoard q overRange bin l s
  | _, _ => (s, .refuse .badField)

/-- MEASURE (R131 to R140). -/
def execMeasure (f : Request) (s : State) : Host.Outcome State Fault Refusal := serve 0x50 f readMeasure takeMeasure s

/-! ### DROP and LOST (R141, R142) -/

/-- What the leaving of a queued board does to its pack (09, R162). -/
def State.leavePack (s : State) (b : Board) (f : Pack → Pack) : State × PackOutcome :=
  match b.pack, b.destination with
  | some n, .stacker st => (s.onPack st n fun p => { f p with outstanding := p.outstanding - 1 }).settlePack st n
  | _, _ => (s, .none)

/-- The record of a sequence number leaves the queue; the order of the others stays (R126). -/
def State.dequeue (s : State) (seq : Nat) : State := { s with queue := s.queue.eraseP fun b => b.seq == seq }

def drop (code : Nat) (s : State) : State × Reply :=
  match Destination.ofCode code with
  | none => (s, .refuse .badField)
  | some d =>
    match s.queue.find? fun b => b.destination == d with
    | none => (s, .refuse .noBoard)
    | some b =>
      let r := (s.dequeue b.seq).leavePack b id
      (r.1, .done (u16 b.seq ++ u16 b.lot ++ optU16 b.pack ++ mark (r.2 == .completed) ++ u8 r.1.queue.length))

/-- DROP (R141). -/
def execDrop (f : Request) (s : State) : Host.Outcome State Fault Refusal := serve 0x51 f readU8 drop s

/-- A board handled as lost: it leaves the queue, its tallies move to the lost pair, and its pack is reduced (R142; 01, R14;
03, R47). -/
def State.loseBoard (s : State) (b : Board) : State × PackOutcome :=
  ((s.dequeue b.seq).modifyLot b.lot fun l => l.loseBoard b.disposition b.footage b.mc b.verified).leavePack b
    fun p => p.removeBoard b.footage b.mc b.verified

def lost (n : Nat) (s : State) : State × Reply :=
  if n = 0 then (s, .refuse .badField)
  else match s.queue.find? fun b => b.seq == n with
    | none => (s, .refuse .noBoard)
    | some b =>
      let r := s.loseBoard b
      (r.1, .done (u16 b.seq ++ u16 b.lot ++ u8 b.disposition.code ++ u8 b.destination.code ++ optU16 b.pack ++
        u8 r.2.code))

/-- LOST (R142). -/
def execLost (f : Request) (s : State) : Host.Outcome State Fault Refusal := serve 0x52 f readU16 lost s

/-- The purge of the queue at a start-up with retention intact, head to tail (R147). -/
def State.purge (s : State) : State := s.queue.foldl (fun s b => (s.loseBoard b).1) s

/-! ### Line hold and shadow mode (R129, R130) -/

/-- The response to the four settings: both settings, the boards queued and the next sequence number (R129). -/
def State.lineBytes (s : State) : List Byte := mark s.lineHeld ++ mark s.shadow ++ u8 s.queue.length ++ u16 s.nextSeq

def setLine (held : Bool) (s : State) : State × Reply :=
  let s' := { s with lineHeld := held }
  (s', .done s'.lineBytes)

def setShadow (on : Bool) (s : State) : State × Reply :=
  let s' := { s with shadow := on }
  (s', .done s'.lineBytes)

/-- LINE HOLD (R129). -/
def execLineHold (f : Request) (s : State) : Host.Outcome State Fault Refusal :=
  serve 0x53 f readEmpty (fun _ => setLine true) s

/-- LINE RUN (R129). -/
def execLineRun (f : Request) (s : State) : Host.Outcome State Fault Refusal :=
  serve 0x54 f readEmpty (fun _ => setLine false) s

/-- SHADOW ON (R130). -/
def execShadowOn (f : Request) (s : State) : Host.Outcome State Fault Refusal :=
  serve 0x55 f readEmpty (fun _ => setShadow true) s

/-- SHADOW OFF (R130). -/
def execShadowOff (f : Request) (s : State) : Host.Outcome State Fault Refusal :=
  serve 0x56 f readEmpty (fun _ => setShadow false) s

/-! ### The bin map (R143 to R145) -/

/-- The sixteen entries in bin order (R144, R145). -/
def State.binBytes (s : State) : List Byte := s.binMap.toList.flatMap fun e => u8 e.code

/-- The entries of a list of destinations from a bin upward; none when one is not permitted for its bin (R144). -/
def entriesFrom (bin : Nat) : List Nat → Option (List BinEntry)
  | [] => some []
  | n :: ns =>
    match BinEntry.ofCode bin n, entriesFrom (bin + 1) ns with
    | some e, some es => some (e :: es)
    | _, _ => none

/-- Entries written to the bins from one upward. -/
def State.setBins (s : State) : (bin : Nat) → List BinEntry → State
  | _, [] => s
  | bin, e :: es => State.setBins { s with binMap := s.binMap.setIfInBounds bin e } (bin + 1) es

def binMapWrite (q : List Nat) (s : State) : State × Reply :=
  match entriesFrom 0 q with
  | some es => (s.setBins 0 es, .done (s.setBins 0 es).binBytes)
  | none => (s, .refuse .badField)

/-- BIN MAP WRITE (R144). -/
def execBinMapWrite (f : Request) (s : State) : Host.Outcome State Fault Refusal :=
  serve 0x30 f readBinMap binMapWrite s

def binMapSet (q : Nat × Nat) (s : State) : State × Reply :=
  if 15 < q.1 then (s, .refuse .badField)
  else match BinEntry.ofCode q.1 q.2 with
    | some e => (s.setBins q.1 [e], .done (s.setBins q.1 [e]).binBytes)
    | none => (s, .refuse .badField)

/-- BIN MAP SET (R144). -/
def execBinMapSet (f : Request) (s : State) : Host.Outcome State Fault Refusal := serve 0x31 f readU8U8 binMapSet s

def binMapRead (_ : Unit) (s : State) : State × Reply := (s, .done s.binBytes)

/-- BIN MAP READ (R145). -/
def execBinMapRead (f : Request) (s : State) : Host.Outcome State Fault Refusal := serve 0x09 f readEmpty binMapRead s

/-! ### QUEUE READ (R128) -/

/-- Every field of a board record in the order of section 8.1, the over-range flag following the raw reading (R128). -/
def Board.bytes (b : Board) : List Byte :=
  u16 b.seq ++ u16 b.lot ++ u8 b.thickness ++ u8 b.width ++ u8 b.length ++ u16 b.footage ++ u8 b.bin.val ++ u16 b.raw ++
    mark b.overRange ++ i8 b.temperature ++ u16 b.mc ++ mark b.verified ++ u8 b.disposition.code ++
    u8 b.destination.code ++ optU16 b.pack ++ u32 b.measureMinute

def queueRead (index : Nat) (s : State) : State × Reply :=
  if 47 < index then (s, .refuse .badField)
  else (s, .done (u8 s.queue.length ++ counted Board.bytes ((s.queue.drop index).take 8)))

/-- QUEUE READ (R128). -/
def execQueueRead (f : Request) (s : State) : Host.Outcome State Fault Refusal := serve 0x0A f readU8 queueRead s

end Sys2Proof.Machine
end

