-- ==== Sys2Proof/Machine/HoldPoints.lean ====
section
/-! DEFINITION. Hold point matching and the HELD kiln (07, R116 to R119). -/

namespace Sys2Proof.Machine

/-- A scope covers its own kiln, and ANY covers all eight (R113). -/
def HoldScope.covers : HoldScope → KilnNo → Bool
  | .kiln j, k => j == k
  | .any, _ => true

/-- The records that match a step entry, in ascending number (R116). -/
def State.stepEnterMatches (s : State) (k : KilnNo) (index : Nat) : List HoldPointNo :=
  allHoldPoints.filter fun h =>
    (s.holdPoint h).enabled && (s.holdPoint h).scope.covers k && (s.holdPoint h).kind == .stepEnter index

/-- A downward crossing of a value: the new CMC is present and at or below it, and the old one was absent or above it (R117). -/
def crosses (before after : Option Nat) (value : Nat) : Bool :=
  match after with
  | none => false
  | some a =>
    a ≤ value && match before with
      | none => true
      | some b => value < b

/-- Whether a record of kind CMC_AT_OR_BELOW is crossed by a pair of CMCs (R117). -/
def HoldKind.crossed (kind : HoldKind) (before after : Option Nat) : Bool :=
  match kind with
  | .cmcAtOrBelow v => crosses before after v
  | .stepEnter _ => false

/-- The records that match a recomputation; none unless the kiln is RUNNING or HELD (R117). -/
def State.crossingMatches (s : State) (k : KilnNo) (before after : Option Nat) : List HoldPointNo :=
  if (s.kiln k).state.isOn then
    allHoldPoints.filter fun h =>
      (s.holdPoint h).enabled && (s.holdPoint h).scope.covers k && (s.holdPoint h).kind.crossed before after
  else []

/-- What a match does to a record: the hit fields take this kiln and minute, and a one-shot record is disabled (R118). -/
def HoldPoint.matched (p : HoldPoint) (k : KilnNo) (minute : Nat) : HoldPoint :=
  { p with enabled := p.enabled && !p.oneShot, hit := some ⟨k, minute⟩ }

/-- A RUNNING kiln becomes HELD and keeps everything else (R118, R119); SETPOINT_CHANGED when its mode changes (05, R88). -/
def State.holdKiln (s : State) (k : KilnNo) : State :=
  match (s.kiln k).state with
  | .running _ => (s.setKiln k { s.kiln k with state := .held }).noteSetpoints s
  | _ => s

/-- All the matches of one step entry or one recomputation: each record, then the kiln once, then HOLD_HIT once (R118). -/
def State.takeMatches (s : State) (k : KilnNo) (matched : List HoldPointNo) : State :=
  match matched with
  | [] => s
  | _ =>
    ((matched.foldl (fun s h => s.setHoldPoint h ((s.holdPoint h).matched k s.minute)) s).holdKiln k).raise .holdHit

/-- The records whose hit names a kiln (R121, R123). -/
def State.hitsNaming (s : State) (k : KilnNo) : List HoldPointNo :=
  allHoldPoints.filter fun h =>
    match (s.holdPoint h).hit with
    | some hit => hit.kiln == k
    | none => false

/-- Every record whose hit kiln is this kiln has its hit cleared (R121, R123). -/
def State.clearHits (s : State) (k : KilnNo) : State :=
  (s.hitsNaming k).foldl (fun s h => s.setHoldPoint h { s.holdPoint h with hit := none }) s

end Sys2Proof.Machine
end

