-- ==== Sys2Proof/Machine/Arbiter.lean ====
section
/-! DEFINITION. The Heat Allotment Arbiter and the step machinery that runs on it: the pass (06, R98, R99), the grant (R100),
step entry (05, R73), step exit (R76 to R79), step end and finish (R80, R81), revocation (06, R104), mill stop (R106) and
resumption (R109).

A pass can end steps (R100) and a step's end can call for a pass (R96, R97). A pass here answers the state and the kilns it
moved from WAIT_HEAT to ACTIVE, in the order granted; `evaluateAll` then evaluates those, and each evaluation settles its own
passes before the next (log 5). -/

namespace Sys2Proof.Machine

/-- The phase of a RUNNING kiln; a kiln in another state has none. -/
def State.setPhase (s : State) (k : KilnNo) (p : Phase) : State :=
  match (s.kiln k).state with
  | .running _ => s.setKiln k { s.kiln k with state := .running p }
  | _ => s

/-! ### The pass -/

def State.isWaiting (s : State) (k : KilnNo) : Bool := (s.heatOf k).request.since?.isSome

/-- The wait-since minute of a waiting kiln. -/
def State.waitSince (s : State) (k : KilnNo) : Nat := (s.heatOf k).request.since?.getD 0

/-- A kiln put into the aging order before every kiln that waits since the same minute or a later one (R99). -/
def State.insertAged (s : State) (k : KilnNo) : List KilnNo → List KilnNo
  | [] => [k]
  | j :: js => if s.waitSince k ≤ s.waitSince j then k :: j :: js else j :: s.insertAged k js

/-- Kilns by ascending wait-since minute, equals by ascending number when the list given is ascending (R99). -/
def State.agedOrder (s : State) : List KilnNo → List KilnNo
  | [] => []
  | k :: ks => s.insertAged k (s.agedOrder ks)

/-- The order of a pass: the aged kilns, then the kilns not aged (R99). -/
def State.passOrder (s : State) : List KilnNo :=
  s.agedOrder (allKilns.filter fun k => s.isWaiting k && s.aged k) ++
    allKilns.filter fun k => s.isWaiting k && !s.aged k

/-- The grant of a kiln's request: the grant becomes the demand, the request goes, and a RUNNING kiln takes ACTIVE (R100). -/
def State.grantKiln (s : State) (k : KilnNo) (demand : Nat) : State :=
  ((s.setHeat k ⟨demand, .absent⟩).setPhase k .active).noteSetpoints s

/-- The kilns of a pass in their order, each against the free units at its point; an aged kiln that does not fit ends the
pass (R99). Answers the kilns moved from WAIT_HEAT to ACTIVE (R100). -/
def State.passOver (s : State) : List KilnNo → State × List KilnNo
  | [] => (s, [])
  | k :: ks =>
    match (s.heatOf k).request with
    | .waiting d _ =>
      if d - (s.heatOf k).grant ≤ s.freeUnits then
        let r := (s.grantKiln k d).passOver ks
        (r.1, if (s.kiln k).state = .running .waitHeat then k :: r.2 else r.2)
      else if s.aged k then (s, [])
      else s.passOver ks
    | .dormant _ => s.passOver ks
    | .absent => s.passOver ks

/-- An arbitration pass, made only while the master enable is set (R98). -/
def State.pass (s : State) : State × List KilnNo :=
  if s.masterEnable then s.passOver s.passOrder else (s, [])

/-! ### Requests and returns -/

/-- After the pass of a step entry: a RUNNING kiln it did not grant takes WAIT_HEAT, and HEAT_WAIT is raised (R96, R101). -/
def State.waitUnlessGranted (s : State) (k : KilnNo) : State :=
  if (s.kiln k).state.isRunning && s.isWaiting k then ((s.setPhase k .waitHeat).noteSetpoints s).raise .heatWait else s

/-- The demand of a step just entered, handed to the arbiter (R96). -/
def State.handDemand (s : State) (k : KilnNo) (d : Nat) : State × List KilnNo :=
  let h := s.heatOf k
  if d ≤ h.grant then
    let s1 := ((s.setHeat k ⟨d, .absent⟩).setPhase k .active).noteSetpoints s
    if d < h.grant then s1.pass else (s1, [])
  else if s.masterEnable then
    let since := h.request.since?.getD s.minute
    let r := (s.setHeat k ⟨h.grant, .waiting d since⟩).pass
    (r.1.waitUnlessGranted k, r.2)
  else (((s.setHeat k ⟨h.grant, .dormant d⟩).setPhase k .waitHeat).noteSetpoints s, [])

/-- A finished or stopped kiln's grant and request go back to the arbiter; a pass follows when units came free (R97). -/
def State.releaseHeat (s : State) (k : KilnNo) : State × List KilnNo :=
  let s1 := s.setHeat k ⟨0, .absent⟩
  if 0 < (s.heatOf k).grant then s1.pass else (s1, [])

/-! ### Steps

`settle` stands for the evaluations of the kilns that a pass moved to ACTIVE. -/

/-- A kiln enters a step: index and minute, hold points, heat demand, SETPOINT_CHANGED, in this order (05, R73). -/
def State.enterStep (settle : List KilnNo → State → State) (s : State) (k : KilnNo) (index : Nat) : State :=
  let s1 := s.setKiln k { s.kiln k with stepIndex := index, stepEntered := some s.minute, stepElapsed := 0 }
  let s2 := s1.takeMatches k (s1.stepEnterMatches k index)
  let r := s2.handDemand k (s2.currentDemand k)
  settle r.2 (r.1.raise .setpointChanged)

/-- The last step ended: FINISHED, run enable clear, heat released, KILN_FINISHED and SETPOINT_CHANGED (05, R81). -/
def State.finishKiln (settle : List KilnNo → State → State) (s : State) (k : KilnNo) : State :=
  let r := (s.setKiln k { s.kiln k with state := .finished, runEnable := false }).releaseHeat k
  settle r.2 ((r.1.raise .kilnFinished).raise .setpointChanged)

/-- The history entry of a step that ends (05, R80). -/
def State.recordEnd (s : State) (k : KilnNo) (cause : EndCause) : State :=
  let c := s.kiln k
  s.setKiln k { c with history := c.history ++ [⟨c.stepIndex, c.stepElapsed, cause⟩] }

/-- A step ends by EXIT, FORCED or ADVANCED: its history entry, then the next step or the finish (05, R80). -/
def State.endStep (settle : List KilnNo → State → State) (s : State) (k : KilnNo) (cause : EndCause) : State :=
  let s1 := s.recordEnd k cause
  let next := (s.kiln k).stepIndex + 1
  if next < s.stepCount k then s1.enterStep settle k next else s1.finishKiln settle k

/-- One evaluation of the step exit: without effect unless RUNNING, ACTIVE and not suspended (05, R76); EXIT before FORCED
(R78, R79). -/
def State.evaluate (settle : List KilnNo → State → State) (s : State) (k : KilnNo) : State :=
  if (s.kiln k).state = .running .active ∧ s.masterEnable then
    match s.currentStep k with
    | none => s
    | some t =>
      if t.minMinutes ≤ (s.kiln k).stepElapsed ∧ s.exitHolds k t then s.endStep settle k .exit
      else if t.maxMinutes ≤ (s.kiln k).stepElapsed then (s.raise .stepForced).endStep settle k .forced
      else s
  else s

/-- The evaluations that follow a pass, in the order granted, each with its consequences (R100). The count bounds how many
step ends may nest (log 5). -/
def evaluateAll : Nat → List KilnNo → State → State
  | 0, _, s => s
  | n + 1, ks, s => ks.foldl (fun s k => s.evaluate (evaluateAll n) k) s

/-- The evaluations after a pass. -/
def settle (ks : List KilnNo) (s : State) : State := evaluateAll Config.stepEnds ks s

/-- An evaluation at one of the occasions of 05, R77. -/
def State.evaluateNow (s : State) (k : KilnNo) : State := s.evaluate settle k

/-- A pass with the evaluations that follow it (R98, R100). -/
def State.passAndSettle (s : State) : State :=
  let r := s.pass
  settle r.2 r.1

/-! ### Capacity (R103, R104) -/

/-- The revocation of one kiln's whole grant (R104). -/
def State.revokeKiln (s : State) (k : KilnNo) : State :=
  let h := s.heatOf k
  let revoked := match (s.kiln k).state with
    | .running .active =>
      ((s.setHeat k ⟨0, .waiting (s.currentDemand k) s.minute⟩).setPhase k .waitHeat).raise .heatWait
    | .held => s.setHeat k ⟨0, .waiting (s.currentDemand k) (h.request.since?.getD s.minute)⟩
    | _ => s.setHeat k ⟨0, h.request⟩
  (revoked.noteSetpoints s).raise .setpointChanged

/-- Revocations over a list of kilns until the grants fit the capacity; answers the kilns revoked (R104). -/
def State.revokeOver (s : State) : List KilnNo → State × List KilnNo
  | [] => (s, [])
  | k :: ks =>
    if s.grantSum ≤ s.capacity then (s, [])
    else if (s.heatOf k).grant = 0 then s.revokeOver ks
    else
      let r := (s.revokeKiln k).revokeOver ks
      (r.1, k :: r.2)

/-- A capacity taken into use (R103, R104); answers the kilns revoked. The capacity in force changes nothing (R102). -/
def State.setCapacity (s : State) (n : Nat) : State × List KilnNo :=
  if n = s.capacity then (s, [])
  else
    let s1 := { s with capacity := n }
    if s.capacity < n then (s1.passAndSettle, [])
    else if s1.grantSum ≤ n then (s1, [])
    else
      let r := s1.revokeOver allKilns.reverse
      (r.1.passAndSettle, r.2)

/-! ### Mill stop and resumption -/

/-- What the mill stop does to one kiln: no grant, no request, and a RUNNING kiln waits for heat when its step demands any
(R106; log 21). -/
def State.dropHeat (s : State) (k : KilnNo) : State :=
  (s.setHeat k ⟨0, .absent⟩).setPhase k (if 0 < s.currentDemand k then .waitHeat else .active)

/-- The mill-stop line becomes asserted (R106). -/
def State.stopMill (s : State) : State :=
  let s1 := allKilns.foldl State.dropHeat { s with millStopLine := true, masterEnable := false }
  ((s1.noteSetpoints s).raise .officeMillStop).raise .kilnMillStop

/-- What the resumption does to one kiln before its pass: a dormant request goes, and a RUNNING or HELD kiln with run enable
set submits its demand as a fresh waiting request (R109, items 1 and 2). -/
def State.submitRequest (s : State) (k : KilnNo) : State :=
  if (s.kiln k).state.isOn && (s.kiln k).runEnable then
    (s.setHeat k ⟨0, .waiting (s.currentDemand k) s.minute⟩).setPhase k .waitHeat
  else match (s.heatOf k).request with
    | .dormant _ => s.setHeat k ⟨(s.heatOf k).grant, .absent⟩
    | .waiting _ _ => s
    | .absent => s

/-- Whether a RUNNING kiln is left in WAIT_HEAT. -/
def State.someRunningWaits (s : State) : Bool := allKilns.any fun k => (s.kiln k).state = .running .waitHeat

/-- Whether a resumption resumes a kiln: one that is RUNNING or HELD with run enable set (R109, item 2). -/
def State.someResumes (s : State) : Bool := allKilns.any fun k => (s.kiln k).state.isOn && (s.kiln k).runEnable

/-- SETPOINT_CHANGED at a resumption: "the resumed kilns raise SETPOINT_CHANGED" (R109; 05, R88: the master enable changes while they
are RUNNING or HELD), and so does a kiln whose mode or grant changed. -/
def State.noteResumed (after before : State) : State :=
  if before.someResumes then (after.noteSetpoints before).raise .setpointChanged else after.noteSetpoints before

/-- The resumption: the master enable is set, every kiln under way requests afresh, one pass, SETPOINT_CHANGED for the resumed
kilns, MILL_RESUME, and HEAT_WAIT when the pass leaves a RUNNING kiln waiting (R109). -/
def State.resume (s : State) : State :=
  let s1 := allKilns.foldl State.submitRequest { s with masterEnable := true }
  let r := s1.pass
  let s2 := ((r.1.noteResumed s).raise .officeMillResume).raise .kilnMillResume
  settle r.2 (if r.1.someRunningWaits then s2.raise .heatWait else s2)

/-- The heat record and phase a kiln takes at a start-up with retention intact: a dormant request for the current step's
demand while RUNNING (phase WAIT_HEAT) or HELD, and no heat otherwise (05, R91; 06, R111). -/
def State.formDormant (s : State) (k : KilnNo) : State :=
  if (s.kiln k).state.isOn then (s.setHeat k ⟨0, .dormant (s.currentDemand k)⟩).setPhase k .waitHeat
  else s.setHeat k ⟨0, .absent⟩

end Sys2Proof.Machine
end

