-- ==== Sys2Proof/Machine/Events.lean ====
section
/-! DEFINITION. The events that time brings: the minute event (05, R69, R74; 06, R98; 09, R160), the stopped count (R69), the
forced end of a step (05, R79), the aging of a request (06, R99) and the idle close (09, R160). -/

namespace Sys2Proof.Machine

/-! ### Counting (05, R74) -/

/-- Whether a kiln counts a minute (R74). -/
def State.counts (s : State) (k : KilnNo) : Bool :=
  let c := s.kiln k
  s.masterEnable && !c.doorOpen &&
    match c.state with
    | .running .active => true
    | .held =>
      c.holdCounts && (match s.currentStep k with | some t => c.stepElapsed < t.maxMinutes | none => false)
    | _ => false

/-- One minute counted: elapsed and run minutes (R74). -/
def KilnContext.counted (c : KilnContext) : KilnContext :=
  { c with stepElapsed := c.stepElapsed + 1, runMinutes := c.runMinutes + 1 }

/-- What a minute event does to one kiln: the count, then the evaluation of a RUNNING kiln that counted (R74). -/
def State.countKiln (s : State) (k : KilnNo) : State :=
  if s.counts k then
    let s1 := s.setKiln k (s.kiln k).counted
    if (s.kiln k).state.isRunning then s1.evaluateNow k else s1
  else s

/-- The kilns in ascending number, each with its consequences (R74). -/
def State.countKilns (s : State) : State := allKilns.foldl State.countKiln s

/-! ### Idle counting (09, R160) -/

/-- What a minute event does to one stacker while the line is not held (R160). -/
def State.idleStacker (s : State) (st : StackerNo) : State :=
  match (s.stacker st).openPack with
  | none => s
  | some p =>
    let n := (s.stacker st).idleMinutes
    if n < p.idleTime then
      let s1 := s.setStacker st { s.stacker st with idleMinutes := n + 1 }
      if n + 1 = p.idleTime then s1.attemptIdleClose st p else s1
    else if n = p.idleTime ∧ (s.stacker st).idleDue then s.attemptIdleClose st p
    else s

/-- The stackers in ascending number; nothing is counted or retried while the line is held (R160). -/
def State.idleStackers (s : State) : State := if s.lineHeld then s else allStackers.foldl State.idleStacker s

/-! ### The minute event (05, R69) -/

/-- The minute event with the order of the aging pass and the counting given (R69, R98; 06, R110). -/
def State.minuteWith (agingFirst : Bool) (s : State) : State :=
  let s1 := { s with minute := s.minute + 1 }
  (if agingFirst then s1.passAndSettle.countKilns else s1.countKilns.passAndSettle).idleStackers

/-- MINUTE_EVENT: the count advances and the blocks act; at its maximum there is no minute event (R69; the order is free, log
4). -/
def execMinuteEvent (s : State) : Host.Outcome State Fault Refusal :=
  whileRunning s fun s =>
    if s.minute < Config.minuteMax then
      State.minuteWith (Config.agingPassFirst s.choices) { s with choices := s.choices + 1 }
    else s

/-- MINUTE_COUNT_STOPPED: the count stays where it is (R69; log 3). -/
def execMinuteCountStopped (s : State) : Host.Outcome State Fault Refusal := .next s

/-! ### Parts of a minute event met as commands (log 3) -/

/-- Whether a kiln stands at an evaluation that its maximum minutes end, unless its exit holds (R76, R79). -/
def State.maximumCounted (s : State) (k : KilnNo) : Bool :=
  decide ((s.kiln k).state = .running .active) && s.masterEnable &&
    match s.currentStep k with
    | some t => t.maxMinutes ≤ (s.kiln k).stepElapsed
    | none => false

/-- STEP_FORCED: the evaluation of a kiln whose maximum minutes have been counted (R79; log 3). -/
def execStepForced (k : KilnNo) (s : State) : Host.Outcome State Fault Refusal :=
  whileRunning s fun s => if s.maximumCounted k then s.evaluateNow k else s

/-- HEAT_WAIT_AGED: the pass that takes an aged request first (06, R98, R99; log 3). -/
def execHeatWaitAged (k : KilnNo) (s : State) : Host.Outcome State Fault Refusal :=
  whileRunning s fun s => if s.aged k then s.passAndSettle else s

/-- The attempt at an idle close of a stacker whose pack has stood its idle time (R160). -/
def State.idleClose (s : State) (st : StackerNo) : State :=
  match (s.stacker st).openPack with
  | some p => if !s.lineHeld && (s.stacker st).idleMinutes == p.idleTime then s.attemptIdleClose st p else s
  | none => s

/-- IDLE_CLOSE (09, R160; log 3). -/
def execIdleClose (st : StackerNo) (s : State) : Host.Outcome State Fault Refusal :=
  whileRunning s fun s => s.idleClose st

end Sys2Proof.Machine
end

