-- ==== Sys2Proof/Machine/Samples.lean ====
section
/-! DEFINITION. Kiln samples: SAMPLE ENTER, SAMPLE WEIGH and SAMPLE REMOVE, and the recomputation of the moisture figures
(chapter 4, R53 to R61; chapter 3, R38 to R41). -/

namespace Sys2Proof.Machine

/-- The recomputation of a kiln's moisture figures over its samples list as it stands: hand-over to the Hold Point Unit, the
figures replaced, the step exit evaluated (R61). -/
def State.recompute (s : State) (k : KilnNo) : State :=
  let c := s.kiln k
  let figures := figuresOf (c.samples.map fun x => x.mc)
  let s1 := s.takeMatches k (s.crossingMatches k c.figures.cmc figures.cmc)
  let s2 := s1.setKiln k { s1.kiln k with figures := figures }
  s2.evaluateNow k

/-- A sample put into the list in id order, replacing one of the same id as a whole (R53, R55, R56). -/
def insertSample (x : Sample) : List Sample → List Sample
  | [] => [x]
  | y :: ys =>
    if x.id < y.id then x :: y :: ys
    else if x.id = y.id then x :: ys
    else y :: insertSample x ys

def State.setSamples (s : State) (k : KilnNo) (l : List Sample) : State :=
  s.setKiln k { s.kiln k with samples := l }

/-- The kiln's CMC, driest and wettest MC as they are sent (R55, R57, R60, R65). -/
def Figures.bytes (g : Figures) : List Byte := optU16 g.cmc ++ optU16 g.driest ++ optU16 g.wettest

def hasSample (l : List Sample) (id : Nat) : Bool := l.any fun x => x.id == id

/-- A new sample: its ODW by R38, its current figures the green ones, its mark clear (R55). -/
def newSample (id greenWeight greenMc minute : Nat) : Sample :=
  ⟨id, greenWeight, greenMc, odwOf greenWeight greenMc, greenWeight, greenMc, false, minute⟩

def sampleEnter (q : SampleEnterBody) (s : State) : State × Reply :=
  match placeOf 8 q.kiln with
  | none => (s, .refuse .badField)
  | some k =>
    if q.id = 0 ∨ 8 < q.id ∨ q.greenWeight < 100 ∨ 30000 < q.greenWeight ∨ q.greenMc < 50 ∨ 2000 < q.greenMc then
      (s, .refuse .badField)
    else if (s.kiln k).state = .empty then (s, .refuse .wrongState)
    else
      let old := (s.kiln k).samples
      let x := newSample q.id q.greenWeight q.greenMc s.minute
      let s' := (s.setSamples k (insertSample x old)).recompute k
      (s', .done (u16 x.odw ++ mark (hasSample old q.id) ++ u8 (s'.kiln k).samples.length ++ (s'.kiln k).figures.bytes))

/-- SAMPLE ENTER (R55, R56). -/
def execSampleEnter (f : Request) (s : State) : Host.Outcome State Fault Refusal :=
  serve 0x20 f readSampleEnter sampleEnter s

def sampleRemove (q : Nat × Nat) (s : State) : State × Reply :=
  match placeOf 8 q.1 with
  | none => (s, .refuse .badField)
  | some k =>
    if q.2 = 0 ∨ 8 < q.2 then (s, .refuse .badField)
    else if (s.kiln k).state = .empty then (s, .refuse .wrongState)
    else if !hasSample (s.kiln k).samples q.2 then (s, .refuse .noSuchSample)
    else
      let s' := (s.setSamples k ((s.kiln k).samples.filter fun x => x.id != q.2)).recompute k
      (s', .done (u8 (s'.kiln k).samples.length ++ (s'.kiln k).figures.bytes))

/-- SAMPLE REMOVE (R57). -/
def execSampleRemove (f : Request) (s : State) : Host.Outcome State Fault Refusal :=
  serve 0x22 f readU8U8 sampleRemove s

/-! ### SAMPLE WEIGH -/

/-- A weighing applied to a sample (03, R39). -/
def Sample.weigh (x : Sample) (weight minute : Nat) : Sample :=
  { x with weight := weight, mc := sampleMc weight x.odw, clamped := sampleClamped weight x.odw, weighMinute := minute }

/-- The first check an entry fails, the ids of the earlier entries given (R59). -/
def entryFault (samples : List Sample) (earlier : List Nat) (e : WeighEntry) : Option Status :=
  if e.id = 0 ∨ 8 < e.id then some .badField
  else if !hasSample samples e.id then some .noSuchSample
  else if earlier.contains e.id then some .duplicate
  else if e.weight = 0 ∨ 60000 < e.weight then some .badField
  else none

def weighIn (samples : List Sample) (e : WeighEntry) (minute : Nat) : List Sample :=
  samples.map fun x => if x.id = e.id then x.weigh e.weight minute else x

/-- The entries of a batch in order until one fails: the samples after it, the entries applied, and the failure (R59). -/
def applyBatch (minute : Nat) (samples : List Sample) (earlier : List Nat) :
    List WeighEntry → List Sample × List WeighEntry × Option Status
  | [] => (samples, [], none)
  | e :: rest =>
    match entryFault samples earlier e with
    | some st => (samples, [], some st)
    | none =>
      let r := applyBatch minute (weighIn samples e minute) (e.id :: earlier) rest
      (r.1, e :: r.2.1, r.2.2)

/-- An applied entry as it is sent: the sample id, its new current MC and its clamped mark (R60). -/
def appliedBytes (samples : List Sample) (e : WeighEntry) : List Byte :=
  match samples.find? fun x => x.id == e.id with
  | some x => u8 x.id ++ u16 x.mc ++ mark x.clamped
  | none => []

def sampleWeigh (q : WeighBody) (s : State) : State × Reply :=
  if q.count = 0 ∨ 8 < q.count then (s, .refuse .badField)
  else match placeOf 8 q.kiln with
    | none => (s, .refuse .badField)
    | some k =>
      if (s.kiln k).state = .empty then (s, .refuse .wrongState)
      else
        let r := applyBatch s.minute (s.kiln k).samples [] q.entries
        let applied := r.2.1
        let s' := if applied.isEmpty then s else (s.setSamples k r.1).recompute k
        let entries := applied.flatMap (appliedBytes r.1)
        match r.2.2 with
        | none => (s', .done (u8 applied.length ++ entries ++ (s'.kiln k).figures.bytes))
        | some why =>
          (s', ⟨.partialBatch, u8 applied.length ++ u8 (q.count - applied.length) ++
            optU8 (applied.getLast?.map fun e => e.id) ++ u8 why.code ++ entries ++ (s'.kiln k).figures.bytes⟩)

/-- SAMPLE WEIGH (R58 to R60). -/
def execSampleWeigh (f : Request) (s : State) : Host.Outcome State Fault Refusal :=
  serve 0x21 f readSampleWeigh sampleWeigh s

end Sys2Proof.Machine
end

