-- ==== Sys2Proof/Machine/Kilns.lean ====
section
/-! DEFINITION. The kiln requests: KILN CHARGE, KILN START, KILN STOP, KILN UNLOAD, KILN SETUP, KILN REPORT and KILN READ (chapter
5), KILN HOLD, KILN RELEASE, KILN ADVANCE, HOLD POINT SET and HOLD POINT READ (chapter 7), and BOILER CAPACITY (chapter 6). -/

namespace Sys2Proof.Machine

/-! ### KILN CHARGE (05, R70, R71) -/

/-- The first number of the list that stands earlier in it (R70; log 20). -/
def repeatedLot (seen : List Nat) : List Nat → Option Nat
  | [] => none
  | n :: ns => if seen.contains n then some n else repeatedLot (n :: seen) ns

/-- The first lot of the list that cannot be charged, with its refusal (R70, last two lines): first an absent record, in list
order, then a lot not WAITING, in list order. -/
def State.uncharged (s : State) (ns : List Nat) : Option Reply :=
  match ns.find? fun n => (s.findLot n).isNone with
  | some n => some ⟨.noSuchLot, u16 n⟩
  | none =>
    match (ns.filterMap s.findLot).find? fun l => l.state != .waiting with
    | some l => some ⟨.wrongState, u16 l.number ++ u8 l.state.code⟩
    | none => none

/-- The context of a kiln just charged: the option, the readings and the suspect flag are kept (R71). -/
def KilnContext.charged (c : KilnContext) (schedule : Nat) (lots : List Nat) : KilnContext :=
  { c with
    state := .loaded, runEnable := false, aborted := false, scheduleId := some schedule, charge := lots, stepIndex := 0,
    stepEntered := none, stepElapsed := 0, runMinutes := 0, doorOpen := false, samples := [],
    figures := ⟨none, none, none⟩, history := [] }

/-- Every lot of a list takes a state. -/
def State.setLotStates (s : State) (ns : List Nat) (st : LotState) : State :=
  { s with lots := s.lots.map fun l => if ns.contains l.number then l.withState st else l }

def kilnCharge (q : ChargeBody) (s : State) : State × Reply :=
  match placeOf 8 q.kiln with
  | none => (s, .refuse .badField)
  | some k =>
    if q.count = 0 ∨ 4 < q.count ∨ q.schedule = 0 ∨ q.lots.contains 0 then (s, .refuse .badField)
    else if (s.kiln k).state ≠ .empty then (s, ⟨.wrongState, u8 (s.kiln k).state.code⟩)
    else if (s.findSchedule q.schedule).isNone then (s, .refuse .noSuchSchedule)
    else match repeatedLot [] q.lots with
      | some n => (s, ⟨.duplicate, u16 n⟩)
      | none =>
        match s.uncharged q.lots with
        | some refusal => (s, refusal)
        | none => ((s.setLotStates q.lots .inKiln).setKiln k ((s.kiln k).charged q.schedule q.lots), .done)

/-- KILN CHARGE (05, R70, R71; 01, R8). -/
def execKilnCharge (f : Request) (s : State) : Host.Outcome State Fault Refusal :=
  serve 0x24 f readKilnCharge kilnCharge s

/-! ### KILN START (05, R72) -/

/-- The master enable set, with the resumption when it was clear (06, R105, R109). -/
def State.enableMill (s : State) : State := if s.masterEnable then s else s.resume

/-- A LOADED kiln becomes RUNNING and enters step 0 (R72). -/
def State.startKiln (s : State) (k : KilnNo) : State :=
  (s.setKiln k { s.kiln k with state := .running .active, runEnable := true }).enterStep settle k 0

/-- The phase of a kiln where it has one, as it is sent. -/
def State.phaseBytes (s : State) (k : KilnNo) : List Byte := optU8 ((s.kiln k).state.phase?.map Phase.code)

def kilnStart (n : Nat) (s : State) : State × Reply :=
  match placeOf 8 n with
  | none => (s, .refuse .badField)
  | some k =>
    if s.millStopLine then (s, .refuse .millStopActive)
    else if (s.kiln k).state = .empty ∨ (s.kiln k).state = .finished then (s, .refuse .wrongState)
    else
      let s1 := s.enableMill
      let s2 := if (s.kiln k).state = .loaded then s1.startKiln k else s1
      (s2, .done (u8 (s2.kiln k).state.code ++ s2.phaseBytes k))

/-- KILN START (05, R72). -/
def execKilnStart (f : Request) (s : State) : Host.Outcome State Fault Refusal := serve 0x25 f readU8 kilnStart s

/-! ### KILN STOP (05, R82) -/

/-- The current step ends ABORTED; FINISHED with the aborted mark; heat released; SETPOINT_CHANGED (R82). -/
def State.stopKiln (s : State) (k : KilnNo) : State :=
  let s1 := s.recordEnd k .aborted
  let r := (s1.setKiln k { s1.kiln k with state := .finished, aborted := true, runEnable := false }).releaseHeat k
  settle r.2 (r.1.raise .setpointChanged)

def kilnStop (n : Nat) (s : State) : State × Reply :=
  match placeOf 8 n with
  | none => (s, .refuse .badField)
  | some k =>
    if (s.kiln k).state.isOn then (s.stopKiln k, .done (u8 (s.kiln k).stepIndex))
    else (s, .refuse .wrongState)

/-- KILN STOP (05, R82). -/
def execKilnStop (f : Request) (s : State) : Host.Outcome State Fault Refusal := serve 0x26 f readU8 kilnStop s

/-! ### KILN UNLOAD (05, R83) -/

/-- The lots of a charge leave their kiln (01, R9). -/
def State.unloadLots (s : State) (k : KilnNo) : State :=
  { s with lots := s.lots.map fun l =>
      if (s.kiln k).charge.contains l.number then l.unload k (s.kiln k) s.minute else l }

/-- The context of a kiln just unloaded: history, run minutes, aborted mark, option, readings, suspect flag and door are kept
(R83). -/
def KilnContext.unloaded (c : KilnContext) : KilnContext :=
  { c with
    state := .empty, scheduleId := none, charge := [], stepIndex := 0, stepElapsed := 0, stepEntered := none,
    samples := [], figures := ⟨none, none, none⟩ }

/-- The lots of an unload as they are sent: number and state entered, in list order (R83). -/
def State.unloadBytes (s : State) (charge : List Nat) : List Byte :=
  counted (fun l => u16 l.number ++ u8 l.state.code) (charge.filterMap s.findLot)

def kilnUnload (n : Nat) (s : State) : State × Reply :=
  match placeOf 8 n with
  | none => (s, .refuse .badField)
  | some k =>
    let c := s.kiln k
    if c.state = .loaded ∨ c.state = .finished then
      let s1 := s.unloadLots k
      let s2 := (s1.setKiln k c.unloaded).clearHits k
      (if c.state = .finished ∧ c.aborted then s2.raiseLotHeld else s2, .done (s1.unloadBytes c.charge))
    else (s, .refuse .wrongState)

/-- KILN UNLOAD (05, R83; 01, R9, R12; 07, R123). -/
def execKilnUnload (f : Request) (s : State) : Host.Outcome State Fault Refusal := serve 0x27 f readU8 kilnUnload s

/-! ### KILN SETUP (05, R84) -/

def kilnSetup (q : Nat × Byte) (s : State) : State × Reply :=
  match placeOf 8 q.1, flagOf q.2 with
  | some k, some option => (s.setKiln k { s.kiln k with holdCounts := option }, .done)
  | _, _ => (s, .refuse .badField)

/-- KILN SETUP (05, R84). -/
def execKilnSetup (f : Request) (s : State) : Host.Outcome State Fault Refusal := serve 0x28 f readU8Byte kilnSetup s

/-! ### KILN REPORT (05, R85 to R87) -/

/-- A reading inside the range of an air temperature (R85). -/
def readingOk (z : Int) : Bool := -400 ≤ z && z ≤ 1200

/-- The readings of a report stored: each in range replaces its last value, and the suspect flag follows both (R85). -/
def KilnContext.readings (c : KilnContext) (dry wet : Int) : KilnContext :=
  { c with
    lastDry := if readingOk dry then some dry else c.lastDry
    lastWet := if readingOk wet then some wet else c.lastWet
    suspect := !(readingOk dry && readingOk wet) }

/-- An accepted report: readings, door, then the evaluation (R75, R85). -/
def State.takeReport (s : State) (k : KilnNo) (dry wet : Int) (door : Bool) : State :=
  let s1 := (s.setKiln k { (s.kiln k).readings dry wet with doorOpen := door }).noteSetpoints s
  s1.evaluateNow k

/-- A byte with an absent code of FFh (11, section 11.5). -/
def orFF : Option Nat → List Byte
  | some n => u8 n
  | none => u8 0xFF

/-- The step a kiln reports: none in EMPTY (R87). -/
def State.reportedStep (s : State) (k : KilnNo) : Option ScheduleStep :=
  if (s.kiln k).state = .empty then none else s.currentStep k

/-- The nine bytes after the status of a KILN REPORT response (R87; 11, R190). -/
def State.reportBytes (s : State) (k : KilnNo) : List Byte :=
  let t := s.reportedStep k
  let idle := s.mode k = .idle
  u8 (s.mode k).code ++
    u16 (if idle then 0 else (t.map fun t => t.dryBulb).getD 0) ++
    u16 (if idle then 0 else (t.map fun t => t.wetBulb).getD 0) ++
    u8 (if idle ∨ s.suspended k then 0 else (s.heatOf k).grant) ++
    orFF (t.map fun _ => (s.kiln k).stepIndex) ++
    orFF (t.map fun t => t.kind.code) ++
    mark (s.kiln k).suspect

def kilnReport (q : ReportBody) (s : State) : State × Reply :=
  match placeOf 8 q.kiln, q.door with
  | some k, some door =>
    let s' := s.takeReport k q.dry q.wet door
    (s', .done (s'.reportBytes k))
  | _, _ => (s, .refuse .badField)

/-- KILN REPORT (05, R85 to R87). -/
def execKilnReport (f : Request) (s : State) : Host.Outcome State Fault Refusal :=
  serve 0x40 f readKilnReport kilnReport s

/-! ### KILN READ (05, R89; 04, R65) -/

def Sample.bytes (x : Sample) (minute : Nat) : List Byte :=
  u8 x.id ++ u16 x.greenWeight ++ u16 x.greenMc ++ u16 x.odw ++ u16 x.weight ++ u16 x.mc ++ mark x.clamped ++
    u32 x.weighMinute ++ u32 (minute - x.weighMinute)

/-- The samples part (04, R65). -/
def State.samplesPart (s : State) (k : KilnNo) : List Byte :=
  counted (fun x => Sample.bytes x s.minute) (s.kiln k).samples ++ (s.kiln k).figures.bytes ++ mark (s.fresh k)

/-- The step index where present: absent in EMPTY (R89). -/
def State.indexBytes (s : State) (k : KilnNo) : List Byte :=
  optU8 (if (s.kiln k).state = .empty then none else some (s.kiln k).stepIndex)

/-- The response with the history mark clear (R89; log 6). -/
def State.contextBytes (s : State) (k : KilnNo) : List Byte :=
  let c := s.kiln k
  let t := s.reportedStep k
  let h := s.heatOf k
  u8 c.state.code ++ s.phaseBytes k ++ mark (s.suspended k) ++ mark c.runEnable ++ mark c.aborted ++
    optU8 c.scheduleId ++ counted u16 c.charge ++
    s.indexBytes k ++ optU8 (t.map fun t => t.kind.code) ++ optU16 (t.map fun t => t.dryBulb) ++
    optU16 (t.map fun t => t.wetBulb) ++ optU8 (t.map fun t => t.demand) ++ optU8 (t.map fun t => t.exit.code) ++
    optU16 (t.bind fun t => t.exit.value?) ++ optU16 (t.map fun t => t.minMinutes) ++
    optU16 (t.map fun t => t.maxMinutes) ++
    optU32 c.stepEntered ++ u16 c.stepElapsed ++ u32 c.runMinutes ++
    u8 h.grant ++ optU8 h.request.demand? ++ optU32 h.request.since? ++
    mark c.holdCounts ++ mark c.doorOpen ++ optI16 c.lastDry ++ optI16 c.lastWet ++ mark c.suspect ++
    s.samplesPart k

def HistoryEntry.bytes (e : HistoryEntry) : List Byte := u8 e.index ++ u16 e.minutes ++ u8 e.cause.code

/-- The response with the history mark set (R89). -/
def State.historyBytes (s : State) (k : KilnNo) : List Byte :=
  u8 (s.kiln k).state.code ++ s.indexBytes k ++ counted HistoryEntry.bytes (s.kiln k).history

def kilnRead (q : Nat × Byte) (s : State) : State × Reply :=
  match placeOf 8 q.1, flagOf q.2 with
  | some k, some history => (s, .done (if history then s.historyBytes k else s.contextBytes k))
  | _, _ => (s, .refuse .badField)

/-- KILN READ (05, R89; 04, R65). -/
def execKilnRead (f : Request) (s : State) : Host.Outcome State Fault Refusal := serve 0x07 f readU8Byte kilnRead s

/-! ### KILN HOLD, KILN RELEASE, KILN ADVANCE (07, R120 to R122) -/

def kilnHold (n : Nat) (s : State) : State × Reply :=
  match placeOf 8 n with
  | none => (s, .refuse .badField)
  | some k => if (s.kiln k).state.isRunning then (s.holdKiln k, .done) else (s, .refuse .wrongState)

/-- KILN HOLD (07, R120). -/
def execKilnHold (f : Request) (s : State) : Host.Outcome State Fault Refusal := serve 0x29 f readU8 kilnHold s

/-- The phase a released kiln takes: ACTIVE when its grant equals its demand and it holds no request (R121, item 2). For a suspended
kiln without demand that holds a request, R121 says WAIT_HEAT and 06, R108 says ACTIVE: the phase is free (log 25). -/
def State.releasePhase (s : State) (k : KilnNo) : Phase :=
  if (s.heatOf k).grant = s.currentDemand k ∧ (s.heatOf k).request = .absent then .active
  else if s.masterEnable = false ∧ s.currentDemand k = 0 ∧ Config.releasedActive = true then .active
  else .waitHeat

/-- A hold ends: hits cleared, RUNNING in the phase its heat gives, then the pass of a waiting kiln or the evaluation of an
active one (R121). -/
def State.releaseKiln (s : State) (k : KilnNo) : State :=
  let s1 := s.clearHits k
  let p := s1.releasePhase k
  let s2 := (s1.setKiln k { s1.kiln k with state := .running p }).noteSetpoints s1
  match p with
  | .waitHeat => if s2.masterEnable then (s2.raise .heatWait).passAndSettle else s2
  | .active => s2.evaluateNow k

def holdPointList (l : List HoldPointNo) : List Byte := counted (fun h => u8 h.val) l

def kilnRelease (n : Nat) (s : State) : State × Reply :=
  match placeOf 8 n with
  | none => (s, .refuse .badField)
  | some k =>
    if (s.kiln k).state = .held then
      let s' := s.releaseKiln k
      (s', .done (holdPointList (s.hitsNaming k) ++ u8 (s'.kiln k).state.code ++ s'.phaseBytes k ++
        u8 (s'.kiln k).stepIndex ++ u8 (s'.heatOf k).grant))
    else (s, .refuse .wrongState)

/-- KILN RELEASE (07, R121). -/
def execKilnRelease (f : Request) (s : State) : Host.Outcome State Fault Refusal := serve 0x2A f readU8 kilnRelease s

/-- The content of a KILN ADVANCE response: the index ended, the index entered with the records that matched it, and the
finished mark (R122; log 6). -/
def State.advanceBytes (s : State) (k : KilnNo) : List Byte :=
  let i := (s.kiln k).stepIndex
  if i + 1 < s.stepCount k then
    u8 i ++ optU8 (some (i + 1)) ++ holdPointList (s.stepEnterMatches k (i + 1)) ++ mark false
  else u8 i ++ optU8 none ++ holdPointList [] ++ mark true

def kilnAdvance (n : Nat) (s : State) : State × Reply :=
  match placeOf 8 n with
  | none => (s, .refuse .badField)
  | some k =>
    if (s.kiln k).state = .held then (s.endStep settle k .advanced, .done (s.advanceBytes k))
    else (s, .refuse .wrongState)

/-- KILN ADVANCE (07, R122). -/
def execKilnAdvance (f : Request) (s : State) : Host.Outcome State Fault Refusal := serve 0x2B f readU8 kilnAdvance s

/-! ### Hold point requests (07, R114, R115) -/

/-- The kind of a hold point with its value, none when the kind or the value is outside its range (R114). -/
def holdKindOf (kind value : Nat) : Option HoldKind :=
  match kind with
  | 0 => if value ≤ 11 then some (.stepEnter value) else none
  | 1 => if value ≤ 2000 then some (.cmcAtOrBelow value) else none
  | _ => none

def holdPointSet (q : HoldPointBody) (s : State) : State × Reply :=
  match placeOf 4 q.number, q.enabled, HoldScope.ofCode q.scope, holdKindOf q.kind q.value, q.oneShot with
  | some h, some enabled, some scope, some kind, some oneShot =>
    (s.setHoldPoint h ⟨enabled, scope, kind, oneShot, none⟩, .done)
  | _, _, _, _, _ => (s, .refuse .badField)

/-- HOLD POINT SET (07, R114). -/
def execHoldPointSet (f : Request) (s : State) : Host.Outcome State Fault Refusal :=
  serve 0x2C f readHoldPointSet holdPointSet s

def HoldKind.index? : HoldKind → Option Nat
  | .stepEnter i => some i
  | .cmcAtOrBelow _ => none

def HoldKind.mc? : HoldKind → Option Nat
  | .cmcAtOrBelow v => some v
  | .stepEnter _ => none

/-- The kilns held under a record: its hit kiln while that kiln is HELD (R115). -/
def State.heldUnder (s : State) (h : HoldPointNo) : List KilnNo :=
  match (s.holdPoint h).hit with
  | some hit => if (s.kiln hit.kiln).state = .held then [hit.kiln] else []
  | none => []

/-- One record of HOLD POINT READ with every field of section 7.1 and the list of R115. -/
def State.holdPointBytes (s : State) (h : HoldPointNo) : List Byte :=
  let p := s.holdPoint h
  mark p.enabled ++ u8 p.scope.code ++ u8 p.kind.code ++ optU8 p.kind.index? ++ optU16 p.kind.mc? ++ mark p.oneShot ++
    mark p.hit.isSome ++ optU8 (p.hit.map fun x => x.kiln.val) ++ optU32 (p.hit.map fun x => x.minute) ++
    counted (fun k => u8 k.val) (s.heldUnder h)

def holdPointRead (_ : Unit) (s : State) : State × Reply := (s, .done (allHoldPoints.flatMap s.holdPointBytes))

/-- HOLD POINT READ (07, R115). -/
def execHoldPointRead (f : Request) (s : State) : Host.Outcome State Fault Refusal :=
  serve 0x2D f readEmpty holdPointRead s

/-! ### BOILER CAPACITY (06, R102) -/

/-- The arbiter's records as they are sent, with the kilns revoked by the request (R102). -/
def State.heatBytes (s : State) (revoked : List KilnNo) : List Byte :=
  u8 s.capacity ++ mark s.masterEnable ++ mark s.millStopLine ++ u8 s.grantSum ++ u8 s.freeUnits ++
    counted (fun k => u8 k.val) revoked ++
    allKilns.flatMap fun k =>
      u8 (s.heatOf k).grant ++ optU8 (s.heatOf k).request.demand? ++ optU32 (s.heatOf k).request.since? ++
        mark (s.aged k)

def boilerCapacity (q : Option (Option Nat)) (s : State) : State × Reply :=
  match q with
  | none => (s, .refuse .badField)
  | some none => (s, .done (s.heatBytes []))
  | some (some n) =>
    if n = 0 ∨ 64 < n then (s, .refuse .badField)
    else
      let r := s.setCapacity n
      (r.1, .done (r.1.heatBytes r.2))

/-- BOILER CAPACITY (06, R102 to R104). -/
def execBoilerCapacity (f : Request) (s : State) : Host.Outcome State Fault Refusal :=
  serve 0x2E f readCapacity boilerCapacity s

end Sys2Proof.Machine
end

