-- ==== Sys2Proof/Machine/Labels.lean ====
section
/-! DEFINITION. The requests on stackers and labels: STACKER SETUP, STACKER READ and PACK CLOSE (chapter 9, R150, R151, R161),
LABEL READ and LABEL RELEASE (chapter 10, R173, R174). -/

namespace Sys2Proof.Machine

/-! ### STACKER SETUP (09, R150) -/

def stackerSetup (q : StackerSetupBody) (s : State) : State × Reply :=
  match placeOf 6 q.stacker with
  | none => (s, .refuse .badField)
  | some st =>
    if q.countLimit = 0 ∨ 999 < q.countLimit ∨ 500000 < q.footageLimit ∨ 48 < q.idleParam then (s, .refuse .badField)
    else
      (s.setStacker st
        { s.stacker st with countLimit := q.countLimit, footageLimit := q.footageLimit, idleParam := q.idleParam },
        .done (u16 q.countLimit ++ u32 q.footageLimit ++ u8 q.idleParam))

/-- STACKER SETUP (09, R150). -/
def execStackerSetup (f : Request) (s : State) : Host.Outcome State Fault Refusal :=
  serve 0x32 f readStackerSetup stackerSetup s

/-! ### STACKER READ (09, R151) -/

/-- Every field of a pack record in the order of section 9.2; the fields present once CLOSING are given apart (11, R191;
log 6). -/
def packBytes (st : StackerNo) (p : Pack) (c : Option ClosingPack) : List Byte :=
  u16 p.number ++ u8 st.val ++ u16 p.lot ++ u8 p.bin.val ++ u16 p.countLimit ++ u32 p.footageLimit ++ u8 p.idleTime ++
    u16 p.boards ++ u32 p.footage ++ u16 p.verifiedBoards ++ u32 p.verifiedFootage ++ u32 p.mcSum ++ mark p.saturated ++
    optU16 p.highest ++ u8 p.outstanding ++ u32 p.openedMinute ++
    optU8 (c.map fun c => c.reason.code) ++ optU32 (c.map fun c => c.closeMinute) ++ mark c.isSome ++
    optU16 (c.bind fun c => c.redryLot)

/-- How many bytes a pack record takes. -/
def packSize : Nat := 49

def stackerBytes (st : StackerNo) (r : Stacker) (nextPack : Nat) : List Byte :=
  u16 r.countLimit ++ u32 r.footageLimit ++ u8 r.idleParam ++ mark r.blocked.isSome ++
    optU8 (r.blocked.map BlockReason.code) ++ u8 r.idleMinutes ++ mark r.idleDue ++ u16 nextPack ++
    opt packSize (fun p => packBytes st p none) r.openPack ++
    opt packSize (fun c => packBytes st c.pack (some c)) r.closing

def stackerRead (n : Nat) (s : State) : State × Reply :=
  match placeOf 6 n with
  | none => (s, .refuse .badField)
  | some st => (s, .done (stackerBytes st (s.stacker st) s.nextPack))

/-- STACKER READ (09, R151). -/
def execStackerRead (f : Request) (s : State) : Host.Outcome State Fault Refusal := serve 0x08 f readU8 stackerRead s

/-! ### PACK CLOSE (09, R161) -/

def packClose (n : Nat) (s : State) : State × Reply :=
  match placeOf 6 n with
  | none => (s, .refuse .badField)
  | some st =>
    match (s.stacker st).openPack with
    | none => (s, .refuse .wrongState)
    | some p =>
      match s.judgeClose st p.isRedry with
      | .fails r => (s, ⟨.notReservable, u8 r.code⟩)
      | .granted redry =>
        let s1 := s.makeClose st p .operator redry
        let s2 := if p.outstanding = 0 then s1.complete st ⟨p, .operator, s.minute, redry⟩ else s1
        (s2, .done (u16 p.number ++ optU16 redry ++ mark (p.outstanding == 0)))

/-- PACK CLOSE (09, R161). -/
def execPackClose (f : Request) (s : State) : Host.Outcome State Fault Refusal := serve 0x57 f readU8 packClose s

/-! ### LABEL READ and LABEL RELEASE (10, R173, R174) -/

/-- A value under a presence mark that stands elsewhere in the record: zero when absent (11, R190). -/
def zeroed (size : Nat → List Byte) (v : Option Nat) : List Byte := size (v.getD 0)

/-- The presence marks of a label record, bit 0 mean MC to bit 4 redry lot number (11, R190). -/
def Label.marks (l : Label) : Nat :=
  (if l.mean.isSome then 1 else 0) + (if l.highest.isSome then 2 else 0) + (if l.kiln.isSome then 4 else 0) +
    (if l.kilnCmc.isSome then 8 else 0) + (if l.redryLot.isSome then 16 else 0)

/-- The 35 bytes of a label record (11, R190). -/
def Label.bytes (l : Label) : List Byte :=
  u32 l.serial ++ u16 l.pack ++ u8 l.stacker.val ++ u16 l.lot ++ u8 l.species ++ u8 l.thickness ++ u8 l.bin.val ++
    u16 l.boards ++ u32 l.footage ++ u16 l.verifiedBoards ++ zeroed u16 l.mean ++ zeroed u16 l.highest ++
    zeroed u8 (l.kiln.map fun k => k.val) ++ zeroed u16 l.kilnCmc ++ u8 l.reason.code ++ u32 l.closeMinute ++
    zeroed u16 l.redryLot ++ u8 l.marks

/-- The records a LABEL READ returns: from the index, up to the count or the tail, at most six (10, R173). -/
def State.labelsAsked (s : State) (index count : Nat) : List Label :=
  ((s.labels.drop index).take (if count = 0 then Config.labelSlots else count)).take 6

def labelRead (q : Nat × Nat) (s : State) : State × Reply :=
  if 15 < q.1 ∨ 16 < q.2 then (s, .refuse .badField)
  else
    (s, .done (u8 s.labels.length ++ u8 s.labelsReserved ++ u32 (s.serial.getD 0) ++
      counted Label.bytes (s.labelsAsked q.1 q.2)))

/-- LABEL READ (10, R173). -/
def execLabelRead (f : Request) (s : State) : Host.Outcome State Fault Refusal := serve 0x34 f readU8U8 labelRead s

/-- The oldest records leave the queue (10, R174). -/
def State.dropLabels (s : State) (n : Nat) : State := { s with labels := s.labels.drop n }

def labelRelease (n : Nat) (s : State) : State × Reply :=
  if n = 0 ∨ 16 < n then (s, .refuse .badField)
  else
    let gone := s.labels.take n
    let s1 := s.dropLabels n
    -- the response gives the queue after the release; the re-examination it causes follows (R159)
    (s1.reexamineLabels, .done (u8 gone.length ++ optU32 (gone.head?.map fun l => l.serial) ++
      optU32 (gone.getLast?.map fun l => l.serial) ++ u8 s1.labels.length ++ u8 s1.labelsReserved))

/-- LABEL RELEASE (10, R174). -/
def execLabelRelease (f : Request) (s : State) : Host.Outcome State Fault Refusal :=
  serve 0x35 f readU8 labelRelease s

end Sys2Proof.Machine
end

