-- ==== Sys2Proof/Machine/Links.lean ====
section
/-! DEFINITION. The link ports: IDENT, CLOCK READ, ATTENTION TAKE, ATTENTION MASK, the answer to an unknown kind, and the line
events of the receivers (chapter 11, R179, R181 to R186). -/

namespace Sys2Proof.Machine

/-! ### IDENT and CLOCK READ (R183) -/

def ident (_ : Unit) (s : State) : State × Reply :=
  (s, .done (u16 Config.partCode ++ u8 Config.revision ++ u8 s.startUpKind.code))

/-- IDENT (R183). -/
def execIdent (f : Request) (s : State) : Host.Outcome State Fault Refusal := serve 0x01 f readEmpty ident s

/-- The count no longer advances (05, R69). -/
def State.countStopped (s : State) : Bool := Config.minuteMax ≤ s.minute

def clockRead (_ : Unit) (s : State) : State × Reply := (s, .done (u32 s.minute ++ mark s.countStopped))

/-- CLOCK READ (R183). -/
def execClockRead (f : Request) (s : State) : Host.Outcome State Fault Refusal := serve 0x02 f readEmpty clockRead s

/-! ### ATTENTION TAKE and ATTENTION MASK (R185, R186) -/

/-- A set of attention classes as it is sent (R184). -/
def classBytes (c : ClassSet) : List Byte := u16 c.toNat

/-- The pending set of a link is emptied (R185). -/
def State.takeAttention (s : State) (l : Link) : State := s.setPort l { s.port l with pending := 0 }

def attentionTake (l : Link) (_ : Unit) (s : State) : State × Reply :=
  (s.takeAttention l, .done (classBytes (s.port l).pending ++ classBytes (s.port l).mask))

/-- ATTENTION TAKE (R185). -/
def execAttentionTake (f : Request) (s : State) : Host.Outcome State Fault Refusal :=
  serve 0x03 f readEmpty (attentionTake f.link) s

/-- Whether a set names a bit with no class on a link (R186). -/
def namesNoClass (l : Link) (m : ClassSet) : Bool := m >>> classCount l != 0

/-- The mask of a link is replaced, and its classes leave the pending set (R186). -/
def State.maskAttention (s : State) (l : Link) (m : ClassSet) : State :=
  s.setPort l { s.port l with mask := m, pending := (s.port l).pending &&& ~~~m }

def attentionMask (l : Link) (m : ClassSet) (s : State) : State × Reply :=
  if namesNoClass l m then (s, .refuse .badField)
  else
    let s' := s.maskAttention l m
    (s', .done (classBytes (s'.port l).mask ++ classBytes (s'.port l).pending))

/-- ATTENTION MASK (R186). -/
def execAttentionMask (f : Request) (s : State) : Host.Outcome State Fault Refusal :=
  serve 0x04 f readClassSet (attentionMask f.link) s

/-! ### Kinds not served (R182, check 1) -/

/-- A frame of a kind that the table of R182 lacks. A kind of 80h or above and a body above 248 make no good frame: the
receiver abandons it (R179). A kind of the table is not this command, and has no effect here (log 16). -/
def unknownKind (kind : Byte) (f : Request) (s : State) : State :=
  if s.listens f.link then
    if 0x80 ≤ kind.toNat ∨ Config.bodyMax < f.body.length then s.setReceiver f.link .hunting
    else if (kindTable kind.toNat).isSome then s
    else s.answer kind.toNat f (.refuse .unknownKind)
  else s

/-- UNKNOWN_KIND (R182). -/
def execUnknownKind (kind : Byte) (f : Request) (s : State) : Host.Outcome State Fault Refusal :=
  .next (unknownKind kind f s)

/-! ### Line events of a receiver (R179, R181) -/

/-- A receiver in RECEIVING takes another state; in every other state it stays (R179). -/
def State.whenReceiving (s : State) (l : Link) (r : Receiver) : State :=
  match (s.port l).receiver with
  | .receiving => s.setReceiver l r
  | .hunting => s
  | .taking _ => s
  | .answering _ => s

/-- SYNC_BYTE: a sync byte heard in HUNTING begins a frame; elsewhere A5h is data or is discarded (R179). -/
def execSyncByte (l : Link) (s : State) : Host.Outcome State Fault Refusal :=
  whileRunning s fun s => if (s.port l).receiver = .hunting then s.setReceiver l .receiving else s

/-- FRAME_ABANDONED: bytes heard in RECEIVING that make the receiver abandon the frame (R179); other bytes are no such event
(log 16). -/
def execFrameAbandoned (l : Link) (heard : List Byte) (s : State) : Host.Outcome State Fault Refusal :=
  whileRunning s fun s => if abandons heard then s.whenReceiving l .hunting else s

/-- BYTE_GAP_TIMEOUT: a gap of more than 4 ms abandons the frame being received (R179). -/
def execByteGapTimeout (l : Link) (s : State) : Host.Outcome State Fault Refusal :=
  whileRunning s fun s => s.whenReceiving l .hunting

/-- A break resets a receiver in HUNTING or RECEIVING; in TAKING it is ignored, in ANSWERING it cannot be seen (R179). -/
def State.breakSeen (s : State) (l : Link) : State :=
  match (s.port l).receiver with
  | .hunting => s.setReceiver l .hunting
  | .receiving => s.setReceiver l .hunting
  | .taking _ => s
  | .answering _ => s

/-- BREAK (R179). -/
def execLineBreak (l : Link) (s : State) : Host.Outcome State Fault Refusal := whileRunning s fun s => s.breakSeen l

/-- The response of a link has been sent to its last check byte (R181; from TAKING by log 2). -/
def State.sent (s : State) (l : Link) : State :=
  match (s.port l).receiver with
  | .answering _ => s.setReceiver l .hunting
  | .taking _ => s.setReceiver l .hunting
  | .hunting => s
  | .receiving => s

/-- RESPONSE_SENT (R181). -/
def execResponseSent (l : Link) (s : State) : Host.Outcome State Fault Refusal := whileRunning s fun s => s.sent l

/-! ### The response begins (R181) -/

/-- The response waiting on a link begins: TAKING to ANSWERING (R181). -/
def State.beginResponse (s : State) (l : Link) : State :=
  match (s.port l).receiver with
  | .taking r => s.setReceiver l (.answering r)
  | .hunting => s
  | .receiving => s
  | .answering _ => s

/-- While no command waits, every response that waits begins (log 2). -/
def State.beginResponses (s : State) : State :=
  if s.condition = .running then ((s.beginResponse .office).beginResponse .kilnHouse).beginResponse .planer else s

end Sys2Proof.Machine
end

