-- ==== Sys2Proof/Machine/Power.lean ====
section
/-! DEFINITION. The mill-stop line (06, R106, R107), supply and the RESET line (11, R187, R188), the start-up as one operation,
and CLEAR ALL (11, R189). -/

namespace Sys2Proof.Machine

/-! ### The mill-stop line -/

/-- MILL_STOP: the line asserted. Acted on when it was released and the part runs (06, R106; 11, R188; log 15). -/
def execMillStop (s : State) : Host.Outcome State Fault Refusal :=
  .next (if s.condition = .running ∧ s.millStopLine = false then s.stopMill else { s with millStopLine := true })

/-- MILL_STOP_RELEASED: the line released changes nothing else and raises nothing (06, R107). -/
def execMillStopReleased (s : State) : Host.Outcome State Fault Refusal := .next { s with millStopLine := false }

/-! ### The values a start-up gives the blocks -/

/-- The records with retention lost (R22, R36, R69, R92, R112, R125, R143, R148, R169, R177). -/
def State.clearedRecords (s : State) : State :=
  { s with
    minute := 0, lots := [], redryFirst := Config.redryFirst, redryLast := Config.redryLast,
    redryNext := Config.redryFirst, schedules := [], species := Vector.replicate 16 none,
    kilns := Vector.replicate 8 KilnContext.unused, capacity := Config.boilerCapacity, masterEnable := false,
    heat := Vector.replicate 8 ⟨0, .absent⟩, holdPoints := Vector.replicate 4 HoldPoint.unused, queue := [], nextSeq := 1,
    lineHeld := false, shadow := false, binMap := unmappedBins, stackers := Vector.replicate 6 Stacker.unused, nextPack := 1,
    labels := [], serial := some 1 }

/-- The door of a kiln is closed (05, R91). -/
def State.closeDoor (s : State) (k : KilnNo) : State := s.setKiln k { s.kiln k with doorOpen := false }

/-- The idle minutes of a stacker after a start-up with retention intact (09, R168). -/
def Stacker.restarted (r : Stacker) : Stacker :=
  { r with
    idleMinutes := match r.openPack with
      | some p => if r.idleDue then p.idleTime else 0
      | none => 0 }

/-- The blocks' values with retention intact (R187, item 1: R91, R111, R147, R168); all else is kept. -/
def State.keptRecords (s : State) : State :=
  let s1 := { s with masterEnable := false, lineHeld := false, shadow := false, stackers := s.stackers.map Stacker.restarted }
  allKilns.foldl (fun s k => (s.closeDoor k).formDormant k) s1

/-- The values of the link ports after a start-up, by whether retention was lost (R187, item 4). -/
def startUpAttention (lost : Bool) : ClassSet :=
  if lost then AttnClass.restarted.set ||| AttnClass.retentionLost.set else AttnClass.restarted.set

def State.freshPorts (s : State) (lost : Bool) : State :=
  { s with
    officePort := LinkPort.fresh (startUpAttention lost), kilnHousePort := LinkPort.fresh 0,
    planerPort := LinkPort.fresh 0 }

/-- The records of a start-up before its ports: cleared, or kept, purged and re-examined (R187, items 1 and 2). -/
def State.startUpRecords (s : State) (lost : Bool) : State :=
  if lost then s.clearedRecords else s.keptRecords.purge.reexamineAll

/-- Whether a kind of start-up is made with retention lost (R183, R187). -/
def StartUpKind.lost : StartUpKind → Bool
  | .powerLost => true
  | .powerIntact => false
  | .reset => false
  | .clearAll => false

/-- A start-up as one whole operation (R187; the rate straps by R179, the mill-stop line as it stands by 06, R107). -/
def State.startUp (s : State) (kind : StartUpKind) (straps : Straps) : State :=
  { (s.startUpRecords kind.lost).freshPorts kind.lost with
    condition := .running, startUpKind := kind, lineRate := lineRateOf straps }

/-! ### Main supply (R187) -/

/-- POWER_LOSS: the marker is written and the part stops; while a start-up judged lost is still to be made, the next power-on
makes it again (R187; log 12). A part without supply loses none. -/
def execPowerLoss (s : State) : Host.Outcome State Fault Refusal :=
  .next <|
    match s.condition with
    | .running => { s with condition := .stopped, completionMarker := true }
    | .held kind => { s with condition := .stopped, completionMarker := !kind.lost }
    | .stopped => s

/-- The judgement of retention at a power-on (R187). -/
def State.judgePower (s : State) (cellHeld : Bool) : StartUpKind :=
  if s.completionMarker && cellHeld then .powerIntact else .powerLost

/-- POWER_ON: retention is judged and the marker cleared; then the start-up, or the hold of an asserted RESET line (R187,
R188). A part that has supply is not powered on. -/
def execPowerOn (cellHeld : Bool) (straps : Straps) (s : State) : Host.Outcome State Fault Refusal :=
  .next <|
    if s.condition = .stopped then
      let s1 := { s with completionMarker := false }
      if s.resetLine then { s1 with condition := .held (s.judgePower cellHeld) }
      else s1.startUp (s.judgePower cellHeld) straps
    else s

/-! ### The RESET line (R188) -/

/-- RESET_ASSERTED: a running part is held, and every receiver stops (R188). -/
def execResetAsserted (s : State) : Host.Outcome State Fault Refusal :=
  .next <|
    let s1 := { s with resetLine := true }
    if s.condition = .running then
      { ((s1.setReceiver .office .hunting).setReceiver .kilnHouse .hunting).setReceiver .planer .hunting with
        condition := .held .reset }
    else s1

/-- RESET_RELEASED: a held part makes its start-up, with the kind RESET or the kind judged at its power-on (R188). -/
def execResetReleased (straps : Straps) (s : State) : Host.Outcome State Fault Refusal :=
  .next <|
    let s1 := { s with resetLine := false }
    match s.condition with
    | .held kind => s1.startUp kind straps
    | .running => s1
    | .stopped => s1

/-! ### CLEAR ALL (R189) -/

/-- Whether every kiln is EMPTY (R189). -/
def State.kilnsEmpty (s : State) : Bool := allKilns.all fun k => (s.kiln k).state == .empty

/-- Whether any stacker holds an OPEN or CLOSING pack (R189). -/
def State.packStands (s : State) : Bool :=
  allStackers.any fun st => (s.stacker st).openPack.isSome || (s.stacker st).closing.isSome

/-- An accepted CLEAR ALL before its response: the records, and the ports with the office receiver left as it is (R189). -/
def State.cleared (s : State) : State :=
  let s1 := { s.clearedRecords.freshPorts true with startUpKind := .clearAll }
  s1.setReceiver .office s.officePort.receiver

def clearAll (_ : Unit) (s : State) : State × Reply :=
  if !s.kilnsEmpty || !s.queue.isEmpty || s.packStands then
    (s, ⟨.wrongState, mark (!s.kilnsEmpty) ++ mark (!s.queue.isEmpty) ++ mark s.packStands⟩)
  else (s.cleared, .done)

/-- CLEAR ALL (R189). -/
def execClearAll (f : Request) (s : State) : Host.Outcome State Fault Refusal := serve 0x3F f readEmpty clearAll s

end Sys2Proof.Machine
end

