-- ==== Sys2Proof/Machine/Schedules.lean ====
section
/-! DEFINITION. Schedules and species: SCHEDULE WRITE, SCHEDULE DELETE, SCHEDULE READ, SPECIES WRITE, SPECIES DELETE and SPECIES
READ (chapter 2, R26, R27, R30, R31, R33 to R35). -/

namespace Sys2Proof.Machine

/-! ### SCHEDULE WRITE -/

/-- The exit of a step from its kind code and its value: the codes of the failed check (9, 10), or the exit (R26; the codes
of 11, R190). -/
def exitOf (kind : Nat) (value : Option (Option Nat)) : Nat ⊕ StepExit :=
  match kind, value with
  | 0, some none => .inr .time
  | 3, some none => .inr .drybulbReached
  | 1, some (some v) => if v ≤ 2000 then .inr (.cmcAtOrBelow v) else .inl 10
  | 2, some (some v) => if v ≤ 2000 then .inr (.driestAtOrAbove v) else .inl 10
  | 4, some (some v) => if v ≤ 950 then .inr (.drybulbAtOrBelow v) else .inl 10
  | _, _ => .inl 9

/-- The checks of one step in R26's order: the code of the first that fails, or the step. -/
def StepBody.check (b : StepBody) : Nat ⊕ ScheduleStep :=
  match StepKind.ofCode b.kind with
  | none => .inl 4
  | some kind =>
    if b.dryBulb < 100 ∨ 950 < b.dryBulb then .inl 5
    else if 300 < b.depression then .inl 6
    else if 16 < b.demand then .inl 7
    else if 4 < b.exitKind then .inl 8
    else match exitOf b.exitKind b.exitValue with
      | .inl code => .inl code
      | .inr exit =>
        if 43200 < b.minMinutes then .inl 11
        else if b.maxMinutes = 0 ∨ 43200 < b.maxMinutes then .inl 12
        else if b.maxMinutes < b.minMinutes then .inl 13
        else .inr ⟨kind, b.dryBulb, b.depression, b.demand, exit, b.minMinutes, b.maxMinutes⟩

/-- The steps from an index upward: the index and code of the first fault, or all of them (R26). -/
def checkSteps (index : Nat) : List StepBody → (Nat × Nat) ⊕ List ScheduleStep
  | [] => .inr []
  | b :: rest =>
    match b.check with
    | .inl code => .inl (index, code)
    | .inr t =>
      match checkSteps (index + 1) rest with
      | .inl fault => .inl fault
      | .inr ts => .inr (t :: ts)

/-- A whole schedule, or its first fault as an optional step index and a field code (R26). -/
def ScheduleBody.check (q : ScheduleBody) : (Option Nat × Nat) ⊕ Schedule :=
  if q.id = 0 then .inl (none, 1)
  else if 12 < q.textLen ∨ !q.text.all printable then .inl (none, 2)
  else if q.stepCount = 0 ∨ 12 < q.stepCount then .inl (none, 3)
  else match checkSteps 0 q.steps with
    | .inl (index, code) => .inl (some index, code)
    | .inr steps => .inr ⟨q.id, q.text, steps⟩

/-- A schedule put into the ascending list (R23). -/
def insertById (c : Schedule) : List Schedule → List Schedule
  | [] => [c]
  | d :: ds => if c.id < d.id then c :: d :: ds else d :: insertById c ds

def State.placeSchedule (s : State) (c : Schedule) : State := { s with schedules := insertById c s.schedules }

def State.replaceSchedule (s : State) (c : Schedule) : State :=
  { s with schedules := s.schedules.map fun d => if d.id = c.id then c else d }

/-- The list of kilns that name a schedule, as it is sent (R27, R30, R31). -/
def State.namingBytes (s : State) (id : Nat) : List Byte := counted (fun k => u8 k.val) (s.kilnsNaming id)

def scheduleWrite (q : ScheduleBody) (s : State) : State × Reply :=
  match q.check with
  | .inl (index, code) => (s, ⟨.badField, optU8 index ++ u8 code⟩)
  | .inr c =>
    if (s.findSchedule c.id).isSome then
      if (s.kilnsNaming c.id).isEmpty then (s.replaceSchedule c, .done (u8 s.schedules.length))
      else (s, ⟨.inUse, s.namingBytes c.id⟩)
    else if s.schedules.length < Config.scheduleSlots then
      (s.placeSchedule c, .done (u8 (s.schedules.length + 1)))
    else (s, .refuse .tableFull)

/-- SCHEDULE WRITE (R26, R27). -/
def execScheduleWrite (f : Request) (s : State) : Host.Outcome State Fault Refusal :=
  serve 0x18 f readScheduleWrite scheduleWrite s

/-! ### SCHEDULE DELETE and SCHEDULE READ -/

def State.removeSchedule (s : State) (id : Nat) : State :=
  { s with schedules := s.schedules.filter fun c => c.id != id }

def scheduleDelete (id : Nat) (s : State) : State × Reply :=
  if id = 0 then (s, .refuse .badField)
  else if (s.findSchedule id).isNone then (s, .refuse .noSuchSchedule)
  else if (s.kilnsNaming id).isEmpty then
    (s.removeSchedule id, .done (u8 (s.removeSchedule id).schedules.length))
  else (s, ⟨.inUse, s.namingBytes id⟩)

/-- SCHEDULE DELETE (R30). -/
def execScheduleDelete (f : Request) (s : State) : Host.Outcome State Fault Refusal :=
  serve 0x19 f readU8 scheduleDelete s

/-- Every field of a step, in the order of its table (section 2.1). -/
def ScheduleStep.bytes (t : ScheduleStep) : List Byte :=
  u8 t.kind.code ++ u16 t.dryBulb ++ u16 t.depression ++ u8 t.demand ++ u8 t.exit.code ++ optU16 t.exit.value? ++
    u16 t.minMinutes ++ u16 t.maxMinutes

/-- The response of SCHEDULE READ (R31). -/
def State.scheduleBytes (s : State) (c : Schedule) : List Byte :=
  u8 s.schedules.length ++ u8 c.id ++ text c.text ++ counted ScheduleStep.bytes c.steps ++ s.namingBytes c.id ++
    mark (!(s.kilnsNaming c.id).isEmpty)

/-- The schedule with the lowest id above the one given (R31, NEXT); the list stands in ascending id. -/
def State.nextSchedule (s : State) (id : Nat) : Option Schedule := s.schedules.find? fun c => decide (id < c.id)

def scheduleRead (q : Nat × Nat) (s : State) : State × Reply :=
  if 1 < q.2 then (s, .refuse .badField)
  else
    match if q.2 = 0 then s.findSchedule q.1 else s.nextSchedule q.1 with
    | none => (s, .refuse .noSuchSchedule)
    | some c => (s, .done (s.scheduleBytes c))

/-- SCHEDULE READ (R31). -/
def execScheduleRead (f : Request) (s : State) : Host.Outcome State Fault Refusal :=
  serve 0x1A f readU8U8 scheduleRead s

/-! ### Species -/

/-- The place of a species code given a record, or emptied (R32). -/
def State.setSpecies (s : State) (code : Nat) (r : Option Species) : State :=
  match placeOf 16 code with
  | some c => { s with species := s.species.set c r }
  | none => s

def speciesWrite (q : SpeciesBody) (s : State) : State × Reply :=
  if 15 < q.code ∨ q.nameLen = 0 ∨ 8 < q.nameLen ∨ !q.name.all printable ∨ q.fs < 500 ∨ 1500 < q.fs ∨ 50 < q.kt then
    (s, .refuse .badField)
  else (s.setSpecies q.code (some ⟨q.name, q.fs, q.kt⟩), .done)

/-- SPECIES WRITE (R33). -/
def execSpeciesWrite (f : Request) (s : State) : Host.Outcome State Fault Refusal :=
  serve 0x1B f readSpeciesWrite speciesWrite s

def speciesDelete (code : Nat) (s : State) : State × Reply :=
  if (s.speciesAt code).isNone then (s, .refuse .badField)
  else if 0 < s.lotsOfSpecies code then (s, ⟨.inUse, u8 (s.lotsOfSpecies code)⟩)
  else (s.setSpecies code none, .done)

/-- SPECIES DELETE (R34). -/
def execSpeciesDelete (f : Request) (s : State) : Host.Outcome State Fault Refusal :=
  serve 0x1C f readU8 speciesDelete s

/-- The place of a species code as it is sent: presence mark, name, Fs, Kt, zero where the place is empty (R35; log 6). -/
def speciesBytes : Option Species → List Byte
  | some r => mark true ++ text r.name ++ u16 r.fs ++ u8 r.kt
  | none => mark false ++ text [] ++ u16 0 ++ u8 0

def speciesRead (code : Nat) (s : State) : State × Reply :=
  if 15 < code then (s, .refuse .badField)
  else (s, .done (speciesBytes (s.speciesAt code) ++ u8 (s.lotsOfSpecies code)))

/-- SPECIES READ (R35). -/
def execSpeciesRead (f : Request) (s : State) : Host.Outcome State Fault Refusal := serve 0x1D f readU8 speciesRead s

end Sys2Proof.Machine
end

