-- ==== Sys2Proof/Machine/Dispatch.lean ====
section
/-! DEFINITION. One arm for each command, in the order of spec/opcode_table.json. -/

namespace Sys2Proof.Machine

def exec (i : Instr) (s : State) : Host.Outcome State Fault Refusal :=
  match i with
  | .ident f => Sys2Proof.Machine.execIdent f s
  | .clockRead f => Sys2Proof.Machine.execClockRead f s
  | .attentionTake f => Sys2Proof.Machine.execAttentionTake f s
  | .attentionMask f => Sys2Proof.Machine.execAttentionMask f s
  | .lotRead f => Sys2Proof.Machine.execLotRead f s
  | .lotList f => Sys2Proof.Machine.execLotList f s
  | .kilnRead f => Sys2Proof.Machine.execKilnRead f s
  | .stackerRead f => Sys2Proof.Machine.execStackerRead f s
  | .binMapRead f => Sys2Proof.Machine.execBinMapRead f s
  | .queueRead f => Sys2Proof.Machine.execQueueRead f s
  | .lotCreate f => Sys2Proof.Machine.execLotCreate f s
  | .lotModify f => Sys2Proof.Machine.execLotModify f s
  | .lotHold f => Sys2Proof.Machine.execLotHold f s
  | .lotRelease f => Sys2Proof.Machine.execLotRelease f s
  | .lotFinish f => Sys2Proof.Machine.execLotFinish f s
  | .lotRemove f => Sys2Proof.Machine.execLotRemove f s
  | .redryRange f => Sys2Proof.Machine.execRedryRange f s
  | .scheduleWrite f => Sys2Proof.Machine.execScheduleWrite f s
  | .scheduleDelete f => Sys2Proof.Machine.execScheduleDelete f s
  | .scheduleRead f => Sys2Proof.Machine.execScheduleRead f s
  | .speciesWrite f => Sys2Proof.Machine.execSpeciesWrite f s
  | .speciesDelete f => Sys2Proof.Machine.execSpeciesDelete f s
  | .speciesRead f => Sys2Proof.Machine.execSpeciesRead f s
  | .sampleEnter f => Sys2Proof.Machine.execSampleEnter f s
  | .sampleWeigh f => Sys2Proof.Machine.execSampleWeigh f s
  | .sampleRemove f => Sys2Proof.Machine.execSampleRemove f s
  | .kilnCharge f => Sys2Proof.Machine.execKilnCharge f s
  | .kilnStart f => Sys2Proof.Machine.execKilnStart f s
  | .kilnStop f => Sys2Proof.Machine.execKilnStop f s
  | .kilnUnload f => Sys2Proof.Machine.execKilnUnload f s
  | .kilnSetup f => Sys2Proof.Machine.execKilnSetup f s
  | .kilnHold f => Sys2Proof.Machine.execKilnHold f s
  | .kilnRelease f => Sys2Proof.Machine.execKilnRelease f s
  | .kilnAdvance f => Sys2Proof.Machine.execKilnAdvance f s
  | .holdPointSet f => Sys2Proof.Machine.execHoldPointSet f s
  | .holdPointRead f => Sys2Proof.Machine.execHoldPointRead f s
  | .boilerCapacity f => Sys2Proof.Machine.execBoilerCapacity f s
  | .binMapWrite f => Sys2Proof.Machine.execBinMapWrite f s
  | .binMapSet f => Sys2Proof.Machine.execBinMapSet f s
  | .stackerSetup f => Sys2Proof.Machine.execStackerSetup f s
  | .labelRead f => Sys2Proof.Machine.execLabelRead f s
  | .labelRelease f => Sys2Proof.Machine.execLabelRelease f s
  | .clearAll f => Sys2Proof.Machine.execClearAll f s
  | .kilnReport f => Sys2Proof.Machine.execKilnReport f s
  | .measure f => Sys2Proof.Machine.execMeasure f s
  | .drop f => Sys2Proof.Machine.execDrop f s
  | .lost f => Sys2Proof.Machine.execLost f s
  | .lineHold f => Sys2Proof.Machine.execLineHold f s
  | .lineRun f => Sys2Proof.Machine.execLineRun f s
  | .shadowOn f => Sys2Proof.Machine.execShadowOn f s
  | .shadowOff f => Sys2Proof.Machine.execShadowOff f s
  | .packClose f => Sys2Proof.Machine.execPackClose f s
  | .unknownKind kind f => Sys2Proof.Machine.execUnknownKind kind f s
  | .frameAbandoned l heard => Sys2Proof.Machine.execFrameAbandoned l heard s
  | .byteGapTimeout l => Sys2Proof.Machine.execByteGapTimeout l s
  | .lineBreak l => Sys2Proof.Machine.execLineBreak l s
  | .responseSent l => Sys2Proof.Machine.execResponseSent l s
  | .minuteEvent => Sys2Proof.Machine.execMinuteEvent s
  | .minuteCountStopped => Sys2Proof.Machine.execMinuteCountStopped s
  | .stepForced k => Sys2Proof.Machine.execStepForced k s
  | .heatWaitAged k => Sys2Proof.Machine.execHeatWaitAged k s
  | .idleClose st => Sys2Proof.Machine.execIdleClose st s
  | .millStop => Sys2Proof.Machine.execMillStop s
  | .millStopReleased => Sys2Proof.Machine.execMillStopReleased s
  | .powerLoss => Sys2Proof.Machine.execPowerLoss s
  | .powerOn cellHeld straps => Sys2Proof.Machine.execPowerOn cellHeld straps s
  | .resetAsserted => Sys2Proof.Machine.execResetAsserted s
  | .resetReleased straps => Sys2Proof.Machine.execResetReleased straps s
  | .syncByte l => Sys2Proof.Machine.execSyncByte l s

end Sys2Proof.Machine
end

