-- ==== Sys2Proof/WellFormed.lean ====
section
/-! DEFINITION. Which commands can come about: a good frame has a body of at most 248 bytes (11, R179), an unknown kind is a
kind below 80h that R182's table lacks, and a frame is abandoned only on bytes that R179 abandons. `exec` is total: it gives
the commands ruled out here no effect, or that of R179 (log 16). -/

namespace Sys2Proof

/-- A frame that R179 can take. -/
def Request.wf (f : Request) : Bool := f.body.length ≤ Config.bodyMax

/-- The frame of a command that is a request, none for the other commands. -/
def Instr.frame? : Instr → Option Request
  | .ident f => some f
  | .clockRead f => some f
  | .attentionTake f => some f
  | .attentionMask f => some f
  | .lotRead f => some f
  | .lotList f => some f
  | .kilnRead f => some f
  | .stackerRead f => some f
  | .binMapRead f => some f
  | .queueRead f => some f
  | .lotCreate f => some f
  | .lotModify f => some f
  | .lotHold f => some f
  | .lotRelease f => some f
  | .lotFinish f => some f
  | .lotRemove f => some f
  | .redryRange f => some f
  | .scheduleWrite f => some f
  | .scheduleDelete f => some f
  | .scheduleRead f => some f
  | .speciesWrite f => some f
  | .speciesDelete f => some f
  | .speciesRead f => some f
  | .sampleEnter f => some f
  | .sampleWeigh f => some f
  | .sampleRemove f => some f
  | .kilnCharge f => some f
  | .kilnStart f => some f
  | .kilnStop f => some f
  | .kilnUnload f => some f
  | .kilnSetup f => some f
  | .kilnHold f => some f
  | .kilnRelease f => some f
  | .kilnAdvance f => some f
  | .holdPointSet f => some f
  | .holdPointRead f => some f
  | .boilerCapacity f => some f
  | .binMapWrite f => some f
  | .binMapSet f => some f
  | .stackerSetup f => some f
  | .labelRead f => some f
  | .labelRelease f => some f
  | .clearAll f => some f
  | .kilnReport f => some f
  | .measure f => some f
  | .drop f => some f
  | .lost f => some f
  | .lineHold f => some f
  | .lineRun f => some f
  | .shadowOn f => some f
  | .shadowOff f => some f
  | .packClose f => some f
  | .unknownKind _ f => some f
  | .frameAbandoned _ _ => none
  | .byteGapTimeout _ => none
  | .lineBreak _ => none
  | .responseSent _ => none
  | .minuteEvent => none
  | .minuteCountStopped => none
  | .stepForced _ => none
  | .heatWaitAged _ => none
  | .idleClose _ => none
  | .millStop => none
  | .millStopReleased => none
  | .powerLoss => none
  | .powerOn _ _ => none
  | .resetAsserted => none
  | .resetReleased _ => none
  | .syncByte _ => none

/-- A kind byte that no request of R182's table has and that a request can carry (R179, R182). -/
def unserved (kind : Byte) : Bool := decide (kind.toNat < 0x80) && (Machine.kindTable kind.toNat).isNone

/-- A command that can come about. -/
def Instr.wf (i : Instr) : Bool :=
  (match i.frame? with | some f => f.wf | none => true) &&
    match i with
    | .unknownKind kind _ => unserved kind
    | .frameAbandoned _ heard => Machine.abandons heard
    | _ => true

end Sys2Proof
end

