-- ==== Sys2Proof/Safety.lean ====
section
/-! DEFINITION. The terms in which claims are made: the kind code and the body layout of each request as R182, R190 and R191
give them, when a link takes a frame, the invariants of the part (01 R1, R8, R15; 02 R23, R28; 06 R94; 08 R126; 10 R172; 11 R184),
and passes and revocations by the kilns' figures alone (06 R99, R104). -/

namespace Sys2Proof

open Sys2Proof.Machine

/-! ### Kinds and layouts (R182, R190, R191) -/

/-- The kind code of a request (R182), none for a command that is no request of its table. -/
def Instr.kind? : Instr → Option Nat
  | .ident _ => some 0x01
  | .clockRead _ => some 0x02
  | .attentionTake _ => some 0x03
  | .attentionMask _ => some 0x04
  | .lotRead _ => some 0x05
  | .lotList _ => some 0x06
  | .kilnRead _ => some 0x07
  | .stackerRead _ => some 0x08
  | .binMapRead _ => some 0x09
  | .queueRead _ => some 0x0A
  | .lotCreate _ => some 0x10
  | .lotModify _ => some 0x11
  | .lotHold _ => some 0x12
  | .lotRelease _ => some 0x13
  | .lotFinish _ => some 0x14
  | .lotRemove _ => some 0x15
  | .redryRange _ => some 0x16
  | .scheduleWrite _ => some 0x18
  | .scheduleDelete _ => some 0x19
  | .scheduleRead _ => some 0x1A
  | .speciesWrite _ => some 0x1B
  | .speciesDelete _ => some 0x1C
  | .speciesRead _ => some 0x1D
  | .sampleEnter _ => some 0x20
  | .sampleWeigh _ => some 0x21
  | .sampleRemove _ => some 0x22
  | .kilnCharge _ => some 0x24
  | .kilnStart _ => some 0x25
  | .kilnStop _ => some 0x26
  | .kilnUnload _ => some 0x27
  | .kilnSetup _ => some 0x28
  | .kilnHold _ => some 0x29
  | .kilnRelease _ => some 0x2A
  | .kilnAdvance _ => some 0x2B
  | .holdPointSet _ => some 0x2C
  | .holdPointRead _ => some 0x2D
  | .boilerCapacity _ => some 0x2E
  | .binMapWrite _ => some 0x30
  | .binMapSet _ => some 0x31
  | .stackerSetup _ => some 0x32
  | .labelRead _ => some 0x34
  | .labelRelease _ => some 0x35
  | .clearAll _ => some 0x3F
  | .kilnReport _ => some 0x40
  | .measure _ => some 0x50
  | .drop _ => some 0x51
  | .lost _ => some 0x52
  | .lineHold _ => some 0x53
  | .lineRun _ => some 0x54
  | .shadowOn _ => some 0x55
  | .shadowOff _ => some 0x56
  | .packClose _ => some 0x57
  | .unknownKind _ _ => none
  | .frameAbandoned _ _ => none
  | .byteGapTimeout _ => none
  | .lineBreak _ => none
  | .responseSent _ => none
  | .minuteEvent => none
  | .minuteCountStopped => none
  | .stepForced _ => none
  | .heatWaitAged _ => none
  | .idleClose _ => none
  | .millStop => none
  | .millStopReleased => none
  | .powerLoss => none
  | .powerOn _ _ => none
  | .resetAsserted => none
  | .resetReleased _ => none
  | .syncByte _ => none

/-- The body length of the kinds whose layout is fixed, from the field sizes of R190 and R191. -/
def fixedLength : Nat → Nat
  | 0x04 => 2
  | 0x05 => 2
  | 0x06 => 2
  | 0x07 => 2
  | 0x08 => 1
  | 0x0A => 1
  | 0x10 => 10
  | 0x11 => 14
  | 0x12 => 2
  | 0x13 => 4
  | 0x14 => 2
  | 0x15 => 2
  | 0x16 => 4
  | 0x19 => 1
  | 0x1A => 2
  | 0x1C => 1
  | 0x1D => 1
  | 0x20 => 6
  | 0x22 => 2
  | 0x25 => 1
  | 0x26 => 1
  | 0x27 => 1
  | 0x28 => 2
  | 0x29 => 1
  | 0x2A => 1
  | 0x2B => 1
  | 0x2C => 7
  | 0x2E => 2
  | 0x30 => 15
  | 0x31 => 2
  | 0x32 => 8
  | 0x34 => 2
  | 0x35 => 1
  | 0x40 => 6
  | 0x50 => 10
  | 0x51 => 1
  | 0x52 => 2
  | 0x57 => 1
  | _ => 0

/-- Whether a body's length agrees with the layout of its kind, fixed or given by the counts and text lengths it carries
(R182, check 3): SCHEDULE WRITE, SPECIES WRITE, SAMPLE WEIGH and KILN CHARGE carry counts. -/
def layoutAgrees (kind : Nat) (body : List Byte) : Bool :=
  match kind with
  | 0x18 =>
    match body with
    | _ :: len :: rest =>
      match rest[len.toNat]? with
      | some count => body.length == 3 + len.toNat + 14 * count.toNat
      | none => false
    | _ => false
  | 0x1B =>
    match body with
    | _ :: len :: _ => body.length == 5 + len.toNat
    | _ => false
  | 0x21 =>
    match body with
    | _ :: n :: _ => body.length == 2 + 3 * n.toNat
    | _ => false
  | 0x24 =>
    match body with
    | _ :: _ :: n :: _ => body.length == 3 + 2 * n.toNat
    | _ => false
  | _ => body.length == fixedLength kind

namespace Machine

/-- A frame that came in on a link and that the link takes. -/
abbrev Heard (s : State) (f : Request) (l : Link) : Prop := f.link = l ∧ s.listens l = true

/-! ### Invariants -/

/-- The pending set of a link never holds a masked class (11, R184). -/
def AttentionSound (s : State) : Prop := ∀ l, (s.port l).pending &&& (s.port l).mask = 0

/-- The grants never exceed the capacity, and they are zero while the master enable is clear (06, R94). -/
def HeatSound (s : State) : Prop := s.grantSum ≤ s.capacity ∧ (s.masterEnable = false → s.grantSum = 0)

/-- Records stand in ascending number, no number appears twice among records and reservations, and records and reserved slots
are at most 64 (01, R1). -/
def TableSound (s : State) : Prop :=
  (s.lots.map LotRecord.number).Pairwise (· < ·) ∧ s.reservations.Nodup ∧
    (∀ n ∈ s.reservations, n ∉ s.lots.map LotRecord.number) ∧ s.slotsTaken ≤ Config.lotSlots

/-- The label records queued plus the label slots reserved never exceed 16 (10, R172). -/
def LabelsSound (s : State) : Prop := s.labels.length + s.labelsReserved ≤ Config.labelSlots

/-- The tracking queue never holds more than 48 boards (08, R126). -/
def QueueSound (s : State) : Prop := s.queue.length ≤ Config.queueSlots

/-- The queued boards bound for a stacker that carry a pack number. -/
def State.boardsBound (s : State) (st : StackerNo) (n : Nat) : Nat :=
  s.queue.countP fun b => b.destination == .stacker st && b.pack == some n

/-- A pack of a number stands on a stacker, OPEN or CLOSING (09, R152). -/
def Stacker.Holds (r : Stacker) (n : Nat) : Prop :=
  (∃ p, r.openPack = some p ∧ p.number = n) ∨ ∃ c, r.closing = some c ∧ c.pack.number = n

/-- At most 48 boards, each of its own sequence number; the outstanding count of a pack, OPEN or CLOSING, is the number of its
boards in the queue; a board that carries a pack number names a pack that stands on its stacker (08, R126; 09, R162). -/
def LineSound (s : State) : Prop :=
  QueueSound s ∧ (s.queue.map Board.seq).Nodup ∧
    (∀ st p, (s.stacker st).openPack = some p → p.outstanding = s.boardsBound st p.number ∧ p.outstanding ≤ p.boards) ∧
    (∀ st c, (s.stacker st).closing = some c → c.pack.outstanding = s.boardsBound st c.pack.number) ∧
    (∀ st p c, (s.stacker st).openPack = some p → (s.stacker st).closing = some c → p.number ≠ c.pack.number) ∧
    ∀ b ∈ s.queue, ∀ n, b.pack = some n → ∃ st, b.destination = .stacker st ∧ (s.stacker st).Holds n

/-- The counter pair of a disposition (01, section 1.1). -/
def LotRecord.pair (l : LotRecord) : Disposition → Tally
  | .pass => l.passed
  | .redry => l.redry
  | .reject => l.rejected
  | .holdback => l.heldBack

/-- The measured pair is the sum of the five other pairs, in boards and in footage (01, R15). -/
def LotRecord.Balanced (l : LotRecord) : Prop :=
  l.measured.boards = l.passed.boards + l.redry.boards + l.rejected.boards + l.heldBack.boards + l.lost.boards ∧
    l.measured.footage =
      l.passed.footage + l.redry.footage + l.rejected.footage + l.heldBack.footage + l.lost.footage

/-- The queued boards of a lot with a disposition. -/
def State.inFlight (s : State) (n : Nat) (d : Disposition) : List Board :=
  s.queue.filter fun b => b.lot == n && b.disposition == d

/-- Every lot is balanced, and each pair covers the lot's boards in flight with its disposition, which a loss may still take out
of it (01, R14, R15). -/
def TalliesSound (s : State) : Prop :=
  ∀ l ∈ s.lots, l.Balanced ∧ ∀ d, (s.inFlight l.number d).length ≤ (l.pair d).boards ∧
    ((s.inFlight l.number d).map Board.footage).sum ≤ (l.pair d).footage

/-- A lot is IN_KILN exactly when its number is on a charge list; no number is on two of them, each names a record, and an EMPTY
kiln has none (01, R8). -/
def ChargesSound (s : State) : Prop :=
  (∀ l ∈ s.lots, l.state = .inKiln ↔ ∃ k, l.number ∈ (s.kiln k).charge) ∧
    (∀ j k n, n ∈ (s.kiln j).charge → n ∈ (s.kiln k).charge → j = k) ∧
    (∀ k, ∀ n ∈ (s.kiln k).charge, n ∈ s.lots.map LotRecord.number) ∧ ∀ k, (s.kiln k).state = .empty → (s.kiln k).charge = []

/-- The Lot Table with the records that name its lots: charge lists, tallies, and boards in flight only of lots that are DRIED,
PLANING or HELD (01, R1, R8, R15; 08, R126). -/
def LotsSound (s : State) : Prop :=
  TableSound s ∧ QueueSound s ∧ (s.queue.map Board.seq).Nodup ∧ ChargesSound s ∧ TalliesSound s ∧
    ∀ b ∈ s.queue, ∃ l ∈ s.lots, l.number = b.lot ∧ l.state.measurable = true

/-! ### Records within the ranges of their tables -/

/-- A step within the ranges of its table (02, section 2.1, R25, R26). -/
def ScheduleStep.InRange (t : ScheduleStep) : Prop :=
  100 ≤ t.dryBulb ∧ t.dryBulb ≤ 950 ∧ t.depression ≤ 300 ∧ t.demand ≤ 16 ∧ t.minMinutes ≤ 43200 ∧
    1 ≤ t.maxMinutes ∧ t.maxMinutes ≤ 43200 ∧ t.minMinutes ≤ t.maxMinutes ∧
    match t.exit with
    | .time => True
    | .drybulbReached => True
    | .cmcAtOrBelow v => v ≤ 2000
    | .driestAtOrAbove v => v ≤ 2000
    | .drybulbAtOrBelow v => v ≤ 950

/-- A schedule within the ranges of its table (02, section 2.1, R26). -/
def Schedule.InRange (c : Schedule) : Prop :=
  1 ≤ c.id ∧ c.id ≤ 255 ∧ c.text.length ≤ 12 ∧ (∀ b ∈ c.text, 0x20 ≤ b.toNat ∧ b.toNat ≤ 0x7E) ∧
    1 ≤ c.steps.length ∧ c.steps.length ≤ 12 ∧ ∀ t ∈ c.steps, t.InRange

/-- A species record within the ranges of its table (02, section 2.5, R33). -/
def Species.InRange (r : Species) : Prop :=
  1 ≤ r.name.length ∧ r.name.length ≤ 8 ∧ (∀ b ∈ r.name, 0x20 ≤ b.toNat ∧ b.toNat ≤ 0x7E) ∧ 500 ≤ r.fs ∧ r.fs ≤ 1500 ∧
    r.kt ≤ 50

/-! ### The store and the whole part -/

/-- At most 16 schedules, in ascending id, each within its ranges; every kiln that is not EMPTY names one of them, at a step it
has, and an EMPTY kiln names none (02, R23, R28). -/
def StoreSound (s : State) : Prop :=
  (s.schedules.map Schedule.id).Pairwise (· < ·) ∧ s.schedules.length ≤ Config.scheduleSlots ∧
    (∀ c ∈ s.schedules, c.InRange) ∧
    ∀ k, ((s.kiln k).state = .empty ↔ (s.kiln k).scheduleId = none) ∧
      ((s.kiln k).state ≠ .empty → (s.kiln k).stepIndex < s.stepCount k)

/-- Every invariant, and bin 15 mapped to REJECT (08, R143). -/
def Sound (s : State) : Prop :=
  AttentionSound s ∧ HeatSound s ∧ TableSound s ∧ LabelsSound s ∧ LineSound s ∧ LotsSound s ∧ StoreSound s ∧
    s.binMap[15] = .reject

/-! ### Heat, by the figures of the kilns alone -/

/-- What a pass sees of a waiting kiln: its grant, its demand, and whether it is aged (06, R99). -/
structure Asking where
  kiln   : KilnNo
  grant  : Nat
  demand : Nat
  aged   : Bool
deriving DecidableEq, Repr

def State.asking (s : State) (k : KilnNo) : Asking :=
  ⟨k, (s.heatOf k).grant, (s.heatOf k).request.demand?.getD 0, s.aged k⟩

/-- The kilns a pass grants, in its order: each that the units free at its point cover; an aged kiln they do not cover ends the
pass, and a kiln not aged is passed over (06, R99). -/
def servedFrom (free : Nat) : List Asking → List KilnNo
  | [] => []
  | a :: rest =>
    if a.demand - a.grant ≤ free then a.kiln :: servedFrom (free + a.grant - a.demand) rest
    else if a.aged then []
    else servedFrom free rest

/-- The order of two waiting kilns in a pass: aged before not aged; aged by wait-since and then by number; the others by number
(06, R99). -/
def State.PassesBefore (s : State) (a b : KilnNo) : Prop :=
  if s.aged a = true then s.aged b = true → s.waitSince a < s.waitSince b ∨ s.waitSince a = s.waitSince b ∧ a < b
  else s.aged b = false ∧ a < b

/-- The kilns that lose their grants, in the order given, until the excess over the capacity is gone (06, R104). -/
def revokedFrom (excess : Nat) : List (KilnNo × Nat) → List KilnNo
  | [] => []
  | (k, g) :: rest =>
    if excess = 0 then []
    else if g = 0 then revokedFrom excess rest
    else k :: revokedFrom (excess - g) rest

/-- The grants from K7 down to K0, the order of a revocation (06, R104). -/
def State.grantsDown (s : State) : List (KilnNo × Nat) := allKilns.reverse.map fun k => (k, (s.heatOf k).grant)

/-- No kiln but one has a request that the arbiter considers (06, R95). -/
abbrev OthersDoNotWait (s : State) (k : KilnNo) : Prop := ∀ j, j ≠ k → (s.heatOf j).request.since? = none

/-- Whether a command may change the step index or the elapsed minutes of a kiln although the master enable is clear before and
after it: KILN ADVANCE the HELD kiln it names, KILN UNLOAD the LOADED or FINISHED one, KILN CHARGE the EMPTY one (06, R108), CLEAR
ALL an EMPTY kiln, and a start-up with retention lost every kiln. -/
def movesStep (c : Instr) (s : State) (k : KilnNo) : Prop :=
  match c with
  | .kilnAdvance f => f.body = u8 k ∧ (s.kiln k).state = .held
  | .kilnUnload f => f.body = u8 k ∧ ((s.kiln k).state = .loaded ∨ (s.kiln k).state = .finished)
  | .kilnCharge f => f.body.head? = some (byteOf k) ∧ (s.kiln k).state = .empty
  | .clearAll _ => (s.kiln k).state = .empty
  | .powerOn held _ => (s.completionMarker && held) = false
  | .resetReleased _ => s.condition = .held .powerLost
  | _ => False

end Machine

end Sys2Proof
end

