-- ==== Sys2Proof/Certificates/Slice0/Obligations.lean ====
section
/-! DEFINITION. The statements for the provers. A request statement gives the body by the field sizes of R191, and concludes with
the whole next state: the records changed, the classes raised, and the response that the receiver takes (`State.answer`). -/

open Sys2Proof Sys2Proof.Machine

/-! ### The step and the invariants -/

/-- A step takes the front command, whole, on the state with the queue's rest. -/
def Obligations.StepRunsFrontCommand : Prop :=
  ∀ (s : State) (c : Instr) (rest : List Instr), s.pending = c :: rest → step s = exec c { s with pending := rest }

/-- With no command waiting, each response that waits begins, and nothing else changes (the model's choice, log 2). -/
def Obligations.IdleStepBeginsResponses : Prop :=
  ∀ s : State, s.pending = [] →
    (s.condition ≠ .running → step s = .next s) ∧
    (s.condition = .running → ∃ t, step s = .next t ∧
      t = { s with officePort := t.officePort, kilnHousePort := t.kilnHousePort, planerPort := t.planerPort } ∧
      (∀ l r, (s.port l).receiver = .taking r → t.port l = { s.port l with receiver := .answering r }) ∧
      ∀ l, (∀ r, (s.port l).receiver ≠ .taking r) → t.port l = s.port l)

/-- The state after reset meets every invariant. -/
def Obligations.ResetMeetsInvariants : Prop := Sound State.reset

/-- The pending set never holds a masked class (11, R184). -/
def Obligations.PendingClearOfMask : Prop :=
  ∀ s t : State, AttentionSound s → step s = .next t → AttentionSound t

/-- The grants never exceed the capacity and are zero while the master enable is clear (06, R94). -/
def Obligations.GrantsWithinCapacity : Prop :=
  ∀ s t : State, HeatSound s → step s = .next t → HeatSound t

/-- Lot records stand in ascending number, no number is in use twice, and records and reserved slots are at most 64 (01, R1). -/
def Obligations.LotNumbersUsedOnce : Prop :=
  ∀ s t : State, TableSound s → step s = .next t → TableSound t

/-- Label records and reserved label slots are at most 16 (10, R172). -/
def Obligations.LabelPlacesWithinSixteen : Prop :=
  ∀ s t : State, LabelsSound s → step s = .next t → LabelsSound t

/-- The tracking queue never holds more than 48 boards; and with its boards' sequence numbers each once and every pack's outstanding
count the number of its boards in the queue, it stays so (08, R126). -/
def Obligations.QueueMatchesThePacks : Prop :=
  ∀ s t : State, step s = .next t → (QueueSound s → QueueSound t) ∧ (LineSound s → LineSound t)

/-- Every lot's measured pair is the sum of its five other pairs; a lot is IN_KILN exactly when its number is on one charge list; a
queued board belongs to a lot that is DRIED, PLANING or HELD. The invariant that every step keeps carries with it what these rest
on: the numbers of R1, and each pair covering its boards in flight (01, R8, R15; 08, R126). -/
def Obligations.LotsBalanceAndCharge : Prop :=
  ∀ s t : State, LotsSound s → step s = .next t → LotsSound t

/-- The store never holds more than 16 schedules or an id twice, and each is within its ranges; a kiln that is not EMPTY names a
schedule present, at a step it has (02, R23, R28). -/
def Obligations.StoreHoldsNamedSchedules : Prop :=
  ∀ s t : State, StoreSound s → step s = .next t → StoreSound t

/-- While the master enable is clear, no kiln's step index or elapsed minutes change, but by KILN ADVANCE of a HELD kiln, KILN UNLOAD
of a LOADED or FINISHED one and KILN CHARGE of an EMPTY one, each for the kiln it names (06, R108), by CLEAR ALL for an EMPTY kiln,
and by a start-up with retention lost. -/
def Obligations.SuspendedKilnsKeepTheirStep : Prop :=
  ∀ (c : Instr) (s t : State) (k : KilnNo), s.masterEnable = false → t.masterEnable = false → exec c s = .next t →
    ¬movesStep c s k →
    (t.kiln k).stepIndex = (s.kiln k).stepIndex ∧ (t.kiln k).stepElapsed = (s.kiln k).stepElapsed

/-! ### Frames and routing (chapter 11) -/

/-- A byte goes out as a start bit, its eight bits from the least significant, and one stop bit, and is heard back from these; that
a character begins with a start bit is the model's reading (log 27). The check is the register after every bit of the bytes, each byte from its most significant bit, by the generator x^16 + x^12 + x^5 + 1 from FFFFh. A whole frame heard after its sync byte is
abandoned exactly when its check does not agree; a length byte above 248 or a kind byte of 80h or above abandons it whatever follows
(11, R178 to R180). -/
def Obligations.CharactersAndFrames : Prop :=
  (∀ b : Byte, charLevels b = false :: (List.ofFn fun i : Fin 8 => b.getLsbD i) ++ [true]) ∧
  (∀ bytes : List Byte, bytesHeard (bytes.flatMap charLevels) = some bytes) ∧
  (∀ bytes : List Byte, frameCheck bytes =
    (bytes.flatMap fun b => [b.getLsbD 7, b.getLsbD 6, b.getLsbD 5, b.getLsbD 4, b.getLsbD 3, b.getLsbD 2, b.getLsbD 1,
      b.getLsbD 0]).foldl (fun (r : BitVec 16) d => if r.getLsbD 15 != d then (r <<< 1) ^^^ 0x1021#16 else r <<< 1) 0xFFFF#16) ∧
  (∀ (len : Byte) (rest : List Byte), 248 < len.toNat → abandons (len :: rest) = true) ∧
  (∀ (len kind : Byte) (rest : List Byte), 0x80 ≤ kind.toNat → abandons (len :: kind :: rest) = true) ∧
  ∀ (kind tag hi lo : Byte) (body : List Byte), kind.toNat < 0x80 → body.length ≤ 248 →
    (abandons (byteOf body.length :: kind :: tag :: (body ++ [hi, lo])) = true ↔
      BitVec.ofNat 16 (n16 hi lo) ≠ frameCheck (byteOf body.length :: kind :: tag :: body)) ∧
    abandons (frameBytes kind tag body).tail = false

/-- A receiver's events while the part runs (11, R179, R181). A link that is taking or answering, or a part that is held or without
supply, discards every request (11, R179, R187, R188): that a request comes whole, and is taken in HUNTING or RECEIVING, is the
model's choice (log 1), and that a part not running leaves requests without effect its reading (log 15). -/
def Obligations.ReceiverEventsAndDiscards : Prop :=
  (∀ (s : State) (l : Link), s.condition = .running →
    ((s.port l).receiver = .hunting → exec (.syncByte l) s = .next (s.setReceiver l .receiving)) ∧
    (∀ heard, (s.port l).receiver = .receiving → abandons heard = true →
      exec (.frameAbandoned l heard) s = .next (s.setReceiver l .hunting)) ∧
    ((s.port l).receiver = .receiving → exec (.byteGapTimeout l) s = .next (s.setReceiver l .hunting)) ∧
    ((s.port l).receiver = .hunting ∨ (s.port l).receiver = .receiving →
      exec (.lineBreak l) s = .next (s.setReceiver l .hunting)) ∧
    (∀ r, (s.port l).receiver = .taking r → exec (.lineBreak l) s = .next s) ∧
    ∀ r, (s.port l).receiver = .answering r → exec (.responseSent l) s = .next (s.setReceiver l .hunting)) ∧
  ∀ (i : Instr) (f : Request) (s : State), i.frame? = some f →
    (s.condition ≠ .running ∨ ∃ r, (s.port f.link).receiver = .taking r ∨ (s.port f.link).receiver = .answering r) →
    exec i s = .next s

/-- The first three checks of a good frame: an unknown kind is answered with UNKNOWN_KIND, a kind on a link that does not serve it
with NOT_PERMITTED, and a body whose length does not agree with its layout with BAD_LENGTH; none changes anything else (11, R182). -/
def Obligations.RoutingChecksInOrder : Prop :=
  (∀ (kind : Byte) (f : Request) (s : State), s.listens f.link = true → f.body.length ≤ 248 → unserved kind = true →
    exec (.unknownKind kind f) s = .next (s.answer kind.toNat f ⟨.unknownKind, []⟩)) ∧
  ∀ (i : Instr) (f : Request) (kind : Nat) (s : State), i.frame? = some f → i.kind? = some kind →
    s.listens f.link = true → f.body.length ≤ 248 →
    (served kind f.link = false → exec i s = .next (s.answer kind f ⟨.notPermitted, []⟩)) ∧
    (served kind f.link = true → layoutAgrees kind f.body = false → exec i s = .next (s.answer kind f ⟨.badLength, []⟩))

/-- Every request taken is answered with its kind plus 80h and its tag (11, R181). -/
def Obligations.ResponseCarriesKindAndTag : Prop :=
  ∀ (i : Instr) (f : Request) (kind : Nat) (s : State), i.frame? = some f → i.kind? = some kind →
    s.listens f.link = true → f.body.length ≤ 248 →
    ∃ t r, exec i s = .next t ∧ (t.port f.link).receiver = .taking r ∧ r.kind = byteOf (kind + 0x80) ∧ r.tag = f.tag

/-- ATTENTION TAKE answers the pending set and the mask, and empties the pending set; the line is released (11, R185). -/
def Obligations.AttentionTakeEmptiesPending : Prop :=
  ∀ (s : State) (f : Request), s.listens f.link = true → f.body = [] →
    ∃ t, exec (.attentionTake f) s = .next t ∧
      t = (s.setPort f.link { s.port f.link with pending := 0 }).answer 0x03 f
        ⟨.done, classBytes (s.port f.link).pending ++ classBytes (s.port f.link).mask⟩ ∧
      t.attentionLine f.link = false

/-- ATTENTION MASK replaces the mask and removes its classes from the pending set, the line following; it refuses a bit with no
class on the link (11, R186). -/
def Obligations.AttentionMaskReplaces : Prop :=
  ∀ (s : State) (f : Request) (m : ClassSet), s.listens f.link = true → f.body = classBytes m →
    ((∃ bit : Nat, m.getLsbD bit = true ∧ classCount f.link ≤ bit) →
      exec (.attentionMask f) s = .next (s.answer 0x04 f ⟨.badField, []⟩)) ∧
    ((∀ bit : Nat, m.getLsbD bit = true → bit < classCount f.link) →
      ∃ t, exec (.attentionMask f) s = .next t ∧
        t = (s.setPort f.link { s.port f.link with mask := m, pending := (s.port f.link).pending &&& ~~~m }).answer 0x04 f
          ⟨.done, classBytes m ++ classBytes ((s.port f.link).pending &&& ~~~m)⟩ ∧
        (t.attentionLine f.link = true ↔ (s.port f.link).pending &&& ~~~m ≠ 0))

/-! ### Reads -/

/-- LOT READ and LOT LIST, SCHEDULE READ exact and next, and SPECIES READ, each answering the fields its rule names in its order
(01, R20, R21; 02, R31, R35). Where R191 leaves a layout to the order of the text, the bytes are the model's reading (log 6; log 19). -/
def Obligations.LotScheduleAndSpeciesReads : Prop :=
  ∀ (s : State) (f : Request), s.listens f.link = true →
    (∀ n l, n ≤ 65535 → f.body = u16 n → s.findLot n = some l → exec (.lotRead f) s =
      .next (s.answer 0x05 f ⟨.done, l.bytes ++ u8 (s.boardsOf n) ++ u8 (s.packsOf n)⟩)) ∧
    (∀ n, 1 ≤ n → n ≤ 65535 → f.body = u16 n → exec (.lotList f) s =
      .next (s.answer 0x06 f ⟨.done, u8 s.lots.length ++ u8 s.reservations.length ++ u16 s.redryFirst ++
        u16 s.redryLast ++ u16 s.redryNext ++
        counted (fun l => u16 l.number ++ u8 l.state.code ++ optU8 (l.state.hold?.map Hold.code))
          ((s.lots.filter fun l => n ≤ l.number).take 40) ++
        mark (decide (40 < (s.lots.filter fun l => n ≤ l.number).length))⟩)) ∧
    (∀ id c, f.link = .office → id ≤ 255 → f.body = u8 id ++ u8 0 → s.findSchedule id = some c →
      exec (.scheduleRead f) s = .next (s.answer 0x1A f ⟨.done, s.scheduleBytes c⟩)) ∧
    (∀ id c, f.link = .office → id ≤ 255 → f.body = u8 id ++ u8 1 → s.nextSchedule id = some c →
      exec (.scheduleRead f) s = .next (s.answer 0x1A f ⟨.done, s.scheduleBytes c⟩)) ∧
    (∀ code r, f.link = .office → code ≤ 15 → f.body = u8 code → s.speciesAt code = some r →
      exec (.speciesRead f) s =
        .next (s.answer 0x1D f ⟨.done, mark true ++ text r.name ++ u16 r.fs ++ u8 r.kt ++ u8 (s.lotsOfSpecies code)⟩)) ∧
    (∀ code, f.link = .office → code ≤ 15 → f.body = u8 code → s.speciesAt code = none →
      exec (.speciesRead f) s = .next (s.answer 0x1D f ⟨.done, [0, 0, 0, 0, 0] ++ u8 (s.lotsOfSpecies code)⟩))

/-- IDENT and CLOCK READ answer their figures, KILN READ a context or its history, and HOLD POINT READ the four records; none changes
anything (11, R183; 05, R89; 07, R115). The bytes of the last two are the model's reading of R191 (log 6). -/
def Obligations.IdentClockKilnAndHoldPointReads : Prop :=
  ∀ (s : State) (f : Request), s.listens f.link = true →
    (f.body = [] →
      exec (.ident f) s = .next (s.answer 0x01 f ⟨.done, [0x0D, 0x16, 0x01, byteOf s.startUpKind.code]⟩) ∧
      exec (.clockRead f) s =
        .next (s.answer 0x02 f ⟨.done, u32 s.minute ++ mark (decide (4294967295 ≤ s.minute))⟩)) ∧
    (∀ k : KilnNo, f.body = u8 k ++ mark false →
      exec (.kilnRead f) s = .next (s.answer 0x07 f ⟨.done, s.contextBytes k⟩)) ∧
    (∀ k : KilnNo, f.body = u8 k ++ mark true →
      exec (.kilnRead f) s = .next (s.answer 0x07 f
        ⟨.done, u8 (s.kiln k).state.code ++
          optU8 (if (s.kiln k).state = .empty then none else some (s.kiln k).stepIndex) ++
          counted (fun e => u8 e.index ++ u16 e.minutes ++ u8 e.cause.code) (s.kiln k).history⟩)) ∧
    (f.link = .office → f.body = [] →
      exec (.holdPointRead f) s = .next (s.answer 0x2D f ⟨.done,
        s.holdPointBytes 0 ++ s.holdPointBytes 1 ++ s.holdPointBytes 2 ++ s.holdPointBytes 3⟩))

/-- QUEUE READ, STACKER READ and LABEL READ (08, R128; 09, R151; 10, R173; 11, R190). The bytes of the first two are the model's reading of
R191 (log 6); the 35 bytes of a label record are those of the table of R190: each optional field is zero when absent, its presence
mark standing in the last byte. -/
def Obligations.QueueStackerAndLabelReads : Prop :=
  (∀ (l : Label) (reason marks : Nat),
    reason = (match l.reason with
      | .count => 0 | .footage => 1 | .lotChange => 2 | .binChange => 3 | .idle => 4 | .operator => 5) →
    marks = (if l.mean = none then 0 else 1) + (if l.highest = none then 0 else 2) + (if l.kiln = none then 0 else 4) +
      (if l.kilnCmc = none then 0 else 8) + (if l.redryLot = none then 0 else 16) →
    l.bytes = u32 l.serial ++ u16 l.pack ++ u8 l.stacker ++ u16 l.lot ++ u8 l.species ++ u8 l.thickness ++ u8 l.bin ++
      u16 l.boards ++ u32 l.footage ++ u16 l.verifiedBoards ++ u16 (l.mean.getD 0) ++ u16 (l.highest.getD 0) ++
      u8 (l.kiln.getD 0) ++ u16 (l.kilnCmc.getD 0) ++ u8 reason ++ u32 l.closeMinute ++ u16 (l.redryLot.getD 0) ++
      u8 marks ∧
    l.bytes.length = 35) ∧
  ∀ (s : State) (f : Request), s.listens f.link = true →
    (∀ i, i ≤ 47 → f.body = u8 i →
      exec (.queueRead f) s = .next (s.answer 0x0A f
        ⟨.done, u8 s.queue.length ++ counted Board.bytes ((s.queue.drop i).take 8)⟩)) ∧
    (∀ st : StackerNo, f.body = u8 st →
      exec (.stackerRead f) s = .next (s.answer 0x08 f ⟨.done, stackerBytes st (s.stacker st) s.nextPack⟩)) ∧
    (∀ i n, f.link = .office → i ≤ 15 → n ≤ 16 → f.body = u8 i ++ u8 n →
      exec (.labelRead f) s = .next (s.answer 0x34 f
        ⟨.done, u8 s.labels.length ++ u8 s.labelsReserved ++ u32 (s.serial.getD 0) ++
          counted Label.bytes ((s.labels.drop i).take (if n = 0 ∨ 6 < n then 6 else n))⟩))

/-! ### Lots (chapter 1) -/

/-- LOT CREATE places a new record with the request's figures, counters zero (01, R2). -/
def Obligations.LotCreatePlacesRecord : Prop :=
  ∀ (s : State) (f : Request) (n sp th tm tol rl : Nat) (dry : Bool), Heard s f .office →
    f.body = u16 n ++ u8 sp ++ u8 th ++ u16 tm ++ u8 tol ++ u16 rl ++ mark dry →
    1 ≤ n → n ≤ 65535 → sp ≤ 15 → (s.speciesAt sp).isSome = true → 4 ≤ th → th ≤ 16 → 40 ≤ tm → tm ≤ 300 → tol ≤ 50 →
    rl ≤ 500 → s.numberInUse n = false → s.lots.length + s.reservations.length < 64 →
    exec (.lotCreate f) s = .next (State.answer
      { s with
        lots := insertByNumber
          { number := n, species := sp, thickness := th, targetMc := tm, tolerance := tol, redryLimit := rl,
            state := if dry then .dried else .waiting, createdMinute := s.minute, kilnResult := none, origin := none,
            measured := ⟨0, 0⟩, passed := ⟨0, 0⟩, redry := ⟨0, 0⟩, rejected := ⟨0, 0⟩, heldBack := ⟨0, 0⟩, lost := ⟨0, 0⟩,
            verifiedBoards := 0, verifiedMcSum := 0, waived := false } s.lots }
      0x10 f ⟨.done, []⟩)

/-- LOT MODIFY replaces the targets carried and leaves the others; LOT HOLD holds a WAITING, DRIED or PLANING lot, remembers that
state, and raises LOT_HELD on both links. In its other states a lot is refused with WRONG_STATE (01, R3, R4, R12). -/
def Obligations.LotModifyAndHold : Prop :=
  ∀ (s : State) (f : Request) (n : Nat) (l : LotRecord), Heard s f .office → n ≤ 65535 → s.findLot n = some l →
    (∀ sp th tm tol rl : Option Nat, f.body = u16 n ++ optU8 sp ++ optU8 th ++ optU16 tm ++ optU8 tol ++ optU16 rl →
      (∀ v, sp = some v → v ≤ 15 ∧ (s.speciesAt v).isSome = true) → (∀ v, th = some v → 4 ≤ v ∧ v ≤ 16) →
      (∀ v, tm = some v → 40 ≤ v ∧ v ≤ 300) → (∀ v, tol = some v → v ≤ 50) → (∀ v, rl = some v → v ≤ 500) →
      ((l.state = .waiting ∨ l.state = .dried ∨ ∃ h, l.state = .held h) →
        exec (.lotModify f) s = .next ((s.modifyLot n fun x =>
          { x with
            species := sp.getD x.species, thickness := th.getD x.thickness, targetMc := tm.getD x.targetMc,
            tolerance := tol.getD x.tolerance, redryLimit := rl.getD x.redryLimit }).answer 0x11 f ⟨.done, []⟩)) ∧
      ((l.state = .inKiln ∨ l.state = .planing ∨ l.state = .closed) →
        exec (.lotModify f) s = .next (s.answer 0x11 f ⟨.wrongState, []⟩))) ∧
    (∀ r : ReturnState, f.body = u16 n → l.state = r.lotState →
      exec (.lotHold f) s = .next ((((s.modifyLot n fun x => { x with state := .held (.office r) }).raise
        .officeLotHeld).raise .planerLotHeld).answer 0x12 f ⟨.done, []⟩)) ∧
    (f.body = u16 n → (l.state = .inKiln ∨ l.state = .closed ∨ ∃ h, l.state = .held h) →
      exec (.lotHold f) s = .next (s.answer 0x12 f ⟨.wrongState, []⟩))

/-- LOT RELEASE by hold reason: OFFICE to its return state, REDRY the same with the check waived, ABORTED to WAITING without its
kiln result or to DRIED or PLANING. A release to WAITING with boards or packs on the line is refused with IN_USE; a return state
carried for an OFFICE or REDRY hold, or one absent or other than WAITING and DRIED for ABORTED, with BAD_FIELD; a lot that is not
HELD with WRONG_STATE (01, R5). -/
def Obligations.LotReleaseByReason : Prop :=
  ∀ (s : State) (f : Request) (n : Nat) (l : LotRecord) (ret : Option Nat), Heard s f .office → n ≤ 65535 →
    s.findLot n = some l → f.body = u16 n ++ optU8 ret → (∀ v, ret = some v → v ≤ 255) →
    (∀ r, l.state = .held (.office r) → ret = none → (r = .waiting → s.lotOnLine n = false) →
      exec (.lotRelease f) s =
        .next ((s.modifyLot n fun _ => { l with state := r.lotState }).answer 0x13 f ⟨.done, []⟩)) ∧
    (∀ r, l.state = .held (.redry r) → ret = none → (r = .waiting → s.lotOnLine n = false) →
      exec (.lotRelease f) s =
        .next ((s.modifyLot n fun _ => { l with state := r.lotState, waived := true }).answer 0x13 f ⟨.done, []⟩)) ∧
    (l.state = .held .aborted → ret = some 0 → s.lotOnLine n = false →
      exec (.lotRelease f) s =
        .next ((s.modifyLot n fun _ => { l with state := .waiting, kilnResult := none }).answer 0x13 f ⟨.done, []⟩)) ∧
    (l.state = .held .aborted → ret = some 2 →
      exec (.lotRelease f) s =
        .next ((s.modifyLot n fun _ => { l with state := if 0 < l.measured.boards then .planing else .dried }).answer
          0x13 f ⟨.done, []⟩)) ∧
    ((l.state = .held (.office .waiting) ∨ l.state = .held (.redry .waiting)) ∧ ret = none ∨
        l.state = .held .aborted ∧ ret = some 0 →
      s.lotOnLine n = true → exec (.lotRelease f) s = .next (s.answer 0x13 f ⟨.inUse, []⟩)) ∧
    ((∃ r, l.state = .held (.office r) ∨ l.state = .held (.redry r)) ∧ ret ≠ none ∨
        l.state = .held .aborted ∧ ret ≠ some 0 ∧ ret ≠ some 2 →
      exec (.lotRelease f) s = .next (s.answer 0x13 f ⟨.badField, []⟩)) ∧
    ((∀ h, l.state ≠ .held h) → exec (.lotRelease f) s = .next (s.answer 0x13 f ⟨.wrongState, []⟩))

/-- LOT FINISH closes a lot with nothing on the line and refuses one with boards or packs there; LOT REMOVE takes a WAITING or
CLOSED record out and re-examines LOTS and NUMBERS; in its other states a lot is refused with WRONG_STATE. REDRY RANGE sets the
range and the pointer and re-examines NUMBERS; it refuses 0 and a first above the last (01, R6, R7, R16). -/
def Obligations.LotFinishRemoveAndRange : Prop :=
  (∀ (s : State) (f : Request) (n : Nat) (l : LotRecord), Heard s f .office → n ≤ 65535 → f.body = u16 n →
    s.findLot n = some l →
    (l.state = .dried ∨ l.state = .planing → s.lotOnLine n = false →
      exec (.lotFinish f) s = .next ((s.modifyLot n fun x => { x with state := .closed }).answer 0x14 f ⟨.done, []⟩)) ∧
    (l.state = .dried ∨ l.state = .planing → s.lotOnLine n = true →
      exec (.lotFinish f) s = .next (s.answer 0x14 f ⟨.inUse, []⟩)) ∧
    (l.state ≠ .dried → l.state ≠ .planing → exec (.lotFinish f) s = .next (s.answer 0x14 f ⟨.wrongState, []⟩)) ∧
    (l.state = .waiting ∨ l.state = .closed →
      exec (.lotRemove f) s =
        .next ((State.reexamineLots { s with lots := s.lots.filter fun x => x.number != n }).answer 0x15 f ⟨.done, []⟩)) ∧
    (l.state ≠ .waiting → l.state ≠ .closed → exec (.lotRemove f) s = .next (s.answer 0x15 f ⟨.wrongState, []⟩))) ∧
  ∀ (s : State) (f : Request) (first last : Nat), Heard s f .office → first ≤ 65535 → last ≤ 65535 →
    f.body = u16 first ++ u16 last →
    (1 ≤ first → first ≤ last →
      exec (.redryRange f) s = .next ((State.reexamineNumbers
        { s with redryFirst := first, redryLast := last, redryNext := first }).answer 0x16 f ⟨.done, []⟩)) ∧
    (first = 0 ∨ last = 0 ∨ last < first →
      exec (.redryRange f) s = .next (s.answer 0x16 f ⟨.badField, []⟩))

/-! ### Schedules and species (chapter 2) -/

/-- A schedule within its ranges, sent by its table, is placed whole as new, or replaces the one of its id that no kiln names
(02, R26, R27). -/
def Obligations.ScheduleWritePlacesWhole : Prop :=
  ∀ (s : State) (f : Request) (c : Schedule), Heard s f .office → c.InRange →
    f.body = u8 c.id ++ text c.text ++ counted ScheduleStep.bytes c.steps →
    (s.findSchedule c.id = none → s.schedules.length < 16 →
      exec (.scheduleWrite f) s = .next (State.answer { s with schedules := insertById c s.schedules } 0x18 f
        ⟨.done, u8 (s.schedules.length + 1)⟩)) ∧
    ((s.findSchedule c.id).isSome = true → s.kilnsNaming c.id = [] →
      exec (.scheduleWrite f) s = .next (State.answer
        { s with schedules := s.schedules.map fun d => if d.id = c.id then c else d } 0x18 f
        ⟨.done, u8 s.schedules.length⟩)) ∧
    ((s.findSchedule c.id).isSome = true → s.kilnsNaming c.id ≠ [] →
      exec (.scheduleWrite f) s = .next (s.answer 0x18 f ⟨.inUse, counted (fun k => u8 k.val) (s.kilnsNaming c.id)⟩))

/-- SCHEDULE DELETE takes out a schedule that no kiln names, and refuses id 0 with BAD_FIELD, an absent id with NO_SUCH_SCHEDULE,
and one that kilns name with IN_USE and their list. SPECIES WRITE fills a place. SPECIES DELETE empties one whose code no lot names,
and refuses an empty place with BAD_FIELD and a code that lots name with IN_USE and their number (02, R30, R33, R34). -/
def Obligations.ScheduleDeleteAndSpecies : Prop :=
  ∀ (s : State) (f : Request), Heard s f .office →
    (∀ id, id ≤ 255 → f.body = u8 id →
      (id = 0 → exec (.scheduleDelete f) s = .next (s.answer 0x19 f ⟨.badField, []⟩)) ∧
      (1 ≤ id → s.findSchedule id = none → exec (.scheduleDelete f) s = .next (s.answer 0x19 f ⟨.noSuchSchedule, []⟩)) ∧
      (1 ≤ id → (s.findSchedule id).isSome = true → s.kilnsNaming id = [] →
        exec (.scheduleDelete f) s = .next (State.answer { s with schedules := s.schedules.filter fun c => c.id != id }
          0x19 f ⟨.done, u8 (s.schedules.filter fun c => c.id != id).length⟩)) ∧
      (1 ≤ id → (s.findSchedule id).isSome = true → s.kilnsNaming id ≠ [] →
        exec (.scheduleDelete f) s =
          .next (s.answer 0x19 f ⟨.inUse, counted (fun k => u8 k.val) (s.kilnsNaming id)⟩))) ∧
    (∀ (code : Fin 16) (r : Species), r.InRange → f.body = u8 code ++ text r.name ++ u16 r.fs ++ u8 r.kt →
      exec (.speciesWrite f) s =
        .next (State.answer { s with species := s.species.set code (some r) } 0x1B f ⟨.done, []⟩)) ∧
    ∀ code : Fin 16, f.body = u8 code →
      ((s.species[code]).isSome = true → s.lotsOfSpecies code = 0 →
        exec (.speciesDelete f) s =
          .next (State.answer { s with species := s.species.set code none } 0x1C f ⟨.done, []⟩)) ∧
      ((s.species[code]).isSome = true → 0 < s.lotsOfSpecies code →
        exec (.speciesDelete f) s = .next (s.answer 0x1C f ⟨.inUse, u8 (s.lotsOfSpecies code)⟩)) ∧
      (s.species[code] = none → exec (.speciesDelete f) s = .next (s.answer 0x1C f ⟨.badField, []⟩))

/-! ### Arithmetic (chapter 3) -/

/-- The two divisions of chapter 3 that round: half up, and half away from zero for a signed dividend. On them: the MC of a
weighing with its clamp, the figures of two or more samples, the corrected MC, clamped dimensions and footage of a board, what a
pack gains and loses with a board, and its mean (03, R37, R39, R40, R44 to R48). -/
def Obligations.ChapterThreeArithmetic : Prop :=
  (∀ (n d : Nat) (z : Int), 0 < d →
    (2 * d * divHalfUp n d ≤ 2 * n + d ∧ 2 * n + d < 2 * d * (divHalfUp n d + 1)) ∧
    (0 ≤ z → divHalfAway z d = divHalfUp z.toNat d) ∧ divHalfAway (-z) d = -divHalfAway z d) ∧
  (∀ w odw : Nat, 0 < odw →
    sampleMc w odw = min 2000 (((w - odw) * 1000 + odw / 2) / odw) ∧
    (sampleClamped w odw = true ↔
      2000 < ((w - odw) * 1000 + odw / 2) / odw ∨ 1 ≤ ((odw - w) * 1000 + odw / 2) / odw)) ∧
  (∀ mcs ranked : List Nat, 2 ≤ mcs.length → ranked.Perm mcs → ranked.Pairwise (fun a b => b ≤ a) →
    ∃ k, k = (mcs.length + 1) / 2 ∧
      figuresOf mcs = ⟨some (((ranked.take k).sum + k / 2) / k), ranked.getLast?, ranked.head?⟩) ∧
  (∀ (raw : Nat) (ov : Bool) (tp : Int) (fs kt : Nat),
    (ov = true ∨ 999 < raw → correctedMc raw ov tp fs kt = 999) ∧
    (ov = false → raw ≤ 999 → ∃ n : Int, n = raw * fs + (20 - max (-30) (min 60 tp)) * kt * 100 ∧
      (n < 0 → correctedMc raw ov tp fs kt = 0) ∧
      (0 ≤ n → correctedMc raw ov tp fs kt = min 999 ((n.toNat + 500) / 1000)))) ∧
  (∀ th w len : Nat,
    (dimensionFault th w len = false ↔ (4 ≤ th ∧ th ≤ 16) ∧ (8 ≤ w ∧ w ≤ 64) ∧ 4 ≤ len ∧ len ≤ 20) ∧
    boardFootage th w len = (max 4 (min 16 th) * max 8 (min 64 w) * max 4 (min 20 len) * 100 + 96) / 192) ∧
  (∀ (p : Pack) (ft mc : Nat),
    p.addBoard ft mc false = { p with boards := p.boards + 1, footage := p.footage + ft } ∧
    p.addBoard ft mc true = { p with
      boards := p.boards + 1, footage := p.footage + ft, verifiedBoards := p.verifiedBoards + 1,
      verifiedFootage := p.verifiedFootage + ft,
      mcSum := if p.saturated then p.mcSum else min 4294967295 (p.mcSum + mc * ft),
      saturated := p.saturated || decide (4294967295 < p.mcSum + mc * ft),
      highest := some (max mc (p.highest.getD 0)) } ∧
    p.removeBoard ft mc false = { p with boards := p.boards - 1, footage := p.footage - ft } ∧
    p.removeBoard ft mc true = { p with
      boards := p.boards - 1, footage := p.footage - ft, verifiedBoards := p.verifiedBoards - 1,
      verifiedFootage := p.verifiedFootage - ft, mcSum := if p.saturated then p.mcSum else p.mcSum - mc * ft,
      highest := if p.verifiedBoards ≤ 1 then none else p.highest } ∧
    p.mean = if p.verifiedBoards = 0 ∨ p.saturated = true then none
      else some ((p.mcSum + p.verifiedFootage / 2) / p.verifiedFootage))

/-! ### Samples (chapter 4) -/

/-- SAMPLE ENTER stores the new sample with its ODW, SAMPLE REMOVE takes one out; each recomputes and answers the figures. At a
kiln with no step under way the recomputation replaces the three figures and does nothing else (04, R55, R57, R61; 03, R38, R41). -/
def Obligations.SampleEnterAndRemove : Prop :=
  ∀ (s : State) (k : KilnNo),
    (∀ (f : Request) (id w m odw : Nat) (t : State), Heard s f .office → (s.kiln k).state ≠ .empty → 1 ≤ id → id ≤ 8 →
      100 ≤ w → w ≤ 30000 → 50 ≤ m → m ≤ 2000 → f.body = u8 k ++ u8 id ++ u16 w ++ u16 m →
      odw = (w * 1000 + (1000 + m) / 2) / (1000 + m) →
      t = (s.setSamples k (insertSample
        { id := id, greenWeight := w, greenMc := m, odw := odw, weight := w, mc := m, clamped := false,
          weighMinute := s.minute } (s.kiln k).samples)).recompute k →
      exec (.sampleEnter f) s = .next (t.answer 0x20 f
        ⟨.done, u16 odw ++ mark ((s.kiln k).samples.any fun x => x.id == id) ++ u8 (t.kiln k).samples.length ++
          optU16 (t.kiln k).figures.cmc ++ optU16 (t.kiln k).figures.driest ++ optU16 (t.kiln k).figures.wettest⟩)) ∧
    (∀ (f : Request) (id : Nat) (t : State), Heard s f .office → (s.kiln k).state ≠ .empty → 1 ≤ id → id ≤ 8 →
      f.body = u8 k ++ u8 id → ((s.kiln k).samples.any fun x => x.id == id) = true →
      t = (s.setSamples k ((s.kiln k).samples.filter fun x => x.id != id)).recompute k →
      exec (.sampleRemove f) s = .next (t.answer 0x22 f
        ⟨.done, u8 (t.kiln k).samples.length ++ optU16 (t.kiln k).figures.cmc ++ optU16 (t.kiln k).figures.driest ++
          optU16 (t.kiln k).figures.wettest⟩)) ∧
    ((s.kiln k).state.isOn = false →
      s.recompute k = s.setKiln k { s.kiln k with figures := figuresOf ((s.kiln k).samples.map fun x => x.mc) })

/-- A SAMPLE WEIGH batch weighs the samples its entries name, in order, until an entry fails, and recomputes once when it weighed
any. Without a failing entry it answers DONE. An entry fails by its first check that does not pass: an id out of range, no sample
of the id, an id that an earlier entry has, a weight out of range. The response is then PARTIAL, with what was applied, how many
entries were not, and the check; the entries after it are not looked at (04, R58 to R60; 03, R39). -/
def Obligations.BatchWeighsUntilAnEntryFails : Prop :=
  ∀ (s : State) (f : Request) (k : KilnNo) (es : List WeighEntry), Heard s f .office → (s.kiln k).state ≠ .empty →
    (es.map WeighEntry.id).Nodup →
    (∀ e ∈ es, 1 ≤ e.id ∧ e.id ≤ 8 ∧ 1 ≤ e.weight ∧ e.weight ≤ 60000 ∧
      ((s.kiln k).samples.any fun x => x.id == e.id) = true) →
    ∃ l t, l = (s.kiln k).samples.map (fun x =>
        match es.find? fun e => e.id == x.id with
        | some e => { x with weight := e.weight, mc := sampleMc e.weight x.odw, clamped := sampleClamped e.weight x.odw,
                             weighMinute := s.minute }
        | none => x) ∧
      t = (if es = [] then s else (s.setSamples k l).recompute k) ∧
      (1 ≤ es.length → es.length ≤ 8 → f.body = u8 k ++ counted (fun e => u8 e.id ++ u16 e.weight) es →
        exec (.sampleWeigh f) s = .next (t.answer 0x21 f
          ⟨.done, u8 es.length ++ es.flatMap (appliedBytes l) ++ (t.kiln k).figures.bytes⟩)) ∧
      ∀ (e : WeighEntry) (rest : List WeighEntry) (why : Status), es.length + 1 + rest.length ≤ 8 →
        (∀ x ∈ e :: rest, x.id ≤ 255 ∧ x.weight ≤ 65535) →
        f.body = u8 k ++ counted (fun e => u8 e.id ++ u16 e.weight) (es ++ e :: rest) →
        ((e.id = 0 ∨ 8 < e.id) ∧ why = .badField ∨
          (1 ≤ e.id ∧ e.id ≤ 8) ∧
            (((s.kiln k).samples.any fun x => x.id == e.id) = false ∧ why = .noSuchSample ∨
              ((s.kiln k).samples.any fun x => x.id == e.id) = true ∧
                (e.id ∈ es.map WeighEntry.id ∧ why = .duplicate ∨
                  e.id ∉ es.map WeighEntry.id ∧ (e.weight = 0 ∨ 60000 < e.weight) ∧ why = .badField))) →
        exec (.sampleWeigh f) s = .next (t.answer 0x21 f
          ⟨.partialBatch, u8 es.length ++ u8 (1 + rest.length) ++ optU8 (es.getLast?.map WeighEntry.id) ++ u8 why.code ++
            es.flatMap (appliedBytes l) ++ (t.kiln k).figures.bytes⟩)

/-- Hold points (07, R113, R116 to R119; 04, R61). A record matches a step entry when it is enabled, its scope covers the kiln and
its kind is STEP_ENTER of that index; and a recomputation of a RUNNING or HELD kiln when its kind is CMC_AT_OR_BELOW and the CMC
crosses its value downward. Every match takes the kiln and the minute into its record and disables a one-shot record; a RUNNING kiln
becomes HELD; HOLD_HIT is raised once. A recomputation that matches leaves the step as it is. -/
def Obligations.HoldPointsMatchAndHold : Prop :=
  ∀ (s : State) (k : KilnNo),
    (∀ (h : HoldPointNo) (i : Nat), h ∈ s.stepEnterMatches k i ↔
      (s.holdPoint h).enabled = true ∧ ((s.holdPoint h).scope = .any ∨ (s.holdPoint h).scope = .kiln k) ∧
        (s.holdPoint h).kind = .stepEnter i) ∧
    (∀ (h : HoldPointNo) (before after : Option Nat), h ∈ s.crossingMatches k before after ↔
      (s.kiln k).state.isOn = true ∧ (s.holdPoint h).enabled = true ∧
        ((s.holdPoint h).scope = .any ∨ (s.holdPoint h).scope = .kiln k) ∧
        ∃ v a, (s.holdPoint h).kind = .cmcAtOrBelow v ∧ after = some a ∧ a ≤ v ∧ ∀ b, before = some b → v < b) ∧
    (∀ (l : List HoldPointNo) (u : State), l ≠ [] → l.Nodup →
      u = { s with
        holdPoints := Vector.ofFn fun h : HoldPointNo =>
          if h ∈ l then { s.holdPoint h with
            enabled := (s.holdPoint h).enabled && !(s.holdPoint h).oneShot, hit := some ⟨k, s.minute⟩ }
          else s.holdPoint h } →
      s.takeMatches k l =
        (if (s.kiln k).state.isRunning = true then
          if s.masterEnable then (u.setKiln k { s.kiln k with state := .held }).raise .setpointChanged
          else u.setKiln k { s.kiln k with state := .held }
        else u).raise .holdHit) ∧
    ∀ g l, g = figuresOf ((s.kiln k).samples.map fun x => x.mc) → l = s.crossingMatches k (s.kiln k).figures.cmc g.cmc →
      (l = [] → s.recompute k = (s.setKiln k { s.kiln k with figures := g }).evaluateNow k) ∧
      (l ≠ [] → s.recompute k = (s.takeMatches k l).setKiln k { s.kiln k with state := .held, figures := g })

/-! ### Kilns (chapters 5 and 7) -/

/-- KILN CHARGE loads WAITING lots and a schedule into an EMPTY kiln (05, R70, R71; 01, R8). -/
def Obligations.KilnChargeLoads : Prop :=
  ∀ (s : State) (f : Request) (k : KilnNo) (id : Nat) (ns : List Nat), Heard s f .office → 1 ≤ id → id ≤ 255 →
    1 ≤ ns.length → ns.length ≤ 4 → ns.Nodup → (∀ n ∈ ns, 1 ≤ n ∧ n ≤ 65535) →
    (∀ n ∈ ns, ∃ l, s.findLot n = some l ∧ l.state = .waiting) → (s.kiln k).state = .empty →
    (s.findSchedule id).isSome = true → f.body = u8 k ++ u8 id ++ counted u16 ns →
    exec (.kilnCharge f) s = .next ((State.setKiln
      { s with lots := s.lots.map fun l => if l.number ∈ ns then { l with state := .inKiln } else l } k
      { s.kiln k with
        state := .loaded, runEnable := false, aborted := false, scheduleId := some id, charge := ns, stepIndex := 0,
        stepEntered := none, stepElapsed := 0, runMinutes := 0, doorOpen := false, samples := [],
        figures := ⟨none, none, none⟩, history := [] }).answer 0x24 f ⟨.done, []⟩)

/-- KILN START of a LOADED kiln with the enable set and no other kiln waiting enters step 0. With units for its demand it runs
ACTIVE with its demand granted; with too few, it waits: WAIT_HEAT, a request waiting since now, and HEAT_WAIT. Where a hold point
matches the entry, the kiln is HELD instead, its demand granted or pending all the same, the records hit and HOLD_HIT raised.
SETPOINT_CHANGED is raised in every case. Of a RUNNING or HELD kiln with the enable set, nothing changes (05, R72, R73; 06, R96, R99,
R101; 07, R116, R118). -/
def Obligations.KilnStartEntersStepZero : Prop :=
  ∀ (s : State) (f : Request) (k : KilnNo), Heard s f .office → f.body = u8 k → s.millStopLine = false →
    s.masterEnable = true →
    (∀ (c : Schedule) (t : ScheduleStep) (entered : KilnState → State), (s.kiln k).state = .loaded →
      (s.kiln k).scheduleId.bind s.findSchedule = some c → c.steps[0]? = some t → s.heatOf k = ⟨0, .absent⟩ →
      OthersDoNotWait s k →
      (entered = fun st => s.setKiln k
        { s.kiln k with
          state := st, runEnable := true, stepIndex := 0, stepEntered := some s.minute, stepElapsed := 0 }) →
      (s.stepEnterMatches k 0 = [] → t.demand ≤ s.freeUnits →
        exec (.kilnStart f) s = .next ((((entered (.running .active)).setHeat k ⟨t.demand, .absent⟩).raise
          .setpointChanged).answer 0x25 f ⟨.done, u8 2 ++ optU8 (some 0)⟩)) ∧
      (s.stepEnterMatches k 0 = [] → s.freeUnits < t.demand →
        exec (.kilnStart f) s = .next (((((entered (.running .waitHeat)).setHeat k
          ⟨0, .waiting t.demand s.minute⟩).raise .heatWait).raise .setpointChanged).answer 0x25 f
          ⟨.done, u8 2 ++ optU8 (some 1)⟩)) ∧
      (s.stepEnterMatches k 0 ≠ [] →
        exec (.kilnStart f) s = .next ((((State.setHeat
          { entered .held with
            holdPoints := Vector.ofFn fun h : HoldPointNo =>
              if h ∈ s.stepEnterMatches k 0 then
                { s.holdPoint h with
                  enabled := (s.holdPoint h).enabled && !(s.holdPoint h).oneShot, hit := some ⟨k, s.minute⟩ }
              else s.holdPoint h } k
          (if t.demand ≤ s.freeUnits then ⟨t.demand, .absent⟩ else ⟨0, .waiting t.demand s.minute⟩)).raise
          .holdHit).raise .setpointChanged).answer 0x25 f ⟨.done, u8 3 ++ optU8 none⟩))) ∧
    ((s.kiln k).state.isOn = true →
      exec (.kilnStart f) s = .next (s.answer 0x25 f
        ⟨.done, u8 (s.kiln k).state.code ++ optU8 ((s.kiln k).state.phase?.map Phase.code)⟩))

/-- KILN START with the enable clear resumes the mill. Every RUNNING or HELD kiln with run enable set submits its step's demand,
waiting since now with no grant, a RUNNING one in WAIT_HEAT; other dormant requests go; one pass is made; SETPOINT_CHANGED is raised
for the kilns resumed, and when a mode or grant changed, MILL_RESUME on both links, and HEAT_WAIT when a RUNNING kiln is left waiting; then the kilns the pass
made ACTIVE are evaluated, and a LOADED kiln named is started. A HELD kiln alone, with units for its step, is granted its demand. With
the mill-stop line asserted the request is refused with MILL_STOP_ACTIVE (05, R72, R88; 06, R100, R105, R109). -/
def Obligations.KilnStartResumesTheMill : Prop :=
  ∀ (s : State) (f : Request) (k : KilnNo), Heard s f .office → f.body = u8 k → s.masterEnable = false →
    (s.millStopLine = true → exec (.kilnStart f) s = .next (s.answer 0x25 f ⟨.millStopActive, []⟩)) ∧
    (∀ u v w x : State, s.millStopLine = false →
      u = { s with
        masterEnable := true
        heat := Vector.ofFn fun j : KilnNo =>
          if (s.kiln j).state.isOn ∧ (s.kiln j).runEnable then ⟨0, .waiting (s.currentDemand j) s.minute⟩
          else match (s.heatOf j).request with
            | .dormant _ => ⟨(s.heatOf j).grant, .absent⟩
            | _ => s.heatOf j
        kilns := Vector.ofFn fun j : KilnNo =>
          match (s.kiln j).state, (s.kiln j).runEnable with
          | .running _, true => { s.kiln j with state := .running .waitHeat }
          | _, _ => s.kiln j } →
      v = ((if ∃ j : KilnNo, (s.kiln j).state.isOn = true ∧ (s.kiln j).runEnable = true then
          u.pass.1.raise .setpointChanged
        else u.pass.1.noteSetpoints s).raise .officeMillResume).raise .kilnMillResume →
      w = (if ∃ j : KilnNo, (u.pass.1.kiln j).state = .running .waitHeat then v.raise .heatWait else v) →
      x = settle u.pass.2 w →
      ((s.kiln k).state.isOn = true →
        exec (.kilnStart f) s = .next (x.answer 0x25 f
          ⟨.done, u8 (x.kiln k).state.code ++ optU8 ((x.kiln k).state.phase?.map Phase.code)⟩)) ∧
      ((s.kiln k).state = .loaded →
        exec (.kilnStart f) s = .next ((x.startKiln k).answer 0x25 f
          ⟨.done, u8 ((x.startKiln k).kiln k).state.code ++
            optU8 (((x.startKiln k).kiln k).state.phase?.map Phase.code)⟩))) ∧
    (s.millStopLine = false → (s.kiln k).state = .held → (s.kiln k).runEnable = true →
      (∀ j, j ≠ k → (s.kiln j).state.isOn = false ∧ (s.heatOf j).request = .absent) → s.grantSum = 0 →
      s.currentDemand k ≤ s.capacity →
      exec (.kilnStart f) s = .next (((((State.setHeat { s with masterEnable := true } k
        ⟨s.currentDemand k, .absent⟩).raise .setpointChanged).raise .officeMillResume).raise .kilnMillResume).answer 0x25 f
        ⟨.done, u8 3 ++ optU8 none⟩))

/-- KILN STOP of a RUNNING or HELD kiln with no other kiln waiting: the step ends ABORTED, the kiln is FINISHED with the aborted
mark, its heat goes back and SETPOINT_CHANGED is raised (05, R82; 06, R97). -/
def Obligations.KilnStopAborts : Prop :=
  ∀ (s : State) (f : Request) (k : KilnNo), Heard s f .office → f.body = u8 k → (s.kiln k).state.isOn = true →
    OthersDoNotWait s k →
    exec (.kilnStop f) s = .next ((((s.setKiln k
      { s.kiln k with
        state := .finished, aborted := true, runEnable := false,
        history := (s.kiln k).history ++ [⟨(s.kiln k).stepIndex, (s.kiln k).stepElapsed, .aborted⟩] }).setHeat k
      ⟨0, .absent⟩).raise .setpointChanged).answer 0x26 f ⟨.done, u8 (s.kiln k).stepIndex⟩)

/-- KILN UNLOAD: the lots leave IN_KILN by the kiln's state, the kiln is EMPTY, and the hit of every hold point record that names it
is cleared; an aborted run raises LOT_HELD. A kiln in another state is refused with WRONG_STATE (05, R83; 01, R9, R12; 07, R123). -/
def Obligations.KilnUnloadEmpties : Prop :=
  ∀ (s : State) (f : Request) (k : KilnNo), Heard s f .office → f.body = u8 k →
    (∀ (st : LotState) (res : Option KilnResult → Option KilnResult) (u : State),
      ((s.kiln k).state = .loaded ∧ st = .waiting ∧ res = id ∨
        (s.kiln k).state = .finished ∧ st = (if (s.kiln k).aborted then .held .aborted else .dried) ∧
          res = fun _ => some ⟨k, (s.kiln k).figures.cmc, (s.kiln k).figures.driest, (s.kiln k).figures.wettest, s.minute,
            (s.kiln k).aborted⟩) →
      u = State.setKiln
        { s with
          lots := s.lots.map fun l =>
            if l.number ∈ (s.kiln k).charge then { l with state := st, kilnResult := res l.kilnResult } else l
          holdPoints := Vector.ofFn fun h : HoldPointNo =>
            if (s.holdPoint h).hit.map Hit.kiln = some k then { s.holdPoint h with hit := none } else s.holdPoint h } k
        { s.kiln k with
          state := .empty, scheduleId := none, charge := [], stepIndex := 0, stepElapsed := 0, stepEntered := none,
          samples := [], figures := ⟨none, none, none⟩ } →
      exec (.kilnUnload f) s =
        .next ((if (s.kiln k).state = .finished ∧ (s.kiln k).aborted = true then
            (u.raise .officeLotHeld).raise .planerLotHeld else u).answer 0x27 f
          ⟨.done, counted (fun l => u16 l.number ++ u8 l.state.code) ((s.kiln k).charge.filterMap u.findLot)⟩)) ∧
    ((s.kiln k).state ≠ .loaded → (s.kiln k).state ≠ .finished →
      exec (.kilnUnload f) s = .next (s.answer 0x27 f ⟨.wrongState, []⟩))

/-- KILN SETUP, HOLD POINT SET and STACKER SETUP write the one record they name (05, R84; 07, R114; 09, R150). -/
def Obligations.SetupsWriteOneRecord : Prop :=
  ∀ (s : State) (f : Request), Heard s f .office →
    (∀ (k : KilnNo) (on : Bool), f.body = u8 k ++ mark on →
      exec (.kilnSetup f) s = .next ((s.setKiln k { s.kiln k with holdCounts := on }).answer 0x28 f ⟨.done, []⟩)) ∧
    (∀ (h : HoldPointNo) (en one : Bool) (sc : HoldScope) (i : Nat), i ≤ 11 →
      f.body = u8 h ++ mark en ++ u8 sc.code ++ u8 0 ++ u16 i ++ mark one →
      exec (.holdPointSet f) s =
        .next ((s.setHoldPoint h ⟨en, sc, .stepEnter i, one, none⟩).answer 0x2C f ⟨.done, []⟩)) ∧
    (∀ (h : HoldPointNo) (en one : Bool) (sc : HoldScope) (v : Nat), v ≤ 2000 →
      f.body = u8 h ++ mark en ++ u8 sc.code ++ u8 1 ++ u16 v ++ mark one →
      exec (.holdPointSet f) s =
        .next ((s.setHoldPoint h ⟨en, sc, .cmcAtOrBelow v, one, none⟩).answer 0x2C f ⟨.done, []⟩)) ∧
    (∀ (st : StackerNo) (c ft p : Nat), 1 ≤ c → c ≤ 999 → ft ≤ 500000 → p ≤ 48 →
      f.body = u8 st ++ u16 c ++ u32 ft ++ u8 p →
      exec (.stackerSetup f) s =
        .next ((s.setStacker st { s.stacker st with countLimit := c, footageLimit := ft, idleParam := p }).answer 0x32 f
          ⟨.done, u16 c ++ u32 ft ++ u8 p⟩))

/-- KILN REPORT: readings inside the range and the door are stored, SETPOINT_CHANGED is raised when the door of a RUNNING kiln that
is not suspended changes, the step exit is evaluated, and the answer gives mode, setpoints, grant, step and suspect flag as they then
stand. A kiln that is not RUNNING ACTIVE, or is suspended, has no step to end. The answer of every state: EMPTY without a step; LOADED
and FINISHED IDLE, with setpoints and grant 0; RUNNING and HELD with their step's setpoints, by the first that applies COAST while
suspended, with grant 0, HOLD, COAST behind an open door, WAIT and RUN (05, R75, R76, R85 to R88). -/
def Obligations.KilnReportStoresAndAnswers : Prop :=
  ∀ (s : State) (f : Request) (k : KilnNo) (dry wet : Int) (door : Bool), Heard s f .kilnHouse →
    -32768 ≤ dry → dry ≤ 32767 → -32768 ≤ wet → wet ≤ 32767 → f.body = u8 k ++ i16 dry ++ i16 wet ++ mark door →
    (∃ (c : KilnContext) (u : State), c = { s.kiln k with
        lastDry := if -400 ≤ dry ∧ dry ≤ 1200 then some dry else (s.kiln k).lastDry
        lastWet := if -400 ≤ wet ∧ wet ≤ 1200 then some wet else (s.kiln k).lastWet
        suspect := !decide ((-400 ≤ dry ∧ dry ≤ 1200) ∧ -400 ≤ wet ∧ wet ≤ 1200)
        doorOpen := door } ∧
      u = (if (s.kiln k).state.isRunning = true ∧ s.masterEnable = true ∧ (s.kiln k).doorOpen ≠ door then
          (s.setKiln k c).raise .setpointChanged
        else s.setKiln k c) ∧
      exec (.kilnReport f) s =
        .next ((u.evaluateNow k).answer 0x40 f ⟨.done, (u.evaluateNow k).reportBytes k⟩) ∧
      ((s.kiln k).state ≠ .running .active ∨ s.masterEnable = false →
        exec (.kilnReport f) s = .next (u.answer 0x40 f ⟨.done, u.reportBytes k⟩)) ∧
      ((s.kiln k).state = .empty →
        exec (.kilnReport f) s =
          .next ((s.setKiln k c).answer 0x40 f ⟨.done, [0, 0, 0, 0, 0, 0, 0xFF, 0xFF] ++ mark c.suspect⟩)) ∧
      (∀ t, (s.kiln k).state = .running .active → s.masterEnable = true → (s.kiln k).doorOpen = false → door = false →
        s.currentStep k = some t → (s.kiln k).stepElapsed < t.minMinutes → (s.kiln k).stepElapsed < t.maxMinutes →
        exec (.kilnReport f) s =
          .next ((s.setKiln k c).answer 0x40 f ⟨.done,
            u8 1 ++ u16 t.dryBulb ++ u16 (t.dryBulb - t.depression) ++ u8 (s.heatOf k).grant ++ u8 c.stepIndex ++
              u8 t.kind.code ++ mark c.suspect⟩))) ∧
    ((s.kiln k).state = .empty → s.reportBytes k = [0, 0, 0, 0, 0, 0, 0xFF, 0xFF] ++ mark (s.kiln k).suspect) ∧
    ∀ (t : ScheduleStep) (mode d w g : Nat), s.currentStep k = some t →
      (((s.kiln k).state = .loaded ∨ (s.kiln k).state = .finished) ∧ mode = 0 ∧ d = 0 ∧ w = 0 ∧ g = 0 ∨
        (s.kiln k).state.isOn = true ∧ d = t.dryBulb ∧ w = t.dryBulb - t.depression ∧
          (s.masterEnable = false ∧ mode = 4 ∧ g = 0 ∨
            s.masterEnable = true ∧ g = (s.heatOf k).grant ∧
              ((s.kiln k).state = .held ∧ mode = 3 ∨
                (s.kiln k).state.isRunning = true ∧ (s.kiln k).doorOpen = true ∧ mode = 4 ∨
                (s.kiln k).state = .running .waitHeat ∧ (s.kiln k).doorOpen = false ∧ mode = 2 ∨
                (s.kiln k).state = .running .active ∧ (s.kiln k).doorOpen = false ∧ mode = 1))) →
      s.reportBytes k =
        u8 mode ++ u16 d ++ u16 w ++ u8 g ++ u8 (s.kiln k).stepIndex ++ u8 t.kind.code ++ mark (s.kiln k).suspect

/-- KILN HOLD makes a RUNNING kiln HELD and raises SETPOINT_CHANGED unless the mill is stopped; any other kiln is refused with
WRONG_STATE (07, R119, R120; 05, R88). -/
def Obligations.KilnHoldStopsTheStep : Prop :=
  ∀ (s : State) (f : Request) (k : KilnNo), Heard s f .office → f.body = u8 k →
    (∀ p, (s.kiln k).state = .running p →
      exec (.kilnHold f) s = .next ((if s.masterEnable then
          (s.setKiln k { s.kiln k with state := .held }).raise .setpointChanged
        else s.setKiln k { s.kiln k with state := .held }).answer 0x29 f ⟨.done, []⟩)) ∧
    ((∀ p, (s.kiln k).state ≠ .running p) → exec (.kilnHold f) s = .next (s.answer 0x29 f ⟨.wrongState, []⟩))

/-- KILN RELEASE clears the hit of every hold point record that names the kiln and makes it RUNNING: covered, it is ACTIVE and
evaluated at once; short of heat, it waits, HEAT_WAIT is raised and a pass follows; with the enable clear neither follows (07, R121;
05, R88). The phase of a suspended kiln whose step demands nothing while a request stands is free, ACTIVE by R108 and WAIT_HEAT by R121
(log 25). -/
def Obligations.KilnReleaseRuns : Prop :=
  ∀ (s u : State) (f : Request) (k : KilnNo) (p : Phase), Heard s f .office → f.body = u8 k →
    (s.kiln k).state = .held →
    p = (if (s.heatOf k).grant = s.currentDemand k ∧ (s.heatOf k).request = .absent then .active
      else if s.masterEnable = false ∧ s.currentDemand k = 0 ∧ Config.releasedActive = true then .active
      else .waitHeat) →
    u = State.setKiln
      { s with
        holdPoints := Vector.ofFn fun h : HoldPointNo =>
          if (s.holdPoint h).hit.map Hit.kiln = some k then { s.holdPoint h with hit := none } else s.holdPoint h } k
      { s.kiln k with state := .running p } →
    ∃ t, t = (if s.masterEnable = false then u
        else if p = .active then (u.raise .setpointChanged).evaluateNow k
        else ((u.raise .setpointChanged).raise .heatWait).passAndSettle) ∧
      exec (.kilnRelease f) s = .next (t.answer 0x2A f
        ⟨.done, counted (fun h => u8 h.val)
            ((List.finRange 4).filter fun h => (s.holdPoint h).hit.map Hit.kiln == some k) ++
          u8 (t.kiln k).state.code ++ optU8 ((t.kiln k).state.phase?.map Phase.code) ++ u8 (t.kiln k).stepIndex ++
          u8 (t.heatOf k).grant⟩)

/-- KILN ADVANCE of a HELD kiln, no other kiln waiting. On the last step it is FINISHED with its heat released. On an earlier step
it is HELD at the next: the hold points that match the entry are hit and HOLD_HIT raised; a demand at or below the grant becomes the
grant; a higher one is granted when the free units cover it, and otherwise waits, since its earlier request where that was waiting;
with the enable clear it is dormant. SETPOINT_CHANGED is raised. Any other kiln is refused with WRONG_STATE (07, R116, R118, R122; 05,
R80, R81; 06, R96 to R98). That a finished kiln is answered with an empty list before the finished mark is the model's reading of the
layout (log 6). -/
def Obligations.KilnAdvanceEndsOneStep : Prop :=
  ∀ (s : State) (f : Request) (k : KilnNo), Heard s f .office → f.body = u8 k →
    ((s.kiln k).state ≠ .held → exec (.kilnAdvance f) s = .next (s.answer 0x2B f ⟨.wrongState, []⟩)) ∧
    ((s.kiln k).state = .held → OthersDoNotWait s k →
      (s.stepCount k ≤ (s.kiln k).stepIndex + 1 →
        exec (.kilnAdvance f) s = .next (((((s.setKiln k
          { s.kiln k with
            state := .finished, runEnable := false,
            history := (s.kiln k).history ++ [⟨(s.kiln k).stepIndex, (s.kiln k).stepElapsed, .advanced⟩] }).setHeat k
          ⟨0, .absent⟩).raise .kilnFinished).raise .setpointChanged).answer 0x2B f
          ⟨.done, u8 (s.kiln k).stepIndex ++ [0, 0, 0, 1]⟩)) ∧
      ∀ (i : Nat) (t : ScheduleStep) (l : List HoldPointNo) (u : State), i = (s.kiln k).stepIndex + 1 →
        i < s.stepCount k → s.stepAt k i = some t → l = s.stepEnterMatches k i →
        u = (State.setKiln
          { s with
            holdPoints := Vector.ofFn fun h : HoldPointNo =>
              if h ∈ l then { s.holdPoint h with
                enabled := (s.holdPoint h).enabled && !(s.holdPoint h).oneShot, hit := some ⟨k, s.minute⟩ }
              else s.holdPoint h } k
          { s.kiln k with
            stepIndex := i, stepEntered := some s.minute, stepElapsed := 0,
            history := (s.kiln k).history ++ [⟨(s.kiln k).stepIndex, (s.kiln k).stepElapsed, .advanced⟩] }).setHeat k
          (if t.demand ≤ (s.heatOf k).grant then ⟨t.demand, .absent⟩
            else if s.masterEnable = false then ⟨(s.heatOf k).grant, .dormant t.demand⟩
            else if t.demand - (s.heatOf k).grant ≤ s.freeUnits then ⟨t.demand, .absent⟩
            else ⟨(s.heatOf k).grant, .waiting t.demand ((s.heatOf k).request.since?.getD s.minute)⟩) →
        exec (.kilnAdvance f) s = .next (((if l = [] then u else u.raise .holdHit).raise .setpointChanged).answer 0x2B f
          ⟨.done, u8 (s.kiln k).stepIndex ++ optU8 (some i) ++ counted (fun h => u8 h.val) l ++ [0]⟩))

/-! ### Heat (chapter 6) -/

/-- A pass, with the enable set and the grants within the capacity, takes the waiting kilns aged first, by wait-since and number,
then the others by number. Each that the units free at its point cover is granted its demand, and becomes ACTIVE when it stood in
WAIT_HEAT; an aged kiln not covered ends the pass. SETPOINT_CHANGED is raised when a mode or grant changed. With no granted kiln at
its step's minimum or maximum, the evaluations that follow end no step. HEAT_WAIT_AGED at an aged kiln makes a pass: that it is a
command of its own is the model's reading, log 3 (06, R95, R98 to R100; 05, R88). -/
def Obligations.PassServesAgedFirst : Prop :=
  ∀ s : State, s.masterEnable = true → s.grantSum ≤ s.capacity →
    ∃ (order granted : List KilnNo) (u : State),
      order.Nodup ∧ (∀ k, k ∈ order ↔ ∃ d m, (s.heatOf k).request = .waiting d m) ∧ order.Pairwise s.PassesBefore ∧
      granted = servedFrom s.freeUnits (order.map s.asking) ∧
      u = { s with
        heat := Vector.ofFn fun k : KilnNo =>
          if k ∈ granted then ⟨(s.heatOf k).request.demand?.getD 0, .absent⟩ else s.heatOf k
        kilns := Vector.ofFn fun k : KilnNo =>
          if k ∈ granted ∧ (s.kiln k).state = .running .waitHeat then { s.kiln k with state := .running .active }
          else s.kiln k } ∧
      s.pass = (u.noteSetpoints s, granted.filter fun k => (s.kiln k).state = .running .waitHeat) ∧
      ((∀ k t, k ∈ granted → (s.kiln k).state = .running .waitHeat → s.currentStep k = some t →
          (s.kiln k).stepElapsed < t.minMinutes ∧ (s.kiln k).stepElapsed < t.maxMinutes) →
        s.passAndSettle = u.noteSetpoints s) ∧
      ∀ k, s.condition = .running → s.aged k = true → exec (.heatWaitAged k) s = .next s.passAndSettle

/-- BOILER CAPACITY without a capacity changes nothing. A capacity that the grants fit, and that is not raised with the enable set,
is stored and revokes nothing; one raised with the enable set is followed by a pass. One below the grants revokes whole grants from
K7 downward until they fit: a RUNNING ACTIVE kiln waits from now with HEAT_WAIT, a HELD one keeps its wait-since where it had one,
SETPOINT_CHANGED is raised, a pass follows, and the kilns revoked are answered. 0 and a capacity above 64 are refused with BAD_FIELD
(06, R102 to R104). The bytes answered, `State.heatBytes`, are the model's reading of R191 (log 6). -/
def Obligations.BoilerCapacityStores : Prop :=
  ∀ (s : State) (f : Request), Heard s f .office →
    (f.body = optU8 none → exec (.boilerCapacity f) s = .next (s.answer 0x2E f ⟨.done, s.heatBytes []⟩)) ∧
    (∀ n, 1 ≤ n → n ≤ 64 → f.body = optU8 (some n) → s.grantSum ≤ n → (n ≤ s.capacity ∨ s.masterEnable = false) →
      exec (.boilerCapacity f) s = .next (State.answer { s with capacity := n } 0x2E f
        ⟨.done, State.heatBytes { s with capacity := n } []⟩)) ∧
    (∀ n t, 1 ≤ n → n ≤ 64 → f.body = optU8 (some n) → s.capacity < n → s.masterEnable = true →
      t = State.passAndSettle { s with capacity := n } →
      exec (.boilerCapacity f) s = .next (t.answer 0x2E f ⟨.done, t.heatBytes []⟩)) ∧
    (∀ (n : Nat) (l : List KilnNo) (u v t : State), 1 ≤ n → n ≤ 64 → f.body = optU8 (some n) → n < s.grantSum →
      s.grantSum ≤ s.capacity → l = revokedFrom (s.grantSum - n) s.grantsDown →
      u = { s with
        capacity := n
        heat := Vector.ofFn fun k : KilnNo =>
          if k ∈ l then ⟨0, match (s.kiln k).state with
            | .running .active => .waiting (s.currentDemand k) s.minute
            | .held => .waiting (s.currentDemand k) ((s.heatOf k).request.since?.getD s.minute)
            | _ => (s.heatOf k).request⟩
          else s.heatOf k
        kilns := Vector.ofFn fun k : KilnNo =>
          if k ∈ l ∧ (s.kiln k).state = .running .active then { s.kiln k with state := .running .waitHeat }
          else s.kiln k } →
      v = (if ∃ k ∈ l, (s.kiln k).state = .running .active then u.raise .heatWait else u).raise .setpointChanged →
      t = v.passAndSettle →
      exec (.boilerCapacity f) s = .next (t.answer 0x2E f ⟨.done, t.heatBytes l⟩)) ∧
    (∀ n, (n = 0 ∨ 65 ≤ n ∧ n ≤ 255) → f.body = optU8 (some n) →
      exec (.boilerCapacity f) s = .next (s.answer 0x2E f ⟨.badField, []⟩))

/-- MILL_STOP, the line having been released: enable clear, no grant, no request, RUNNING kilns wait when their step demands heat
and are ACTIVE otherwise (the model's reading for a kiln that was waiting, log 21), MILL_STOP raised on both links; SETPOINT_CHANGED
is raised with it exactly when some kiln held a grant, or, the enable having been set, a kiln was HELD or RUNNING with its door closed,
and so turned to COAST (log 11: a RUNNING kiln with its door open was in COAST already); no other class is raised and all else stays.
The line's release changes nothing else (06, R106, R107; 05, R86, R88). -/
def Obligations.MillStopTakesAllHeat : Prop :=
  ∀ s : State,
    (s.condition = .running → s.millStopLine = false →
      ∃ t, exec .millStop s = .next t ∧
        t = { s with
          officePort := t.officePort, kilnHousePort := t.kilnHousePort, kilns := t.kilns, heat := t.heat,
          masterEnable := false, millStopLine := true } ∧
        (∀ k, t.heatOf k = ⟨0, .absent⟩) ∧
        (∀ k, t.kiln k = { s.kiln k with
          state := match (s.kiln k).state with
            | .running _ => .running (if 0 < s.currentDemand k then .waitHeat else .active)
            | st => st }) ∧
        (∀ l, (t.port l).receiver = (s.port l).receiver ∧ (t.port l).mask = (s.port l).mask) ∧
        t.officePort.pending = s.officePort.pending ||| (AttnClass.officeMillStop.set &&& ~~~s.officePort.mask) ∧
        t.kilnHousePort.pending = s.kilnHousePort.pending |||
          ((if ∃ k, (s.heatOf k).grant ≠ 0 ∨ s.masterEnable = true ∧
              ((s.kiln k).state = .held ∨ (s.kiln k).state.isRunning = true ∧ (s.kiln k).doorOpen = false) then
            AttnClass.kilnMillStop.set ||| AttnClass.setpointChanged.set
          else AttnClass.kilnMillStop.set) &&& ~~~s.kilnHousePort.mask)) ∧
    exec .millStopReleased s = .next { s with millStopLine := false }

/-! ### Time (chapters 5, 6 and 9) -/

/-- MINUTE_EVENT: the count advances; the aging pass comes before or after the counting of the kilns, the order being free (log 4);
then the stackers act. The kilns count in ascending number: one that counts gains one elapsed and one run minute, and a RUNNING one is
then evaluated before the next counts. Where no kiln that counts comes to its maximum, or to its minimum with its exit holding, that is
the minutes alone. With no request waiting besides, the pass changes nothing. With the line held no stacker acts. Otherwise each OPEN
pack below its idle time counts one idle minute, and each stacker brought to the idle time, or due at it, attempts its idle close, in
ascending number, as IDLE_CLOSE does. At its maximum the count stays (05, R69, R74, R77; 06, R98, R110; 09, R160). That
MINUTE_COUNT_STOPPED is a command of its own and changes nothing is the model's reading (log 3). -/
def Obligations.MinuteEventCounts : Prop :=
  (∀ counting : State → State,
    (∀ x, counting x = (List.finRange 8).foldl (fun (y : State) (k : KilnNo) =>
      if y.counts k then
        let z := y.setKiln k
          { y.kiln k with stepElapsed := (y.kiln k).stepElapsed + 1, runMinutes := (y.kiln k).runMinutes + 1 }
        if (y.kiln k).state = .running .active then z.evaluateNow k else z
      else y) x) →
    (∀ s v : State, s.condition = .running → s.minute < 4294967295 →
      v = { s with minute := s.minute + 1, choices := s.choices + 1 } →
      exec .minuteEvent s = .next (if Config.agingPassFirst s.choices then counting v.passAndSettle
        else (counting v).passAndSettle).idleStackers) ∧
    ∀ x : State,
      (∀ k t, (x.kiln k).state = .running .active → x.counts k = true → x.currentStep k = some t →
        (x.kiln k).stepElapsed + 1 < t.maxMinutes ∧
          ((x.kiln k).stepElapsed + 1 < t.minMinutes ∨ x.exitHolds k t = false)) →
      counting x = { x with
        kilns := Vector.ofFn fun k : KilnNo =>
          if x.counts k then
            { x.kiln k with stepElapsed := (x.kiln k).stepElapsed + 1, runMinutes := (x.kiln k).runMinutes + 1 }
          else x.kiln k }) ∧
  (∀ x y : State, x.condition = .running → x.lineHeld = false →
    y = { x with
      stackers := Vector.ofFn fun st : StackerNo =>
        match (x.stacker st).openPack with
        | some p =>
          if (x.stacker st).idleMinutes < p.idleTime then
            { x.stacker st with idleMinutes := (x.stacker st).idleMinutes + 1 }
          else x.stacker st
        | none => x.stacker st } →
    (((List.finRange 6).filter fun st : StackerNo =>
      match (x.stacker st).openPack with
      | some p => decide ((x.stacker st).idleMinutes + 1 = p.idleTime ∨
          (x.stacker st).idleMinutes = p.idleTime ∧ (x.stacker st).idleDue = true)
      | none => false).foldl (fun (o : Host.Outcome State Fault Refusal) st =>
        match o with
        | .next z => exec (.idleClose st) z
        | stop => stop) (.next y)) = .next x.idleStackers) ∧
  ∀ s : State,
    (s.condition = .running → s.minute < 4294967295 → (∀ k, (s.heatOf k).request.since? = none) →
      (∀ k t, (s.kiln k).state = .running .active → s.counts k = true → s.currentStep k = some t →
        (s.kiln k).stepElapsed + 1 < t.maxMinutes ∧ ((s.kiln k).stepElapsed + 1 < t.minMinutes ∨
          State.exitHolds { s with minute := s.minute + 1 } k t = false)) →
      ∃ u : State, exec .minuteEvent s = .next u.idleStackers ∧
        u = { s with minute := s.minute + 1, choices := s.choices + 1, kilns := u.kilns } ∧
        (∀ k, u.kiln k = if s.counts k then
          { s.kiln k with stepElapsed := (s.kiln k).stepElapsed + 1, runMinutes := (s.kiln k).runMinutes + 1 }
          else s.kiln k) ∧
        (s.lineHeld = true → u.idleStackers = u) ∧
        (s.lineHeld = false →
          (∀ st p, (s.stacker st).openPack = some p → (s.stacker st).idleMinutes + 1 ≠ p.idleTime ∧
            ((s.stacker st).idleMinutes = p.idleTime → (s.stacker st).idleDue = false)) →
          u.idleStackers = { u with
            stackers := Vector.ofFn fun st : StackerNo =>
              match (s.stacker st).openPack with
              | some p =>
                if (s.stacker st).idleMinutes < p.idleTime then
                  { s.stacker st with idleMinutes := (s.stacker st).idleMinutes + 1 }
                else s.stacker st
              | none => s.stacker st })) ∧
    (∀ k, s.counts k = true ↔ s.masterEnable = true ∧ (s.kiln k).doorOpen = false ∧
      ((s.kiln k).state = .running .active ∨ (s.kiln k).state = .held ∧ (s.kiln k).holdCounts = true ∧
        ∃ t, s.currentStep k = some t ∧ (s.kiln k).stepElapsed < t.maxMinutes)) ∧
    exec .minuteCountStopped s = .next s ∧ (s.minute = 4294967295 → exec .minuteEvent s = .next s)

/-- When a step's exit holds, by its kind. An evaluation ends a step only in a RUNNING ACTIVE kiln that is not suspended: by EXIT at
its minimum minutes when the exit holds, and else FORCED at its maximum, with STEP_FORCED. With no other kiln waiting, the end of a last
step finishes the kiln: its heat goes back, and KILN_FINISHED and SETPOINT_CHANGED are raised. The end of an earlier one enters the
next: HELD with HOLD_HIT where hold points match, and otherwise ACTIVE when the units cover the new demand, or waiting with HEAT_WAIT;
SETPOINT_CHANGED is raised. STEP_FORCED as a command is the evaluation of a kiln at its maximum, and nothing otherwise. HEAT_WAIT_AGED
at a HELD kiln that alone waits, for 240 minutes or more: a demand that fits is granted with SETPOINT_CHANGED, and one that does not
fit stays waiting (05, R73, R76 to R81; 03, R42; 06, R95 to R101; 07, R116, R118). That these two are commands of their own is the
model's reading (log 3). -/
def Obligations.StepEndsAndAgedRequest : Prop :=
  (∀ (s : State) (k : KilnNo) (t : ScheduleStep) (fresh : Prop),
    (fresh ↔ (s.kiln k).figures.cmc ≠ none ∧ ∀ x ∈ (s.kiln k).samples, s.minute - x.weighMinute ≤ 1440) →
    (s.exitHolds k t = true ↔ match t.exit with
      | .time => True
      | .cmcAtOrBelow v => fresh ∧ ∃ m, (s.kiln k).figures.cmc = some m ∧ m ≤ v
      | .driestAtOrAbove v => fresh ∧ ∃ m, (s.kiln k).figures.driest = some m ∧ v ≤ m
      | .drybulbReached => (s.kiln k).suspect = false ∧ ∃ z, (s.kiln k).lastDry = some z ∧ (t.dryBulb : Int) - 10 ≤ z
      | .drybulbAtOrBelow v => (s.kiln k).suspect = false ∧ ∃ z, (s.kiln k).lastDry = some z ∧ z ≤ (v : Int))) ∧
  (∀ (s : State) (k : KilnNo),
    ((s.kiln k).state ≠ .running .active ∨ s.masterEnable = false ∨
        (∃ t, s.currentStep k = some t ∧ (s.kiln k).stepElapsed < t.maxMinutes ∧
          ((s.kiln k).stepElapsed < t.minMinutes ∨ s.exitHolds k t = false)) →
      s.evaluateNow k = s) ∧
    (∀ (t : ScheduleStep) (cause : EndCause) (v : State), (s.kiln k).state = .running .active → s.masterEnable = true →
      OthersDoNotWait s k → s.currentStep k = some t →
      (t.minMinutes ≤ (s.kiln k).stepElapsed ∧ s.exitHolds k t = true ∧ cause = .exit ∧ v = s ∨
        ((s.kiln k).stepElapsed < t.minMinutes ∨ s.exitHolds k t = false) ∧ t.maxMinutes ≤ (s.kiln k).stepElapsed ∧
          cause = .forced ∧ v = s.raise .stepForced) →
      (s.stepCount k ≤ (s.kiln k).stepIndex + 1 →
        s.evaluateNow k = (((v.setKiln k
          { s.kiln k with
            state := .finished, runEnable := false,
            history := (s.kiln k).history ++ [⟨(s.kiln k).stepIndex, (s.kiln k).stepElapsed, cause⟩] }).setHeat k
          ⟨0, .absent⟩).raise .kilnFinished).raise .setpointChanged) ∧
      ∀ (i : Nat) (n : ScheduleStep) (l : List HoldPointNo) (u : State), i = (s.kiln k).stepIndex + 1 →
        i < s.stepCount k → s.stepAt k i = some n → l = s.stepEnterMatches k i →
        u = (State.setKiln
          { v with
            holdPoints := Vector.ofFn fun h : HoldPointNo =>
              if h ∈ l then { s.holdPoint h with
                enabled := (s.holdPoint h).enabled && !(s.holdPoint h).oneShot, hit := some ⟨k, s.minute⟩ }
              else s.holdPoint h } k
          { s.kiln k with
            state := if l ≠ [] then .held
              else if n.demand - (s.heatOf k).grant ≤ s.freeUnits then .running .active else .running .waitHeat
            stepIndex := i, stepEntered := some s.minute, stepElapsed := 0,
            history := (s.kiln k).history ++ [⟨(s.kiln k).stepIndex, (s.kiln k).stepElapsed, cause⟩] }).setHeat k
          (if n.demand - (s.heatOf k).grant ≤ s.freeUnits then ⟨n.demand, .absent⟩
            else ⟨(s.heatOf k).grant, .waiting n.demand ((s.heatOf k).request.since?.getD s.minute)⟩) →
        s.evaluateNow k = (if l ≠ [] then u.raise .holdHit
          else if n.demand - (s.heatOf k).grant ≤ s.freeUnits then u else u.raise .heatWait).raise .setpointChanged) ∧
    (s.condition = .running → (s.kiln k).state = .running .active → s.masterEnable = true →
      (∃ t, s.currentStep k = some t ∧ t.maxMinutes ≤ (s.kiln k).stepElapsed) →
      exec (.stepForced k) s = .next (s.evaluateNow k)) ∧
    (s.condition ≠ .running ∨ (s.kiln k).state ≠ .running .active ∨ s.masterEnable = false ∨
        (∃ t, s.currentStep k = some t ∧ (s.kiln k).stepElapsed < t.maxMinutes) →
      exec (.stepForced k) s = .next s)) ∧
  ∀ (s : State) (k : KilnNo), s.condition = .running → s.masterEnable = true → OthersDoNotWait s k →
    (∀ d m, (s.kiln k).state = .held → (s.heatOf k).request = .waiting d m → 240 ≤ s.minute - m →
      d - (s.heatOf k).grant ≤ s.freeUnits → d ≠ (s.heatOf k).grant →
      exec (.heatWaitAged k) s = .next ((s.setHeat k ⟨d, .absent⟩).raise .setpointChanged)) ∧
    (∀ d m, (s.heatOf k).request = .waiting d m → 240 ≤ s.minute - m → s.freeUnits < d - (s.heatOf k).grant →
      exec (.heatWaitAged k) s = .next s)

/-- IDLE_CLOSE of a pack at its idle time, the line not held. With no CLOSING pack, a label slot free and, for a redry pack, a lot
slot and a number, the pack is CLOSING with reason IDLE and its reservations, and one with no board outstanding completes. When one of
these fails, the pack is marked idle-close-due. At another idle minute, without an OPEN pack, or with the line held, nothing changes
(09, R155, R160, R163; 01, R17). That it is a command of its own is the model's reading (log 3). -/
def Obligations.IdleCloseAttempted : Prop :=
  ∀ (s : State) (st : StackerNo),
    (∀ p, s.condition = .running → s.lineHeld = false → (s.stacker st).openPack = some p →
      (s.stacker st).idleMinutes = p.idleTime →
      (∀ (redry : Option Nat) (u : State), (s.stacker st).closing = none → s.labels.length + s.labelsReserved < 16 →
        (p.bin ≠ 14 ∧ redry = none ∨ p.bin = 14 ∧ s.lots.length + s.reservations.length < 64 ∧ redry.isSome = true ∧
          s.redrySearch = redry) →
        u = State.setStacker
          { s with
            redryNext := match redry with
              | some r => if r = s.redryLast then s.redryFirst else r + 1
              | none => s.redryNext } st
          { s.stacker st with
            openPack := none, closing := some ⟨p, .idle, s.minute, redry⟩, idleMinutes := 0, idleDue := false } →
        exec (.idleClose st) s =
          .next (if p.outstanding = 0 then u.complete st ⟨p, .idle, s.minute, redry⟩ else u)) ∧
      ((s.stacker st).closing.isSome = true ∨ 16 ≤ s.labels.length + s.labelsReserved ∨
          p.bin = 14 ∧ (64 ≤ s.lots.length + s.reservations.length ∨ s.redrySearch = none) →
        exec (.idleClose st) s = .next (s.setStacker st { s.stacker st with idleDue := true }))) ∧
    (s.lineHeld = true ∨ (∀ p, (s.stacker st).openPack = some p → (s.stacker st).idleMinutes ≠ p.idleTime) →
      exec (.idleClose st) s = .next s)

/-! ### Boards and packs (chapters 8 and 9) -/

/-- BIN MAP WRITE replaces bins 0 to 14 together and BIN MAP SET one of them, each when every destination is permitted for its
bin, and refuses with BAD_FIELD otherwise; BIN MAP READ, on every link, answers the sixteen entries in bin order, bin 15 as REJECT,
and changes nothing. No command changes bin 15 (08, R143 to R145). -/
def Obligations.BinMapRequests : Prop :=
  (∀ (s : State) (f : Request), Heard s f .office →
    (∀ (es : Fin 15 → BinEntry), es 14 ≠ .reject → f.body = (List.ofFn es).flatMap (fun e => u8 e.code) →
      ∃ m : Vector BinEntry 16, (∀ i : Fin 15, m[i.val] = es i) ∧ m[15] = s.binMap[15] ∧
        exec (.binMapWrite f) s =
          .next (State.answer { s with binMap := m } 0x30 f ⟨.done, m.toList.flatMap fun e => u8 e.code⟩)) ∧
    (∀ ns : List Byte, ns.length = 15 → f.body = ns →
      (∃ (i : Nat) (n : Byte), ns[i]? = some n ∧ ¬(n.toNat ≤ 5 ∨ n.toNat = 8 ∨ n.toNat = 6 ∧ i ≤ 13)) →
      exec (.binMapWrite f) s = .next (s.answer 0x30 f ⟨.badField, []⟩)) ∧
    (∀ (bin : Fin 15) (e : BinEntry), (bin = 14 → e ≠ .reject) → f.body = u8 bin ++ u8 e.code →
      exec (.binMapSet f) s = .next (State.answer { s with binMap := s.binMap.set bin e } 0x31 f
        ⟨.done, (s.binMap.set bin e).toList.flatMap fun x => u8 x.code⟩)) ∧
    (∀ bin n : Byte, f.body = [bin, n] →
      15 ≤ bin.toNat ∨ ¬(n.toNat ≤ 5 ∨ n.toNat = 8 ∨ n.toNat = 6 ∧ bin.toNat ≤ 13) →
      exec (.binMapSet f) s = .next (s.answer 0x31 f ⟨.badField, []⟩))) ∧
  (∀ (s : State) (f : Request), s.listens f.link = true → f.body = [] → s.binMap[15] = .reject →
    exec (.binMapRead f) s = .next (s.answer 0x09 f
      ⟨.done, ((s.binMap.toList.take 15).flatMap fun e => u8 e.code) ++ [6]⟩)) ∧
  ∀ (c : Instr) (s t : State), s.binMap[15] = .reject → exec c s = .next t → t.binMap[15] = .reject

/-- MEASURE of a board that goes to no stacker joins the queue without a pack, and its lot counts it as measured and rejected or held
back. Of a HELD lot: HOLDBACK, cause LOT_HELD. Otherwise with a dimension fault or of bin 15: REJECT. Otherwise unverified and not
passing by the lot's kiln result: HOLDBACK, UNVERIFIED, for a reported bin 14 too (the model's choice, log 26). Otherwise, dry or
passing: of bin 14, HOLDBACK, NOT_GRADE_BIN; of a bin mapped to REJECT, REJECT; of one UNMAPPED, HOLDBACK, UNMAPPED. Wet with bin 14
UNMAPPED: HOLDBACK, UNMAPPED, recorded with bin 14 (the model's reading, log 10) (08, R133 to R136, R138, R139; 01, R10, R13). -/
def Obligations.MeasureSendsAside : Prop :=
  ∀ (s : State) (f : Request) (n th w len raw : Nat) (bin recorded : BinNo) (ov : Bool) (tp : Int) (l : LotRecord)
    (sp : Species) (ft mc : Nat) (d : Disposition) (dest : Destination) (cause : Nat) (dry : Prop),
    Heard s f .planer → 1 ≤ n → n ≤ 65535 → th ≤ 255 → w ≤ 255 → len ≤ 255 → raw ≤ 65535 → -128 ≤ tp → tp ≤ 127 →
    f.body = u16 n ++ u8 th ++ u8 w ++ u8 len ++ u8 bin ++ u16 raw ++ mark ov ++ i8 tp →
    s.lineHeld = false → s.shadow = false → s.queue.length < 48 → s.findLot n = some l →
    (l.state = .dried ∨ l.state = .planing ∨ ∃ h, l.state = .held h) → s.speciesAt l.species = some sp →
    l.measured.boards < 999999 → ft = boardFootage th w len → mc = correctedMc raw ov tp sp.fs sp.kt →
    l.measured.footage + ft ≤ 9999999999 →
    (dry ↔ if 0 ≤ tp then mc ≤ l.targetMc + l.tolerance
      else ∃ r m, l.kilnResult = some r ∧ r.aborted = false ∧ r.finalCmc = some m ∧ m ≤ l.targetMc + l.tolerance) →
    ((∃ h, l.state = .held h) ∧ d = .holdback ∧ dest = .holdback ∧ cause = 1 ∧ recorded = bin ∨
      (∀ h, l.state ≠ .held h) ∧ (dimensionFault th w len = true ∨ bin = 15) ∧ d = .reject ∧ dest = .reject ∧ cause = 0 ∧
        recorded = bin ∨
      (∀ h, l.state ≠ .held h) ∧ dimensionFault th w len = false ∧ bin ≠ 15 ∧
        (tp < 0 ∧ ¬dry ∧ d = .holdback ∧ dest = .holdback ∧ cause = 2 ∧ recorded = bin ∨
          dry ∧ bin = 14 ∧ d = .holdback ∧ dest = .holdback ∧ cause = 4 ∧ recorded = bin ∨
          dry ∧ bin ≠ 14 ∧ s.binMap[bin] = .reject ∧ d = .reject ∧ dest = .reject ∧ cause = 0 ∧ recorded = bin ∨
          dry ∧ bin ≠ 14 ∧ s.binMap[bin] = .unmapped ∧ d = .holdback ∧ dest = .holdback ∧ cause = 3 ∧ recorded = bin ∨
          0 ≤ tp ∧ ¬dry ∧ s.binMap[14] = .unmapped ∧ d = .holdback ∧ dest = .holdback ∧ cause = 3 ∧ recorded = 14)) →
    exec (.measure f) s = .next ((State.modifyLot
      { s with
        queue := s.queue ++ [{
          seq := s.freeSeq, lot := n, thickness := clampThickness th, width := clampWidth w, length := clampLength len,
          footage := ft, bin := recorded, raw := raw, overRange := ov, temperature := clampTemp tp, mc := mc,
          verified := decide (0 ≤ tp), disposition := d, destination := dest, pack := none, measureMinute := s.minute }]
        nextSeq := if s.freeSeq = 65535 then 1 else s.freeSeq + 1 } n fun x =>
      { x with
        measured := ⟨x.measured.boards + 1, x.measured.footage + ft⟩
        rejected := if d = .reject then ⟨x.rejected.boards + 1, x.rejected.footage + ft⟩ else x.rejected
        heldBack := if d = .holdback then ⟨x.heldBack.boards + 1, x.heldBack.footage + ft⟩ else x.heldBack
        state := planingBegun x.state }).answer 0x50 f
      ⟨.done, u16 s.freeSeq ++ [byteOf d.code, byteOf dest.code, 0, 0] ++ u16 mc ++ mark (decide (0 ≤ tp)) ++
        [0, byteOf cause]⟩)

/-- MEASURE of a dry or passing board through its bin, or of a wet one through bin 14, to a stacker is the placement of the board
there. A board placed joins the queue with its pack, which counts it outstanding, and its lot counts it by its disposition, LOT_HELD
being raised when the redry check holds the lot. A board turned away is HOLDBACK with cause STACKER_BLOCKED, counted as held back,
its routing bin recorded (for a wet board the model's reading, log 10). In closed form, a verified dry board whose bin maps to an
unblocked stacker with a pack of its key and room in it is PASS; the pack takes the board and its idle figures are cleared (08, R134 to
R139; 09, R156; 03, R46; 01, R11 to R13). -/
def Obligations.MeasurePlacesOnStacker : Prop :=
  (∀ (s : State) (f : Request) (n th w len raw : Nat) (bin routed : BinNo) (ov : Bool) (tp : Int) (l : LotRecord)
    (sp : Species) (ft mc : Nat) (d : Disposition) (dry : Prop) (st : StackerNo) (u v : State) (board : Board),
    Heard s f .planer → 1 ≤ n → n ≤ 65535 → th ≤ 255 → w ≤ 255 → len ≤ 255 → raw ≤ 65535 → -128 ≤ tp → tp ≤ 127 →
    f.body = u16 n ++ u8 th ++ u8 w ++ u8 len ++ u8 bin ++ u16 raw ++ mark ov ++ i8 tp →
    s.lineHeld = false → s.shadow = false → s.queue.length < 48 → s.findLot n = some l →
    (l.state = .dried ∨ l.state = .planing) → s.speciesAt l.species = some sp →
    l.measured.boards < 999999 → ft = boardFootage th w len → mc = correctedMc raw ov tp sp.fs sp.kt →
    l.measured.footage + ft ≤ 9999999999 → dimensionFault th w len = false → bin ≠ 15 →
    (dry ↔ if 0 ≤ tp then mc ≤ l.targetMc + l.tolerance
      else ∃ r m, l.kilnResult = some r ∧ r.aborted = false ∧ r.finalCmc = some m ∧ m ≤ l.targetMc + l.tolerance) →
    (dry ∧ d = .pass ∧ bin ≠ 14 ∧ routed = bin ∨ 0 ≤ tp ∧ ¬dry ∧ d = .redry ∧ routed = 14) →
    s.binMap[routed] = .stacker st →
    board = { seq := s.freeSeq, lot := n, thickness := clampThickness th, width := clampWidth w, length := clampLength len,
              footage := ft, bin := routed, raw := raw, overRange := ov, temperature := clampTemp tp, mc := mc,
              verified := decide (0 ≤ tp), disposition := .holdback, destination := .holdback, pack := none,
              measureMinute := s.minute } →
    (∀ m, s.place st ⟨n, routed, ft, mc, decide (0 ≤ tp)⟩ = (u, some m) →
      v = (State.onPack
        { u with
          queue := s.queue ++ [{ board with disposition := d, destination := .stacker st, pack := some m }]
          nextSeq := if s.freeSeq = 65535 then 1 else s.freeSeq + 1 } st m fun p =>
          { p with outstanding := p.outstanding + 1 }).modifyLot n
            (fun x => x.afterBoard d ft mc (decide (0 ≤ tp))) →
      exec (.measure f) s = .next ((if (l.afterBoard d ft mc (decide (0 ≤ tp))).state = .held (.redry .planing) then
          (v.raise .officeLotHeld).raise .planerLotHeld else v).answer 0x50 f
        ⟨.done, u16 s.freeSeq ++ [byteOf d.code, byteOf st] ++ u16 m ++ u16 mc ++ mark (decide (0 ≤ tp)) ++ [0, 0]⟩)) ∧
    (s.place st ⟨n, routed, ft, mc, decide (0 ≤ tp)⟩ = (u, none) →
      exec (.measure f) s = .next ((State.modifyLot
        { u with
          queue := s.queue ++ [board], nextSeq := if s.freeSeq = 65535 then 1 else s.freeSeq + 1 } n fun x =>
        { x with
          measured := ⟨x.measured.boards + 1, x.measured.footage + ft⟩
          heldBack := ⟨x.heldBack.boards + 1, x.heldBack.footage + ft⟩
          state := planingBegun x.state }).answer 0x50 f
        ⟨.done, u16 s.freeSeq ++ [3, 7, 0, 0] ++ u16 mc ++ mark (decide (0 ≤ tp)) ++ [0, 5]⟩))) ∧
    ∀ (s : State) (f : Request) (n th w len raw : Nat) (bin : BinNo) (ov : Bool) (tp : Int) (l : LotRecord) (sp : Species)
      (st : StackerNo) (p : Pack) (ft mc : Nat),
      Heard s f .planer → 1 ≤ n → n ≤ 65535 → th ≤ 255 → w ≤ 255 → len ≤ 255 → raw ≤ 65535 → -128 ≤ tp → tp ≤ 127 →
      f.body = u16 n ++ u8 th ++ u8 w ++ u8 len ++ u8 bin ++ u16 raw ++ mark ov ++ i8 tp →
      s.lineHeld = false → s.shadow = false → s.queue.length < 48 → s.findLot n = some l →
      (l.state = .dried ∨ l.state = .planing) → s.speciesAt l.species = some sp → l.measured.boards < 999999 →
      ft = boardFootage th w len → mc = correctedMc raw ov tp sp.fs sp.kt → l.measured.footage + ft ≤ 9999999999 →
      dimensionFault th w len = false → bin.val ≤ 13 → verifiedAt tp = true → mc ≤ l.targetMc + l.tolerance →
      s.binMap[bin] = .stacker st → (s.stacker st).blocked = none → (s.stacker st).openPack = some p → p.lot = n →
      p.bin = bin → p.boards + 1 < p.countLimit → (p.footageLimit = 0 ∨ p.footage + ft ≤ p.footageLimit) →
      exec (.measure f) s = .next ((((State.setStacker
        { s with
          queue := s.queue ++ [{
            seq := s.freeSeq, lot := n, thickness := clampThickness th, width := clampWidth w, length := clampLength len,
            footage := ft, bin := bin, raw := raw, overRange := ov, temperature := clampTemp tp, mc := mc, verified := true,
            disposition := .pass, destination := .stacker st, pack := some p.number, measureMinute := s.minute }]
          nextSeq := if s.freeSeq = 65535 then 1 else s.freeSeq + 1 } st
        { s.stacker st with
          openPack := some { p.addBoard ft mc true with outstanding := p.outstanding + 1 }, idleMinutes := 0,
          idleDue := false }).modifyLot n fun x =>
        { x with
          measured := ⟨x.measured.boards + 1, x.measured.footage + ft⟩
          passed := ⟨x.passed.boards + 1, x.passed.footage + ft⟩
          verifiedBoards := x.verifiedBoards + 1, verifiedMcSum := x.verifiedMcSum + mc
          state := planingBegun x.state })).answer 0x50 f
        ⟨.done, u16 s.freeSeq ++ [0, byteOf st] ++ u16 p.number ++ u16 mc ++ [1, 0, 0]⟩)

/-- The placement of a board on a stacker. Blocked: turned away, nothing changed. A board that calls for no close opens a pack with
the stacker's limits and the next free number, or joins the OPEN pack of its key. One that would bring its pack to the count limit
closes it with it, COUNT. One of another lot or bin, or for which the pack stands at its count limit or would pass its footage limit,
closes the OPEN pack first, by the first of these reasons, and opens its own; a pack closed with no board outstanding completes. A
close needs, in this order, no CLOSING pack, a label slot, and for a redry pack a lot slot and a number, which it takes; the first
that fails blocks the stacker with its reason, raises STACKER_BLOCKED on both links, and turns the board away (09, R152 to R156, R163;
01, R17; 03, R46). -/
def Obligations.PlacementOpensAndCloses : Prop :=
  ∀ (s : State) (st : StackerNo) (b : Placing) (m : Nat) (fresh : Pack) (opened : State → State),
    m = s.freePackNumber →
    fresh = Pack.addBoard
      { number := m, lot := b.lot, bin := b.bin, countLimit := (s.stacker st).countLimit,
        footageLimit := (s.stacker st).footageLimit,
        idleTime := if (s.stacker st).idleParam = 0 then 60 else (s.stacker st).idleParam * 5, boards := 0, footage := 0,
        verifiedBoards := 0, verifiedFootage := 0, mcSum := 0, saturated := false, highest := none, outstanding := 0,
        openedMinute := s.minute } b.footage b.mc b.verified →
    (opened = fun u => { u with nextPack := if m = 65535 then 1 else m + 1 }) →
    (1 ≤ s.nextPack → s.nextPack ≤ 65535 → 1 ≤ m ∧ m ≤ 65535 ∧ ∀ j, ¬(s.stacker j).Holds m) ∧
    ((s.stacker st).blocked.isSome = true → s.place st b = (s, none)) ∧
    ((s.stacker st).blocked = none → (s.stacker st).openPack = none → (s.stacker st).countLimit ≠ 1 →
      s.place st b = ((opened s).setStacker st
        { s.stacker st with openPack := some fresh, idleMinutes := 0, idleDue := false }, some m)) ∧
    (∀ p, (s.stacker st).blocked = none → (s.stacker st).openPack = some p → p.lot = b.lot → p.bin = b.bin →
      p.boards ≠ p.countLimit → p.boards + 1 ≠ p.countLimit →
      (p.footageLimit = 0 ∨ p.footage + b.footage ≤ p.footageLimit) →
      s.place st b = (s.setStacker st
        { s.stacker st with
          openPack := some (p.addBoard b.footage b.mc b.verified), idleMinutes := 0, idleDue := false },
        some p.number)) ∧
    ∀ (closing : Pack) (reason : CloseReason) (after : Bool) (number : Nat),
      ((s.stacker st).openPack = none ∧ (s.stacker st).countLimit = 1 ∧ closing = fresh ∧ reason = .count ∧ after = true ∧
          number = m ∨
        (∃ p, (s.stacker st).openPack = some p ∧ p.lot = b.lot ∧ p.bin = b.bin ∧ p.boards ≠ p.countLimit ∧
          p.boards + 1 = p.countLimit ∧ (p.footageLimit = 0 ∨ p.footage + b.footage ≤ p.footageLimit) ∧
          closing = p.addBoard b.footage b.mc b.verified ∧ reason = .count ∧ after = true ∧ number = p.number) ∨
        (s.stacker st).openPack = some closing ∧ after = false ∧ number = m ∧
          (closing.lot ≠ b.lot ∧ reason = .lotChange ∨
            closing.lot = b.lot ∧ closing.bin ≠ b.bin ∧ reason = .binChange ∨
            closing.lot = b.lot ∧ closing.bin = b.bin ∧ closing.boards = closing.countLimit ∧ reason = .count ∨
            closing.lot = b.lot ∧ closing.bin = b.bin ∧ closing.boards ≠ closing.countLimit ∧ 0 < closing.footageLimit ∧
              closing.footageLimit < closing.footage + b.footage ∧ reason = .footage)) →
      (s.stacker st).blocked = none →
      (∀ (redry : Option Nat) (u : State), (s.stacker st).closing = none → s.labels.length + s.labelsReserved < 16 →
        (closing.bin ≠ 14 ∧ redry = none ∨ closing.bin = 14 ∧ s.lots.length + s.reservations.length < 64 ∧
          redry.isSome = true ∧ s.redrySearch = redry) →
        u = (State.setStacker
          { (if (s.stacker st).openPack.isSome && after then s else opened s) with
            redryNext := match redry with
              | some r => if r = s.redryLast then s.redryFirst else r + 1
              | none => s.redryNext } st
          { s.stacker st with
            openPack := if after then none else some fresh, closing := some ⟨closing, reason, s.minute, redry⟩,
            idleMinutes := 0, idleDue := false }) →
        s.place st b = (if after = false ∧ closing.outstanding = 0 then u.complete st ⟨closing, reason, s.minute, redry⟩
          else u, some number)) ∧
      ∀ why : BlockReason,
        ((s.stacker st).closing.isSome = true ∧ why = .prior ∨
          (s.stacker st).closing = none ∧ 16 ≤ s.labels.length + s.labelsReserved ∧ why = .labels ∨
          (s.stacker st).closing = none ∧ s.labels.length + s.labelsReserved < 16 ∧ closing.bin = 14 ∧
            (64 ≤ s.lots.length + s.reservations.length ∧ why = .lots ∨
              s.lots.length + s.reservations.length < 64 ∧ s.redrySearch = none ∧ why = .numbers)) →
        s.place st b = (((s.setStacker st { s.stacker st with blocked := some why }).raise .officeStackerBlocked).raise
          .planerStackerBlocked, none)

/-- LINE HOLD, LINE RUN, SHADOW ON and SHADOW OFF set their setting and answer both settings, the boards queued and the next
sequence number. A MEASURE is refused, in this order, with BAD_FIELD for a lot number 0, a bin above 15 or an over-range flag outside
its codes, with WRONG_STATE and cause LINE_HELD while the line is held, with QUEUE_FULL at 48 boards, with NO_SUCH_LOT, with WRONG_STATE,
cause LOT_STATE and the state of a WAITING, IN_KILN or CLOSED lot, and with LOT_FULL; QUEUE_FULL and LOT_FULL not in shadow mode. One
in shadow mode that passes its refusals is answered with sequence and pack number 0 and the shadow mark, and with the disposition, destination and hold cause of
the decision: a board decided for a stacker has that stacker, or HOLDBACK and STACKER_BLOCKED where the placement would turn it away;
it enters no record. Those are the figures of the MEASURE counted with the setting clear, where queue and lot have room (08, R129 to
R132, R137, R139, R140; 09, R157; 03, R51). -/
def Obligations.LineHoldAndShadow : Prop :=
  (∀ (s : State) (f : Request), Heard s f .planer → f.body = [] →
    exec (.lineHold f) s = .next (State.answer { s with lineHeld := true } 0x53 f
      ⟨.done, mark true ++ mark s.shadow ++ u8 s.queue.length ++ u16 s.nextSeq⟩) ∧
    exec (.lineRun f) s = .next (State.answer { s with lineHeld := false } 0x54 f
      ⟨.done, mark false ++ mark s.shadow ++ u8 s.queue.length ++ u16 s.nextSeq⟩) ∧
    exec (.shadowOn f) s = .next (State.answer { s with shadow := true } 0x55 f
      ⟨.done, mark s.lineHeld ++ mark true ++ u8 s.queue.length ++ u16 s.nextSeq⟩) ∧
    exec (.shadowOff f) s = .next (State.answer { s with shadow := false } 0x56 f
      ⟨.done, mark s.lineHeld ++ mark false ++ u8 s.queue.length ++ u16 s.nextSeq⟩)) ∧
  (∀ (s : State) (f : Request) (n th w len raw bin : Nat) (flag : Byte) (tp : Int),
    Heard s f .planer → n ≤ 65535 → th ≤ 255 → w ≤ 255 → len ≤ 255 → bin ≤ 255 → raw ≤ 65535 → -128 ≤ tp → tp ≤ 127 →
    f.body = u16 n ++ u8 th ++ u8 w ++ u8 len ++ u8 bin ++ u16 raw ++ [flag] ++ i8 tp →
    (n = 0 ∨ 16 ≤ bin ∨ 2 ≤ flag.toNat) → exec (.measure f) s = .next (s.answer 0x50 f ⟨.badField, []⟩)) ∧
  ∀ (s : State) (f : Request) (n th w len raw : Nat) (bin : BinNo) (ov : Bool) (tp : Int),
    Heard s f .planer → 1 ≤ n → n ≤ 65535 → th ≤ 255 → w ≤ 255 → len ≤ 255 → raw ≤ 65535 → -128 ≤ tp → tp ≤ 127 →
    f.body = u16 n ++ u8 th ++ u8 w ++ u8 len ++ u8 bin ++ u16 raw ++ mark ov ++ i8 tp →
    (s.lineHeld = true → exec (.measure f) s = .next (s.answer 0x50 f ⟨.wrongState, [1, 0xFF]⟩)) ∧
    (s.lineHeld = false → s.shadow = false → 48 ≤ s.queue.length →
      exec (.measure f) s = .next (s.answer 0x50 f ⟨.queueFull, []⟩)) ∧
    (s.lineHeld = false → (s.shadow = true ∨ s.queue.length < 48) →
      (s.findLot n = none → exec (.measure f) s = .next (s.answer 0x50 f ⟨.noSuchLot, []⟩)) ∧
      ∀ l, s.findLot n = some l →
        (∀ code, l.state = .waiting ∧ code = 0 ∨ l.state = .inKiln ∧ code = 1 ∨ l.state = .closed ∧ code = 5 →
          exec (.measure f) s = .next (s.answer 0x50 f ⟨.wrongState, [2, code]⟩)) ∧
        ((l.state = .dried ∨ l.state = .planing ∨ ∃ h, l.state = .held h) → s.shadow = false →
          (999999 ≤ l.measured.boards ∨ 9999999999 < l.measured.footage + boardFootage th w len) →
          exec (.measure f) s = .next (s.answer 0x50 f ⟨.lotFull, []⟩))) ∧
    ∀ l : LotRecord, s.lineHeld = false → s.shadow = true → s.findLot n = some l →
      (l.state = .dried ∨ l.state = .planing ∨ ∃ h, l.state = .held h) →
      (∃ rest, exec (.measure f) s = .next (s.answer 0x50 f ⟨.done, [0, 0] ++ rest⟩) ∧ rest.length = 9 ∧
        rest[7]? = some 1 ∧ rest[2]? = some 0 ∧ rest[3]? = some 0) ∧
      ∀ (sp : Species) (ft mc : Nat) (decision : Decision) (d : Disposition) (dest : Destination) (cause : Nat),
        s.speciesAt l.species = some sp → ft = boardFootage th w len → mc = correctedMc raw ov tp sp.fs sp.kt →
        decision = s.decideBoard l
          ⟨clampThickness th, clampWidth w, clampLength len, ft, dimensionFault th w len, clampTemp tp, mc, decide (0 ≤ tp)⟩
          bin →
        ((∃ why, decision.route = .aside d dest why ∧ cause = HoldCause.code why) ∨
          ∃ e st, decision.route = .stacker e st ∧
            if (s.place st ⟨n, decision.bin, ft, mc, decide (0 ≤ tp)⟩).2 = none then
              d = .holdback ∧ dest = .holdback ∧ cause = 5
            else d = e ∧ dest = .stacker st ∧ cause = 0) →
        exec (.measure f) s = .next (s.answer 0x50 f
          ⟨.done, [0, 0] ++ u8 d.code ++ u8 dest.code ++ [0, 0] ++ u16 mc ++ mark (decide (0 ≤ tp)) ++ [1] ++ u8 cause⟩) ∧
        (s.queue.length < 48 → l.measured.boards < 999999 → l.measured.footage + ft ≤ 9999999999 →
          ∃ (t : State) (pack : Nat), exec (.measure f) { s with shadow := false } = .next (t.answer 0x50 f
            ⟨.done, u16 s.freeSeq ++ u8 d.code ++ u8 dest.code ++ u16 pack ++ u16 mc ++ mark (decide (0 ≤ tp)) ++ [0] ++
              u8 cause⟩))

/-- A counted board adds to its lot's measured pair, to the pair of its disposition, and, verified and PASS or REDRY, to the verified
figures; a DRIED lot becomes PLANING, and a HELD one that would return to DRIED returns to PLANING. A REDRY board that takes its lot's
redry fraction above its limit holds the lot, to return to PLANING (01, R10, R11, R13; 03, R50). -/
def Obligations.RedryCheckHoldsTheLot : Prop :=
  (∀ (l : LotRecord) (d : Disposition) (ft mc : Nat) (v : Bool),
    l.afterBoard d ft mc v = { l with
      measured := ⟨l.measured.boards + 1, l.measured.footage + ft⟩
      passed := if d = .pass then ⟨l.passed.boards + 1, l.passed.footage + ft⟩ else l.passed
      redry := if d = .redry then ⟨l.redry.boards + 1, l.redry.footage + ft⟩ else l.redry
      rejected := if d = .reject then ⟨l.rejected.boards + 1, l.rejected.footage + ft⟩ else l.rejected
      heldBack := if d = .holdback then ⟨l.heldBack.boards + 1, l.heldBack.footage + ft⟩ else l.heldBack
      verifiedBoards := if (d = .pass ∨ d = .redry) ∧ v = true then l.verifiedBoards + 1 else l.verifiedBoards
      verifiedMcSum := if (d = .pass ∨ d = .redry) ∧ v = true then l.verifiedMcSum + mc else l.verifiedMcSum
      state := (l.afterBoard d ft mc v).state } ∧
    (d ≠ .redry → (l.afterBoard d ft mc v).state = match l.state with
      | .dried => .planing
      | .held (.office .dried) => .held (.office .planing)
      | .held (.redry .dried) => .held (.redry .planing)
      | other => other)) ∧
  ∀ (l : LotRecord) (ft mc : Nat) (v : Bool), l.state = .dried ∨ l.state = .planing →
    ((l.afterBoard .redry ft mc v).state = .held (.redry .planing) ↔
      0 < l.redryLimit ∧ l.waived = false ∧ 20000 ≤ l.passed.footage + (l.redry.footage + ft) ∧
        l.redryLimit < (l.redry.footage + ft) * 1000 / (l.passed.footage + (l.redry.footage + ft))) ∧
    ((l.afterBoard .redry ft mc v).state ≠ .held (.redry .planing) → (l.afterBoard .redry ft mc v).state = .planing)

/-- DROP takes the oldest board for the destination: one without a pack changes nothing else; one of an OPEN pack, or of a CLOSING
pack with others outstanding, lowers the outstanding count; the last outstanding one of a CLOSING pack completes it. Without such a
board it is refused with NO_BOARD, and for a code that is no destination with BAD_FIELD (08, R141; 09, R162, R164). -/
def Obligations.DropTakesOldestBoard : Prop :=
  (∀ (s : State) (f : Request) (code : Nat), Heard s f .planer → 8 ≤ code → code ≤ 255 → f.body = u8 code →
    exec (.drop f) s = .next (s.answer 0x51 f ⟨.badField, []⟩)) ∧
  (∀ (s : State) (f : Request) (d : Destination), Heard s f .planer → f.body = u8 d.code →
    (∀ b ∈ s.queue, b.destination ≠ d) → exec (.drop f) s = .next (s.answer 0x51 f ⟨.noBoard, []⟩)) ∧
  ∀ (s : State) (f : Request) (d : Destination) (b : Board), Heard s f .planer → f.body = u8 d.code →
    (s.queue.find? fun x => x.destination == d) = some b →
    (b.pack = none →
      exec (.drop f) s = .next (State.answer { s with queue := s.queue.eraseP fun x => x.seq == b.seq } 0x51 f
        ⟨.done, u16 b.seq ++ u16 b.lot ++ [0, 0, 0] ++ mark false ++
          u8 (s.queue.eraseP fun x => x.seq == b.seq).length⟩)) ∧
    (∀ st p, d = .stacker st → b.pack = some p.number → (s.stacker st).openPack = some p → 0 < p.boards →
      (∀ c, (s.stacker st).closing = some c → c.pack.number ≠ p.number) →
      exec (.drop f) s = .next ((State.setStacker { s with queue := s.queue.eraseP fun x => x.seq == b.seq } st
        { s.stacker st with openPack := some { p with outstanding := p.outstanding - 1 } }).answer 0x51 f
        ⟨.done, u16 b.seq ++ u16 b.lot ++ optU16 (some p.number) ++ mark false ++
          u8 (s.queue.eraseP fun x => x.seq == b.seq).length⟩)) ∧
    (∀ st c, d = .stacker st → b.pack = some c.pack.number → (s.stacker st).closing = some c → 2 ≤ c.pack.outstanding →
      (∀ p, (s.stacker st).openPack = some p → p.number ≠ c.pack.number) →
      exec (.drop f) s = .next ((State.setStacker { s with queue := s.queue.eraseP fun x => x.seq == b.seq } st
        { s.stacker st with
          closing := some { c with pack := { c.pack with outstanding := c.pack.outstanding - 1 } } }).answer 0x51 f
        ⟨.done, u16 b.seq ++ u16 b.lot ++ optU16 (some c.pack.number) ++ mark false ++
          u8 (s.queue.eraseP fun x => x.seq == b.seq).length⟩)) ∧
    (∀ st c, d = .stacker st → b.pack = some c.pack.number → (s.stacker st).closing = some c → c.pack.outstanding = 1 →
      0 < c.pack.boards → (∀ p, (s.stacker st).openPack = some p → p.number ≠ c.pack.number) →
      ∃ c' t, c' = { c with pack := { c.pack with outstanding := 0 } } ∧
        t = (State.setStacker { s with queue := s.queue.eraseP fun x => x.seq == b.seq } st
          { s.stacker st with closing := some c' }).complete st c' ∧
        exec (.drop f) s = .next (t.answer 0x51 f
          ⟨.done, u16 b.seq ++ u16 b.lot ++ optU16 (some c.pack.number) ++ mark true ++ u8 t.queue.length⟩))

/-- A completion, whole: a redry pack's WAITING redry lot is created, the pack's label takes the next serial at the tail, the counter
advances, or is spent after 4,294,967,295, the CLOSING place is emptied, and LABEL_READY and PACK_CLOSED are raised; nothing else
changes. It frees no place: records and reserved slots keep their sums, of labels and of lots (09, R164; 01, R1, R19; 10, R170 to
R172). -/
def Obligations.CompletionQueuesLabelAndLot : Prop :=
  ∀ (s : State) (st : StackerNo) (c : ClosingPack) (l : LotRecord) (m : Nat), (s.stacker st).closing = some c →
    s.findLot c.pack.lot = some l → s.serial = some m → m ≤ 4294967295 →
    s.completePack st c = ((State.setStacker
      { s with
        lots := match c.redryLot with
          | some n => insertByNumber
            { number := n, species := l.species, thickness := l.thickness, targetMc := l.targetMc, tolerance := l.tolerance,
              redryLimit := l.redryLimit, state := .waiting, createdMinute := s.minute, kilnResult := none,
              origin := some ⟨l.number, c.pack.boards, c.pack.footage⟩, measured := ⟨0, 0⟩, passed := ⟨0, 0⟩,
              redry := ⟨0, 0⟩, rejected := ⟨0, 0⟩, heldBack := ⟨0, 0⟩, lost := ⟨0, 0⟩, verifiedBoards := 0,
              verifiedMcSum := 0, waived := false } s.lots
          | none => s.lots
        labels := s.labels ++ [{
          serial := m, pack := c.pack.number, stacker := st, lot := c.pack.lot, species := l.species,
          thickness := l.thickness, bin := c.pack.bin, boards := c.pack.boards, footage := c.pack.footage,
          verifiedBoards := c.pack.verifiedBoards, mean := c.pack.mean, highest := c.pack.highest,
          kiln := (l.kilnResult.filter fun r => !r.aborted).map KilnResult.kiln,
          kilnCmc := (l.kilnResult.filter fun r => !r.aborted).bind KilnResult.finalCmc, reason := c.reason,
          closeMinute := c.closeMinute, redryLot := c.redryLot }]
        serial := if m = 4294967295 then none else some (m + 1) } st
      { s.stacker st with closing := none }).raise .labelReady).raise .packClosed ∧
    (s.completePack st c).labels.length + (s.completePack st c).labelsReserved = s.labels.length + s.labelsReserved ∧
    (s.completePack st c).lots.length + (s.completePack st c).reservations.length = s.lots.length + s.reservations.length

/-- LOST of a board without a pack takes it out and moves its lot's tally to the lost pair; of a board of an OPEN pack with other
boards, reduces the pack as well; of the only board, dissolves it. Of a board of a CLOSING pack it reduces the pack; the last
outstanding one completes it while it holds boards, and discards it when it holds none: the stacker then holds no CLOSING pack, its
label slot and reserved number are free again, and with no stacker blocked and no idle close due nothing else changes. From the lot
a loss takes the board's tally out of its disposition's pair and a verified PASS or REDRY board out of the verified figures; measured
and state stay (08, R142; 01, R14, R18; 03, R47; 09, R162, R164, R165). -/
def Obligations.LostRetractsTheBoard : Prop :=
  (∀ (s u : State) (f : Request) (b : Board), Heard s f .planer → 1 ≤ b.seq → b.seq ≤ 65535 → f.body = u16 b.seq →
    (s.queue.find? fun x => x.seq == b.seq) = some b →
    u = State.modifyLot { s with queue := s.queue.eraseP fun x => x.seq == b.seq } b.lot
      (fun l => l.loseBoard b.disposition b.footage b.mc b.verified) →
    (b.pack = none →
      exec (.lost f) s = .next (u.answer 0x52 f
        ⟨.done, u16 b.seq ++ u16 b.lot ++ u8 b.disposition.code ++ u8 b.destination.code ++ [0, 0, 0, 0]⟩)) ∧
    (∀ st p, b.destination = .stacker st → b.pack = some p.number → (s.stacker st).openPack = some p →
      (∀ c, (s.stacker st).closing = some c → c.pack.number ≠ p.number) →
      exec (.lost f) s = .next ((u.setStacker st (if p.boards ≤ 1 then
          { s.stacker st with openPack := none, idleMinutes := 0, idleDue := false }
        else { s.stacker st with
          openPack := some { p.removeBoard b.footage b.mc b.verified with outstanding := p.outstanding - 1 } })).answer 0x52 f
        ⟨.done, u16 b.seq ++ u16 b.lot ++ u8 b.disposition.code ++ u8 b.destination.code ++ optU16 (some p.number) ++
          [0]⟩)) ∧
    (∀ st c (c' : ClosingPack), b.destination = .stacker st → b.pack = some c.pack.number →
      (s.stacker st).closing = some c → (∀ p, (s.stacker st).openPack = some p → p.number ≠ c.pack.number) →
      c' = { c with
        pack := { c.pack.removeBoard b.footage b.mc b.verified with outstanding := c.pack.outstanding - 1 } } →
      ∃ t outcome,
        exec (.lost f) s = .next (t.answer 0x52 f
          ⟨.done, u16 b.seq ++ u16 b.lot ++ u8 b.disposition.code ++ u8 b.destination.code ++
            optU16 (some c.pack.number) ++ [outcome]⟩) ∧
        (2 ≤ c.pack.outstanding → outcome = 0 ∧ t = u.setStacker st { s.stacker st with closing := some c' }) ∧
        (c.pack.outstanding ≤ 1 → 2 ≤ c.pack.boards →
          outcome = 1 ∧ t = (u.setStacker st { s.stacker st with closing := some c' }).complete st c') ∧
        (c.pack.outstanding ≤ 1 → c.pack.boards ≤ 1 → outcome = 2 ∧
          ((∀ j, (s.stacker j).blocked = none ∧ (s.stacker j).idleDue = false) →
            t = u.setStacker st { s.stacker st with closing := none }) ∧
          ((∀ j, (s.stacker j).blocked = none ∧ (s.stacker j).idleDue = false) → TableSound s →
            ∀ m, c.redryLot = some m → t.numberInUse m = false)))) ∧
  ∀ (l : LotRecord) (d : Disposition) (ft mc : Nat) (v : Bool),
    l.loseBoard d ft mc v = { l with
      lost := ⟨l.lost.boards + 1, l.lost.footage + ft⟩
      passed := if d = .pass then ⟨l.passed.boards - 1, l.passed.footage - ft⟩ else l.passed
      redry := if d = .redry then ⟨l.redry.boards - 1, l.redry.footage - ft⟩ else l.redry
      rejected := if d = .reject then ⟨l.rejected.boards - 1, l.rejected.footage - ft⟩ else l.rejected
      heldBack := if d = .holdback then ⟨l.heldBack.boards - 1, l.heldBack.footage - ft⟩ else l.heldBack
      verifiedBoards := if (d = .pass ∨ d = .redry) ∧ v = true then l.verifiedBoards - 1 else l.verifiedBoards
      verifiedMcSum := if (d = .pass ∨ d = .redry) ∧ v = true then l.verifiedMcSum - mc else l.verifiedMcSum }

/-- PACK CLOSE: the OPEN pack is CLOSING with reason OPERATOR, a redry pack with the number the search of R17 finds; with no board
outstanding it completes at once, and the completion mark is set. While another pack is CLOSING on the stacker, no label slot is free,
or for a redry pack no lot slot or no number, it is refused with NOT_RESERVABLE and the first of the reasons PRIOR, LABELS, LOTS and
NUMBERS. Without an OPEN pack it is refused with WRONG_STATE (09, R155, R161, R163; 01, R17). -/
def Obligations.PackCloseReserves : Prop :=
  (∀ (s : State) (f : Request) (st : StackerNo), Heard s f .planer → f.body = u8 st → (s.stacker st).openPack = none →
    exec (.packClose f) s = .next (s.answer 0x57 f ⟨.wrongState, []⟩)) ∧
  ∀ (s : State) (f : Request) (st : StackerNo) (p : Pack), Heard s f .planer → f.body = u8 st →
    (s.stacker st).openPack = some p →
    ((s.stacker st).closing.isSome = true →
      exec (.packClose f) s = .next (s.answer 0x57 f ⟨.notReservable, u8 3⟩)) ∧
    ((s.stacker st).closing = none → 16 ≤ s.labels.length + s.labelsReserved →
      exec (.packClose f) s = .next (s.answer 0x57 f ⟨.notReservable, u8 0⟩)) ∧
    ((s.stacker st).closing = none → s.labels.length + s.labelsReserved < 16 → p.bin = 14 →
      (64 ≤ s.lots.length + s.reservations.length →
        exec (.packClose f) s = .next (s.answer 0x57 f ⟨.notReservable, u8 1⟩)) ∧
      (s.lots.length + s.reservations.length < 64 → s.redrySearch = none →
        exec (.packClose f) s = .next (s.answer 0x57 f ⟨.notReservable, u8 2⟩))) ∧
    (∀ (redry : Option Nat) (t : State), (s.stacker st).closing = none → s.labels.length + s.labelsReserved < 16 →
      (p.bin ≠ 14 ∧ redry = none ∨ p.bin = 14 ∧ s.lots.length + s.reservations.length < 64 ∧ redry.isSome = true ∧
        s.redrySearch = redry) →
      p.outstanding = 0 →
      t = State.complete (State.setStacker
        { s with
          redryNext := match redry with
            | some r => if r = s.redryLast then s.redryFirst else r + 1
            | none => s.redryNext } st
        { s.stacker st with
          openPack := none, closing := some ⟨p, .operator, s.minute, redry⟩, idleMinutes := 0, idleDue := false })
        st ⟨p, .operator, s.minute, redry⟩ →
      exec (.packClose f) s = .next (t.answer 0x57 f ⟨.done, u16 p.number ++ optU16 redry ++ mark true⟩)) ∧
    (0 < p.outstanding → (s.stacker st).closing = none → s.labels.length + s.labelsReserved < 16 → p.bin ≠ 14 →
      exec (.packClose f) s = .next ((s.setStacker st
        { s.stacker st with
          openPack := none, closing := some ⟨p, .operator, s.minute, none⟩, idleMinutes := 0, idleDue := false }).answer
        0x57 f ⟨.done, u16 p.number ++ [0, 0, 0, 0]⟩)) ∧
    (∀ n, 0 < p.outstanding → (s.stacker st).closing = none → s.labels.length + s.labelsReserved < 16 → p.bin = 14 →
      s.lots.length + s.reservations.length < 64 → s.redrySearch = some n →
      exec (.packClose f) s = .next ((State.setStacker
        { s with redryNext := if n = s.redryLast then s.redryFirst else n + 1 } st
        { s.stacker st with
          openPack := none, closing := some ⟨p, .operator, s.minute, some n⟩, idleMinutes := 0, idleDue := false }).answer
        0x57 f ⟨.done, u16 p.number ++ optU16 (some n) ++ [0]⟩))

/-- LABEL RELEASE takes the oldest labels, at most those queued, re-examines LABELS and retries the idle closes due; the counts
answered are those before the re-examination, the model's reading (log 24). Every re-examination, no idle close being due, clears the
reason of each stacker it concerns whose requirement is met now, and raises STACKER_FREED once if it cleared any, but that of a
start-up raises no class: for LABELS a free slot, for LOTS a lot slot below 64, for NUMBERS a number of the redry range not in use, for PRIOR no CLOSING pack. A label release
concerns LABELS; a removed lot LOTS and NUMBERS; a new range NUMBERS; a completion PRIOR of its own stacker, after its items 1 to 5;
a discard all four, PRIOR of its own stacker alone; a start-up all. The search of R17 takes the first number not in use from the
pointer upward, wrapping at the end of the range (10, R172, R174; 09, R155, R159, R164, R165, R168; 01, R1, R7, R16 to R18). -/
def Obligations.ReexaminationsFreeStackers : Prop :=
  (∀ (s u : State) (f : Request) (n : Nat), Heard s f .office → n ≤ 255 → f.body = u8 n →
    u = { s with labels := s.labels.drop n } →
    (1 ≤ n → n ≤ 16 →
      exec (.labelRelease f) s = .next (u.reexamineLabels.answer 0x35 f
        ⟨.done, u8 (s.labels.take n).length ++ optU32 ((s.labels.take n).head?.map Label.serial) ++
          optU32 ((s.labels.take n).getLast?.map Label.serial) ++ u8 u.labels.length ++ u8 u.labelsReserved⟩)) ∧
    (n = 0 ∨ 17 ≤ n → exec (.labelRelease f) s = .next (s.answer 0x35 f ⟨.badField, []⟩))) ∧
  (∀ (s u : State) (concerns : StackerNo → BlockReason → Prop) (freed : StackerNo → Prop) (startUp : Prop),
    (∀ st, (s.stacker st).idleDue = false) →
    (¬startUp ∧
        (u = s.reexamineLabels ∧ (∀ st why, concerns st why ↔ why = .labels) ∨
          u = s.reexamineLots ∧ (∀ st why, concerns st why ↔ why = .lots ∨ why = .numbers) ∨
          u = s.reexamineNumbers ∧ (∀ st why, concerns st why ↔ why = .numbers) ∨
          (∃ (r : State) (own : StackerNo) (c : ClosingPack), s = r.completePack own c ∧ u = r.complete own c ∧
            ∀ st why, concerns st why ↔ why = .prior ∧ st = own) ∨
          ∃ (r : State) (own : StackerNo), s = r.setStacker own { r.stacker own with closing := none } ∧
            u = r.discard own ∧ ∀ st why, concerns st why ↔ (why = .prior → st = own)) ∨
      startUp ∧ u = s.reexamineAll ∧ ∀ st why, concerns st why) →
    (∀ st, freed st ↔ ∃ why, (s.stacker st).blocked = some why ∧ concerns st why ∧ match why with
      | .labels => s.labels.length + s.labelsReserved < 16
      | .lots => s.lots.length + s.reservations.length < 64
      | .numbers => s.redrySearch ≠ none
      | .prior => (s.stacker st).closing = none) →
    ∃ t : State, t = { s with stackers := t.stackers } ∧
      (∀ st, (freed st → t.stacker st = { s.stacker st with blocked := none }) ∧
        (¬freed st → t.stacker st = s.stacker st)) ∧
      (¬startUp → (∃ st, freed st) → u = t.raise .stackerFreed) ∧ (startUp ∨ (∀ st, ¬freed st) → u = t)) ∧
  ∀ s : State, s.redryFirst ≤ s.redryNext → s.redryNext ≤ s.redryLast →
    (∀ n, s.numberInUse n = true ↔ (∃ l ∈ s.lots, l.number = n) ∨ n ∈ s.reservations) ∧
    (s.redrySearch = none ↔ ∀ n, s.redryFirst ≤ n → n ≤ s.redryLast → s.numberInUse n = true) ∧
    ∀ n, s.redrySearch = some n → (s.redryFirst ≤ n ∧ n ≤ s.redryLast) ∧ s.numberInUse n = false ∧
      ∀ m, s.redryFirst ≤ m → m ≤ s.redryLast → s.numberInUse m = false →
        if s.redryNext ≤ n then m < s.redryNext ∨ n ≤ m else n ≤ m ∧ m < s.redryNext

/-! ### Start-ups (chapter 11) -/

/-- CLEAR ALL: refused with the three marks while a kiln is not EMPTY, a board is queued or a pack stands; otherwise every record
takes its value after a start-up with retention lost, the office receiver, the rate and the lines are kept, and DONE follows (11,
R189). -/
def Obligations.ClearAllEmptiesThePart : Prop :=
  ∀ (s : State) (f : Request), Heard s f .office → f.body = [] →
    ((∃ k, (s.kiln k).state ≠ .empty) ∨ s.queue ≠ [] ∨
        (∃ st, (s.stacker st).openPack.isSome = true ∨ (s.stacker st).closing.isSome = true) →
      exec (.clearAll f) s = .next (s.answer 0x3F f
        ⟨.wrongState, mark (decide (∃ k, (s.kiln k).state ≠ .empty)) ++ mark (decide (s.queue ≠ [])) ++
          mark (decide (∃ st, (s.stacker st).openPack.isSome = true ∨ (s.stacker st).closing.isSome = true))⟩)) ∧
    ((∀ k, (s.kiln k).state = .empty) → s.queue = [] →
      (∀ st, (s.stacker st).openPack = none ∧ (s.stacker st).closing = none) →
      exec (.clearAll f) s = .next (State.answer
        { State.reset with
          condition := s.condition, resetLine := s.resetLine, millStopLine := s.millStopLine, lineRate := s.lineRate,
          completionMarker := s.completionMarker, startUpKind := .clearAll, choices := s.choices,
          pending := s.pending } 0x3F f ⟨.done, []⟩))

/-- POWER_LOSS stops a running part and writes the marker; RESET_ASSERTED holds it, receivers hunting and attention lines released.
POWER_ON without the marker, or with a cell that fell, makes a start-up with retention lost, every record at its value and
RESTARTED and RETENTION_LOST pending; with the RESET line asserted it judges and waits, held, and a start-up judged lost is made when
the line is released (11, R187, R188). -/
def Obligations.SupplyAndResetLines : Prop :=
  ∀ s : State,
    (s.condition = .running → exec .powerLoss s = .next { s with condition := .stopped, completionMarker := true }) ∧
    (s.condition = .running → ∃ t, exec .resetAsserted s = .next t ∧
      t = { s with
        condition := .held .reset, resetLine := true, officePort := t.officePort, kilnHousePort := t.kilnHousePort,
        planerPort := t.planerPort } ∧
      ∀ l, t.port l = { s.port l with receiver := .hunting } ∧ t.attentionLine l = false) ∧
    (∀ held p, s.condition = .stopped → s.resetLine = false → (s.completionMarker = false ∨ held = false) →
      exec (.powerOn held p) s = .next
        { State.reset with
          lineRate := lineRateOf p, millStopLine := s.millStopLine, choices := s.choices, pending := s.pending }) ∧
    (∀ held p, s.condition = .stopped → s.resetLine = true →
      exec (.powerOn held p) s = .next
        { s with
          completionMarker := false,
          condition := .held (if s.completionMarker && held then .powerIntact else .powerLost) }) ∧
    ∀ p, s.condition = .held .powerLost →
      exec (.resetReleased p) s = .next
        { State.reset with
          lineRate := lineRateOf p, millStopLine := s.millStopLine, completionMarker := s.completionMarker,
          choices := s.choices, pending := s.pending }

/-- A start-up with retention intact, by POWER_ON, or by RESET_RELEASED of a part held while it ran or held since a power-on judged
intact: the records are kept, the queue is purged, no grant stands, a RUNNING or HELD kiln has a dormant request for its step's demand,
and RESTARTED alone is pending. With an empty queue and no idle close due, lots, labels, serial, the pointer of the redry range and the
stackers are kept, but for idle minutes, which are 0, and the reason of a blocked stacker whose requirement is met, which is cleared
without a class raised. With boards queued, no number being in use twice, each lot standing before has taken the tallies of its boards as lost, and is
otherwise kept
(11, R187, R188; 01, R22; 05, R91; 06, R111; 08, R147; 09, R168; 10, R177). -/
def Obligations.IntactStartUpKeepsRecords : Prop :=
  ∀ (s : State) (p : Straps) (c : Instr) (kind : StartUpKind),
    (c = .powerOn true p ∧ kind = .powerIntact ∧ s.condition = .stopped ∧ s.resetLine = false ∧
        s.completionMarker = true ∨
      c = .resetReleased p ∧ (kind = .reset ∨ kind = .powerIntact) ∧ s.condition = .held kind) →
    ∃ t, exec c s = .next t ∧ t.condition = .running ∧ t.startUpKind = kind ∧ t.lineRate = lineRateOf p ∧
      t.officePort = ⟨.hunting, 0x0200, 0⟩ ∧ t.kilnHousePort = ⟨.hunting, 0, 0⟩ ∧ t.planerPort = ⟨.hunting, 0, 0⟩ ∧
      t.queue = [] ∧ t.lineHeld = false ∧ t.shadow = false ∧ t.masterEnable = false ∧ t.minute = s.minute ∧
      t.millStopLine = s.millStopLine ∧ t.schedules = s.schedules ∧ t.species = s.species ∧ t.capacity = s.capacity ∧
      t.holdPoints = s.holdPoints ∧ t.binMap = s.binMap ∧ t.nextSeq = s.nextSeq ∧ t.nextPack = s.nextPack ∧
      t.redryFirst = s.redryFirst ∧ t.redryLast = s.redryLast ∧
      (∀ k, t.heatOf k = ⟨0, if (s.kiln k).state.isOn then .dormant (s.currentDemand k) else .absent⟩) ∧
      (∀ k, t.kiln k = { s.kiln k with
        doorOpen := false,
        state := match (s.kiln k).state with
          | .running _ => .running .waitHeat
          | st => st }) ∧
      (s.queue = [] → (∀ st, (s.stacker st).idleDue = false) →
        t.lots = s.lots ∧ t.labels = s.labels ∧ t.serial = s.serial ∧ t.redryNext = s.redryNext ∧
          ∀ st, t.stacker st = { s.stacker st with
            idleMinutes := 0
            blocked := match (s.stacker st).blocked with
              | some .labels => if s.labels.length + s.labelsReserved < 16 then none else some .labels
              | some .lots => if s.lots.length + s.reservations.length < 64 then none else some .lots
              | some .numbers => if s.redrySearch.isSome then none else some .numbers
              | some .prior => if (s.stacker st).closing = none then none else some .prior
              | none => none }) ∧
      (TableSound s → ∀ n l, s.findLot n = some l →
        t.findLot n = some (s.queue.foldl
          (fun l b => if b.lot = n then l.loseBoard b.disposition b.footage b.mc b.verified else l) l))
end

