-- ==== Sys2Proof/Laws/Batches.lean ====
section
/-! SUPPORT. What the requests that carry lists do when no entry fails: a charge list (05, R70), a weighing batch (04, R59), and the
entries of the bin map (08, R144). -/

namespace Sys2Proof.Machine

theorem repeatedLot_none (ns : List Nat) : ∀ seen, ns.Nodup → (∀ n ∈ ns, n ∉ seen) → repeatedLot seen ns = none := by
  induction ns with
  | nil => intros; rfl
  | cons n ns ih =>
    intro seen h g
    unfold repeatedLot
    simp only [List.nodup_cons, List.mem_cons, forall_eq_or_imp] at h g
    rw [if_neg (by simpa using g.1)]
    refine ih _ h.2 fun m hm => ?_
    simp only [List.mem_cons, not_or]
    exact ⟨fun e => h.1 (e ▸ hm), g.2 m hm⟩

/-- Lots that are all WAITING can all be charged (R70). -/
theorem uncharged_none (s : State) (ns : List Nat) (h : ∀ n ∈ ns, ∃ l, s.findLot n = some l ∧ l.state = .waiting) :
    s.uncharged ns = none := by
  unfold State.uncharged
  rw [List.find?_eq_none.2, List.find?_eq_none.2]
  · intro l hl
    obtain ⟨n, hn, hf⟩ := List.mem_filterMap.1 hl
    obtain ⟨l', g1, g2⟩ := h n hn
    rw [g1] at hf; cases hf; simp [g2]
  · intro n hn
    obtain ⟨l', g1, _⟩ := h n hn
    simp [g1]

theorem hasSample_weighIn (l : List Sample) (e : WeighEntry) (m id : Nat) :
    hasSample (weighIn l e m) id = hasSample l id := by
  simp only [hasSample, weighIn, List.any_map]
  congr 1
  funext x
  simp only [Function.comp]
  split <;> simp [Sample.weigh]

/-- A batch in which no entry fails weighs each sample it names, once (R59). -/
theorem applyBatch_whole (m : Nat) (es : List WeighEntry) : ∀ (l : List Sample) (earlier : List Nat),
    (es.map WeighEntry.id).Nodup →
    (∀ e ∈ es, 1 ≤ e.id ∧ e.id ≤ 8 ∧ 1 ≤ e.weight ∧ e.weight ≤ 60000 ∧ hasSample l e.id = true ∧ e.id ∉ earlier) →
    applyBatch m l earlier es = (l.map (fun x =>
      match es.find? fun e => e.id == x.id with
      | some e => x.weigh e.weight m
      | none => x), es, none) := by
  induction es with
  | nil => intros; simp [applyBatch]
  | cons e es ih =>
    intro l earlier hn h
    obtain ⟨h1, h2, h3, h4, h5, h6⟩ := h e (by simp)
    have hf : entryFault l earlier e = none := by
      unfold entryFault
      rw [if_neg (by omega), if_neg (by simp [h5]), if_neg (by simpa using h6), if_neg (by omega)]
    simp only [applyBatch, hf]
    simp only [List.map_cons, List.nodup_cons] at hn
    rw [ih _ _ hn.2]
    · simp only [Prod.mk.injEq, and_true, weighIn, List.map_map]
      apply List.map_congr_left
      intro x _
      simp only [Function.comp, List.find?_cons]
      by_cases hxe : x.id = e.id
      · have : (es.find? fun e' => e'.id == e.id) = none := by
          simp only [List.find?_eq_none, beq_iff_eq]
          exact fun e' he' hh => hn.1 (hh ▸ List.mem_map_of_mem he')
        simp [hxe, Sample.weigh, this]
      · have : (e.id == x.id) = false := by simp; exact fun h => hxe h.symm
        simp [hxe, this]
    · intro e' he'
      obtain ⟨a, b, c, d, f, g⟩ := h e' (by simp [he'])
      refine ⟨a, b, c, d, by rw [hasSample_weighIn]; exact f, ?_⟩
      simp only [List.mem_cons, not_or]
      exact ⟨fun hh => hn.1 (hh ▸ List.mem_map_of_mem he'), g⟩

/-! ### The bin map -/

theorem binEntry_code_le (e : BinEntry) : e.code ≤ 255 := by cases e <;> simp [BinEntry.code]; omega

theorem binEntry_ofCode (i : Nat) (hi : i ≤ 14) (e : BinEntry) (h : i = 14 → e ≠ .reject) : BinEntry.ofCode i e.code = some e := by
  unfold BinEntry.ofCode
  rw [if_neg (by omega)]
  cases e with
  | stacker st => simp [BinEntry.code]
  | reject => simp [BinEntry.code]; by_contra hh; exact h (by omega) rfl
  | unmapped => simp [BinEntry.code]

theorem entriesFrom_codes (es : List BinEntry) : ∀ b, b + es.length ≤ 15 →
    (∀ i (h : i < es.length), b + i = 14 → es[i] ≠ .reject) → entriesFrom b (es.map BinEntry.code) = some es := by
  induction es with
  | nil => intros; rfl
  | cons e es ih =>
    intro b hb h
    simp only [List.length_cons] at hb
    simp only [List.map_cons, entriesFrom]
    rw [binEntry_ofCode b (by omega) e (fun hh => by have := h 0 (by simp) (by omega); simpa using this),
      ih (b + 1) (by omega) (fun i hi hh => by have := h (i + 1) (by simp; omega) (by omega); simpa using this)]

/-- Entries written from a bin upward: those bins take them and the others keep theirs (R144). -/
theorem setBins_spec (es : List BinEntry) : ∀ (b : Nat) (s : State), b + es.length ≤ 16 →
    ∃ m, s.setBins b es = { s with binMap := m } ∧
      ∀ i (h : i < 16), m[i] = if h2 : b ≤ i ∧ i < b + es.length then es[i - b]'(by omega) else s.binMap[i] := by
  induction es with
  | nil => intro b s _; exact ⟨s.binMap, rfl, fun i h => by rw [dif_neg]; simp⟩
  | cons e es ih =>
    intro b s hb
    simp only [List.length_cons] at hb
    obtain ⟨m, e1, e2⟩ := ih (b + 1) { s with binMap := s.binMap.setIfInBounds b e } (by omega)
    refine ⟨m, by simp only [State.setBins]; rw [e1], fun i h => ?_⟩
    rw [e2]
    by_cases hi : i = b
    · subst hi; simp
    · by_cases h3 : b + 1 ≤ i ∧ i < b + 1 + es.length
      · rw [dif_pos h3, dif_pos (by simp; omega)]
        have : i - b = (i - (b + 1)) + 1 := by omega
        simp [this]
      · rw [dif_neg h3, dif_neg (by simp; omega)]
        simp [Ne.symm hi]

end Sys2Proof.Machine
end

