-- ==== Sys2Proof/Laws/Bytes.lean ====
section
/-! SUPPORT. What a field reads as when its bytes are those the encoding writes: the round trips of chapter 11, R178, R190 and R191. -/

namespace Sys2Proof.Machine

@[simp] theorem byteOf_toNat {n : Nat} (h : n ≤ 255) : (byteOf n).toNat = n := by
  simp [byteOf]; omega

theorem n16_byteOf {n : Nat} (h : n ≤ 65535) : n16 (byteOf (n / 256)) (byteOf n) = n := by
  simp [n16, byteOf]; omega

theorem n32_byteOf {n : Nat} (h : n ≤ 4294967295) :
    n32 (byteOf (n / 16777216)) (byteOf (n / 65536)) (byteOf (n / 256)) (byteOf n) = n := by
  simp [n32, n16, byteOf]; omega

/-- Two bytes, high byte first, are the same number as sixteen bits cut in two. -/
theorem ofNat_n16 (v : BitVec 16) : BitVec.ofNat 16 (n16 (byteOf (v.toNat / 256)) (byteOf v.toNat)) = v := by
  rw [n16_byteOf (by omega)]; exact BitVec.ofNat_toNat ..

theorem toInt_ofInt {w : Nat} {z : Int} (lo : -(2 ^ w : Int) ≤ z) (hi : z < 2 ^ w) :
    (BitVec.ofInt (w + 1) z).toInt = z := by
  rw [BitVec.toInt_ofInt]
  apply Int.bmod_eq_of_le <;> · push_cast; rw [Int.pow_succ]; omega

theorem z16_i16 {z : Int} (lo : -32768 ≤ z) (hi : z ≤ 32767) :
    z16 (byteOf ((BitVec.ofInt 16 z).toNat / 256)) (byteOf (BitVec.ofInt 16 z).toNat) = z := by
  rw [z16, ofNat_n16]
  exact toInt_ofInt (w := 15) (by norm_num; omega) (by norm_num; omega)

theorem z8_i8 {z : Int} (lo : -128 ≤ z) (hi : z ≤ 127) : z8 (BitVec.ofInt 8 z) = z :=
  toInt_ofInt (w := 7) (by norm_num; omega) (by norm_num; omega)

@[simp] theorem flagOf_mark (b : Bool) : flagOf (byteOf (if b then 1 else 0)) = some b := by cases b <;> decide

theorem mark_eq (b : Bool) : mark b = [byteOf (if b then 1 else 0)] := rfl

/-- An optional field is heard as it was encoded (R190, R191). -/
theorem optHeard_optU8 {v : Option Nat} (h : ∀ n, v = some n → n ≤ 255) :
    ∃ m a, optU8 v = [m, a] ∧ optHeard m a.toNat = some v := by
  cases v with
  | none => exact ⟨_, _, rfl, by decide⟩
  | some n =>
    refine ⟨byteOf 1, byteOf n, rfl, ?_⟩
    rw [byteOf_toNat (h n rfl)]; rfl

theorem optHeard_optU16 {v : Option Nat} (h : ∀ n, v = some n → n ≤ 65535) :
    ∃ m a b, optU16 v = [m, a, b] ∧ optHeard m (n16 a b) = some v := by
  cases v with
  | none => exact ⟨_, _, _, rfl, by decide⟩
  | some n =>
    refine ⟨byteOf 1, byteOf (n / 256), byteOf n, rfl, ?_⟩
    rw [n16_byteOf (h n rfl)]; rfl

/-! ### Whole bodies -/

theorem readU8_u8 {n : Nat} (h : n ≤ 255) : readU8 (u8 n) = some n := by simp [u8, readU8, h]

theorem readU16_u16 {n : Nat} (h : n ≤ 65535) : readU16 (u16 n) = some n := by simp [u16, readU16, n16_byteOf h]

theorem readU8U8_u8 {m n : Nat} (h : m ≤ 255) (g : n ≤ 255) : readU8U8 (u8 m ++ u8 n) = some (m, n) := by
  simp [u8, readU8U8, h, g]

theorem readU16U16_u16 {m n : Nat} (h : m ≤ 65535) (g : n ≤ 65535) : readU16U16 (u16 m ++ u16 n) = some (m, n) := by
  simp [u16, readU16U16, n16_byteOf h, n16_byteOf g]

theorem readU8Byte_mark {n : Nat} (h : n ≤ 255) (b : Bool) :
    readU8Byte (u8 n ++ mark b) = some (n, byteOf (if b then 1 else 0)) := by
  simp [u8, mark, readU8Byte, h]

theorem readClassSet_classBytes (m : ClassSet) : readClassSet (u16 m.toNat) = some m := by
  simp [u16, readClassSet, ofNat_n16]

theorem readCapacity_optU8 {v : Option Nat} (h : ∀ n, v = some n → n ≤ 255) : readCapacity (optU8 v) = some (some v) := by
  obtain ⟨m, a, e, g⟩ := optHeard_optU8 h
  simp [e, readCapacity, g]

theorem readLotCreate_bytes {n sp th tm tol rl : Nat} (dry : Bool) (hn : n ≤ 65535) (hs : sp ≤ 255) (ht : th ≤ 255)
    (hm : tm ≤ 65535) (hl : tol ≤ 255) (hr : rl ≤ 65535) :
    readLotCreate (u16 n ++ u8 sp ++ u8 th ++ u16 tm ++ u8 tol ++ u16 rl ++ mark dry) =
      some ⟨n, sp, th, tm, tol, rl, some dry⟩ := by
  simp [u8, u16, mark, readLotCreate, n16_byteOf, *]

theorem readLotModify_bytes {n : Nat} {sp th tm tol rl : Option Nat} (hn : n ≤ 65535) (hs : ∀ v, sp = some v → v ≤ 255)
    (ht : ∀ v, th = some v → v ≤ 255) (hm : ∀ v, tm = some v → v ≤ 65535) (hl : ∀ v, tol = some v → v ≤ 255)
    (hr : ∀ v, rl = some v → v ≤ 65535) :
    readLotModify (u16 n ++ optU8 sp ++ optU8 th ++ optU16 tm ++ optU8 tol ++ optU16 rl) =
      some ⟨n, some sp, some th, some tm, some tol, some rl⟩ := by
  obtain ⟨_, _, e1, g1⟩ := optHeard_optU8 hs
  obtain ⟨_, _, e2, g2⟩ := optHeard_optU8 ht
  obtain ⟨_, _, _, e3, g3⟩ := optHeard_optU16 hm
  obtain ⟨_, _, e4, g4⟩ := optHeard_optU8 hl
  obtain ⟨_, _, _, e5, g5⟩ := optHeard_optU16 hr
  simp [u16, e1, e2, e3, e4, e5, readLotModify, n16_byteOf hn, g1, g2, g3, g4, g5]

theorem readLotRelease_bytes {n : Nat} {r : Option Nat} (hn : n ≤ 65535) (hr : ∀ v, r = some v → v ≤ 255) :
    readLotRelease (u16 n ++ optU8 r) = some ⟨n, some r⟩ := by
  obtain ⟨_, _, e, g⟩ := optHeard_optU8 hr
  simp [u16, e, readLotRelease, n16_byteOf hn, g]

theorem readSampleEnter_bytes {k id w m : Nat} (hk : k ≤ 255) (hi : id ≤ 255) (hw : w ≤ 65535) (hm : m ≤ 65535) :
    readSampleEnter (u8 k ++ u8 id ++ u16 w ++ u16 m) = some ⟨k, id, w, m⟩ := by
  simp [u8, u16, readSampleEnter, n16_byteOf, *]

theorem readHoldPointSet_bytes {n sc k v : Nat} (en one : Bool) (hn : n ≤ 255) (hs : sc ≤ 255) (hk : k ≤ 255)
    (hv : v ≤ 65535) :
    readHoldPointSet (u8 n ++ mark en ++ u8 sc ++ u8 k ++ u16 v ++ mark one) = some ⟨n, some en, sc, k, v, some one⟩ := by
  simp [u8, u16, mark, readHoldPointSet, n16_byteOf, *]

theorem readStackerSetup_bytes {st c ft p : Nat} (hs : st ≤ 255) (hc : c ≤ 65535) (hf : ft ≤ 4294967295) (hp : p ≤ 255) :
    readStackerSetup (u8 st ++ u16 c ++ u32 ft ++ u8 p) = some ⟨st, c, ft, p⟩ := by
  simp [u8, u16, u32, readStackerSetup, n16_byteOf, n32_byteOf, *]

theorem readKilnReport_bytes {k : Nat} {dry wet : Int} (door : Bool) (hk : k ≤ 255) (d0 : -32768 ≤ dry) (d1 : dry ≤ 32767)
    (w0 : -32768 ≤ wet) (w1 : wet ≤ 32767) :
    readKilnReport (u8 k ++ i16 dry ++ i16 wet ++ mark door) = some ⟨k, dry, wet, some door⟩ := by
  simp only [u8, i16, u16, mark, List.cons_append, List.nil_append, readKilnReport, z16_i16 d0 d1, z16_i16 w0 w1,
    byteOf_toNat hk, flagOf_mark]

theorem readMeasure_bytes {n th w len bin raw : Nat} {tp : Int} (ov : Bool) (hn : n ≤ 65535) (ht : th ≤ 255) (hw : w ≤ 255)
    (hl : len ≤ 255) (hb : bin ≤ 255) (hr : raw ≤ 65535) (t0 : -128 ≤ tp) (t1 : tp ≤ 127) :
    readMeasure (u16 n ++ u8 th ++ u8 w ++ u8 len ++ u8 bin ++ u16 raw ++ mark ov ++ i8 tp) =
      some ⟨n, th, w, len, bin, raw, some ov, tp⟩ := by
  simp [u8, i8, u16, mark, readMeasure, n16_byteOf, z8_i8, *]

/-! ### Bodies that carry a count -/

theorem readNumbers_bytes (ns : List Nat) (h : ∀ n ∈ ns, n ≤ 65535) : readNumbers ns.length (ns.flatMap u16) = some ns := by
  induction ns with
  | nil => rfl
  | cons n ns ih =>
    simp only [List.length_cons, List.flatMap_cons, u16, List.cons_append, List.nil_append, readNumbers]
    rw [n16_byteOf (h n (by simp)), ih fun m hm => h m (by simp [hm])]; rfl

theorem readKilnCharge_bytes {k id : Nat} {ns : List Nat} (hk : k ≤ 255) (hi : id ≤ 255) (hl : ns.length ≤ 255)
    (h : ∀ n ∈ ns, n ≤ 65535) : readKilnCharge (u8 k ++ u8 id ++ counted u16 ns) = some ⟨k, id, ns.length, ns⟩ := by
  simp only [u8, counted, List.cons_append, List.nil_append, readKilnCharge, byteOf_toNat hl, byteOf_toNat hk,
    byteOf_toNat hi, readNumbers_bytes ns h]
  rfl

theorem readEntries_bytes (es : List WeighEntry) (h : ∀ e ∈ es, e.id ≤ 255 ∧ e.weight ≤ 65535) :
    readEntries es.length (es.flatMap fun e => u8 e.id ++ u16 e.weight) = some es := by
  induction es with
  | nil => rfl
  | cons e es ih =>
    simp only [List.length_cons, List.flatMap_cons, u8, u16, List.cons_append, List.nil_append, readEntries]
    rw [n16_byteOf (h e (by simp)).2, byteOf_toNat (h e (by simp)).1]
    have := ih fun m hm => h m (by simp [hm])
    simp only [u8, u16, List.cons_append, List.nil_append] at this
    rw [this]; rfl

theorem readSampleWeigh_bytes {k : Nat} {es : List WeighEntry} (hk : k ≤ 255) (hl : es.length ≤ 255)
    (h : ∀ e ∈ es, e.id ≤ 255 ∧ e.weight ≤ 65535) :
    readSampleWeigh (u8 k ++ counted (fun e => u8 e.id ++ u16 e.weight) es) = some ⟨k, es.length, es⟩ := by
  have := readEntries_bytes es h
  simp only [u8, List.cons_append, List.nil_append] at this
  simp only [u8, counted, List.cons_append, List.nil_append, readSampleWeigh, byteOf_toNat hl, byteOf_toNat hk, this]
  rfl

theorem readSpeciesWrite_bytes {code fs kt : Nat} {name : List Byte} (hc : code ≤ 255) (hl : name.length ≤ 255)
    (hf : fs ≤ 65535) (hk : kt ≤ 255) :
    readSpeciesWrite (u8 code ++ text name ++ u16 fs ++ u8 kt) = some ⟨code, name.length, name, fs, kt⟩ := by
  simp [u8, u16, text, readSpeciesWrite, n16_byteOf, *]

/-! ### Characters (11, R178) -/

/-- A character is heard back as its byte, before whatever follows. -/
theorem bytesHeard_charLevels (b : Byte) (rest : List Bool) :
    bytesHeard (charLevels b ++ rest) = (bytesHeard rest).map fun bytes => b :: bytes := by
  have h : BitVec.ofBoolListLE [b.getLsbD 0, b.getLsbD 1, b.getLsbD 2, b.getLsbD 3, b.getLsbD 4, b.getLsbD 5, b.getLsbD 6,
      b.getLsbD 7] = b := by
    revert b; decide +kernel
  simp only [charLevels, List.cons_append, List.nil_append, bytesHeard]
  rw [h]

end Sys2Proof.Machine
end

