-- ==== Sys2Proof/Laws/State.lean ====
section
/-! SUPPORT. The updates of the state, one lemma for each field an update leaves, and what a read of the updated place gives. -/

namespace Sys2Proof.Machine

/-! ### Reads after writes -/

@[simp] theorem State.port_setPort_same (s : State) (l : Link) (p : LinkPort) : (s.setPort l p).port l = p := by
  cases l <;> rfl

theorem State.port_setPort_other (s : State) {l m : Link} (p : LinkPort) (h : m ≠ l) :
    (s.setPort l p).port m = s.port m := by
  cases l <;> cases m <;> first | rfl | exact absurd rfl h

@[simp] theorem State.kiln_setKiln_same (s : State) (k : KilnNo) (c : KilnContext) : (s.setKiln k c).kiln k = c := by
  simp [State.kiln, State.setKiln]

theorem State.kiln_setKiln_other (s : State) {k j : KilnNo} (c : KilnContext) (h : j ≠ k) :
    (s.setKiln k c).kiln j = s.kiln j := by
  have : (k : Nat) ≠ j := fun e => h (Fin.ext e.symm)
  simp [State.kiln, State.setKiln, this]

@[simp] theorem State.heatOf_setHeat_same (s : State) (k : KilnNo) (h : HeatRecord) : (s.setHeat k h).heatOf k = h := by
  simp [State.heatOf, State.setHeat]

theorem State.heatOf_setHeat_other (s : State) {k j : KilnNo} (r : HeatRecord) (h : j ≠ k) :
    (s.setHeat k r).heatOf j = s.heatOf j := by
  have : (k : Nat) ≠ j := fun e => h (Fin.ext e.symm)
  simp [State.heatOf, State.setHeat, this]

@[simp] theorem State.holdPoint_setHoldPoint_same (s : State) (h : HoldPointNo) (p : HoldPoint) :
    (s.setHoldPoint h p).holdPoint h = p := by
  simp [State.holdPoint, State.setHoldPoint]

theorem State.holdPoint_setHoldPoint_other (s : State) {h j : HoldPointNo} (p : HoldPoint) (ne : j ≠ h) :
    (s.setHoldPoint h p).holdPoint j = s.holdPoint j := by
  have : (h : Nat) ≠ j := fun e => ne (Fin.ext e.symm)
  simp [State.holdPoint, State.setHoldPoint, this]

@[simp] theorem State.stacker_setStacker_same (s : State) (st : StackerNo) (r : Stacker) :
    (s.setStacker st r).stacker st = r := by
  simp [State.stacker, State.setStacker]

theorem State.stacker_setStacker_other (s : State) {st j : StackerNo} (r : Stacker) (h : j ≠ st) :
    (s.setStacker st r).stacker j = s.stacker j := by
  have : (st : Nat) ≠ j := fun e => h (Fin.ext e.symm)
  simp [State.stacker, State.setStacker, this]

/-! ### setPort -/

@[simp] theorem State.setPort_condition (s : State) (l : Link) (p : LinkPort) :
    (s.setPort l p).condition = s.condition := by
  cases l <;> rfl
@[simp] theorem State.setPort_resetLine (s : State) (l : Link) (p : LinkPort) :
    (s.setPort l p).resetLine = s.resetLine := by
  cases l <;> rfl
@[simp] theorem State.setPort_millStopLine (s : State) (l : Link) (p : LinkPort) :
    (s.setPort l p).millStopLine = s.millStopLine := by
  cases l <;> rfl
@[simp] theorem State.setPort_lineRate (s : State) (l : Link) (p : LinkPort) :
    (s.setPort l p).lineRate = s.lineRate := by
  cases l <;> rfl
@[simp] theorem State.setPort_completionMarker (s : State) (l : Link) (p : LinkPort) :
    (s.setPort l p).completionMarker = s.completionMarker := by
  cases l <;> rfl
@[simp] theorem State.setPort_startUpKind (s : State) (l : Link) (p : LinkPort) :
    (s.setPort l p).startUpKind = s.startUpKind := by
  cases l <;> rfl
@[simp] theorem State.setPort_minute (s : State) (l : Link) (p : LinkPort) :
    (s.setPort l p).minute = s.minute := by
  cases l <;> rfl
@[simp] theorem State.setPort_lots (s : State) (l : Link) (p : LinkPort) :
    (s.setPort l p).lots = s.lots := by
  cases l <;> rfl
@[simp] theorem State.setPort_redryFirst (s : State) (l : Link) (p : LinkPort) :
    (s.setPort l p).redryFirst = s.redryFirst := by
  cases l <;> rfl
@[simp] theorem State.setPort_redryLast (s : State) (l : Link) (p : LinkPort) :
    (s.setPort l p).redryLast = s.redryLast := by
  cases l <;> rfl
@[simp] theorem State.setPort_redryNext (s : State) (l : Link) (p : LinkPort) :
    (s.setPort l p).redryNext = s.redryNext := by
  cases l <;> rfl
@[simp] theorem State.setPort_schedules (s : State) (l : Link) (p : LinkPort) :
    (s.setPort l p).schedules = s.schedules := by
  cases l <;> rfl
@[simp] theorem State.setPort_species (s : State) (l : Link) (p : LinkPort) :
    (s.setPort l p).species = s.species := by
  cases l <;> rfl
@[simp] theorem State.setPort_kilns (s : State) (l : Link) (p : LinkPort) :
    (s.setPort l p).kilns = s.kilns := by
  cases l <;> rfl
@[simp] theorem State.setPort_capacity (s : State) (l : Link) (p : LinkPort) :
    (s.setPort l p).capacity = s.capacity := by
  cases l <;> rfl
@[simp] theorem State.setPort_masterEnable (s : State) (l : Link) (p : LinkPort) :
    (s.setPort l p).masterEnable = s.masterEnable := by
  cases l <;> rfl
@[simp] theorem State.setPort_heat (s : State) (l : Link) (p : LinkPort) :
    (s.setPort l p).heat = s.heat := by
  cases l <;> rfl
@[simp] theorem State.setPort_holdPoints (s : State) (l : Link) (p : LinkPort) :
    (s.setPort l p).holdPoints = s.holdPoints := by
  cases l <;> rfl
@[simp] theorem State.setPort_queue (s : State) (l : Link) (p : LinkPort) :
    (s.setPort l p).queue = s.queue := by
  cases l <;> rfl
@[simp] theorem State.setPort_nextSeq (s : State) (l : Link) (p : LinkPort) :
    (s.setPort l p).nextSeq = s.nextSeq := by
  cases l <;> rfl
@[simp] theorem State.setPort_lineHeld (s : State) (l : Link) (p : LinkPort) :
    (s.setPort l p).lineHeld = s.lineHeld := by
  cases l <;> rfl
@[simp] theorem State.setPort_shadow (s : State) (l : Link) (p : LinkPort) :
    (s.setPort l p).shadow = s.shadow := by
  cases l <;> rfl
@[simp] theorem State.setPort_binMap (s : State) (l : Link) (p : LinkPort) :
    (s.setPort l p).binMap = s.binMap := by
  cases l <;> rfl
@[simp] theorem State.setPort_stackers (s : State) (l : Link) (p : LinkPort) :
    (s.setPort l p).stackers = s.stackers := by
  cases l <;> rfl
@[simp] theorem State.setPort_nextPack (s : State) (l : Link) (p : LinkPort) :
    (s.setPort l p).nextPack = s.nextPack := by
  cases l <;> rfl
@[simp] theorem State.setPort_labels (s : State) (l : Link) (p : LinkPort) :
    (s.setPort l p).labels = s.labels := by
  cases l <;> rfl
@[simp] theorem State.setPort_serial (s : State) (l : Link) (p : LinkPort) :
    (s.setPort l p).serial = s.serial := by
  cases l <;> rfl
@[simp] theorem State.setPort_choices (s : State) (l : Link) (p : LinkPort) :
    (s.setPort l p).choices = s.choices := by
  cases l <;> rfl
@[simp] theorem State.setPort_pending (s : State) (l : Link) (p : LinkPort) :
    (s.setPort l p).pending = s.pending := by
  cases l <;> rfl

/-! ### setReceiver -/

@[simp] theorem State.setReceiver_condition (s : State) (l : Link) (r : Receiver) :
    (s.setReceiver l r).condition = s.condition := by
  cases l <;> rfl
@[simp] theorem State.setReceiver_resetLine (s : State) (l : Link) (r : Receiver) :
    (s.setReceiver l r).resetLine = s.resetLine := by
  cases l <;> rfl
@[simp] theorem State.setReceiver_millStopLine (s : State) (l : Link) (r : Receiver) :
    (s.setReceiver l r).millStopLine = s.millStopLine := by
  cases l <;> rfl
@[simp] theorem State.setReceiver_lineRate (s : State) (l : Link) (r : Receiver) :
    (s.setReceiver l r).lineRate = s.lineRate := by
  cases l <;> rfl
@[simp] theorem State.setReceiver_completionMarker (s : State) (l : Link) (r : Receiver) :
    (s.setReceiver l r).completionMarker = s.completionMarker := by
  cases l <;> rfl
@[simp] theorem State.setReceiver_startUpKind (s : State) (l : Link) (r : Receiver) :
    (s.setReceiver l r).startUpKind = s.startUpKind := by
  cases l <;> rfl
@[simp] theorem State.setReceiver_minute (s : State) (l : Link) (r : Receiver) :
    (s.setReceiver l r).minute = s.minute := by
  cases l <;> rfl
@[simp] theorem State.setReceiver_lots (s : State) (l : Link) (r : Receiver) :
    (s.setReceiver l r).lots = s.lots := by
  cases l <;> rfl
@[simp] theorem State.setReceiver_redryFirst (s : State) (l : Link) (r : Receiver) :
    (s.setReceiver l r).redryFirst = s.redryFirst := by
  cases l <;> rfl
@[simp] theorem State.setReceiver_redryLast (s : State) (l : Link) (r : Receiver) :
    (s.setReceiver l r).redryLast = s.redryLast := by
  cases l <;> rfl
@[simp] theorem State.setReceiver_redryNext (s : State) (l : Link) (r : Receiver) :
    (s.setReceiver l r).redryNext = s.redryNext := by
  cases l <;> rfl
@[simp] theorem State.setReceiver_schedules (s : State) (l : Link) (r : Receiver) :
    (s.setReceiver l r).schedules = s.schedules := by
  cases l <;> rfl
@[simp] theorem State.setReceiver_species (s : State) (l : Link) (r : Receiver) :
    (s.setReceiver l r).species = s.species := by
  cases l <;> rfl
@[simp] theorem State.setReceiver_kilns (s : State) (l : Link) (r : Receiver) :
    (s.setReceiver l r).kilns = s.kilns := by
  cases l <;> rfl
@[simp] theorem State.setReceiver_capacity (s : State) (l : Link) (r : Receiver) :
    (s.setReceiver l r).capacity = s.capacity := by
  cases l <;> rfl
@[simp] theorem State.setReceiver_masterEnable (s : State) (l : Link) (r : Receiver) :
    (s.setReceiver l r).masterEnable = s.masterEnable := by
  cases l <;> rfl
@[simp] theorem State.setReceiver_heat (s : State) (l : Link) (r : Receiver) :
    (s.setReceiver l r).heat = s.heat := by
  cases l <;> rfl
@[simp] theorem State.setReceiver_holdPoints (s : State) (l : Link) (r : Receiver) :
    (s.setReceiver l r).holdPoints = s.holdPoints := by
  cases l <;> rfl
@[simp] theorem State.setReceiver_queue (s : State) (l : Link) (r : Receiver) :
    (s.setReceiver l r).queue = s.queue := by
  cases l <;> rfl
@[simp] theorem State.setReceiver_nextSeq (s : State) (l : Link) (r : Receiver) :
    (s.setReceiver l r).nextSeq = s.nextSeq := by
  cases l <;> rfl
@[simp] theorem State.setReceiver_lineHeld (s : State) (l : Link) (r : Receiver) :
    (s.setReceiver l r).lineHeld = s.lineHeld := by
  cases l <;> rfl
@[simp] theorem State.setReceiver_shadow (s : State) (l : Link) (r : Receiver) :
    (s.setReceiver l r).shadow = s.shadow := by
  cases l <;> rfl
@[simp] theorem State.setReceiver_binMap (s : State) (l : Link) (r : Receiver) :
    (s.setReceiver l r).binMap = s.binMap := by
  cases l <;> rfl
@[simp] theorem State.setReceiver_stackers (s : State) (l : Link) (r : Receiver) :
    (s.setReceiver l r).stackers = s.stackers := by
  cases l <;> rfl
@[simp] theorem State.setReceiver_nextPack (s : State) (l : Link) (r : Receiver) :
    (s.setReceiver l r).nextPack = s.nextPack := by
  cases l <;> rfl
@[simp] theorem State.setReceiver_labels (s : State) (l : Link) (r : Receiver) :
    (s.setReceiver l r).labels = s.labels := by
  cases l <;> rfl
@[simp] theorem State.setReceiver_serial (s : State) (l : Link) (r : Receiver) :
    (s.setReceiver l r).serial = s.serial := by
  cases l <;> rfl
@[simp] theorem State.setReceiver_choices (s : State) (l : Link) (r : Receiver) :
    (s.setReceiver l r).choices = s.choices := by
  cases l <;> rfl
@[simp] theorem State.setReceiver_pending (s : State) (l : Link) (r : Receiver) :
    (s.setReceiver l r).pending = s.pending := by
  cases l <;> rfl

/-! ### raise -/

@[simp] theorem State.raise_condition (s : State) (c : AttnClass) :
    (s.raise c).condition = s.condition := by
  cases c <;> rfl
@[simp] theorem State.raise_resetLine (s : State) (c : AttnClass) :
    (s.raise c).resetLine = s.resetLine := by
  cases c <;> rfl
@[simp] theorem State.raise_millStopLine (s : State) (c : AttnClass) :
    (s.raise c).millStopLine = s.millStopLine := by
  cases c <;> rfl
@[simp] theorem State.raise_lineRate (s : State) (c : AttnClass) :
    (s.raise c).lineRate = s.lineRate := by
  cases c <;> rfl
@[simp] theorem State.raise_completionMarker (s : State) (c : AttnClass) :
    (s.raise c).completionMarker = s.completionMarker := by
  cases c <;> rfl
@[simp] theorem State.raise_startUpKind (s : State) (c : AttnClass) :
    (s.raise c).startUpKind = s.startUpKind := by
  cases c <;> rfl
@[simp] theorem State.raise_minute (s : State) (c : AttnClass) :
    (s.raise c).minute = s.minute := by
  cases c <;> rfl
@[simp] theorem State.raise_lots (s : State) (c : AttnClass) :
    (s.raise c).lots = s.lots := by
  cases c <;> rfl
@[simp] theorem State.raise_redryFirst (s : State) (c : AttnClass) :
    (s.raise c).redryFirst = s.redryFirst := by
  cases c <;> rfl
@[simp] theorem State.raise_redryLast (s : State) (c : AttnClass) :
    (s.raise c).redryLast = s.redryLast := by
  cases c <;> rfl
@[simp] theorem State.raise_redryNext (s : State) (c : AttnClass) :
    (s.raise c).redryNext = s.redryNext := by
  cases c <;> rfl
@[simp] theorem State.raise_schedules (s : State) (c : AttnClass) :
    (s.raise c).schedules = s.schedules := by
  cases c <;> rfl
@[simp] theorem State.raise_species (s : State) (c : AttnClass) :
    (s.raise c).species = s.species := by
  cases c <;> rfl
@[simp] theorem State.raise_kilns (s : State) (c : AttnClass) :
    (s.raise c).kilns = s.kilns := by
  cases c <;> rfl
@[simp] theorem State.raise_capacity (s : State) (c : AttnClass) :
    (s.raise c).capacity = s.capacity := by
  cases c <;> rfl
@[simp] theorem State.raise_masterEnable (s : State) (c : AttnClass) :
    (s.raise c).masterEnable = s.masterEnable := by
  cases c <;> rfl
@[simp] theorem State.raise_heat (s : State) (c : AttnClass) :
    (s.raise c).heat = s.heat := by
  cases c <;> rfl
@[simp] theorem State.raise_holdPoints (s : State) (c : AttnClass) :
    (s.raise c).holdPoints = s.holdPoints := by
  cases c <;> rfl
@[simp] theorem State.raise_queue (s : State) (c : AttnClass) :
    (s.raise c).queue = s.queue := by
  cases c <;> rfl
@[simp] theorem State.raise_nextSeq (s : State) (c : AttnClass) :
    (s.raise c).nextSeq = s.nextSeq := by
  cases c <;> rfl
@[simp] theorem State.raise_lineHeld (s : State) (c : AttnClass) :
    (s.raise c).lineHeld = s.lineHeld := by
  cases c <;> rfl
@[simp] theorem State.raise_shadow (s : State) (c : AttnClass) :
    (s.raise c).shadow = s.shadow := by
  cases c <;> rfl
@[simp] theorem State.raise_binMap (s : State) (c : AttnClass) :
    (s.raise c).binMap = s.binMap := by
  cases c <;> rfl
@[simp] theorem State.raise_stackers (s : State) (c : AttnClass) :
    (s.raise c).stackers = s.stackers := by
  cases c <;> rfl
@[simp] theorem State.raise_nextPack (s : State) (c : AttnClass) :
    (s.raise c).nextPack = s.nextPack := by
  cases c <;> rfl
@[simp] theorem State.raise_labels (s : State) (c : AttnClass) :
    (s.raise c).labels = s.labels := by
  cases c <;> rfl
@[simp] theorem State.raise_serial (s : State) (c : AttnClass) :
    (s.raise c).serial = s.serial := by
  cases c <;> rfl
@[simp] theorem State.raise_choices (s : State) (c : AttnClass) :
    (s.raise c).choices = s.choices := by
  cases c <;> rfl
@[simp] theorem State.raise_pending (s : State) (c : AttnClass) :
    (s.raise c).pending = s.pending := by
  cases c <;> rfl

/-! ### raiseLotHeld -/

@[simp] theorem State.raiseLotHeld_condition (s : State) :
    (s.raiseLotHeld).condition = s.condition := rfl
@[simp] theorem State.raiseLotHeld_resetLine (s : State) :
    (s.raiseLotHeld).resetLine = s.resetLine := rfl
@[simp] theorem State.raiseLotHeld_millStopLine (s : State) :
    (s.raiseLotHeld).millStopLine = s.millStopLine := rfl
@[simp] theorem State.raiseLotHeld_lineRate (s : State) :
    (s.raiseLotHeld).lineRate = s.lineRate := rfl
@[simp] theorem State.raiseLotHeld_completionMarker (s : State) :
    (s.raiseLotHeld).completionMarker = s.completionMarker := rfl
@[simp] theorem State.raiseLotHeld_startUpKind (s : State) :
    (s.raiseLotHeld).startUpKind = s.startUpKind := rfl
@[simp] theorem State.raiseLotHeld_minute (s : State) :
    (s.raiseLotHeld).minute = s.minute := rfl
@[simp] theorem State.raiseLotHeld_lots (s : State) :
    (s.raiseLotHeld).lots = s.lots := rfl
@[simp] theorem State.raiseLotHeld_redryFirst (s : State) :
    (s.raiseLotHeld).redryFirst = s.redryFirst := rfl
@[simp] theorem State.raiseLotHeld_redryLast (s : State) :
    (s.raiseLotHeld).redryLast = s.redryLast := rfl
@[simp] theorem State.raiseLotHeld_redryNext (s : State) :
    (s.raiseLotHeld).redryNext = s.redryNext := rfl
@[simp] theorem State.raiseLotHeld_schedules (s : State) :
    (s.raiseLotHeld).schedules = s.schedules := rfl
@[simp] theorem State.raiseLotHeld_species (s : State) :
    (s.raiseLotHeld).species = s.species := rfl
@[simp] theorem State.raiseLotHeld_kilns (s : State) :
    (s.raiseLotHeld).kilns = s.kilns := rfl
@[simp] theorem State.raiseLotHeld_capacity (s : State) :
    (s.raiseLotHeld).capacity = s.capacity := rfl
@[simp] theorem State.raiseLotHeld_masterEnable (s : State) :
    (s.raiseLotHeld).masterEnable = s.masterEnable := rfl
@[simp] theorem State.raiseLotHeld_heat (s : State) :
    (s.raiseLotHeld).heat = s.heat := rfl
@[simp] theorem State.raiseLotHeld_holdPoints (s : State) :
    (s.raiseLotHeld).holdPoints = s.holdPoints := rfl
@[simp] theorem State.raiseLotHeld_queue (s : State) :
    (s.raiseLotHeld).queue = s.queue := rfl
@[simp] theorem State.raiseLotHeld_nextSeq (s : State) :
    (s.raiseLotHeld).nextSeq = s.nextSeq := rfl
@[simp] theorem State.raiseLotHeld_lineHeld (s : State) :
    (s.raiseLotHeld).lineHeld = s.lineHeld := rfl
@[simp] theorem State.raiseLotHeld_shadow (s : State) :
    (s.raiseLotHeld).shadow = s.shadow := rfl
@[simp] theorem State.raiseLotHeld_binMap (s : State) :
    (s.raiseLotHeld).binMap = s.binMap := rfl
@[simp] theorem State.raiseLotHeld_stackers (s : State) :
    (s.raiseLotHeld).stackers = s.stackers := rfl
@[simp] theorem State.raiseLotHeld_nextPack (s : State) :
    (s.raiseLotHeld).nextPack = s.nextPack := rfl
@[simp] theorem State.raiseLotHeld_labels (s : State) :
    (s.raiseLotHeld).labels = s.labels := rfl
@[simp] theorem State.raiseLotHeld_serial (s : State) :
    (s.raiseLotHeld).serial = s.serial := rfl
@[simp] theorem State.raiseLotHeld_choices (s : State) :
    (s.raiseLotHeld).choices = s.choices := rfl
@[simp] theorem State.raiseLotHeld_pending (s : State) :
    (s.raiseLotHeld).pending = s.pending := rfl

/-! ### answer -/

@[simp] theorem State.answer_condition (s : State) (kind : Nat) (f : Request) (r : Reply) :
    (s.answer kind f r).condition = s.condition := by
  obtain ⟨l, _, _⟩ := f; cases l <;> rfl
@[simp] theorem State.answer_resetLine (s : State) (kind : Nat) (f : Request) (r : Reply) :
    (s.answer kind f r).resetLine = s.resetLine := by
  obtain ⟨l, _, _⟩ := f; cases l <;> rfl
@[simp] theorem State.answer_millStopLine (s : State) (kind : Nat) (f : Request) (r : Reply) :
    (s.answer kind f r).millStopLine = s.millStopLine := by
  obtain ⟨l, _, _⟩ := f; cases l <;> rfl
@[simp] theorem State.answer_lineRate (s : State) (kind : Nat) (f : Request) (r : Reply) :
    (s.answer kind f r).lineRate = s.lineRate := by
  obtain ⟨l, _, _⟩ := f; cases l <;> rfl
@[simp] theorem State.answer_completionMarker (s : State) (kind : Nat) (f : Request) (r : Reply) :
    (s.answer kind f r).completionMarker = s.completionMarker := by
  obtain ⟨l, _, _⟩ := f; cases l <;> rfl
@[simp] theorem State.answer_startUpKind (s : State) (kind : Nat) (f : Request) (r : Reply) :
    (s.answer kind f r).startUpKind = s.startUpKind := by
  obtain ⟨l, _, _⟩ := f; cases l <;> rfl
@[simp] theorem State.answer_minute (s : State) (kind : Nat) (f : Request) (r : Reply) :
    (s.answer kind f r).minute = s.minute := by
  obtain ⟨l, _, _⟩ := f; cases l <;> rfl
@[simp] theorem State.answer_lots (s : State) (kind : Nat) (f : Request) (r : Reply) :
    (s.answer kind f r).lots = s.lots := by
  obtain ⟨l, _, _⟩ := f; cases l <;> rfl
@[simp] theorem State.answer_redryFirst (s : State) (kind : Nat) (f : Request) (r : Reply) :
    (s.answer kind f r).redryFirst = s.redryFirst := by
  obtain ⟨l, _, _⟩ := f; cases l <;> rfl
@[simp] theorem State.answer_redryLast (s : State) (kind : Nat) (f : Request) (r : Reply) :
    (s.answer kind f r).redryLast = s.redryLast := by
  obtain ⟨l, _, _⟩ := f; cases l <;> rfl
@[simp] theorem State.answer_redryNext (s : State) (kind : Nat) (f : Request) (r : Reply) :
    (s.answer kind f r).redryNext = s.redryNext := by
  obtain ⟨l, _, _⟩ := f; cases l <;> rfl
@[simp] theorem State.answer_schedules (s : State) (kind : Nat) (f : Request) (r : Reply) :
    (s.answer kind f r).schedules = s.schedules := by
  obtain ⟨l, _, _⟩ := f; cases l <;> rfl
@[simp] theorem State.answer_species (s : State) (kind : Nat) (f : Request) (r : Reply) :
    (s.answer kind f r).species = s.species := by
  obtain ⟨l, _, _⟩ := f; cases l <;> rfl
@[simp] theorem State.answer_kilns (s : State) (kind : Nat) (f : Request) (r : Reply) :
    (s.answer kind f r).kilns = s.kilns := by
  obtain ⟨l, _, _⟩ := f; cases l <;> rfl
@[simp] theorem State.answer_capacity (s : State) (kind : Nat) (f : Request) (r : Reply) :
    (s.answer kind f r).capacity = s.capacity := by
  obtain ⟨l, _, _⟩ := f; cases l <;> rfl
@[simp] theorem State.answer_masterEnable (s : State) (kind : Nat) (f : Request) (r : Reply) :
    (s.answer kind f r).masterEnable = s.masterEnable := by
  obtain ⟨l, _, _⟩ := f; cases l <;> rfl
@[simp] theorem State.answer_heat (s : State) (kind : Nat) (f : Request) (r : Reply) :
    (s.answer kind f r).heat = s.heat := by
  obtain ⟨l, _, _⟩ := f; cases l <;> rfl
@[simp] theorem State.answer_holdPoints (s : State) (kind : Nat) (f : Request) (r : Reply) :
    (s.answer kind f r).holdPoints = s.holdPoints := by
  obtain ⟨l, _, _⟩ := f; cases l <;> rfl
@[simp] theorem State.answer_queue (s : State) (kind : Nat) (f : Request) (r : Reply) :
    (s.answer kind f r).queue = s.queue := by
  obtain ⟨l, _, _⟩ := f; cases l <;> rfl
@[simp] theorem State.answer_nextSeq (s : State) (kind : Nat) (f : Request) (r : Reply) :
    (s.answer kind f r).nextSeq = s.nextSeq := by
  obtain ⟨l, _, _⟩ := f; cases l <;> rfl
@[simp] theorem State.answer_lineHeld (s : State) (kind : Nat) (f : Request) (r : Reply) :
    (s.answer kind f r).lineHeld = s.lineHeld := by
  obtain ⟨l, _, _⟩ := f; cases l <;> rfl
@[simp] theorem State.answer_shadow (s : State) (kind : Nat) (f : Request) (r : Reply) :
    (s.answer kind f r).shadow = s.shadow := by
  obtain ⟨l, _, _⟩ := f; cases l <;> rfl
@[simp] theorem State.answer_binMap (s : State) (kind : Nat) (f : Request) (r : Reply) :
    (s.answer kind f r).binMap = s.binMap := by
  obtain ⟨l, _, _⟩ := f; cases l <;> rfl
@[simp] theorem State.answer_stackers (s : State) (kind : Nat) (f : Request) (r : Reply) :
    (s.answer kind f r).stackers = s.stackers := by
  obtain ⟨l, _, _⟩ := f; cases l <;> rfl
@[simp] theorem State.answer_nextPack (s : State) (kind : Nat) (f : Request) (r : Reply) :
    (s.answer kind f r).nextPack = s.nextPack := by
  obtain ⟨l, _, _⟩ := f; cases l <;> rfl
@[simp] theorem State.answer_labels (s : State) (kind : Nat) (f : Request) (r : Reply) :
    (s.answer kind f r).labels = s.labels := by
  obtain ⟨l, _, _⟩ := f; cases l <;> rfl
@[simp] theorem State.answer_serial (s : State) (kind : Nat) (f : Request) (r : Reply) :
    (s.answer kind f r).serial = s.serial := by
  obtain ⟨l, _, _⟩ := f; cases l <;> rfl
@[simp] theorem State.answer_choices (s : State) (kind : Nat) (f : Request) (r : Reply) :
    (s.answer kind f r).choices = s.choices := by
  obtain ⟨l, _, _⟩ := f; cases l <;> rfl
@[simp] theorem State.answer_pending (s : State) (kind : Nat) (f : Request) (r : Reply) :
    (s.answer kind f r).pending = s.pending := by
  obtain ⟨l, _, _⟩ := f; cases l <;> rfl

/-! ### setKiln -/

@[simp] theorem State.setKiln_condition (s : State) (k : KilnNo) (c : KilnContext) :
    (s.setKiln k c).condition = s.condition := rfl
@[simp] theorem State.setKiln_resetLine (s : State) (k : KilnNo) (c : KilnContext) :
    (s.setKiln k c).resetLine = s.resetLine := rfl
@[simp] theorem State.setKiln_millStopLine (s : State) (k : KilnNo) (c : KilnContext) :
    (s.setKiln k c).millStopLine = s.millStopLine := rfl
@[simp] theorem State.setKiln_lineRate (s : State) (k : KilnNo) (c : KilnContext) :
    (s.setKiln k c).lineRate = s.lineRate := rfl
@[simp] theorem State.setKiln_completionMarker (s : State) (k : KilnNo) (c : KilnContext) :
    (s.setKiln k c).completionMarker = s.completionMarker := rfl
@[simp] theorem State.setKiln_startUpKind (s : State) (k : KilnNo) (c : KilnContext) :
    (s.setKiln k c).startUpKind = s.startUpKind := rfl
@[simp] theorem State.setKiln_officePort (s : State) (k : KilnNo) (c : KilnContext) :
    (s.setKiln k c).officePort = s.officePort := rfl
@[simp] theorem State.setKiln_kilnHousePort (s : State) (k : KilnNo) (c : KilnContext) :
    (s.setKiln k c).kilnHousePort = s.kilnHousePort := rfl
@[simp] theorem State.setKiln_planerPort (s : State) (k : KilnNo) (c : KilnContext) :
    (s.setKiln k c).planerPort = s.planerPort := rfl
@[simp] theorem State.setKiln_minute (s : State) (k : KilnNo) (c : KilnContext) :
    (s.setKiln k c).minute = s.minute := rfl
@[simp] theorem State.setKiln_lots (s : State) (k : KilnNo) (c : KilnContext) :
    (s.setKiln k c).lots = s.lots := rfl
@[simp] theorem State.setKiln_redryFirst (s : State) (k : KilnNo) (c : KilnContext) :
    (s.setKiln k c).redryFirst = s.redryFirst := rfl
@[simp] theorem State.setKiln_redryLast (s : State) (k : KilnNo) (c : KilnContext) :
    (s.setKiln k c).redryLast = s.redryLast := rfl
@[simp] theorem State.setKiln_redryNext (s : State) (k : KilnNo) (c : KilnContext) :
    (s.setKiln k c).redryNext = s.redryNext := rfl
@[simp] theorem State.setKiln_schedules (s : State) (k : KilnNo) (c : KilnContext) :
    (s.setKiln k c).schedules = s.schedules := rfl
@[simp] theorem State.setKiln_species (s : State) (k : KilnNo) (c : KilnContext) :
    (s.setKiln k c).species = s.species := rfl
@[simp] theorem State.setKiln_capacity (s : State) (k : KilnNo) (c : KilnContext) :
    (s.setKiln k c).capacity = s.capacity := rfl
@[simp] theorem State.setKiln_masterEnable (s : State) (k : KilnNo) (c : KilnContext) :
    (s.setKiln k c).masterEnable = s.masterEnable := rfl
@[simp] theorem State.setKiln_heat (s : State) (k : KilnNo) (c : KilnContext) :
    (s.setKiln k c).heat = s.heat := rfl
@[simp] theorem State.setKiln_holdPoints (s : State) (k : KilnNo) (c : KilnContext) :
    (s.setKiln k c).holdPoints = s.holdPoints := rfl
@[simp] theorem State.setKiln_queue (s : State) (k : KilnNo) (c : KilnContext) :
    (s.setKiln k c).queue = s.queue := rfl
@[simp] theorem State.setKiln_nextSeq (s : State) (k : KilnNo) (c : KilnContext) :
    (s.setKiln k c).nextSeq = s.nextSeq := rfl
@[simp] theorem State.setKiln_lineHeld (s : State) (k : KilnNo) (c : KilnContext) :
    (s.setKiln k c).lineHeld = s.lineHeld := rfl
@[simp] theorem State.setKiln_shadow (s : State) (k : KilnNo) (c : KilnContext) :
    (s.setKiln k c).shadow = s.shadow := rfl
@[simp] theorem State.setKiln_binMap (s : State) (k : KilnNo) (c : KilnContext) :
    (s.setKiln k c).binMap = s.binMap := rfl
@[simp] theorem State.setKiln_stackers (s : State) (k : KilnNo) (c : KilnContext) :
    (s.setKiln k c).stackers = s.stackers := rfl
@[simp] theorem State.setKiln_nextPack (s : State) (k : KilnNo) (c : KilnContext) :
    (s.setKiln k c).nextPack = s.nextPack := rfl
@[simp] theorem State.setKiln_labels (s : State) (k : KilnNo) (c : KilnContext) :
    (s.setKiln k c).labels = s.labels := rfl
@[simp] theorem State.setKiln_serial (s : State) (k : KilnNo) (c : KilnContext) :
    (s.setKiln k c).serial = s.serial := rfl
@[simp] theorem State.setKiln_choices (s : State) (k : KilnNo) (c : KilnContext) :
    (s.setKiln k c).choices = s.choices := rfl
@[simp] theorem State.setKiln_pending (s : State) (k : KilnNo) (c : KilnContext) :
    (s.setKiln k c).pending = s.pending := rfl

/-! ### setHeat -/

@[simp] theorem State.setHeat_condition (s : State) (k : KilnNo) (h : HeatRecord) :
    (s.setHeat k h).condition = s.condition := rfl
@[simp] theorem State.setHeat_resetLine (s : State) (k : KilnNo) (h : HeatRecord) :
    (s.setHeat k h).resetLine = s.resetLine := rfl
@[simp] theorem State.setHeat_millStopLine (s : State) (k : KilnNo) (h : HeatRecord) :
    (s.setHeat k h).millStopLine = s.millStopLine := rfl
@[simp] theorem State.setHeat_lineRate (s : State) (k : KilnNo) (h : HeatRecord) :
    (s.setHeat k h).lineRate = s.lineRate := rfl
@[simp] theorem State.setHeat_completionMarker (s : State) (k : KilnNo) (h : HeatRecord) :
    (s.setHeat k h).completionMarker = s.completionMarker := rfl
@[simp] theorem State.setHeat_startUpKind (s : State) (k : KilnNo) (h : HeatRecord) :
    (s.setHeat k h).startUpKind = s.startUpKind := rfl
@[simp] theorem State.setHeat_officePort (s : State) (k : KilnNo) (h : HeatRecord) :
    (s.setHeat k h).officePort = s.officePort := rfl
@[simp] theorem State.setHeat_kilnHousePort (s : State) (k : KilnNo) (h : HeatRecord) :
    (s.setHeat k h).kilnHousePort = s.kilnHousePort := rfl
@[simp] theorem State.setHeat_planerPort (s : State) (k : KilnNo) (h : HeatRecord) :
    (s.setHeat k h).planerPort = s.planerPort := rfl
@[simp] theorem State.setHeat_minute (s : State) (k : KilnNo) (h : HeatRecord) :
    (s.setHeat k h).minute = s.minute := rfl
@[simp] theorem State.setHeat_lots (s : State) (k : KilnNo) (h : HeatRecord) :
    (s.setHeat k h).lots = s.lots := rfl
@[simp] theorem State.setHeat_redryFirst (s : State) (k : KilnNo) (h : HeatRecord) :
    (s.setHeat k h).redryFirst = s.redryFirst := rfl
@[simp] theorem State.setHeat_redryLast (s : State) (k : KilnNo) (h : HeatRecord) :
    (s.setHeat k h).redryLast = s.redryLast := rfl
@[simp] theorem State.setHeat_redryNext (s : State) (k : KilnNo) (h : HeatRecord) :
    (s.setHeat k h).redryNext = s.redryNext := rfl
@[simp] theorem State.setHeat_schedules (s : State) (k : KilnNo) (h : HeatRecord) :
    (s.setHeat k h).schedules = s.schedules := rfl
@[simp] theorem State.setHeat_species (s : State) (k : KilnNo) (h : HeatRecord) :
    (s.setHeat k h).species = s.species := rfl
@[simp] theorem State.setHeat_kilns (s : State) (k : KilnNo) (h : HeatRecord) :
    (s.setHeat k h).kilns = s.kilns := rfl
@[simp] theorem State.setHeat_capacity (s : State) (k : KilnNo) (h : HeatRecord) :
    (s.setHeat k h).capacity = s.capacity := rfl
@[simp] theorem State.setHeat_masterEnable (s : State) (k : KilnNo) (h : HeatRecord) :
    (s.setHeat k h).masterEnable = s.masterEnable := rfl
@[simp] theorem State.setHeat_holdPoints (s : State) (k : KilnNo) (h : HeatRecord) :
    (s.setHeat k h).holdPoints = s.holdPoints := rfl
@[simp] theorem State.setHeat_queue (s : State) (k : KilnNo) (h : HeatRecord) :
    (s.setHeat k h).queue = s.queue := rfl
@[simp] theorem State.setHeat_nextSeq (s : State) (k : KilnNo) (h : HeatRecord) :
    (s.setHeat k h).nextSeq = s.nextSeq := rfl
@[simp] theorem State.setHeat_lineHeld (s : State) (k : KilnNo) (h : HeatRecord) :
    (s.setHeat k h).lineHeld = s.lineHeld := rfl
@[simp] theorem State.setHeat_shadow (s : State) (k : KilnNo) (h : HeatRecord) :
    (s.setHeat k h).shadow = s.shadow := rfl
@[simp] theorem State.setHeat_binMap (s : State) (k : KilnNo) (h : HeatRecord) :
    (s.setHeat k h).binMap = s.binMap := rfl
@[simp] theorem State.setHeat_stackers (s : State) (k : KilnNo) (h : HeatRecord) :
    (s.setHeat k h).stackers = s.stackers := rfl
@[simp] theorem State.setHeat_nextPack (s : State) (k : KilnNo) (h : HeatRecord) :
    (s.setHeat k h).nextPack = s.nextPack := rfl
@[simp] theorem State.setHeat_labels (s : State) (k : KilnNo) (h : HeatRecord) :
    (s.setHeat k h).labels = s.labels := rfl
@[simp] theorem State.setHeat_serial (s : State) (k : KilnNo) (h : HeatRecord) :
    (s.setHeat k h).serial = s.serial := rfl
@[simp] theorem State.setHeat_choices (s : State) (k : KilnNo) (h : HeatRecord) :
    (s.setHeat k h).choices = s.choices := rfl
@[simp] theorem State.setHeat_pending (s : State) (k : KilnNo) (h : HeatRecord) :
    (s.setHeat k h).pending = s.pending := rfl

/-! ### setHoldPoint -/

@[simp] theorem State.setHoldPoint_condition (s : State) (h : HoldPointNo) (p : HoldPoint) :
    (s.setHoldPoint h p).condition = s.condition := rfl
@[simp] theorem State.setHoldPoint_resetLine (s : State) (h : HoldPointNo) (p : HoldPoint) :
    (s.setHoldPoint h p).resetLine = s.resetLine := rfl
@[simp] theorem State.setHoldPoint_millStopLine (s : State) (h : HoldPointNo) (p : HoldPoint) :
    (s.setHoldPoint h p).millStopLine = s.millStopLine := rfl
@[simp] theorem State.setHoldPoint_lineRate (s : State) (h : HoldPointNo) (p : HoldPoint) :
    (s.setHoldPoint h p).lineRate = s.lineRate := rfl
@[simp] theorem State.setHoldPoint_completionMarker (s : State) (h : HoldPointNo) (p : HoldPoint) :
    (s.setHoldPoint h p).completionMarker = s.completionMarker := rfl
@[simp] theorem State.setHoldPoint_startUpKind (s : State) (h : HoldPointNo) (p : HoldPoint) :
    (s.setHoldPoint h p).startUpKind = s.startUpKind := rfl
@[simp] theorem State.setHoldPoint_officePort (s : State) (h : HoldPointNo) (p : HoldPoint) :
    (s.setHoldPoint h p).officePort = s.officePort := rfl
@[simp] theorem State.setHoldPoint_kilnHousePort (s : State) (h : HoldPointNo) (p : HoldPoint) :
    (s.setHoldPoint h p).kilnHousePort = s.kilnHousePort := rfl
@[simp] theorem State.setHoldPoint_planerPort (s : State) (h : HoldPointNo) (p : HoldPoint) :
    (s.setHoldPoint h p).planerPort = s.planerPort := rfl
@[simp] theorem State.setHoldPoint_minute (s : State) (h : HoldPointNo) (p : HoldPoint) :
    (s.setHoldPoint h p).minute = s.minute := rfl
@[simp] theorem State.setHoldPoint_lots (s : State) (h : HoldPointNo) (p : HoldPoint) :
    (s.setHoldPoint h p).lots = s.lots := rfl
@[simp] theorem State.setHoldPoint_redryFirst (s : State) (h : HoldPointNo) (p : HoldPoint) :
    (s.setHoldPoint h p).redryFirst = s.redryFirst := rfl
@[simp] theorem State.setHoldPoint_redryLast (s : State) (h : HoldPointNo) (p : HoldPoint) :
    (s.setHoldPoint h p).redryLast = s.redryLast := rfl
@[simp] theorem State.setHoldPoint_redryNext (s : State) (h : HoldPointNo) (p : HoldPoint) :
    (s.setHoldPoint h p).redryNext = s.redryNext := rfl
@[simp] theorem State.setHoldPoint_schedules (s : State) (h : HoldPointNo) (p : HoldPoint) :
    (s.setHoldPoint h p).schedules = s.schedules := rfl
@[simp] theorem State.setHoldPoint_species (s : State) (h : HoldPointNo) (p : HoldPoint) :
    (s.setHoldPoint h p).species = s.species := rfl
@[simp] theorem State.setHoldPoint_kilns (s : State) (h : HoldPointNo) (p : HoldPoint) :
    (s.setHoldPoint h p).kilns = s.kilns := rfl
@[simp] theorem State.setHoldPoint_capacity (s : State) (h : HoldPointNo) (p : HoldPoint) :
    (s.setHoldPoint h p).capacity = s.capacity := rfl
@[simp] theorem State.setHoldPoint_masterEnable (s : State) (h : HoldPointNo) (p : HoldPoint) :
    (s.setHoldPoint h p).masterEnable = s.masterEnable := rfl
@[simp] theorem State.setHoldPoint_heat (s : State) (h : HoldPointNo) (p : HoldPoint) :
    (s.setHoldPoint h p).heat = s.heat := rfl
@[simp] theorem State.setHoldPoint_queue (s : State) (h : HoldPointNo) (p : HoldPoint) :
    (s.setHoldPoint h p).queue = s.queue := rfl
@[simp] theorem State.setHoldPoint_nextSeq (s : State) (h : HoldPointNo) (p : HoldPoint) :
    (s.setHoldPoint h p).nextSeq = s.nextSeq := rfl
@[simp] theorem State.setHoldPoint_lineHeld (s : State) (h : HoldPointNo) (p : HoldPoint) :
    (s.setHoldPoint h p).lineHeld = s.lineHeld := rfl
@[simp] theorem State.setHoldPoint_shadow (s : State) (h : HoldPointNo) (p : HoldPoint) :
    (s.setHoldPoint h p).shadow = s.shadow := rfl
@[simp] theorem State.setHoldPoint_binMap (s : State) (h : HoldPointNo) (p : HoldPoint) :
    (s.setHoldPoint h p).binMap = s.binMap := rfl
@[simp] theorem State.setHoldPoint_stackers (s : State) (h : HoldPointNo) (p : HoldPoint) :
    (s.setHoldPoint h p).stackers = s.stackers := rfl
@[simp] theorem State.setHoldPoint_nextPack (s : State) (h : HoldPointNo) (p : HoldPoint) :
    (s.setHoldPoint h p).nextPack = s.nextPack := rfl
@[simp] theorem State.setHoldPoint_labels (s : State) (h : HoldPointNo) (p : HoldPoint) :
    (s.setHoldPoint h p).labels = s.labels := rfl
@[simp] theorem State.setHoldPoint_serial (s : State) (h : HoldPointNo) (p : HoldPoint) :
    (s.setHoldPoint h p).serial = s.serial := rfl
@[simp] theorem State.setHoldPoint_choices (s : State) (h : HoldPointNo) (p : HoldPoint) :
    (s.setHoldPoint h p).choices = s.choices := rfl
@[simp] theorem State.setHoldPoint_pending (s : State) (h : HoldPointNo) (p : HoldPoint) :
    (s.setHoldPoint h p).pending = s.pending := rfl

/-! ### setStacker -/

@[simp] theorem State.setStacker_condition (s : State) (st : StackerNo) (r : Stacker) :
    (s.setStacker st r).condition = s.condition := rfl
@[simp] theorem State.setStacker_resetLine (s : State) (st : StackerNo) (r : Stacker) :
    (s.setStacker st r).resetLine = s.resetLine := rfl
@[simp] theorem State.setStacker_millStopLine (s : State) (st : StackerNo) (r : Stacker) :
    (s.setStacker st r).millStopLine = s.millStopLine := rfl
@[simp] theorem State.setStacker_lineRate (s : State) (st : StackerNo) (r : Stacker) :
    (s.setStacker st r).lineRate = s.lineRate := rfl
@[simp] theorem State.setStacker_completionMarker (s : State) (st : StackerNo) (r : Stacker) :
    (s.setStacker st r).completionMarker = s.completionMarker := rfl
@[simp] theorem State.setStacker_startUpKind (s : State) (st : StackerNo) (r : Stacker) :
    (s.setStacker st r).startUpKind = s.startUpKind := rfl
@[simp] theorem State.setStacker_officePort (s : State) (st : StackerNo) (r : Stacker) :
    (s.setStacker st r).officePort = s.officePort := rfl
@[simp] theorem State.setStacker_kilnHousePort (s : State) (st : StackerNo) (r : Stacker) :
    (s.setStacker st r).kilnHousePort = s.kilnHousePort := rfl
@[simp] theorem State.setStacker_planerPort (s : State) (st : StackerNo) (r : Stacker) :
    (s.setStacker st r).planerPort = s.planerPort := rfl
@[simp] theorem State.setStacker_minute (s : State) (st : StackerNo) (r : Stacker) :
    (s.setStacker st r).minute = s.minute := rfl
@[simp] theorem State.setStacker_lots (s : State) (st : StackerNo) (r : Stacker) :
    (s.setStacker st r).lots = s.lots := rfl
@[simp] theorem State.setStacker_redryFirst (s : State) (st : StackerNo) (r : Stacker) :
    (s.setStacker st r).redryFirst = s.redryFirst := rfl
@[simp] theorem State.setStacker_redryLast (s : State) (st : StackerNo) (r : Stacker) :
    (s.setStacker st r).redryLast = s.redryLast := rfl
@[simp] theorem State.setStacker_redryNext (s : State) (st : StackerNo) (r : Stacker) :
    (s.setStacker st r).redryNext = s.redryNext := rfl
@[simp] theorem State.setStacker_schedules (s : State) (st : StackerNo) (r : Stacker) :
    (s.setStacker st r).schedules = s.schedules := rfl
@[simp] theorem State.setStacker_species (s : State) (st : StackerNo) (r : Stacker) :
    (s.setStacker st r).species = s.species := rfl
@[simp] theorem State.setStacker_kilns (s : State) (st : StackerNo) (r : Stacker) :
    (s.setStacker st r).kilns = s.kilns := rfl
@[simp] theorem State.setStacker_capacity (s : State) (st : StackerNo) (r : Stacker) :
    (s.setStacker st r).capacity = s.capacity := rfl
@[simp] theorem State.setStacker_masterEnable (s : State) (st : StackerNo) (r : Stacker) :
    (s.setStacker st r).masterEnable = s.masterEnable := rfl
@[simp] theorem State.setStacker_heat (s : State) (st : StackerNo) (r : Stacker) :
    (s.setStacker st r).heat = s.heat := rfl
@[simp] theorem State.setStacker_holdPoints (s : State) (st : StackerNo) (r : Stacker) :
    (s.setStacker st r).holdPoints = s.holdPoints := rfl
@[simp] theorem State.setStacker_queue (s : State) (st : StackerNo) (r : Stacker) :
    (s.setStacker st r).queue = s.queue := rfl
@[simp] theorem State.setStacker_nextSeq (s : State) (st : StackerNo) (r : Stacker) :
    (s.setStacker st r).nextSeq = s.nextSeq := rfl
@[simp] theorem State.setStacker_lineHeld (s : State) (st : StackerNo) (r : Stacker) :
    (s.setStacker st r).lineHeld = s.lineHeld := rfl
@[simp] theorem State.setStacker_shadow (s : State) (st : StackerNo) (r : Stacker) :
    (s.setStacker st r).shadow = s.shadow := rfl
@[simp] theorem State.setStacker_binMap (s : State) (st : StackerNo) (r : Stacker) :
    (s.setStacker st r).binMap = s.binMap := rfl
@[simp] theorem State.setStacker_nextPack (s : State) (st : StackerNo) (r : Stacker) :
    (s.setStacker st r).nextPack = s.nextPack := rfl
@[simp] theorem State.setStacker_labels (s : State) (st : StackerNo) (r : Stacker) :
    (s.setStacker st r).labels = s.labels := rfl
@[simp] theorem State.setStacker_serial (s : State) (st : StackerNo) (r : Stacker) :
    (s.setStacker st r).serial = s.serial := rfl
@[simp] theorem State.setStacker_choices (s : State) (st : StackerNo) (r : Stacker) :
    (s.setStacker st r).choices = s.choices := rfl
@[simp] theorem State.setStacker_pending (s : State) (st : StackerNo) (r : Stacker) :
    (s.setStacker st r).pending = s.pending := rfl

/-! ### modifyLot -/

@[simp] theorem State.modifyLot_condition (s : State) (n : Nat) (f : LotRecord → LotRecord) :
    (s.modifyLot n f).condition = s.condition := rfl
@[simp] theorem State.modifyLot_resetLine (s : State) (n : Nat) (f : LotRecord → LotRecord) :
    (s.modifyLot n f).resetLine = s.resetLine := rfl
@[simp] theorem State.modifyLot_millStopLine (s : State) (n : Nat) (f : LotRecord → LotRecord) :
    (s.modifyLot n f).millStopLine = s.millStopLine := rfl
@[simp] theorem State.modifyLot_lineRate (s : State) (n : Nat) (f : LotRecord → LotRecord) :
    (s.modifyLot n f).lineRate = s.lineRate := rfl
@[simp] theorem State.modifyLot_completionMarker (s : State) (n : Nat) (f : LotRecord → LotRecord) :
    (s.modifyLot n f).completionMarker = s.completionMarker := rfl
@[simp] theorem State.modifyLot_startUpKind (s : State) (n : Nat) (f : LotRecord → LotRecord) :
    (s.modifyLot n f).startUpKind = s.startUpKind := rfl
@[simp] theorem State.modifyLot_officePort (s : State) (n : Nat) (f : LotRecord → LotRecord) :
    (s.modifyLot n f).officePort = s.officePort := rfl
@[simp] theorem State.modifyLot_kilnHousePort (s : State) (n : Nat) (f : LotRecord → LotRecord) :
    (s.modifyLot n f).kilnHousePort = s.kilnHousePort := rfl
@[simp] theorem State.modifyLot_planerPort (s : State) (n : Nat) (f : LotRecord → LotRecord) :
    (s.modifyLot n f).planerPort = s.planerPort := rfl
@[simp] theorem State.modifyLot_minute (s : State) (n : Nat) (f : LotRecord → LotRecord) :
    (s.modifyLot n f).minute = s.minute := rfl
@[simp] theorem State.modifyLot_redryFirst (s : State) (n : Nat) (f : LotRecord → LotRecord) :
    (s.modifyLot n f).redryFirst = s.redryFirst := rfl
@[simp] theorem State.modifyLot_redryLast (s : State) (n : Nat) (f : LotRecord → LotRecord) :
    (s.modifyLot n f).redryLast = s.redryLast := rfl
@[simp] theorem State.modifyLot_redryNext (s : State) (n : Nat) (f : LotRecord → LotRecord) :
    (s.modifyLot n f).redryNext = s.redryNext := rfl
@[simp] theorem State.modifyLot_schedules (s : State) (n : Nat) (f : LotRecord → LotRecord) :
    (s.modifyLot n f).schedules = s.schedules := rfl
@[simp] theorem State.modifyLot_species (s : State) (n : Nat) (f : LotRecord → LotRecord) :
    (s.modifyLot n f).species = s.species := rfl
@[simp] theorem State.modifyLot_kilns (s : State) (n : Nat) (f : LotRecord → LotRecord) :
    (s.modifyLot n f).kilns = s.kilns := rfl
@[simp] theorem State.modifyLot_capacity (s : State) (n : Nat) (f : LotRecord → LotRecord) :
    (s.modifyLot n f).capacity = s.capacity := rfl
@[simp] theorem State.modifyLot_masterEnable (s : State) (n : Nat) (f : LotRecord → LotRecord) :
    (s.modifyLot n f).masterEnable = s.masterEnable := rfl
@[simp] theorem State.modifyLot_heat (s : State) (n : Nat) (f : LotRecord → LotRecord) :
    (s.modifyLot n f).heat = s.heat := rfl
@[simp] theorem State.modifyLot_holdPoints (s : State) (n : Nat) (f : LotRecord → LotRecord) :
    (s.modifyLot n f).holdPoints = s.holdPoints := rfl
@[simp] theorem State.modifyLot_queue (s : State) (n : Nat) (f : LotRecord → LotRecord) :
    (s.modifyLot n f).queue = s.queue := rfl
@[simp] theorem State.modifyLot_nextSeq (s : State) (n : Nat) (f : LotRecord → LotRecord) :
    (s.modifyLot n f).nextSeq = s.nextSeq := rfl
@[simp] theorem State.modifyLot_lineHeld (s : State) (n : Nat) (f : LotRecord → LotRecord) :
    (s.modifyLot n f).lineHeld = s.lineHeld := rfl
@[simp] theorem State.modifyLot_shadow (s : State) (n : Nat) (f : LotRecord → LotRecord) :
    (s.modifyLot n f).shadow = s.shadow := rfl
@[simp] theorem State.modifyLot_binMap (s : State) (n : Nat) (f : LotRecord → LotRecord) :
    (s.modifyLot n f).binMap = s.binMap := rfl
@[simp] theorem State.modifyLot_stackers (s : State) (n : Nat) (f : LotRecord → LotRecord) :
    (s.modifyLot n f).stackers = s.stackers := rfl
@[simp] theorem State.modifyLot_nextPack (s : State) (n : Nat) (f : LotRecord → LotRecord) :
    (s.modifyLot n f).nextPack = s.nextPack := rfl
@[simp] theorem State.modifyLot_labels (s : State) (n : Nat) (f : LotRecord → LotRecord) :
    (s.modifyLot n f).labels = s.labels := rfl
@[simp] theorem State.modifyLot_serial (s : State) (n : Nat) (f : LotRecord → LotRecord) :
    (s.modifyLot n f).serial = s.serial := rfl
@[simp] theorem State.modifyLot_choices (s : State) (n : Nat) (f : LotRecord → LotRecord) :
    (s.modifyLot n f).choices = s.choices := rfl
@[simp] theorem State.modifyLot_pending (s : State) (n : Nat) (f : LotRecord → LotRecord) :
    (s.modifyLot n f).pending = s.pending := rfl

/-! ### insertLot -/

@[simp] theorem State.insertLot_condition (s : State) (r : LotRecord) :
    (s.insertLot r).condition = s.condition := rfl
@[simp] theorem State.insertLot_resetLine (s : State) (r : LotRecord) :
    (s.insertLot r).resetLine = s.resetLine := rfl
@[simp] theorem State.insertLot_millStopLine (s : State) (r : LotRecord) :
    (s.insertLot r).millStopLine = s.millStopLine := rfl
@[simp] theorem State.insertLot_lineRate (s : State) (r : LotRecord) :
    (s.insertLot r).lineRate = s.lineRate := rfl
@[simp] theorem State.insertLot_completionMarker (s : State) (r : LotRecord) :
    (s.insertLot r).completionMarker = s.completionMarker := rfl
@[simp] theorem State.insertLot_startUpKind (s : State) (r : LotRecord) :
    (s.insertLot r).startUpKind = s.startUpKind := rfl
@[simp] theorem State.insertLot_officePort (s : State) (r : LotRecord) :
    (s.insertLot r).officePort = s.officePort := rfl
@[simp] theorem State.insertLot_kilnHousePort (s : State) (r : LotRecord) :
    (s.insertLot r).kilnHousePort = s.kilnHousePort := rfl
@[simp] theorem State.insertLot_planerPort (s : State) (r : LotRecord) :
    (s.insertLot r).planerPort = s.planerPort := rfl
@[simp] theorem State.insertLot_minute (s : State) (r : LotRecord) :
    (s.insertLot r).minute = s.minute := rfl
@[simp] theorem State.insertLot_redryFirst (s : State) (r : LotRecord) :
    (s.insertLot r).redryFirst = s.redryFirst := rfl
@[simp] theorem State.insertLot_redryLast (s : State) (r : LotRecord) :
    (s.insertLot r).redryLast = s.redryLast := rfl
@[simp] theorem State.insertLot_redryNext (s : State) (r : LotRecord) :
    (s.insertLot r).redryNext = s.redryNext := rfl
@[simp] theorem State.insertLot_schedules (s : State) (r : LotRecord) :
    (s.insertLot r).schedules = s.schedules := rfl
@[simp] theorem State.insertLot_species (s : State) (r : LotRecord) :
    (s.insertLot r).species = s.species := rfl
@[simp] theorem State.insertLot_kilns (s : State) (r : LotRecord) :
    (s.insertLot r).kilns = s.kilns := rfl
@[simp] theorem State.insertLot_capacity (s : State) (r : LotRecord) :
    (s.insertLot r).capacity = s.capacity := rfl
@[simp] theorem State.insertLot_masterEnable (s : State) (r : LotRecord) :
    (s.insertLot r).masterEnable = s.masterEnable := rfl
@[simp] theorem State.insertLot_heat (s : State) (r : LotRecord) :
    (s.insertLot r).heat = s.heat := rfl
@[simp] theorem State.insertLot_holdPoints (s : State) (r : LotRecord) :
    (s.insertLot r).holdPoints = s.holdPoints := rfl
@[simp] theorem State.insertLot_queue (s : State) (r : LotRecord) :
    (s.insertLot r).queue = s.queue := rfl
@[simp] theorem State.insertLot_nextSeq (s : State) (r : LotRecord) :
    (s.insertLot r).nextSeq = s.nextSeq := rfl
@[simp] theorem State.insertLot_lineHeld (s : State) (r : LotRecord) :
    (s.insertLot r).lineHeld = s.lineHeld := rfl
@[simp] theorem State.insertLot_shadow (s : State) (r : LotRecord) :
    (s.insertLot r).shadow = s.shadow := rfl
@[simp] theorem State.insertLot_binMap (s : State) (r : LotRecord) :
    (s.insertLot r).binMap = s.binMap := rfl
@[simp] theorem State.insertLot_stackers (s : State) (r : LotRecord) :
    (s.insertLot r).stackers = s.stackers := rfl
@[simp] theorem State.insertLot_nextPack (s : State) (r : LotRecord) :
    (s.insertLot r).nextPack = s.nextPack := rfl
@[simp] theorem State.insertLot_labels (s : State) (r : LotRecord) :
    (s.insertLot r).labels = s.labels := rfl
@[simp] theorem State.insertLot_serial (s : State) (r : LotRecord) :
    (s.insertLot r).serial = s.serial := rfl
@[simp] theorem State.insertLot_choices (s : State) (r : LotRecord) :
    (s.insertLot r).choices = s.choices := rfl
@[simp] theorem State.insertLot_pending (s : State) (r : LotRecord) :
    (s.insertLot r).pending = s.pending := rfl

/-! ### removeLot -/

@[simp] theorem State.removeLot_condition (s : State) (n : Nat) :
    (s.removeLot n).condition = s.condition := rfl
@[simp] theorem State.removeLot_resetLine (s : State) (n : Nat) :
    (s.removeLot n).resetLine = s.resetLine := rfl
@[simp] theorem State.removeLot_millStopLine (s : State) (n : Nat) :
    (s.removeLot n).millStopLine = s.millStopLine := rfl
@[simp] theorem State.removeLot_lineRate (s : State) (n : Nat) :
    (s.removeLot n).lineRate = s.lineRate := rfl
@[simp] theorem State.removeLot_completionMarker (s : State) (n : Nat) :
    (s.removeLot n).completionMarker = s.completionMarker := rfl
@[simp] theorem State.removeLot_startUpKind (s : State) (n : Nat) :
    (s.removeLot n).startUpKind = s.startUpKind := rfl
@[simp] theorem State.removeLot_officePort (s : State) (n : Nat) :
    (s.removeLot n).officePort = s.officePort := rfl
@[simp] theorem State.removeLot_kilnHousePort (s : State) (n : Nat) :
    (s.removeLot n).kilnHousePort = s.kilnHousePort := rfl
@[simp] theorem State.removeLot_planerPort (s : State) (n : Nat) :
    (s.removeLot n).planerPort = s.planerPort := rfl
@[simp] theorem State.removeLot_minute (s : State) (n : Nat) :
    (s.removeLot n).minute = s.minute := rfl
@[simp] theorem State.removeLot_redryFirst (s : State) (n : Nat) :
    (s.removeLot n).redryFirst = s.redryFirst := rfl
@[simp] theorem State.removeLot_redryLast (s : State) (n : Nat) :
    (s.removeLot n).redryLast = s.redryLast := rfl
@[simp] theorem State.removeLot_redryNext (s : State) (n : Nat) :
    (s.removeLot n).redryNext = s.redryNext := rfl
@[simp] theorem State.removeLot_schedules (s : State) (n : Nat) :
    (s.removeLot n).schedules = s.schedules := rfl
@[simp] theorem State.removeLot_species (s : State) (n : Nat) :
    (s.removeLot n).species = s.species := rfl
@[simp] theorem State.removeLot_kilns (s : State) (n : Nat) :
    (s.removeLot n).kilns = s.kilns := rfl
@[simp] theorem State.removeLot_capacity (s : State) (n : Nat) :
    (s.removeLot n).capacity = s.capacity := rfl
@[simp] theorem State.removeLot_masterEnable (s : State) (n : Nat) :
    (s.removeLot n).masterEnable = s.masterEnable := rfl
@[simp] theorem State.removeLot_heat (s : State) (n : Nat) :
    (s.removeLot n).heat = s.heat := rfl
@[simp] theorem State.removeLot_holdPoints (s : State) (n : Nat) :
    (s.removeLot n).holdPoints = s.holdPoints := rfl
@[simp] theorem State.removeLot_queue (s : State) (n : Nat) :
    (s.removeLot n).queue = s.queue := rfl
@[simp] theorem State.removeLot_nextSeq (s : State) (n : Nat) :
    (s.removeLot n).nextSeq = s.nextSeq := rfl
@[simp] theorem State.removeLot_lineHeld (s : State) (n : Nat) :
    (s.removeLot n).lineHeld = s.lineHeld := rfl
@[simp] theorem State.removeLot_shadow (s : State) (n : Nat) :
    (s.removeLot n).shadow = s.shadow := rfl
@[simp] theorem State.removeLot_binMap (s : State) (n : Nat) :
    (s.removeLot n).binMap = s.binMap := rfl
@[simp] theorem State.removeLot_stackers (s : State) (n : Nat) :
    (s.removeLot n).stackers = s.stackers := rfl
@[simp] theorem State.removeLot_nextPack (s : State) (n : Nat) :
    (s.removeLot n).nextPack = s.nextPack := rfl
@[simp] theorem State.removeLot_labels (s : State) (n : Nat) :
    (s.removeLot n).labels = s.labels := rfl
@[simp] theorem State.removeLot_serial (s : State) (n : Nat) :
    (s.removeLot n).serial = s.serial := rfl
@[simp] theorem State.removeLot_choices (s : State) (n : Nat) :
    (s.removeLot n).choices = s.choices := rfl
@[simp] theorem State.removeLot_pending (s : State) (n : Nat) :
    (s.removeLot n).pending = s.pending := rfl

end Sys2Proof.Machine
end

