-- ==== Sys2Proof/Laws/Readers.lean ====
section
/-! SUPPORT. What the readers of the state (ports, kilns, heat records, hold points, stackers, lots, schedules) give after an
update of another place. -/

namespace Sys2Proof.Machine
@[simp] theorem State.kiln_setPort (s : State) (l : Link) (p : LinkPort) (j : KilnNo) :
    (s.setPort l p).kiln j = s.kiln j := by
  cases l <;> rfl
@[simp] theorem State.heatOf_setPort (s : State) (l : Link) (p : LinkPort) (j : KilnNo) :
    (s.setPort l p).heatOf j = s.heatOf j := by
  cases l <;> rfl
@[simp] theorem State.holdPoint_setPort (s : State) (l : Link) (p : LinkPort) (j : HoldPointNo) :
    (s.setPort l p).holdPoint j = s.holdPoint j := by
  cases l <;> rfl
@[simp] theorem State.stacker_setPort (s : State) (l : Link) (p : LinkPort) (j : StackerNo) :
    (s.setPort l p).stacker j = s.stacker j := by
  cases l <;> rfl
@[simp] theorem State.findLot_setPort (s : State) (l : Link) (p : LinkPort) (m : Nat) :
    (s.setPort l p).findLot m = s.findLot m := by
  cases l <;> rfl
@[simp] theorem State.findSchedule_setPort (s : State) (l : Link) (p : LinkPort) (m : Nat) :
    (s.setPort l p).findSchedule m = s.findSchedule m := by
  cases l <;> rfl

@[simp] theorem State.kiln_setReceiver (s : State) (l : Link) (r : Receiver) (j : KilnNo) :
    (s.setReceiver l r).kiln j = s.kiln j := by
  cases l <;> rfl
@[simp] theorem State.heatOf_setReceiver (s : State) (l : Link) (r : Receiver) (j : KilnNo) :
    (s.setReceiver l r).heatOf j = s.heatOf j := by
  cases l <;> rfl
@[simp] theorem State.holdPoint_setReceiver (s : State) (l : Link) (r : Receiver) (j : HoldPointNo) :
    (s.setReceiver l r).holdPoint j = s.holdPoint j := by
  cases l <;> rfl
@[simp] theorem State.stacker_setReceiver (s : State) (l : Link) (r : Receiver) (j : StackerNo) :
    (s.setReceiver l r).stacker j = s.stacker j := by
  cases l <;> rfl
@[simp] theorem State.findLot_setReceiver (s : State) (l : Link) (r : Receiver) (m : Nat) :
    (s.setReceiver l r).findLot m = s.findLot m := by
  cases l <;> rfl
@[simp] theorem State.findSchedule_setReceiver (s : State) (l : Link) (r : Receiver) (m : Nat) :
    (s.setReceiver l r).findSchedule m = s.findSchedule m := by
  cases l <;> rfl

@[simp] theorem State.kiln_raise (s : State) (c : AttnClass) (j : KilnNo) :
    (s.raise c).kiln j = s.kiln j := by
  cases c <;> rfl
@[simp] theorem State.heatOf_raise (s : State) (c : AttnClass) (j : KilnNo) :
    (s.raise c).heatOf j = s.heatOf j := by
  cases c <;> rfl
@[simp] theorem State.holdPoint_raise (s : State) (c : AttnClass) (j : HoldPointNo) :
    (s.raise c).holdPoint j = s.holdPoint j := by
  cases c <;> rfl
@[simp] theorem State.stacker_raise (s : State) (c : AttnClass) (j : StackerNo) :
    (s.raise c).stacker j = s.stacker j := by
  cases c <;> rfl
@[simp] theorem State.findLot_raise (s : State) (c : AttnClass) (m : Nat) :
    (s.raise c).findLot m = s.findLot m := by
  cases c <;> rfl
@[simp] theorem State.findSchedule_raise (s : State) (c : AttnClass) (m : Nat) :
    (s.raise c).findSchedule m = s.findSchedule m := by
  cases c <;> rfl

@[simp] theorem State.kiln_raiseLotHeld (s : State) (j : KilnNo) :
    (s.raiseLotHeld).kiln j = s.kiln j := rfl
@[simp] theorem State.heatOf_raiseLotHeld (s : State) (j : KilnNo) :
    (s.raiseLotHeld).heatOf j = s.heatOf j := rfl
@[simp] theorem State.holdPoint_raiseLotHeld (s : State) (j : HoldPointNo) :
    (s.raiseLotHeld).holdPoint j = s.holdPoint j := rfl
@[simp] theorem State.stacker_raiseLotHeld (s : State) (j : StackerNo) :
    (s.raiseLotHeld).stacker j = s.stacker j := rfl
@[simp] theorem State.findLot_raiseLotHeld (s : State) (m : Nat) :
    (s.raiseLotHeld).findLot m = s.findLot m := rfl
@[simp] theorem State.findSchedule_raiseLotHeld (s : State) (m : Nat) :
    (s.raiseLotHeld).findSchedule m = s.findSchedule m := rfl

@[simp] theorem State.kiln_answer (s : State) (kind : Nat) (f : Request) (r : Reply) (j : KilnNo) :
    (s.answer kind f r).kiln j = s.kiln j := by
  obtain ⟨l, _, _⟩ := f; cases l <;> rfl
@[simp] theorem State.heatOf_answer (s : State) (kind : Nat) (f : Request) (r : Reply) (j : KilnNo) :
    (s.answer kind f r).heatOf j = s.heatOf j := by
  obtain ⟨l, _, _⟩ := f; cases l <;> rfl
@[simp] theorem State.holdPoint_answer (s : State) (kind : Nat) (f : Request) (r : Reply) (j : HoldPointNo) :
    (s.answer kind f r).holdPoint j = s.holdPoint j := by
  obtain ⟨l, _, _⟩ := f; cases l <;> rfl
@[simp] theorem State.stacker_answer (s : State) (kind : Nat) (f : Request) (r : Reply) (j : StackerNo) :
    (s.answer kind f r).stacker j = s.stacker j := by
  obtain ⟨l, _, _⟩ := f; cases l <;> rfl
@[simp] theorem State.findLot_answer (s : State) (kind : Nat) (f : Request) (r : Reply) (m : Nat) :
    (s.answer kind f r).findLot m = s.findLot m := by
  obtain ⟨l, _, _⟩ := f; cases l <;> rfl
@[simp] theorem State.findSchedule_answer (s : State) (kind : Nat) (f : Request) (r : Reply) (m : Nat) :
    (s.answer kind f r).findSchedule m = s.findSchedule m := by
  obtain ⟨l, _, _⟩ := f; cases l <;> rfl

@[simp] theorem State.port_setKiln (s : State) (k : KilnNo) (c : KilnContext) (m : Link) :
    (s.setKiln k c).port m = s.port m := rfl
@[simp] theorem State.heatOf_setKiln (s : State) (k : KilnNo) (c : KilnContext) (j : KilnNo) :
    (s.setKiln k c).heatOf j = s.heatOf j := rfl
@[simp] theorem State.holdPoint_setKiln (s : State) (k : KilnNo) (c : KilnContext) (j : HoldPointNo) :
    (s.setKiln k c).holdPoint j = s.holdPoint j := rfl
@[simp] theorem State.stacker_setKiln (s : State) (k : KilnNo) (c : KilnContext) (j : StackerNo) :
    (s.setKiln k c).stacker j = s.stacker j := rfl
@[simp] theorem State.findLot_setKiln (s : State) (k : KilnNo) (c : KilnContext) (m : Nat) :
    (s.setKiln k c).findLot m = s.findLot m := rfl
@[simp] theorem State.findSchedule_setKiln (s : State) (k : KilnNo) (c : KilnContext) (m : Nat) :
    (s.setKiln k c).findSchedule m = s.findSchedule m := rfl

@[simp] theorem State.port_setHeat (s : State) (k : KilnNo) (h : HeatRecord) (m : Link) :
    (s.setHeat k h).port m = s.port m := rfl
@[simp] theorem State.kiln_setHeat (s : State) (k : KilnNo) (h : HeatRecord) (j : KilnNo) :
    (s.setHeat k h).kiln j = s.kiln j := rfl
@[simp] theorem State.holdPoint_setHeat (s : State) (k : KilnNo) (h : HeatRecord) (j : HoldPointNo) :
    (s.setHeat k h).holdPoint j = s.holdPoint j := rfl
@[simp] theorem State.stacker_setHeat (s : State) (k : KilnNo) (h : HeatRecord) (j : StackerNo) :
    (s.setHeat k h).stacker j = s.stacker j := rfl
@[simp] theorem State.findLot_setHeat (s : State) (k : KilnNo) (h : HeatRecord) (m : Nat) :
    (s.setHeat k h).findLot m = s.findLot m := rfl
@[simp] theorem State.findSchedule_setHeat (s : State) (k : KilnNo) (h : HeatRecord) (m : Nat) :
    (s.setHeat k h).findSchedule m = s.findSchedule m := rfl

@[simp] theorem State.port_setHoldPoint (s : State) (h : HoldPointNo) (p : HoldPoint) (m : Link) :
    (s.setHoldPoint h p).port m = s.port m := rfl
@[simp] theorem State.kiln_setHoldPoint (s : State) (h : HoldPointNo) (p : HoldPoint) (j : KilnNo) :
    (s.setHoldPoint h p).kiln j = s.kiln j := rfl
@[simp] theorem State.heatOf_setHoldPoint (s : State) (h : HoldPointNo) (p : HoldPoint) (j : KilnNo) :
    (s.setHoldPoint h p).heatOf j = s.heatOf j := rfl
@[simp] theorem State.stacker_setHoldPoint (s : State) (h : HoldPointNo) (p : HoldPoint) (j : StackerNo) :
    (s.setHoldPoint h p).stacker j = s.stacker j := rfl
@[simp] theorem State.findLot_setHoldPoint (s : State) (h : HoldPointNo) (p : HoldPoint) (m : Nat) :
    (s.setHoldPoint h p).findLot m = s.findLot m := rfl
@[simp] theorem State.findSchedule_setHoldPoint (s : State) (h : HoldPointNo) (p : HoldPoint) (m : Nat) :
    (s.setHoldPoint h p).findSchedule m = s.findSchedule m := rfl

@[simp] theorem State.port_setStacker (s : State) (st : StackerNo) (r : Stacker) (m : Link) :
    (s.setStacker st r).port m = s.port m := rfl
@[simp] theorem State.kiln_setStacker (s : State) (st : StackerNo) (r : Stacker) (j : KilnNo) :
    (s.setStacker st r).kiln j = s.kiln j := rfl
@[simp] theorem State.heatOf_setStacker (s : State) (st : StackerNo) (r : Stacker) (j : KilnNo) :
    (s.setStacker st r).heatOf j = s.heatOf j := rfl
@[simp] theorem State.holdPoint_setStacker (s : State) (st : StackerNo) (r : Stacker) (j : HoldPointNo) :
    (s.setStacker st r).holdPoint j = s.holdPoint j := rfl
@[simp] theorem State.findLot_setStacker (s : State) (st : StackerNo) (r : Stacker) (m : Nat) :
    (s.setStacker st r).findLot m = s.findLot m := rfl
@[simp] theorem State.findSchedule_setStacker (s : State) (st : StackerNo) (r : Stacker) (m : Nat) :
    (s.setStacker st r).findSchedule m = s.findSchedule m := rfl

@[simp] theorem State.port_modifyLot (s : State) (n : Nat) (f : LotRecord → LotRecord) (m : Link) :
    (s.modifyLot n f).port m = s.port m := rfl
@[simp] theorem State.kiln_modifyLot (s : State) (n : Nat) (f : LotRecord → LotRecord) (j : KilnNo) :
    (s.modifyLot n f).kiln j = s.kiln j := rfl
@[simp] theorem State.heatOf_modifyLot (s : State) (n : Nat) (f : LotRecord → LotRecord) (j : KilnNo) :
    (s.modifyLot n f).heatOf j = s.heatOf j := rfl
@[simp] theorem State.holdPoint_modifyLot (s : State) (n : Nat) (f : LotRecord → LotRecord) (j : HoldPointNo) :
    (s.modifyLot n f).holdPoint j = s.holdPoint j := rfl
@[simp] theorem State.stacker_modifyLot (s : State) (n : Nat) (f : LotRecord → LotRecord) (j : StackerNo) :
    (s.modifyLot n f).stacker j = s.stacker j := rfl
@[simp] theorem State.findSchedule_modifyLot (s : State) (n : Nat) (f : LotRecord → LotRecord) (m : Nat) :
    (s.modifyLot n f).findSchedule m = s.findSchedule m := rfl

@[simp] theorem State.port_insertLot (s : State) (r : LotRecord) (m : Link) :
    (s.insertLot r).port m = s.port m := rfl
@[simp] theorem State.kiln_insertLot (s : State) (r : LotRecord) (j : KilnNo) :
    (s.insertLot r).kiln j = s.kiln j := rfl
@[simp] theorem State.heatOf_insertLot (s : State) (r : LotRecord) (j : KilnNo) :
    (s.insertLot r).heatOf j = s.heatOf j := rfl
@[simp] theorem State.holdPoint_insertLot (s : State) (r : LotRecord) (j : HoldPointNo) :
    (s.insertLot r).holdPoint j = s.holdPoint j := rfl
@[simp] theorem State.stacker_insertLot (s : State) (r : LotRecord) (j : StackerNo) :
    (s.insertLot r).stacker j = s.stacker j := rfl
@[simp] theorem State.findSchedule_insertLot (s : State) (r : LotRecord) (m : Nat) :
    (s.insertLot r).findSchedule m = s.findSchedule m := rfl

@[simp] theorem State.port_removeLot (s : State) (n : Nat) (m : Link) :
    (s.removeLot n).port m = s.port m := rfl
@[simp] theorem State.kiln_removeLot (s : State) (n : Nat) (j : KilnNo) :
    (s.removeLot n).kiln j = s.kiln j := rfl
@[simp] theorem State.heatOf_removeLot (s : State) (n : Nat) (j : KilnNo) :
    (s.removeLot n).heatOf j = s.heatOf j := rfl
@[simp] theorem State.holdPoint_removeLot (s : State) (n : Nat) (j : HoldPointNo) :
    (s.removeLot n).holdPoint j = s.holdPoint j := rfl
@[simp] theorem State.stacker_removeLot (s : State) (n : Nat) (j : StackerNo) :
    (s.removeLot n).stacker j = s.stacker j := rfl
@[simp] theorem State.findSchedule_removeLot (s : State) (n : Nat) (m : Nat) :
    (s.removeLot n).findSchedule m = s.findSchedule m := rfl

end Sys2Proof.Machine
end

