-- ==== Sys2Proof/Laws/Ports.lean ====
section
/-! SUPPORT. Attention (11, R184): what raising classes can do to the ports, and that the pending set keeps clear of the mask. -/

namespace Sys2Proof.Machine

/-- A port after some classes were raised on it: receiver and mask stay, and unmasked classes joined the pending set. -/
def PortRaised (p q : LinkPort) : Prop :=
  q.receiver = p.receiver ∧ q.mask = p.mask ∧ ∃ c : ClassSet, q.pending = p.pending ||| (c &&& ~~~p.mask)

/-- Every port after some classes were raised. -/
def PortsRaised (s t : State) : Prop := ∀ l, PortRaised (s.port l) (t.port l)

theorem PortRaised.refl (p : LinkPort) : PortRaised p p := ⟨rfl, rfl, 0, by simp⟩

theorem PortRaised.trans {p q r : LinkPort} (h : PortRaised p q) (g : PortRaised q r) : PortRaised p r := by
  obtain ⟨hr, hm, c, hc⟩ := h
  obtain ⟨gr, gm, d, gd⟩ := g
  refine ⟨gr.trans hr, gm.trans hm, c ||| d, ?_⟩
  rw [gd, hc, hm]
  ext i
  simp [Bool.or_assoc, Bool.and_or_distrib_right]

theorem PortsRaised.refl (s : State) : PortsRaised s s := fun _ => .refl _

theorem PortsRaised.trans {s t u : State} (h : PortsRaised s t) (g : PortsRaised t u) : PortsRaised s u :=
  fun l => (h l).trans (g l)

/-- Ports that are the same have had nothing raised. -/
theorem PortsRaised.of_ports {s t : State} (h : ∀ l, t.port l = s.port l) : PortsRaised s t := fun l => h l ▸ .refl _

theorem raise_ports (s : State) (c : AttnClass) : PortsRaised s (s.raise c) := by
  intro l
  by_cases h : l = c.link
  · subst h
    exact ⟨by simp [State.raise], by simp [State.raise], c.set, by simp [State.raise]⟩
  · simp only [State.raise, State.port_setPort_other _ _ h]
    exact .refl _

/-- Raising keeps the pending sets clear of the masks. -/
theorem PortsRaised.sound {s t : State} (h : PortsRaised s t) (hs : AttentionSound s) : AttentionSound t := by
  intro l
  obtain ⟨-, hm, c, hc⟩ := h l
  have := hs l
  rw [hm, hc]
  ext i
  have hi := congrArg (fun b => b[i]) this
  simp only [BitVec.getElem_and, BitVec.ofNat_eq_ofNat, BitVec.getElem_zero] at hi
  simp only [BitVec.getElem_and, BitVec.getElem_or, BitVec.getElem_not, BitVec.ofNat_eq_ofNat, BitVec.getElem_zero,
    Bool.and_or_distrib_right, hi, Bool.and_assoc, Bool.not_and_self, Bool.and_false, Bool.or_false]

/-- Whether a class is pending on its link. -/
def State.isPending (s : State) (c : AttnClass) : Bool := (s.port c.link).pending &&& c.set != 0

/-- A raised class is pending unless it is masked. -/
theorem raise_pending (s : State) (c : AttnClass) (h : (s.port c.link).mask &&& c.set = 0) :
    (s.raise c).isPending c = true := by
  have key : ((s.port c.link).pending ||| (c.set &&& ~~~(s.port c.link).mask)) &&& c.set = c.set := by
    ext i
    have hi := congrArg (fun b => b[i]) h
    simp only [BitVec.getElem_and] at hi
    simp only [BitVec.getElem_and, BitVec.getElem_or, BitVec.getElem_not]
    cases h1 : c.set[i] <;> simp_all
  have ne : (c.set != 0) = true := by cases c <;> decide
  simpa only [State.isPending, State.raise, State.port_setPort_same, key] using ne

/-- A part that is held or without supply sends nothing (11, R187, R188). -/
theorem State.levelsSent_of_not_running {s : State} (l : Link) (h : s.condition ≠ .running) : s.levelsSent l = [] := by
  unfold State.levelsSent
  split
  · exact absurd ‹_› h
  · rfl

end Sys2Proof.Machine
end

