-- ==== Sys2Proof/Laws/KilnSide.lean ====
section
/-! SUPPORT. What the operations of the kiln contexts, the arbiter and the hold points can do: they change kilns, heat records,
hold points, the capacity, the master enable and the mill-stop line, raise classes, and leave everything else. -/

namespace Sys2Proof.Machine

/-- `t` is `s` but for the kiln house's own records and for classes raised. -/
structure OnlyKilns (s t : State) : Prop where
  rest : t = { s with
    officePort := t.officePort, kilnHousePort := t.kilnHousePort, planerPort := t.planerPort, kilns := t.kilns,
    heat := t.heat, holdPoints := t.holdPoints, capacity := t.capacity, masterEnable := t.masterEnable,
    millStopLine := t.millStopLine }
  ports : PortsRaised s t

theorem OnlyKilns.refl (s : State) : OnlyKilns s s := ⟨rfl, .refl s⟩

theorem OnlyKilns.trans {s t u : State} (h : OnlyKilns s t) (g : OnlyKilns t u) : OnlyKilns s u := by
  refine ⟨?_, h.ports.trans g.ports⟩
  have h1 := h.rest
  have h2 := g.rest
  generalize ht : t = t' at *
  cases u
  cases t'
  simp only [State.mk.injEq] at h1 h2 ⊢
  simp_all

/-- An update of a kiln record alone. -/
theorem onlyKilns_setKiln (s : State) (k : KilnNo) (c : KilnContext) : OnlyKilns s (s.setKiln k c) :=
  ⟨rfl, .of_ports fun l => by simp⟩

theorem onlyKilns_setHeat (s : State) (k : KilnNo) (h : HeatRecord) : OnlyKilns s (s.setHeat k h) :=
  ⟨rfl, .of_ports fun l => by simp⟩

theorem onlyKilns_setHoldPoint (s : State) (h : HoldPointNo) (p : HoldPoint) : OnlyKilns s (s.setHoldPoint h p) :=
  ⟨rfl, .of_ports fun l => by simp⟩

theorem onlyKilns_raise (s : State) (c : AttnClass) : OnlyKilns s (s.raise c) :=
  ⟨by cases c <;> rfl, raise_ports s c⟩

/-- A fold of operations of the kiln house is one. -/
theorem onlyKilns_foldl {α : Type} (f : State → α → State) (hf : ∀ s a, OnlyKilns s (f s a)) (l : List α) :
    ∀ s, OnlyKilns s (l.foldl f s) := by
  induction l with
  | nil => exact fun s => .refl s
  | cons a l ih => exact fun s => (hf s a).trans (ih (f s a))

theorem onlyKilns_noteSetpoints {s t : State} (h : OnlyKilns s t) (b : State) : OnlyKilns s (t.noteSetpoints b) := by
  unfold State.noteSetpoints
  split
  · exact h.trans (onlyKilns_raise t _)
  · exact h

theorem onlyKilns_noteResumed {s t : State} (h : OnlyKilns s t) (b : State) : OnlyKilns s (t.noteResumed b) := by
  unfold State.noteResumed
  split
  · exact (onlyKilns_noteSetpoints h b).trans (onlyKilns_raise ..)
  · exact onlyKilns_noteSetpoints h b

theorem onlyKilns_setPhase (s : State) (k : KilnNo) (p : Phase) : OnlyKilns s (s.setPhase k p) := by
  unfold State.setPhase
  split
  · exact onlyKilns_setKiln ..
  · exact .refl s

/-! ### Hold points -/

theorem onlyKilns_holdKiln (s : State) (k : KilnNo) : OnlyKilns s (s.holdKiln k) := by
  unfold State.holdKiln
  split
  · exact onlyKilns_noteSetpoints (onlyKilns_setKiln ..) s
  · exact .refl s

theorem onlyKilns_takeMatches (s : State) (k : KilnNo) (l : List HoldPointNo) : OnlyKilns s (s.takeMatches k l) := by
  unfold State.takeMatches
  split
  · exact .refl s
  · exact ((onlyKilns_foldl _ (fun s h => onlyKilns_setHoldPoint ..) _ s).trans (onlyKilns_holdKiln ..)).trans
      (onlyKilns_raise ..)

theorem onlyKilns_clearHits (s : State) (k : KilnNo) : OnlyKilns s (s.clearHits k) :=
  onlyKilns_foldl _ (fun _ _ => onlyKilns_setHoldPoint ..) _ s

/-! ### The arbiter -/

theorem onlyKilns_grantKiln (s : State) (k : KilnNo) (d : Nat) : OnlyKilns s (s.grantKiln k d) :=
  onlyKilns_noteSetpoints ((onlyKilns_setHeat ..).trans (onlyKilns_setPhase ..)) s

theorem onlyKilns_passOver (ks : List KilnNo) : ∀ s : State, OnlyKilns s (s.passOver ks).1 := by
  induction ks with
  | nil => exact fun s => .refl s
  | cons k ks ih =>
    intro s
    simp only [State.passOver]
    split
    · split
      · exact (onlyKilns_grantKiln ..).trans (ih _)
      · split
        · exact .refl s
        · exact ih s
    · exact ih s
    · exact ih s

theorem onlyKilns_pass (s : State) : OnlyKilns s s.pass.1 := by
  unfold State.pass
  split
  · exact onlyKilns_passOver ..
  · exact .refl s

theorem onlyKilns_waitUnlessGranted (s : State) (k : KilnNo) : OnlyKilns s (s.waitUnlessGranted k) := by
  unfold State.waitUnlessGranted
  split
  · exact (onlyKilns_noteSetpoints (onlyKilns_setPhase ..) s).trans (onlyKilns_raise ..)
  · exact .refl s

theorem onlyKilns_handDemand (s : State) (k : KilnNo) (d : Nat) : OnlyKilns s (s.handDemand k d).1 := by
  have cover : OnlyKilns s (((s.setHeat k ⟨d, .absent⟩).setPhase k .active).noteSetpoints s) :=
    onlyKilns_noteSetpoints ((onlyKilns_setHeat ..).trans (onlyKilns_setPhase ..)) s
  simp only [State.handDemand]
  split
  · split
    · exact cover.trans (onlyKilns_pass _)
    · exact cover
  · split
    · exact ((onlyKilns_setHeat ..).trans (onlyKilns_pass _)).trans (onlyKilns_waitUnlessGranted ..)
    · exact onlyKilns_noteSetpoints ((onlyKilns_setHeat ..).trans (onlyKilns_setPhase ..)) s

theorem onlyKilns_releaseHeat (s : State) (k : KilnNo) : OnlyKilns s (s.releaseHeat k).1 := by
  simp only [State.releaseHeat]
  split
  · exact (onlyKilns_setHeat ..).trans (onlyKilns_pass _)
  · exact onlyKilns_setHeat ..

/-! ### Steps

`settles` is what the evaluations after a pass have to keep. -/

section
variable {settles : List KilnNo → State → State} (hs : ∀ l s, OnlyKilns s (settles l s))
include hs

theorem onlyKilns_enterStep (s : State) (k : KilnNo) (i : Nat) : OnlyKilns s (s.enterStep settles k i) :=
  ((((onlyKilns_setKiln ..).trans (onlyKilns_takeMatches ..)).trans (onlyKilns_handDemand ..)).trans
    (onlyKilns_raise ..)).trans (hs ..)

theorem onlyKilns_finishKiln (s : State) (k : KilnNo) : OnlyKilns s (s.finishKiln settles k) :=
  ((((onlyKilns_setKiln ..).trans (onlyKilns_releaseHeat ..)).trans (onlyKilns_raise ..)).trans
    (onlyKilns_raise ..)).trans (hs ..)

theorem onlyKilns_endStep (s : State) (k : KilnNo) (c : EndCause) : OnlyKilns s (s.endStep settles k c) := by
  simp only [State.endStep]
  split
  · exact (onlyKilns_setKiln ..).trans (onlyKilns_enterStep hs ..)
  · exact (onlyKilns_setKiln ..).trans (onlyKilns_finishKiln hs ..)

theorem onlyKilns_evaluate (s : State) (k : KilnNo) : OnlyKilns s (s.evaluate settles k) := by
  unfold State.evaluate
  split
  · split
    · exact .refl s
    · split
      · exact onlyKilns_endStep hs ..
      · split
        · exact (onlyKilns_raise ..).trans (onlyKilns_endStep hs ..)
        · exact .refl s
  · exact .refl s

end

theorem onlyKilns_evaluateAll (n : Nat) : ∀ ks s, OnlyKilns s (evaluateAll n ks s) := by
  induction n with
  | zero => exact fun _ s => .refl s
  | succ n ih => exact fun ks s => onlyKilns_foldl _ (fun s k => onlyKilns_evaluate ih s k) ks s

theorem onlyKilns_settle (ks : List KilnNo) (s : State) : OnlyKilns s (settle ks s) := onlyKilns_evaluateAll _ ks s

theorem onlyKilns_evaluateNow (s : State) (k : KilnNo) : OnlyKilns s (s.evaluateNow k) :=
  onlyKilns_evaluate onlyKilns_settle s k

theorem onlyKilns_passAndSettle (s : State) : OnlyKilns s s.passAndSettle :=
  (onlyKilns_pass s).trans (onlyKilns_settle ..)

/-! ### Capacity, mill stop and resumption -/

theorem onlyKilns_revokeKiln (s : State) (k : KilnNo) : OnlyKilns s (s.revokeKiln k) := by
  unfold State.revokeKiln
  refine (onlyKilns_noteSetpoints ?_ s).trans (onlyKilns_raise ..)
  split
  · exact ((onlyKilns_setHeat ..).trans (onlyKilns_setPhase ..)).trans (onlyKilns_raise ..)
  · exact onlyKilns_setHeat ..
  · exact onlyKilns_setHeat ..

theorem onlyKilns_revokeOver (ks : List KilnNo) : ∀ s : State, OnlyKilns s (s.revokeOver ks).1 := by
  induction ks with
  | nil => exact fun s => .refl s
  | cons k ks ih =>
    intro s
    simp only [State.revokeOver]
    split
    · exact .refl s
    · split
      · exact ih s
      · exact (onlyKilns_revokeKiln ..).trans (ih _)

theorem onlyKilns_setCapacity (s : State) (n : Nat) : OnlyKilns s (s.setCapacity n).1 := by
  have replace : OnlyKilns s { s with capacity := n } := ⟨rfl, .of_ports fun l => by cases l <;> rfl⟩
  simp only [State.setCapacity]
  split
  · exact .refl s
  · split
    · exact replace.trans (onlyKilns_passAndSettle _)
    · split
      · exact replace
      · exact (replace.trans (onlyKilns_revokeOver ..)).trans (onlyKilns_passAndSettle _)

theorem onlyKilns_dropHeat (s : State) (k : KilnNo) : OnlyKilns s (s.dropHeat k) :=
  (onlyKilns_setHeat ..).trans (onlyKilns_setPhase ..)

theorem onlyKilns_stopMill (s : State) : OnlyKilns s s.stopMill := by
  have start : OnlyKilns s { s with millStopLine := true, masterEnable := false } :=
    ⟨rfl, .of_ports fun l => by cases l <;> rfl⟩
  have dropped := start.trans (onlyKilns_foldl State.dropHeat onlyKilns_dropHeat allKilns _)
  unfold State.stopMill
  generalize allKilns.foldl State.dropHeat _ = t at dropped ⊢
  exact ((onlyKilns_noteSetpoints dropped s).trans (onlyKilns_raise ..)).trans (onlyKilns_raise ..)

theorem onlyKilns_submitRequest (s : State) (k : KilnNo) : OnlyKilns s (s.submitRequest k) := by
  unfold State.submitRequest
  split
  · exact (onlyKilns_setHeat ..).trans (onlyKilns_setPhase ..)
  · split
    · exact onlyKilns_setHeat ..
    · exact .refl s
    · exact .refl s

theorem onlyKilns_resume (s : State) : OnlyKilns s s.resume := by
  have start : OnlyKilns s { s with masterEnable := true } := ⟨rfl, .of_ports fun l => by cases l <;> rfl⟩
  have asked := start.trans (onlyKilns_foldl State.submitRequest onlyKilns_submitRequest allKilns _)
  unfold State.resume
  dsimp only
  generalize allKilns.foldl State.submitRequest _ = t at asked ⊢
  have told := ((onlyKilns_noteResumed (asked.trans (onlyKilns_pass t)) s).trans
    (onlyKilns_raise _ .officeMillResume)).trans (onlyKilns_raise _ .kilnMillResume)
  refine OnlyKilns.trans ?_ (onlyKilns_settle _ _)
  split
  · exact told.trans (onlyKilns_raise ..)
  · exact told

theorem onlyKilns_formDormant (s : State) (k : KilnNo) : OnlyKilns s (s.formDormant k) := by
  unfold State.formDormant
  split
  · exact (onlyKilns_setHeat ..).trans (onlyKilns_setPhase ..)
  · exact onlyKilns_setHeat ..

/-! ### The requests and events of a kiln -/

theorem onlyKilns_recompute (s : State) (k : KilnNo) : OnlyKilns s (s.recompute k) :=
  ((onlyKilns_takeMatches ..).trans (onlyKilns_setKiln ..)).trans (onlyKilns_evaluateNow ..)

theorem onlyKilns_startKiln (s : State) (k : KilnNo) : OnlyKilns s (s.startKiln k) :=
  (onlyKilns_setKiln ..).trans (onlyKilns_enterStep onlyKilns_settle ..)

theorem onlyKilns_enableMill (s : State) : OnlyKilns s s.enableMill := by
  unfold State.enableMill
  split
  · exact .refl s
  · exact onlyKilns_resume s

theorem onlyKilns_stopKiln (s : State) (k : KilnNo) : OnlyKilns s (s.stopKiln k) := by
  unfold State.stopKiln
  refine OnlyKilns.trans ?_ (onlyKilns_settle _ _)
  exact (((onlyKilns_setKiln ..).trans (onlyKilns_setKiln ..)).trans (onlyKilns_releaseHeat ..)).trans
    (onlyKilns_raise ..)

theorem onlyKilns_takeReport (s : State) (k : KilnNo) (dry wet : Int) (door : Bool) :
    OnlyKilns s (s.takeReport k dry wet door) :=
  (onlyKilns_noteSetpoints (onlyKilns_setKiln ..) s).trans (onlyKilns_evaluateNow ..)

theorem onlyKilns_releaseKiln (s : State) (k : KilnNo) : OnlyKilns s (s.releaseKiln k) := by
  simp only [State.releaseKiln]
  have run (p : Phase) : OnlyKilns s (((s.clearHits k).setKiln k
      { (s.clearHits k).kiln k with state := .running p }).noteSetpoints (s.clearHits k)) :=
    (onlyKilns_clearHits s k).trans (onlyKilns_noteSetpoints (onlyKilns_setKiln ..) _)
  split
  · split
    · exact ((run _).trans (onlyKilns_raise ..)).trans (onlyKilns_passAndSettle _)
    · exact run _
  · exact (run _).trans (onlyKilns_evaluateNow ..)

theorem onlyKilns_countKiln (s : State) (k : KilnNo) : OnlyKilns s (s.countKiln k) := by
  simp only [State.countKiln]
  split
  · split
    · exact (onlyKilns_setKiln ..).trans (onlyKilns_evaluateNow ..)
    · exact onlyKilns_setKiln ..
  · exact .refl s

end Sys2Proof.Machine
end

