-- ==== Sys2Proof/Laws/Heat.lean ====
section
/-! SUPPORT. The grants (06, R94): what each operation of the arbiter can do to the sum of the grants, the capacity and the master
enable. -/

namespace Sys2Proof.Machine

/-! ### The sum of the grants -/

theorem sum_map_set (f : HeatRecord → Nat) (l : List HeatRecord) (i : Nat) (hi : i < l.length) (a : HeatRecord) :
    ((l.set i a).map f).sum + f l[i] = (l.map f).sum + f a := by
  induction l generalizing i with
  | nil => simp at hi
  | cons x xs ih =>
    cases i with
    | zero => simp; omega
    | succ i =>
      have := ih i (by simpa using hi)
      simp only [List.set_cons_succ, List.map_cons, List.sum_cons, List.getElem_cons_succ]
      omega

/-- A grant replaced moves the sum by the difference. -/
theorem grantSum_setHeat (s : State) (k : KilnNo) (h : HeatRecord) :
    (s.setHeat k h).grantSum + (s.heatOf k).grant = s.grantSum + h.grant := by
  have := sum_map_set HeatRecord.grant s.heat.toList k (by simp) h
  simpa [State.grantSum, State.setHeat, State.heatOf, Vector.toList_set] using this

theorem grant_le_grantSum (s : State) (k : KilnNo) : (s.heatOf k).grant ≤ s.grantSum := by
  have := grantSum_setHeat s k ⟨0, .absent⟩
  simp only at this
  omega

theorem grantSum_eq_zero (s : State) (h : ∀ k, (s.heatOf k).grant = 0) : s.grantSum = 0 := by
  unfold State.grantSum
  refine List.sum_eq_zero fun x hx => ?_
  obtain ⟨r, hr, rfl⟩ := List.mem_map.mp hx
  obtain ⟨i, hi, rfl⟩ := List.mem_iff_getElem.mp hr
  simpa [State.heatOf] using h ⟨i, by simpa using hi⟩

theorem mem_allKilns (k : KilnNo) : k ∈ allKilns := by revert k; decide

theorem mem_allStackers (st : StackerNo) : st ∈ allStackers := by revert st; decide

/-! ### Operations that leave the heat records, and operations that keep R94 -/

/-- The heat records, the capacity and the master enable are the same. -/
def SameHeat (s t : State) : Prop := t.heat = s.heat ∧ t.capacity = s.capacity ∧ t.masterEnable = s.masterEnable

theorem SameHeat.refl (s : State) : SameHeat s s := ⟨rfl, rfl, rfl⟩

theorem SameHeat.trans {s t u : State} (h : SameHeat s t) (g : SameHeat t u) : SameHeat s u :=
  ⟨g.1.trans h.1, g.2.1.trans h.2.1, g.2.2.trans h.2.2⟩

/-- Capacity and master enable stay, and R94 is kept. -/
def HeatKept (s t : State) : Prop :=
  t.capacity = s.capacity ∧ t.masterEnable = s.masterEnable ∧ (HeatSound s → HeatSound t)

theorem HeatKept.refl (s : State) : HeatKept s s := ⟨rfl, rfl, id⟩

theorem HeatKept.trans {s t u : State} (h : HeatKept s t) (g : HeatKept t u) : HeatKept s u :=
  ⟨g.1.trans h.1, g.2.1.trans h.2.1, g.2.2 ∘ h.2.2⟩

theorem SameHeat.kept {s t : State} (h : SameHeat s t) : HeatKept s t := by
  obtain ⟨h1, h2, h3⟩ := h
  refine ⟨h2, h3, ?_⟩
  simp only [HeatSound, State.grantSum, h1, h2, h3]
  exact id

theorem sameHeat_setKiln (s : State) (k : KilnNo) (c : KilnContext) : SameHeat s (s.setKiln k c) := ⟨rfl, rfl, rfl⟩

theorem sameHeat_setHoldPoint (s : State) (h : HoldPointNo) (p : HoldPoint) : SameHeat s (s.setHoldPoint h p) :=
  ⟨rfl, rfl, rfl⟩

theorem sameHeat_raise (s : State) (c : AttnClass) : SameHeat s (s.raise c) := by simp [SameHeat]

theorem sameHeat_setPhase (s : State) (k : KilnNo) (p : Phase) : SameHeat s (s.setPhase k p) := by
  unfold State.setPhase
  split
  · exact sameHeat_setKiln ..
  · exact .refl s

theorem sameHeat_noteSetpoints (s b : State) : SameHeat s (s.noteSetpoints b) := by
  unfold State.noteSetpoints
  split
  · exact sameHeat_raise ..
  · exact .refl s

theorem sameHeat_noteResumed (s b : State) : SameHeat s (s.noteResumed b) := by
  unfold State.noteResumed
  split
  · exact (sameHeat_noteSetpoints ..).trans (sameHeat_raise ..)
  · exact sameHeat_noteSetpoints ..

theorem sameHeat_foldl {α : Type} (f : State → α → State) (hf : ∀ s a, SameHeat s (f s a)) (l : List α) :
    ∀ s, SameHeat s (l.foldl f s) := by
  induction l with
  | nil => exact fun s => .refl s
  | cons a l ih => exact fun s => (hf s a).trans (ih _)

theorem sameHeat_holdKiln (s : State) (k : KilnNo) : SameHeat s (s.holdKiln k) := by
  unfold State.holdKiln
  split
  · exact (sameHeat_setKiln ..).trans (sameHeat_noteSetpoints ..)
  · exact .refl s

theorem sameHeat_takeMatches (s : State) (k : KilnNo) (l : List HoldPointNo) : SameHeat s (s.takeMatches k l) := by
  unfold State.takeMatches
  split
  · exact .refl s
  · exact ((sameHeat_foldl _ (fun _ _ => sameHeat_setHoldPoint ..) _ s).trans (sameHeat_holdKiln ..)).trans
      (sameHeat_raise ..)

theorem sameHeat_clearHits (s : State) (k : KilnNo) : SameHeat s (s.clearHits k) :=
  sameHeat_foldl _ (fun _ _ => sameHeat_setHoldPoint ..) _ s

/-- A heat record whose grant does not rise. -/
theorem heatKept_lower (s : State) (k : KilnNo) (h : HeatRecord) (le : h.grant ≤ (s.heatOf k).grant) :
    HeatKept s (s.setHeat k h) := by
  have := grantSum_setHeat s k h
  have := grant_le_grantSum s k
  refine ⟨rfl, rfl, fun ⟨h1, h2⟩ => ⟨?_, fun e => ?_⟩⟩
  · simp only [State.setHeat_capacity]; omega
  · have := h2 (by simpa using e); omega

/-! ### The arbiter -/

/-- A grant whose increment fits the free units (R99, R100). -/
theorem heatKept_grantKiln (s : State) (k : KilnNo) (d : Nat) (on : s.masterEnable = true)
    (fits : d - (s.heatOf k).grant ≤ s.freeUnits) : HeatKept s (s.grantKiln k d) := by
  have sum := grantSum_setHeat s k ⟨d, .absent⟩
  have := grant_le_grantSum s k
  refine HeatKept.trans ?_ ((sameHeat_setPhase _ k .active).trans (sameHeat_noteSetpoints _ s)).kept
  refine ⟨rfl, rfl, fun ⟨h1, h2⟩ => ⟨?_, fun e => ?_⟩⟩
  · simp only [State.setHeat_capacity, State.freeUnits] at *
    omega
  · simp [on] at e

theorem heatKept_passOver (ks : List KilnNo) :
    ∀ s : State, s.masterEnable = true → HeatKept s (s.passOver ks).1 := by
  induction ks with
  | nil => exact fun s _ => .refl s
  | cons k ks ih =>
    intro s on
    simp only [State.passOver]
    split
    · split
      · next fits =>
        have g := heatKept_grantKiln s k _ on fits
        exact g.trans (ih _ (g.2.1.trans on))
      · split
        · exact .refl s
        · exact ih s on
    · exact ih s on
    · exact ih s on

theorem heatKept_pass (s : State) : HeatKept s s.pass.1 := by
  unfold State.pass
  split
  · next on => exact heatKept_passOver _ s on
  · exact .refl s

theorem heatKept_waitUnlessGranted (s : State) (k : KilnNo) : HeatKept s (s.waitUnlessGranted k) := by
  unfold State.waitUnlessGranted
  split
  · exact (((sameHeat_setPhase ..).trans (sameHeat_noteSetpoints ..)).trans (sameHeat_raise ..)).kept
  · exact .refl s

theorem heatKept_handDemand (s : State) (k : KilnNo) (d : Nat) : HeatKept s (s.handDemand k d).1 := by
  have keep (r : HeatRequest) : HeatKept s (s.setHeat k ⟨(s.heatOf k).grant, r⟩) :=
    heatKept_lower s k _ (Nat.le_refl _)
  simp only [State.handDemand]
  split
  · next le =>
    have cover : HeatKept s (((s.setHeat k ⟨d, .absent⟩).setPhase k .active).noteSetpoints s) :=
      (heatKept_lower s k ⟨d, .absent⟩ le).trans ((sameHeat_setPhase ..).trans (sameHeat_noteSetpoints ..)).kept
    split
    · exact cover.trans (heatKept_pass _)
    · exact cover
  · split
    · exact ((keep _).trans (heatKept_pass _)).trans (heatKept_waitUnlessGranted ..)
    · exact (keep _).trans ((sameHeat_setPhase ..).trans (sameHeat_noteSetpoints ..)).kept

theorem heatKept_releaseHeat (s : State) (k : KilnNo) : HeatKept s (s.releaseHeat k).1 := by
  simp only [State.releaseHeat]
  split
  · exact (heatKept_lower s k ⟨0, .absent⟩ (Nat.zero_le _)).trans (heatKept_pass _)
  · exact heatKept_lower s k ⟨0, .absent⟩ (Nat.zero_le _)

/-! ### Steps -/

section
variable {settles : List KilnNo → State → State} (hs : ∀ l s, HeatKept s (settles l s))
include hs

theorem heatKept_enterStep (s : State) (k : KilnNo) (i : Nat) : HeatKept s (s.enterStep settles k i) :=
  ((((sameHeat_setKiln ..).trans (sameHeat_takeMatches ..)).kept.trans (heatKept_handDemand ..)).trans
    (sameHeat_raise ..).kept).trans (hs ..)

theorem heatKept_finishKiln (s : State) (k : KilnNo) : HeatKept s (s.finishKiln settles k) :=
  ((((sameHeat_setKiln ..).kept.trans (heatKept_releaseHeat ..)).trans (sameHeat_raise ..).kept).trans
    (sameHeat_raise ..).kept).trans (hs ..)

theorem heatKept_endStep (s : State) (k : KilnNo) (c : EndCause) : HeatKept s (s.endStep settles k c) := by
  simp only [State.endStep]
  split
  · exact (sameHeat_setKiln ..).kept.trans (heatKept_enterStep hs ..)
  · exact (sameHeat_setKiln ..).kept.trans (heatKept_finishKiln hs ..)

theorem heatKept_evaluate (s : State) (k : KilnNo) : HeatKept s (s.evaluate settles k) := by
  unfold State.evaluate
  split
  · split
    · exact .refl s
    · split
      · exact heatKept_endStep hs ..
      · split
        · exact (sameHeat_raise ..).kept.trans (heatKept_endStep hs ..)
        · exact .refl s
  · exact .refl s

end

theorem heatKept_foldl {α : Type} (f : State → α → State) (hf : ∀ s a, HeatKept s (f s a)) (l : List α) :
    ∀ s, HeatKept s (l.foldl f s) := by
  induction l with
  | nil => exact fun s => .refl s
  | cons a l ih => exact fun s => (hf s a).trans (ih _)

theorem heatKept_evaluateAll (n : Nat) : ∀ ks s, HeatKept s (evaluateAll n ks s) := by
  induction n with
  | zero => exact fun _ s => .refl s
  | succ n ih => exact fun ks s => heatKept_foldl _ (fun s k => heatKept_evaluate ih s k) ks s

theorem heatKept_settle (ks : List KilnNo) (s : State) : HeatKept s (settle ks s) := heatKept_evaluateAll _ ks s

theorem heatKept_evaluateNow (s : State) (k : KilnNo) : HeatKept s (s.evaluateNow k) :=
  heatKept_evaluate heatKept_settle s k

theorem heatKept_passAndSettle (s : State) : HeatKept s s.passAndSettle := (heatKept_pass s).trans (heatKept_settle ..)

/-! ### Mill stop, resumption and the start-up -/

theorem heatKept_dropHeat (s : State) (k : KilnNo) : HeatKept s (s.dropHeat k) :=
  (heatKept_lower s k ⟨0, .absent⟩ (Nat.zero_le _)).trans (sameHeat_setPhase ..).kept

theorem heatKept_submitRequest (s : State) (k : KilnNo) : HeatKept s (s.submitRequest k) := by
  unfold State.submitRequest
  split
  · exact (heatKept_lower s k ⟨0, _⟩ (Nat.zero_le _)).trans (sameHeat_setPhase ..).kept
  · split
    · exact heatKept_lower s k _ (Nat.le_refl _)
    · exact .refl s
    · exact .refl s

theorem heatKept_formDormant (s : State) (k : KilnNo) : HeatKept s (s.formDormant k) := by
  unfold State.formDormant
  split
  · exact (heatKept_lower s k ⟨0, _⟩ (Nat.zero_le _)).trans (sameHeat_setPhase ..).kept
  · exact heatKept_lower s k ⟨0, _⟩ (Nat.zero_le _)

/-- An operation that takes a kiln's grant to 0 and never raises another, folded over all kilns, leaves no grant. -/
theorem grantSum_foldl_zero (f : State → KilnNo → State) (own : ∀ s k, ((f s k).heatOf k).grant = 0)
    (others : ∀ s k j, ((f s k).heatOf j).grant ≤ (s.heatOf j).grant) (s : State) :
    (allKilns.foldl f s).grantSum = 0 := by
  have le (l : List KilnNo) : ∀ s j, ((l.foldl f s).heatOf j).grant ≤ (s.heatOf j).grant := by
    induction l with
    | nil => exact fun s j => Nat.le_refl _
    | cons k l ih => exact fun s j => (ih _ j).trans (others ..)
  have zero (l : List KilnNo) : ∀ s, ∀ j ∈ l, ((l.foldl f s).heatOf j).grant = 0 := by
    induction l with
    | nil => simp
    | cons k l ih =>
      intro s j hj
      rcases List.mem_cons.mp hj with rfl | hj
      · have := le l (f s j) j
        rw [own] at this
        exact Nat.le_zero.mp this
      · exact ih _ j hj
  exact grantSum_eq_zero _ fun k => zero allKilns s k (mem_allKilns k)

theorem setPhase_heatOf (s : State) (k j : KilnNo) (p : Phase) : (s.setPhase k p).heatOf j = s.heatOf j := by
  simp [State.heatOf, (sameHeat_setPhase s k p).1]

theorem setHeat_zero_le (s : State) (k j : KilnNo) (r : HeatRequest) :
    ((s.setHeat k ⟨0, r⟩).heatOf j).grant ≤ (s.heatOf j).grant := by
  by_cases h : j = k
  · subst h; simp
  · rw [State.heatOf_setHeat_other _ _ h]

/-- The mill stop leaves no grant (R106, item 2). -/
theorem heatSound_stopMill (s : State) : HeatSound s.stopMill := by
  have zero := grantSum_foldl_zero State.dropHeat (fun s k => by simp [State.dropHeat, setPhase_heatOf])
    (fun s k j => by simp only [State.dropHeat, setPhase_heatOf]; exact setHeat_zero_le ..)
    { s with millStopLine := true, masterEnable := false }
  have kept := heatKept_foldl State.dropHeat heatKept_dropHeat allKilns { s with millStopLine := true, masterEnable := false }
  unfold State.stopMill
  generalize allKilns.foldl State.dropHeat _ = t at zero kept ⊢
  refine (((sameHeat_noteSetpoints t s).trans (sameHeat_raise ..)).trans (sameHeat_raise ..)).kept.2.2 ?_
  exact ⟨by omega, fun _ => zero⟩

/-- The resumption (R109). -/
theorem heatSound_resume (s : State) (h : HeatSound s) : HeatSound s.resume := by
  have start : HeatSound { s with masterEnable := true } := ⟨h.1, fun e => by simp at e⟩
  have asked := (heatKept_foldl State.submitRequest heatKept_submitRequest allKilns _).2.2 start
  unfold State.resume
  dsimp only
  generalize allKilns.foldl State.submitRequest _ = t at asked ⊢
  have told : HeatSound (((t.pass.1.noteResumed s).raise .officeMillResume).raise .kilnMillResume) :=
    (((sameHeat_noteResumed ..).trans (sameHeat_raise ..)).trans (sameHeat_raise ..)).kept.2.2
      ((heatKept_pass t).2.2 asked)
  refine (heatKept_settle _ _).2.2 ?_
  split
  · exact (sameHeat_raise ..).kept.2.2 told
  · exact told

theorem heatSound_enableMill (s : State) (h : HeatSound s) : HeatSound s.enableMill := by
  unfold State.enableMill
  split
  · exact h
  · exact heatSound_resume s h

/-! ### Capacity (R103, R104) -/

theorem revokeKiln_grants (s : State) (k j : KilnNo) :
    ((s.revokeKiln k).heatOf j).grant = if j = k then 0 else (s.heatOf j).grant := by
  have heat (t : State) (b : State) : ((t.noteSetpoints b).raise .setpointChanged).heatOf j = t.heatOf j := by
    simp [State.heatOf, (sameHeat_noteSetpoints t b).1]
  unfold State.revokeKiln
  dsimp only
  rw [heat]
  by_cases h : j = k
  · subst h
    split <;> simp [setPhase_heatOf]
  · rw [if_neg h]
    split <;> simp [setPhase_heatOf, State.heatOf_setHeat_other _ _ h]

theorem heatKept_revokeKiln (s : State) (k : KilnNo) : HeatKept s (s.revokeKiln k) := by
  unfold State.revokeKiln
  refine HeatKept.trans ?_ ((sameHeat_noteSetpoints _ s).trans (sameHeat_raise ..)).kept
  split
  · exact (heatKept_lower s k ⟨0, _⟩ (Nat.zero_le _)).trans ((sameHeat_setPhase ..).trans (sameHeat_raise ..)).kept
  · exact heatKept_lower s k ⟨0, _⟩ (Nat.zero_le _)
  · exact heatKept_lower s k ⟨0, _⟩ (Nat.zero_le _)

theorem revokeOver_kept (ks : List KilnNo) :
    ∀ s : State, (s.revokeOver ks).1.capacity = s.capacity ∧ (s.revokeOver ks).1.masterEnable = s.masterEnable ∧
      ∀ j, ((s.revokeOver ks).1.heatOf j).grant ≤ (s.heatOf j).grant := by
  induction ks with
  | nil => exact fun s => ⟨rfl, rfl, fun _ => Nat.le_refl _⟩
  | cons k ks ih =>
    intro s
    simp only [State.revokeOver]
    split
    · exact ⟨rfl, rfl, fun _ => Nat.le_refl _⟩
    · split
      · exact ih s
      · have h1 := heatKept_revokeKiln s k
        have h2 := ih (s.revokeKiln k)
        refine ⟨h2.1.trans h1.1, h2.2.1.trans h1.2.1, fun j => (h2.2.2 j).trans ?_⟩
        rw [revokeKiln_grants]
        split <;> omega

/-- Revocations run until the grants fit, or until every kiln of the list holds none (R104). -/
theorem revokeOver_fits (ks : List KilnNo) :
    ∀ s : State, (s.revokeOver ks).1.grantSum ≤ (s.revokeOver ks).1.capacity ∨
      ∀ j ∈ ks, ((s.revokeOver ks).1.heatOf j).grant = 0 := by
  induction ks with
  | nil => exact fun s => .inr (by simp)
  | cons k ks ih =>
    intro s
    simp only [State.revokeOver]
    split
    · next fits => exact .inl fits
    · split
      · next zero =>
        refine (ih s).imp_right fun h j hj => ?_
        rcases List.mem_cons.mp hj with rfl | hj
        · exact Nat.le_zero.mp (zero ▸ (revokeOver_kept ks s).2.2 j)
        · exact h j hj
      · refine (ih _).imp_right fun h j hj => ?_
        rcases List.mem_cons.mp hj with rfl | hj
        · have := (revokeOver_kept ks (s.revokeKiln j)).2.2 j
          rw [revokeKiln_grants, if_pos rfl] at this
          exact Nat.le_zero.mp this
        · exact h j hj

theorem heatSound_setCapacity (s : State) (n : Nat) (h : HeatSound s) : HeatSound (s.setCapacity n).1 := by
  simp only [State.setCapacity]
  split
  · exact h
  · split
    · next up => exact (heatKept_passAndSettle _).2.2 ⟨h.1.trans up.le, h.2⟩
    · split
      · next fits => exact ⟨fits, h.2⟩
      · refine (heatKept_passAndSettle _).2.2 ?_
        have kept := revokeOver_kept allKilns.reverse { s with capacity := n }
        have fits := revokeOver_fits allKilns.reverse { s with capacity := n }
        generalize (State.revokeOver { s with capacity := n } allKilns.reverse).1 = t at kept fits ⊢
        have zero (all : ∀ j, (t.heatOf j).grant = 0) : HeatSound t := by
          have := grantSum_eq_zero t all
          exact ⟨by omega, fun _ => this⟩
        rcases fits with fits | none
        · refine ⟨fits, fun off => grantSum_eq_zero t fun j => ?_⟩
          have := h.2 (kept.2.1 ▸ off)
          have := grant_le_grantSum s j
          have := kept.2.2 j
          simp only [State.heatOf] at *
          omega
        · exact zero fun j => none j (by simp [mem_allKilns])

end Sys2Proof.Machine
end

