-- ==== Sys2Proof/Laws/Pass.lean ====
section
/-! SUPPORT. The arbitration pass when at most one kiln waits (06, R98 to R100), and when SETPOINT_CHANGED is raised (05, R88). -/

namespace Sys2Proof.Machine

theorem mem_insertAged (s : State) (k j : KilnNo) (l : List KilnNo) : j ∈ s.insertAged k l ↔ j = k ∨ j ∈ l := by
  induction l with
  | nil => simp [State.insertAged]
  | cons x xs ih =>
    unfold State.insertAged
    split
    · simp
    · simp [ih]; tauto

theorem mem_agedOrder (s : State) (j : KilnNo) (l : List KilnNo) : j ∈ s.agedOrder l ↔ j ∈ l := by
  induction l with
  | nil => simp [State.agedOrder]
  | cons x xs ih => simp [State.agedOrder, mem_insertAged, ih]

/-- The order of a pass holds exactly the waiting kilns (R99). -/
theorem mem_passOrder (s : State) (j : KilnNo) : j ∈ s.passOrder ↔ s.isWaiting j = true := by
  simp only [State.passOrder, List.mem_append, mem_agedOrder, List.mem_filter, mem_allKilns, true_and, Bool.and_eq_true]
  cases s.aged j <;> simp

theorem length_insertAged (s : State) (k : KilnNo) (l : List KilnNo) : (s.insertAged k l).length = l.length + 1 := by
  induction l with
  | nil => rfl
  | cons x xs ih => unfold State.insertAged; split <;> simp [ih]

/-- With no kiln waiting a pass grants nothing (R98). -/
theorem pass_noneWaiting (s : State) (h : ∀ j, (s.heatOf j).request.since? = none) : s.pass = (s, []) := by
  have e : s.passOrder = [] := List.eq_nil_iff_forall_not_mem.2 fun j hj => by
    rw [mem_passOrder] at hj; simp [State.isWaiting, h j] at hj
  unfold State.pass; rw [e]; simp [State.passOver]

theorem settle_nil (s : State) : settle [] s = s := rfl

theorem passAndSettle_noneWaiting (s : State) (h : ∀ j, (s.heatOf j).request.since? = none) : s.passAndSettle = s := by
  unfold State.passAndSettle; rw [pass_noneWaiting s h]; rfl

theorem filter_single (k : KilnNo) (p : KilnNo → Bool) (hk : p k = true) (h : ∀ j, j ≠ k → p j = false) :
    allKilns.filter p = [k] := by
  have e : ∀ j, p j = decide (j = k) := fun j => by
    by_cases hj : j = k
    · simp [hj, hk]
    · simp [h j hj, hj]
  rw [show p = fun j => decide (j = k) from funext e]
  clear hk h e; revert k; decide

/-- With one kiln waiting the order of a pass is that kiln (R99). -/
theorem passOrder_alone (s : State) (k : KilnNo) (hk : s.isWaiting k = true) (h : OthersDoNotWait s k) : s.passOrder = [k] := by
  have hj : ∀ j, j ≠ k → s.isWaiting j = false := fun j hj => by simp [State.isWaiting, h j hj]
  have none : ∀ q : KilnNo → Bool, q k = false → allKilns.filter (fun j => s.isWaiting j && q j) = [] := fun q hq =>
    List.filter_eq_nil_iff.2 fun j _ => by
      by_cases e : j = k
      · simp [e, hq]
      · simp [hj j e]
  unfold State.passOrder
  cases ha : s.aged k
  · rw [none s.aged ha, filter_single k (fun j => s.isWaiting j && !s.aged j) (by simp [hk, ha]) fun j e => by simp [hj j e]]
    rfl
  · rw [none (fun j => !s.aged j) (by simp [ha]),
      filter_single k (fun j => s.isWaiting j && s.aged j) (by simp [hk, ha]) fun j e => by simp [hj j e]]
    rfl

/-- A pass over the one waiting kiln (R99, R100): granted when it fits, left waiting otherwise. -/
theorem pass_alone (s : State) (k : KilnNo) (d m : Nat) (on : s.masterEnable = true)
    (hk : (s.heatOf k).request = .waiting d m) (h : OthersDoNotWait s k) :
    s.pass = if d - (s.heatOf k).grant ≤ s.freeUnits then
      (s.grantKiln k d, if (s.kiln k).state = .running .waitHeat then [k] else []) else (s, []) := by
  unfold State.pass
  rw [if_pos on, passOrder_alone s k (by simp [State.isWaiting, hk, HeatRequest.since?]) h]
  unfold State.passOver
  simp only [hk]
  split
  · rfl
  · split <;> rfl

/-! ### SETPOINT_CHANGED -/

/-- No kiln's mode or grant differs: nothing is raised (05, R88). -/
theorem noteSetpoints_same {s b : State} (h : ∀ j, s.mode j = b.mode j ∧ (s.heatOf j).grant = (b.heatOf j).grant) :
    s.noteSetpoints b = s := by
  unfold State.noteSetpoints
  rw [if_neg]
  simp [setpointsDiffer, h]

/-- Some kiln's mode or grant differs: SETPOINT_CHANGED is raised (05, R88). -/
theorem noteSetpoints_differ {s b : State} (k : KilnNo) (h : s.mode k ≠ b.mode k ∨ (s.heatOf k).grant ≠ (b.heatOf k).grant) :
    s.noteSetpoints b = s.raise .setpointChanged := by
  unfold State.noteSetpoints
  rw [if_pos]
  simp only [setpointsDiffer, List.any_eq_true, Bool.or_eq_true, bne_iff_ne]
  exact ⟨k, mem_allKilns k, h⟩

@[simp] theorem raise_raise (s : State) (c : AttnClass) : (s.raise c).raise c = s.raise c := by
  cases c <;> simp [State.raise, State.setPort, State.port, AttnClass.link, BitVec.or_assoc]

end Sys2Proof.Machine
end

