-- ==== Sys2Proof/Laws/Setters.lean ====
section
/-! SUPPORT. Writes after writes: the later write of one place stands, writes of different places commute, and an attention class
raised commutes with a write of a record. -/

namespace Sys2Proof.Machine

@[simp] theorem setKiln_setKiln (s : State) (k : KilnNo) (a b : KilnContext) : (s.setKiln k a).setKiln k b = s.setKiln k b := by
  simp [State.setKiln]

@[simp] theorem setHeat_setHeat (s : State) (k : KilnNo) (a b : HeatRecord) : (s.setHeat k a).setHeat k b = s.setHeat k b := by
  simp [State.setHeat]

@[simp] theorem setStacker_setStacker (s : State) (st : StackerNo) (a b : Stacker) :
    (s.setStacker st a).setStacker st b = s.setStacker st b := by
  simp [State.setStacker]

theorem setKiln_self (s : State) (k : KilnNo) {c : KilnContext} (h : s.kiln k = c) : s.setKiln k c = s := by
  subst h; obtain ⟨⟩ := s; simp [State.setKiln, State.kiln]

theorem setHeat_self (s : State) (k : KilnNo) {r : HeatRecord} (h : s.heatOf k = r) : s.setHeat k r = s := by
  subst h; obtain ⟨⟩ := s; simp [State.setHeat, State.heatOf]

theorem setStacker_self (s : State) (st : StackerNo) {r : Stacker} (h : s.stacker st = r) : s.setStacker st r = s := by
  subst h; obtain ⟨⟩ := s; simp [State.setStacker, State.stacker]

theorem setKiln_setHeat (s : State) (k j : KilnNo) (c : KilnContext) (r : HeatRecord) :
    (s.setHeat j r).setKiln k c = (s.setKiln k c).setHeat j r := rfl

theorem setKiln_raise (s : State) (k : KilnNo) (c : KilnContext) (a : AttnClass) :
    (s.raise a).setKiln k c = (s.setKiln k c).raise a := by cases a <;> rfl

theorem setHeat_raise (s : State) (k : KilnNo) (r : HeatRecord) (a : AttnClass) :
    (s.raise a).setHeat k r = (s.setHeat k r).raise a := by cases a <;> rfl

theorem setStacker_raise (s : State) (st : StackerNo) (r : Stacker) (a : AttnClass) :
    (s.raise a).setStacker st r = (s.setStacker st r).raise a := by cases a <;> rfl

/-! ### What one kiln's step reads -/

@[simp] theorem stepAt_raise (s : State) (c : AttnClass) (k : KilnNo) (i : Nat) : (s.raise c).stepAt k i = s.stepAt k i := by
  cases c <;> rfl

@[simp] theorem stepAt_setHeat (s : State) (j k : KilnNo) (r : HeatRecord) (i : Nat) :
    (s.setHeat j r).stepAt k i = s.stepAt k i := rfl

@[simp] theorem currentStep_setHeat (s : State) (j k : KilnNo) (r : HeatRecord) :
    (s.setHeat j r).currentStep k = s.currentStep k := rfl

@[simp] theorem currentDemand_setHeat (s : State) (j k : KilnNo) (r : HeatRecord) :
    (s.setHeat j r).currentDemand k = s.currentDemand k := rfl

theorem stepAt_setKiln (s : State) (j k : KilnNo) (c : KilnContext) (i : Nat) (h : c.scheduleId = (s.kiln j).scheduleId) :
    (s.setKiln j c).stepAt k i = s.stepAt k i := by
  by_cases e : k = j
  · subst e; simp [State.stepAt, h]
    rfl
  · simp [State.stepAt, State.kiln_setKiln_other _ _ e]; rfl

theorem mode_setHeat (s : State) (j k : KilnNo) (r : HeatRecord) : (s.setHeat j r).mode k = s.mode k := rfl

@[simp] theorem mode_raise (s : State) (c : AttnClass) (k : KilnNo) : (s.raise c).mode k = s.mode k := by
  cases c <;> rfl

/-- A kiln keeps its mode when its state and its door are kept (05, R86). -/
theorem mode_setKiln (s : State) (j k : KilnNo) (c : KilnContext)
    (h : c.state = (s.kiln j).state ∧ c.doorOpen = (s.kiln j).doorOpen) : (s.setKiln j c).mode k = s.mode k := by
  by_cases e : k = j
  · subst e; simp only [State.mode, State.kiln_setKiln_same, h.1, h.2, State.setKiln_masterEnable]; rfl
  · simp only [State.mode, State.kiln_setKiln_other _ _ e, State.setKiln_masterEnable]; rfl

theorem mode_setKiln_other (s : State) {j k : KilnNo} (c : KilnContext) (h : k ≠ j) : (s.setKiln j c).mode k = s.mode k := by
  simp only [State.mode, State.kiln_setKiln_other _ _ h, State.setKiln_masterEnable]; rfl

/-- A write of one kiln's context raises nothing when its state and door are kept (05, R88). -/
theorem noteSetpoints_setKiln (s : State) (k : KilnNo) (c : KilnContext)
    (h : c.state = (s.kiln k).state ∧ c.doorOpen = (s.kiln k).doorOpen) :
    (s.setKiln k c).noteSetpoints s = s.setKiln k c :=
  noteSetpoints_same fun _ => ⟨mode_setKiln _ _ _ _ h, rfl⟩

/-! ### Hold points that are disabled -/

theorem stepEnterMatches_none (s : State) (k : KilnNo) (i : Nat) (h : ∀ p, (s.holdPoint p).enabled = false) :
    s.stepEnterMatches k i = [] := by
  unfold State.stepEnterMatches
  rw [List.filter_eq_nil_iff]
  intro p _; simp [h]

theorem crossingMatches_none (s : State) (k : KilnNo) (a b : Option Nat) (h : ∀ p, (s.holdPoint p).enabled = false) :
    s.crossingMatches k a b = [] := by
  unfold State.crossingMatches
  split
  · rw [List.filter_eq_nil_iff]
    intro p _; simp [h]
  · rfl

@[simp] theorem takeMatches_nil (s : State) (k : KilnNo) : s.takeMatches k [] = s := rfl

end Sys2Proof.Machine
end

