-- ==== Sys2Proof/Laws/Steps.lean ====
section
/-! SUPPORT. What entering, ending and leaving a step comes to for a kiln while no other kiln waits for heat (05, R73, R80, R81;
06, R96, R97, R100). -/

namespace Sys2Proof.Machine

theorem OthersDoNotWait.setHeat {s : State} {k : KilnNo} (h : OthersDoNotWait s k) (r : HeatRecord) :
    OthersDoNotWait (s.setHeat k r) k := fun j hj => by
  rw [State.heatOf_setHeat_other _ _ hj]; exact h j hj

/-- A pass after a write of the one record that could have waited (06, R98). -/
theorem pass_setHeat_absent (s : State) (k : KilnNo) (g : Nat) (h : OthersDoNotWait s k) :
    (s.setHeat k ⟨g, .absent⟩).pass = (s.setHeat k ⟨g, .absent⟩, []) :=
  pass_noneWaiting _ fun j => by
    by_cases e : j = k
    · subst e; simp [HeatRequest.since?]
    · rw [State.heatOf_setHeat_other _ _ e]; exact h j e

/-- Heat goes back and nothing is granted (06, R97). -/
theorem releaseHeat_alone (s : State) (k : KilnNo) (h : OthersDoNotWait s k) :
    s.releaseHeat k = (s.setHeat k ⟨0, .absent⟩, []) := by
  unfold State.releaseHeat
  dsimp only
  rw [pass_setHeat_absent s k 0 h]
  split <;> rfl

/-- A phase that a RUNNING kiln has already. -/
theorem setPhase_self (s : State) (k : KilnNo) (p : Phase) (h : (s.kiln k).state = .running p) : s.setPhase k p = s := by
  unfold State.setPhase
  rw [h]
  refine setKiln_self s k ?_
  generalize s.kiln k = c at h
  obtain ⟨⟩ := c
  simp_all

/-- A kiln that is not RUNNING has no phase to set. -/
theorem setPhase_other (s : State) (k : KilnNo) (p : Phase) (h : (s.kiln k).state.isRunning = false) : s.setPhase k p = s := by
  unfold State.setPhase
  split
  · next e => simp [e, KilnState.isRunning] at h
  · rfl

/-- A write of one heat record raises SETPOINT_CHANGED when its grant changes (05, R88). -/
theorem noteSetpoints_setHeat (s : State) (k : KilnNo) (r : HeatRecord) :
    (s.setHeat k r).noteSetpoints s =
      if r.grant = (s.heatOf k).grant then s.setHeat k r else (s.setHeat k r).raise .setpointChanged := by
  split
  · next h =>
    refine noteSetpoints_same fun j => ⟨rfl, ?_⟩
    by_cases e : j = k
    · subst e; simpa using h
    · rw [State.heatOf_setHeat_other _ _ e]
  · next h => exact noteSetpoints_differ k (.inr (by simpa using h))

theorem freeUnits_setHeat (s : State) (k : KilnNo) (r : HeatRecord) (h : r.grant = (s.heatOf k).grant) :
    (s.setHeat k r).freeUnits = s.freeUnits := by
  have := grantSum_setHeat s k r
  unfold State.freeUnits
  rw [show (s.setHeat k r).grantSum = s.grantSum by omega]; rfl

theorem mode_setPhase_other (s : State) (k j : KilnNo) (p : Phase) (h : j ≠ k) : (s.setPhase k p).mode j = s.mode j := by
  unfold State.setPhase
  split
  · exact mode_setKiln_other _ _ h
  · rfl

/-- The demand of a step handed to the arbiter by a kiln without heat, while the units are free and no other kiln waits: granted
at once (06, R96, R99, R100). The answer is given after the SETPOINT_CHANGED that a step entry raises (05, R73). -/
theorem handDemand_granted (s : State) (k : KilnNo) (d : Nat) (hs : (s.kiln k).state = .running .active)
    (on : s.masterEnable = true) (none : s.heatOf k = ⟨0, .absent⟩) (alone : OthersDoNotWait s k) (free : d ≤ s.freeUnits) :
    (s.handDemand k d).2 = [] ∧
      (s.handDemand k d).1.raise .setpointChanged = (s.setHeat k ⟨d, .absent⟩).raise .setpointChanged := by
  unfold State.handDemand
  simp only [none]
  by_cases hd : d ≤ 0
  · have e : d = 0 := by omega
    subst e
    simp [setPhase_self, hs, noteSetpoints_setHeat, none]
  · rw [if_neg hd, if_pos on]
    have fu := freeUnits_setHeat s k ⟨0, .waiting d s.minute⟩ (by simp [none])
    have e : (s.setHeat k ⟨0, .waiting d s.minute⟩).pass =
        ((s.setHeat k ⟨0, .waiting d s.minute⟩).grantKiln k d, []) := by
      rw [pass_alone (s.setHeat k ⟨0, .waiting d s.minute⟩) k d s.minute on (by simp) (alone.setHeat _), if_pos (by rw [fu]; simpa using free)]
      simp [hs]
    have g : (s.setHeat k ⟨0, .waiting d s.minute⟩).grantKiln k d = (s.setHeat k ⟨d, .absent⟩).raise .setpointChanged := by
      unfold State.grantKiln
      rw [setPhase_self _ _ _ (by simpa using hs), noteSetpoints_setHeat]
      simp [show ¬d = 0 by omega]
    simp only [HeatRequest.since?, Option.getD_none, e, g]
    refine ⟨trivial, ?_⟩
    have : ((s.setHeat k ⟨d, .absent⟩).raise .setpointChanged).waitUnlessGranted k =
        (s.setHeat k ⟨d, .absent⟩).raise .setpointChanged := by
      unfold State.waitUnlessGranted
      rw [if_neg (by simp [State.isWaiting, HeatRequest.since?])]
    rw [this, raise_raise]

/-- A step entered with no hold point enabled and its demand granted at once (05, R73). -/
theorem enterStep_granted (s : State) (k : KilnNo) (i : Nat) (t : ScheduleStep) (hs : (s.kiln k).state = .running .active)
    (on : s.masterEnable = true) (none : s.heatOf k = ⟨0, .absent⟩) (alone : OthersDoNotWait s k)
    (free : t.demand ≤ s.freeUnits) (off : ∀ p, (s.holdPoint p).enabled = false) (ht : s.stepAt k i = some t) :
    s.enterStep settle k i =
      ((s.setKiln k { s.kiln k with stepIndex := i, stepEntered := some s.minute, stepElapsed := 0 }).setHeat k
        ⟨t.demand, .absent⟩).raise .setpointChanged := by
  unfold State.enterStep
  dsimp only
  rw [stepEnterMatches_none _ _ _ (by simpa using off)]
  simp only [takeMatches_nil]
  have hc : ∀ u : State, u = s.setKiln k { s.kiln k with stepIndex := i, stepEntered := some s.minute, stepElapsed := 0 } →
      u.currentDemand k = t.demand := by
    rintro _ rfl
    simp only [State.currentDemand, State.currentStep, State.kiln_setKiln_same]
    rw [stepAt_setKiln s k k _ i (by rfl), ht]
  have h := handDemand_granted
    (s.setKiln k { s.kiln k with stepIndex := i, stepEntered := some s.minute, stepElapsed := 0 }) k t.demand
    (by simpa using hs) on none alone free
  rw [hc _ (by rfl), h.1, settle_nil, h.2]

/-- The last step of a kiln ended while no other kiln waits (05, R80, R81; 06, R97). -/
theorem endStep_last (s : State) (k : KilnNo) (cause : EndCause) (alone : OthersDoNotWait s k)
    (last : s.stepCount k ≤ (s.kiln k).stepIndex + 1) :
    s.endStep settle k cause = (((s.setKiln k
      { s.kiln k with
        state := .finished, runEnable := false,
        history := (s.kiln k).history ++ [⟨(s.kiln k).stepIndex, (s.kiln k).stepElapsed, cause⟩] }).setHeat k
      ⟨0, .absent⟩).raise .kilnFinished).raise .setpointChanged := by
  unfold State.endStep
  simp only
  rw [if_neg (by omega)]
  unfold State.finishKiln State.recordEnd
  simp only [State.kiln_setKiln_same, setKiln_setKiln]
  rw [releaseHeat_alone (s.setKiln k _) k alone]
  rfl

/-- A step ended early for a HELD kiln of a stopped mill, with no hold point enabled: the next step is entered, its demand dormant
(05, R73, R80; 06, R96; 07, R122). -/
theorem endStep_dormant (s : State) (k : KilnNo) (cause : EndCause) (t : ScheduleStep) (hs : (s.kiln k).state = .held)
    (more : (s.kiln k).stepIndex + 1 < s.stepCount k) (ht : s.stepAt k ((s.kiln k).stepIndex + 1) = some t)
    (off : s.masterEnable = false) (none : (s.heatOf k).grant = 0) (points : ∀ p, (s.holdPoint p).enabled = false) :
    s.endStep settle k cause = ((s.setKiln k
      { s.kiln k with
        stepIndex := (s.kiln k).stepIndex + 1, stepEntered := some s.minute, stepElapsed := 0,
        history := (s.kiln k).history ++ [⟨(s.kiln k).stepIndex, (s.kiln k).stepElapsed, cause⟩] }).setHeat k
      ⟨0, if t.demand = 0 then .absent else .dormant t.demand⟩).raise .setpointChanged := by
  unfold State.endStep
  simp only
  rw [if_pos more]
  unfold State.enterStep
  dsimp only
  rw [stepEnterMatches_none _ _ _ (by simpa [State.recordEnd] using points)]
  simp only [takeMatches_nil, State.recordEnd, State.kiln_setKiln_same, setKiln_setKiln, State.setKiln_minute]
  have hc : ∀ c : KilnContext, c.stepIndex = (s.kiln k).stepIndex + 1 → c.scheduleId = (s.kiln k).scheduleId →
      (s.setKiln k c).currentDemand k = t.demand := fun c h1 h2 => by
    simp only [State.currentDemand, State.currentStep, State.kiln_setKiln_same, h1]
    rw [stepAt_setKiln s k k _ _ h2, ht]
  rw [hc _ (by rfl) (by rfl)]
  unfold State.handDemand
  simp only [State.heatOf_setKiln, none, State.setKiln_masterEnable, off]
  by_cases hd : t.demand = 0
  · rw [setPhase_other _ _ _ (by simp [hs, KilnState.isRunning]), noteSetpoints_setHeat]
    simp [hd, none, settle_nil]
  · rw [setPhase_other _ _ _ (by simp [hs, KilnState.isRunning]), noteSetpoints_setHeat]
    simp [hd, none, settle_nil, setPhase_other, hs, KilnState.isRunning, noteSetpoints_setHeat]

/-! ### Evaluations without effect (05, R76, R78) -/

theorem evaluateNow_other (s : State) (k : KilnNo) (h : ¬((s.kiln k).state = .running .active ∧ s.masterEnable = true)) :
    s.evaluateNow k = s := by
  unfold State.evaluateNow State.evaluate
  rw [if_neg h]

theorem evaluateNow_running (s : State) (k : KilnNo)
    (h : ∀ t, s.currentStep k = some t → (s.kiln k).stepElapsed < t.minMinutes ∧ (s.kiln k).stepElapsed < t.maxMinutes) :
    s.evaluateNow k = s := by
  unfold State.evaluateNow State.evaluate
  split
  · split
    · rfl
    · next t ht =>
      have := h t ht
      rw [if_neg (by omega), if_neg (by omega)]
  · rfl

end Sys2Proof.Machine
end

