-- ==== Sys2Proof/Laws/EveryKiln.lean ====
section
/-! SUPPORT. What the operations over all eight kilns do to each of them: the hits cleared (07, R121), the mill stop (06, R106), the
minutes counted (05, R74), and the start-up with retention intact (05, R91; 06, R111). -/

namespace Sys2Proof.Machine

theorem clearHits_only (s : State) (k : KilnNo) : ∃ hp, s.clearHits k = { s with holdPoints := hp } := by
  unfold State.clearHits
  generalize s.hitsNaming k = l
  induction l generalizing s with
  | nil => exact ⟨s.holdPoints, rfl⟩
  | cons a as ih =>
    obtain ⟨hp, e⟩ := ih (s.setHoldPoint a { s.holdPoint a with hit := none })
    exact ⟨hp, by rw [List.foldl_cons, e]; rfl⟩

theorem dropHeat_only (s : State) (a : KilnNo) :
    ∃ kv, s.dropHeat a = { s.setHeat a ⟨0, .absent⟩ with kilns := kv } := by
  unfold State.dropHeat State.setPhase
  split
  · exact ⟨_, rfl⟩
  · exact ⟨s.kilns, rfl⟩

theorem kiln_dropHeat_other (s : State) {a k : KilnNo} (h : k ≠ a) : (s.dropHeat a).kiln k = s.kiln k := by
  unfold State.dropHeat State.setPhase
  split
  · rw [State.kiln_setKiln_other _ _ h]; rfl
  · rfl

/-- A kiln that the heat is taken from: a RUNNING one waits when its step demands any (06, R106). -/
theorem kiln_dropHeat_same (s : State) (k : KilnNo) :
    (s.dropHeat k).kiln k = { s.kiln k with
      state := match (s.kiln k).state with
        | .running _ => .running (if 0 < s.currentDemand k then .waitHeat else .active)
        | st => st } := by
  unfold State.dropHeat State.setPhase
  cases hst : (s.kiln k).state <;> simp [hst]
  all_goals
    generalize s.kiln k = c at hst ⊢
    obtain ⟨⟩ := c
    simp_all

theorem dropHeat_fold (l : List KilnNo) (hl : l.Nodup) : ∀ s : State,
    ∃ hv kv, l.foldl State.dropHeat s = { s with heat := hv, kilns := kv } ∧
      (∀ k, (l.foldl State.dropHeat s).heatOf k = if k ∈ l then ⟨0, .absent⟩ else s.heatOf k) ∧
      ∀ k, (l.foldl State.dropHeat s).kiln k = if k ∈ l then { s.kiln k with
        state := match (s.kiln k).state with
          | .running _ => .running (if 0 < s.currentDemand k then .waitHeat else .active)
          | st => st } else s.kiln k := by
  induction l with
  | nil => intro s; exact ⟨_, _, rfl, by simp, by simp⟩
  | cons a as ih =>
    intro s
    simp only [List.nodup_cons] at hl
    obtain ⟨hv, kv, e1, e2, e3⟩ := ih hl.2 (s.dropHeat a)
    obtain ⟨kv', d1⟩ := dropHeat_only s a
    refine ⟨hv, kv, by rw [List.foldl_cons, e1, d1]; rfl, fun k => ?_, fun k => ?_⟩
    · rw [List.foldl_cons, e2, show (s.dropHeat a).heatOf k = (s.setHeat a ⟨0, .absent⟩).heatOf k by rw [d1]; rfl]
      by_cases ek : k = a
      · subst ek; simp
      · rw [State.heatOf_setHeat_other _ _ ek]; simp [ek]
    · rw [List.foldl_cons, e3]
      by_cases ek : k = a
      · subst ek
        rw [if_neg hl.1, if_pos (by simp), kiln_dropHeat_same]
      · have hd : (s.dropHeat a).currentDemand k = s.currentDemand k := by
          unfold State.currentDemand State.currentStep State.stepAt
          rw [kiln_dropHeat_other s ek, show (s.dropHeat a).findSchedule = s.findSchedule by rw [d1]; rfl]
        rw [kiln_dropHeat_other s ek, hd]; simp [ek]

/-- The counting of a minute while no kiln reaches its step's minimum or maximum: each kiln that counts gains a minute (05, R74). -/
theorem countKilns_plain (s : State)
    (h : ∀ k t, s.currentStep k = some t →
      (s.kiln k).stepElapsed + 1 < t.minMinutes ∧ (s.kiln k).stepElapsed + 1 < t.maxMinutes) :
    ∃ kv, s.countKilns = { s with kilns := kv } ∧
      ∀ k, s.countKilns.kiln k = if s.counts k then (s.kiln k).counted else s.kiln k := by
  have main : ∀ l : List KilnNo, l.Nodup → ∀ u : State, u.schedules = s.schedules → u.masterEnable = s.masterEnable →
      (∀ k ∈ l, u.kiln k = s.kiln k) → ∃ kv, l.foldl State.countKiln u = { u with kilns := kv } ∧
        ∀ k, (l.foldl State.countKiln u).kiln k = if k ∈ l ∧ s.counts k then (u.kiln k).counted else u.kiln k := by
    intro l
    induction l with
    | nil => intro _ u _ _ _; exact ⟨u.kilns, rfl, by simp⟩
    | cons a as ih =>
      intro hl u h1 h2 h3
      simp only [List.nodup_cons] at hl
      have ha := h3 a (by simp)
      have cs : u.currentStep a = s.currentStep a := by
        unfold State.currentStep State.stepAt State.findSchedule; rw [ha, h1]
      have cc : u.counts a = s.counts a := by
        unfold State.counts; rw [ha, cs, h2]
      have step : u.countKiln a = if s.counts a then u.setKiln a (u.kiln a).counted else u := by
        unfold State.countKiln
        rw [cc]
        split
        · split
          · rw [evaluateNow_running]
            intro t ht
            unfold State.currentStep at ht
            rw [State.kiln_setKiln_same, stepAt_setKiln _ _ _ _ _ (by rfl)] at ht
            have := h a t (by rw [← cs]; exact ht)
            simp only [State.kiln_setKiln_same, KilnContext.counted, ha]
            exact this
          · rfl
        · rfl
      rw [List.foldl_cons, step]
      split
      · next hca =>
        obtain ⟨kv, e1, e2⟩ := ih hl.2 (u.setKiln a (u.kiln a).counted) h1 h2 fun k hk => by
          rw [State.kiln_setKiln_other _ _ (by rintro rfl; exact hl.1 hk)]; exact h3 k (by simp [hk])
        refine ⟨kv, by rw [e1]; rfl, fun k => ?_⟩
        rw [e2]
        by_cases ek : k = a
        · subst ek; simp [hl.1, hca]
        · rw [State.kiln_setKiln_other _ _ ek]; simp [ek]
      · next hca =>
        obtain ⟨kv, e1, e2⟩ := ih hl.2 u h1 h2 fun k hk => h3 k (by simp [hk])
        refine ⟨kv, e1, fun k => ?_⟩
        rw [e2]
        by_cases ek : k = a
        · subst ek; simp [hl.1, hca]
        · simp [ek]
  obtain ⟨kv, e1, e2⟩ := main allKilns (by decide) s rfl rfl fun _ _ => rfl
  exact ⟨kv, e1, fun k => by simpa [mem_allKilns, State.countKilns] using e2 k⟩

/-! ### A start-up with retention intact -/

theorem dormant_only (s : State) (a : KilnNo) :
    ∃ kv hv, (s.closeDoor a).formDormant a = { s with kilns := kv, heat := hv } := by
  unfold State.formDormant State.setPhase
  split
  · split <;> exact ⟨_, _, rfl⟩
  · exact ⟨_, _, rfl⟩

theorem kiln_dormant_other (s : State) {a k : KilnNo} (h : k ≠ a) :
    ((s.closeDoor a).formDormant a).kiln k = s.kiln k := by
  unfold State.formDormant State.setPhase State.closeDoor
  split
  · split
    · rw [State.kiln_setKiln_other _ _ h]; simp; rw [State.kiln_setKiln_other _ _ h]
    · simp; rw [State.kiln_setKiln_other _ _ h]
  · simp; rw [State.kiln_setKiln_other _ _ h]

theorem heatOf_dormant_other (s : State) {a k : KilnNo} (h : k ≠ a) :
    ((s.closeDoor a).formDormant a).heatOf k = s.heatOf k := by
  unfold State.formDormant State.setPhase State.closeDoor
  split
  · split
    · simp; rw [State.heatOf_setHeat_other _ _ h]; simp
    · rw [State.heatOf_setHeat_other _ _ h]; simp
  · rw [State.heatOf_setHeat_other _ _ h]; simp

theorem currentDemand_closeDoor (s : State) (k : KilnNo) : (s.closeDoor k).currentDemand k = s.currentDemand k := by
  unfold State.closeDoor State.currentDemand State.currentStep
  rw [State.kiln_setKiln_same, stepAt_setKiln _ _ _ _ _ (by rfl)]

/-- Every kiln's door closed, and the dormant request of each kiln under way formed (05, R91; 06, R111). -/
theorem dormant_fold (l : List KilnNo) (hl : l.Nodup) : ∀ s : State,
    ∃ kv hv, l.foldl (fun s k => (s.closeDoor k).formDormant k) s = { s with kilns := kv, heat := hv } ∧
      (∀ k, (l.foldl (fun s k => (s.closeDoor k).formDormant k) s).heatOf k =
        if k ∈ l then ⟨0, if (s.kiln k).state.isOn then .dormant (s.currentDemand k) else .absent⟩ else s.heatOf k) ∧
      ∀ k, (l.foldl (fun s k => (s.closeDoor k).formDormant k) s).kiln k = if k ∈ l then { s.kiln k with
        doorOpen := false,
        state := match (s.kiln k).state with
          | .running _ => .running .waitHeat
          | st => st } else s.kiln k := by
  induction l with
  | nil => intro s; exact ⟨_, _, rfl, by simp, by simp⟩
  | cons a as ih =>
    intro s
    simp only [List.nodup_cons] at hl
    obtain ⟨kv, hv, e1, e2, e3⟩ := ih hl.2 ((s.closeDoor a).formDormant a)
    obtain ⟨kv', hv', d1⟩ := dormant_only s a
    refine ⟨kv, hv, by rw [List.foldl_cons, e1, d1], fun k => ?_, fun k => ?_⟩
    · rw [List.foldl_cons, e2]
      by_cases ek : k = a
      · subst ek
        rw [if_neg hl.1, if_pos (by simp)]
        unfold State.formDormant State.setPhase
        rw [currentDemand_closeDoor]
        simp only [State.closeDoor, State.kiln_setKiln_same, State.kiln_setHeat]
        split
        · split <;> simp
        · simp
      · have cd : ((s.closeDoor a).formDormant a).currentDemand k = s.currentDemand k := by
          unfold State.currentDemand State.currentStep State.stepAt
          rw [kiln_dormant_other s ek, show ((s.closeDoor a).formDormant a).findSchedule = s.findSchedule by rw [d1]; rfl]
        rw [kiln_dormant_other s ek, heatOf_dormant_other s ek, cd]; simp [ek]
    · rw [List.foldl_cons, e3]
      by_cases ek : k = a
      · subst ek
        rw [if_neg hl.1, if_pos (by simp)]
        unfold State.formDormant State.setPhase
        simp only [State.closeDoor, State.kiln_setKiln_same, State.kiln_setHeat]
        cases hst : (s.kiln k).state <;> simp [KilnState.isOn]
      · rw [kiln_dormant_other s ek]; simp [ek]

end Sys2Proof.Machine
end

