-- ==== Sys2Proof/Laws/Layouts.lean ====
section
/-! SUPPORT. The bodies that carry counts: a length that does not agree with the counts has no reading (11, R182), and a schedule
within its ranges is read and checked back to itself (02, R26). -/

namespace Sys2Proof.Machine

theorem readSteps_none (n : Nat) (l : List Byte) (h : l.length ≠ 14 * n) : readSteps n l = none := by
  induction n generalizing l with
  | zero => cases l with
    | nil => simp at h
    | cons => rfl
  | succ n ih =>
    unfold readSteps
    split
    · next e => cases e
    · next e => cases e
    · next e =>
      cases e
      rw [ih _ (by simp at h; omega)]; rfl
    · rfl

theorem readEntries_none (n : Nat) (l : List Byte) (h : l.length ≠ 3 * n) : readEntries n l = none := by
  induction n generalizing l with
  | zero => cases l with
    | nil => simp at h
    | cons => rfl
  | succ n ih =>
    unfold readEntries
    split
    · next e => cases e
    · next e => cases e
    · next e =>
      cases e
      rw [ih _ (by simp at h; omega)]; rfl
    · rfl

theorem readNumbers_none (n : Nat) (l : List Byte) (h : l.length ≠ 2 * n) : readNumbers n l = none := by
  induction n generalizing l with
  | zero => cases l with
    | nil => simp at h
    | cons => rfl
  | succ n ih =>
    unfold readNumbers
    split
    · next e => cases e
    · next e => cases e
    · next e =>
      cases e
      rw [ih _ (by simp at h; omega)]; rfl
    · rfl

theorem readScheduleWrite_none (b : List Byte) (h : layoutAgrees 0x18 b = false) : readScheduleWrite b = none := by
  unfold layoutAgrees at h
  simp only at h
  unfold readScheduleWrite
  split
  · next id len rest =>
    simp only at h
    split
    · next count steps e =>
      have e1 : rest[len.toNat]? = some count := by
        have := congrArg (·[0]?) e; simpa using this
      simp only [e1] at h
      have hl := congrArg List.length e
      simp at hl
      rw [readSteps_none _ _ (by simp at h; omega)]; simp
    · rfl
  · rfl

theorem readSpeciesWrite_none (b : List Byte) (h : layoutAgrees 0x1B b = false) : readSpeciesWrite b = none := by
  unfold layoutAgrees at h
  simp only at h
  unfold readSpeciesWrite
  split
  · next id len rest =>
    simp only at h
    split
    · next e =>
      have hl := congrArg List.length e
      simp at hl h; omega
    · rfl
  · rfl

theorem readSampleWeigh_none (b : List Byte) (h : layoutAgrees 0x21 b = false) : readSampleWeigh b = none := by
  unfold layoutAgrees at h
  simp only at h
  unfold readSampleWeigh
  split
  · simp only at h
    rw [readEntries_none _ _ (by simp at h; omega)]; simp
  · rfl

theorem readKilnCharge_none (b : List Byte) (h : layoutAgrees 0x24 b = false) : readKilnCharge b = none := by
  unfold layoutAgrees at h
  simp only at h
  unfold readKilnCharge
  split
  · simp only at h
    rw [readNumbers_none _ _ (by simp at h; omega)]; simp
  · rfl

/-! ### A schedule sent by its table -/

/-- A step as a SCHEDULE WRITE carries it. -/
def ScheduleStep.heard (t : ScheduleStep) : StepBody :=
  ⟨t.kind.code, t.dryBulb, t.depression, t.demand, t.exit.code, some t.exit.value?, t.minMinutes, t.maxMinutes⟩

theorem exitValue_le (t : ScheduleStep) (h : t.InRange) : ∀ v, t.exit.value? = some v → v ≤ 65535 := by
  obtain ⟨_, _, _, _, _, _, _, _, h⟩ := h
  intro v hv
  revert h hv
  cases t.exit <;> simp [StepExit.value?] <;> omega

theorem readSteps_bytes (ts : List ScheduleStep) (h : ∀ t ∈ ts, t.InRange) :
    readSteps ts.length (ts.flatMap ScheduleStep.bytes) = some (ts.map ScheduleStep.heard) := by
  induction ts with
  | nil => rfl
  | cons t ts ih =>
    have ht := h t (by simp)
    obtain ⟨m, a, b, e, g⟩ := optHeard_optU16 (exitValue_le t ht)
    obtain ⟨_, h2, h3, h4, h5, _, h7, h8, _⟩ := ht
    have k1 : t.kind.code ≤ 255 := by cases t.kind <;> simp [StepKind.code]
    have k2 : t.exit.code ≤ 255 := by cases t.exit <;> simp [StepExit.code]
    simp only [List.length_cons, List.flatMap_cons, ScheduleStep.bytes, u8, u16, e, List.cons_append, List.nil_append,
      readSteps]
    rw [ih fun x hx => h x (by simp [hx]), n16_byteOf (by omega), n16_byteOf (by omega), n16_byteOf (by omega),
      n16_byteOf (by omega), byteOf_toNat k1, byteOf_toNat k2, byteOf_toNat (by omega), g]
    rfl

theorem check_heard (t : ScheduleStep) (h : t.InRange) : t.heard.check = .inr t := by
  obtain ⟨kind, db, dp, dm, ex, mn, mx⟩ := t
  obtain ⟨h1, h2, h3, h4, h5, h6, h7, h8, h9⟩ := h
  simp only at *
  have k1 : StepKind.ofCode kind.code = some kind := by cases kind <;> rfl
  have k2 : exitOf ex.code (some ex.value?) = .inr ex := by
    cases ex <;> simp only [StepExit.code, StepExit.value?, exitOf] <;> simp_all
  have k3 : ex.code ≤ 4 := by cases ex <;> simp [StepExit.code]
  unfold StepBody.check ScheduleStep.heard
  dsimp only
  rw [k1, k2]
  dsimp only
  rw [if_neg (by omega), if_neg (by omega), if_neg (by omega), if_neg (by omega), if_neg (by omega), if_neg (by omega),
    if_neg (by omega)]

theorem checkSteps_heard (ts : List ScheduleStep) (h : ∀ t ∈ ts, t.InRange) (i : Nat) :
    checkSteps i (ts.map ScheduleStep.heard) = .inr ts := by
  induction ts generalizing i with
  | nil => rfl
  | cons t ts ih =>
    simp only [List.map_cons, checkSteps, check_heard t (h t (by simp)), ih (fun x hx => h x (by simp [hx]))]

theorem length_steps (ts : List ScheduleStep) : (ts.flatMap ScheduleStep.bytes).length = 14 * ts.length := by
  induction ts with
  | nil => rfl
  | cons t ts ih =>
    rw [List.flatMap_cons, List.length_append, ih]
    have : (ScheduleStep.bytes t).length = 14 := by
      unfold ScheduleStep.bytes
      cases t.exit.value? <;> rfl
    rw [this, List.length_cons]; omega

theorem readScheduleWrite_bytes (c : Schedule) (h : c.InRange) :
    readScheduleWrite (u8 c.id ++ text c.text ++ counted ScheduleStep.bytes c.steps) =
      some ⟨c.id, c.text.length, c.text, c.steps.length, c.steps.map ScheduleStep.heard⟩ := by
  obtain ⟨h1, h2, h3, h4, h5, h6, h7⟩ := h
  simp only [u8, text, counted, List.cons_append, List.nil_append, readScheduleWrite, byteOf_toNat h2,
    byteOf_toNat (show c.text.length ≤ 255 by omega), List.drop_left, List.take_left,
    byteOf_toNat (show c.steps.length ≤ 255 by omega), readSteps_bytes _ h7]
  simp

theorem check_schedule (c : Schedule) (h : c.InRange) :
    ScheduleBody.check ⟨c.id, c.text.length, c.text, c.steps.length, c.steps.map ScheduleStep.heard⟩ = .inr c := by
  obtain ⟨h1, h2, h3, h4, h5, h6, h7⟩ := h
  simp only [ScheduleBody.check, checkSteps_heard _ h7]
  rw [if_neg (by omega), if_neg, if_neg (by omega)]
  simp [printable]
  exact ⟨h3, fun b hb => ⟨by simpa using (h4 b hb).1, by simpa using (h4 b hb).2⟩⟩

end Sys2Proof.Machine
end

