-- ==== Sys2Proof/Laws/PackSide.lean ====
section
/-! SUPPORT. What the operations of the Pack Builder, the tracking queue and the Label Queue can do: they change lots, the next
redry number, the queue with its next number, stackers with the next pack number, labels with the serial counter, raise
classes, and leave everything else. -/

namespace Sys2Proof.Machine

/-- `t` is `s` but for lots, packs, boards and labels and for classes raised. -/
structure OnlyPacks (s t : State) : Prop where
  rest : t = { s with
    officePort := t.officePort, kilnHousePort := t.kilnHousePort, planerPort := t.planerPort, lots := t.lots,
    redryNext := t.redryNext, queue := t.queue, nextSeq := t.nextSeq, stackers := t.stackers, nextPack := t.nextPack,
    labels := t.labels, serial := t.serial }
  ports : PortsRaised s t

theorem OnlyPacks.refl (s : State) : OnlyPacks s s := ⟨rfl, .refl s⟩

theorem OnlyPacks.trans {s t u : State} (h : OnlyPacks s t) (g : OnlyPacks t u) : OnlyPacks s u := by
  refine ⟨?_, h.ports.trans g.ports⟩
  have h1 := h.rest
  have h2 := g.rest
  generalize ht : t = t' at *
  cases u
  cases t'
  simp only [State.mk.injEq] at h1 h2 ⊢
  simp_all

theorem onlyPacks_setStacker (s : State) (st : StackerNo) (r : Stacker) : OnlyPacks s (s.setStacker st r) :=
  ⟨rfl, .of_ports fun l => by simp⟩

theorem onlyPacks_raise (s : State) (c : AttnClass) : OnlyPacks s (s.raise c) :=
  ⟨by cases c <;> rfl, raise_ports s c⟩

theorem onlyPacks_insertLot (s : State) (r : LotRecord) : OnlyPacks s (s.insertLot r) :=
  ⟨rfl, .of_ports fun l => by simp⟩

theorem onlyPacks_modifyLot (s : State) (n : Nat) (f : LotRecord → LotRecord) : OnlyPacks s (s.modifyLot n f) :=
  ⟨rfl, .of_ports fun l => by simp⟩

theorem onlyPacks_dequeue (s : State) (n : Nat) : OnlyPacks s (s.dequeue n) :=
  ⟨rfl, .of_ports fun l => by cases l <;> rfl⟩

theorem onlyPacks_pushLabel (s : State) (st : StackerNo) (c : ClosingPack) (lot : Option LotRecord) :
    OnlyPacks s (s.pushLabel st c lot) := by
  unfold State.pushLabel
  split
  · exact ⟨rfl, .of_ports fun l => by cases l <;> rfl⟩
  · exact .refl s

theorem onlyPacks_foldl {α : Type} (f : State → α → State) (hf : ∀ s a, OnlyPacks s (f s a)) (l : List α) :
    ∀ s, OnlyPacks s (l.foldl f s) := by
  induction l with
  | nil => exact fun s => .refl s
  | cons a l ih => exact fun s => (hf s a).trans (ih (f s a))

/-! ### Completion and re-examination -/

theorem onlyPacks_completePack (s : State) (st : StackerNo) (c : ClosingPack) : OnlyPacks s (s.completePack st c) := by
  unfold State.completePack
  dsimp only
  refine OnlyPacks.trans (OnlyPacks.trans ?_ (onlyPacks_raise _ _)) (onlyPacks_raise _ _)
  refine OnlyPacks.trans (OnlyPacks.trans ?_ (onlyPacks_pushLabel _ st c _)) (onlyPacks_setStacker _ _ _)
  split
  · exact onlyPacks_insertLot ..
  · exact .refl s

theorem onlyPacks_unblock (s : State) (st : StackerNo) : OnlyPacks s (s.unblock st) := onlyPacks_setStacker ..

theorem onlyPacks_judgeBlock (s : State) (p : BlockReason → Bool) (st : StackerNo) :
    OnlyPacks s (s.judgeBlock p st).1 := by
  unfold State.judgeBlock
  split
  · exact onlyPacks_unblock ..
  · exact .refl s

theorem onlyPacks_raiseFreed (s : State) (b : Bool) : OnlyPacks s (s.raiseFreed b) := by
  unfold State.raiseFreed
  split
  · exact onlyPacks_raise ..
  · exact .refl s

theorem onlyPacks_completeAndJudge (s : State) (st : StackerNo) (c : ClosingPack) :
    OnlyPacks s (s.completeAndJudge st c) :=
  ((onlyPacks_completePack ..).trans (onlyPacks_judgeBlock ..)).trans (onlyPacks_raiseFreed ..)

theorem onlyPacks_makeClose (s : State) (st : StackerNo) (p : Pack) (why : CloseReason) (n : Option Nat) :
    OnlyPacks s (s.makeClose st p why n) := by
  unfold State.makeClose
  dsimp only
  split
  · exact (onlyPacks_setStacker ..).trans ⟨rfl, .of_ports fun l => by cases l <;> rfl⟩
  · exact onlyPacks_setStacker ..

theorem onlyPacks_attemptIdleClose (s : State) (st : StackerNo) (p : Pack) : OnlyPacks s (s.attemptIdleClose st p) := by
  unfold State.attemptIdleClose
  split
  · exact onlyPacks_setStacker ..
  · dsimp only
    split
    · exact (onlyPacks_makeClose ..).trans (onlyPacks_completeAndJudge ..)
    · exact onlyPacks_makeClose ..

theorem onlyPacks_retryIdleClose (s : State) (st : StackerNo) : OnlyPacks s (s.retryIdleClose st) := by
  unfold State.retryIdleClose
  split
  · split
    · exact onlyPacks_attemptIdleClose ..
    · exact .refl s
  · exact .refl s

theorem onlyPacks_examineOver (p : StackerNo → BlockReason → Bool) (l : List StackerNo) :
    ∀ s, OnlyPacks s (State.examineOver p s l).1 := by
  induction l with
  | nil => exact fun s => .refl s
  | cons st l ih =>
    exact fun s => ((onlyPacks_judgeBlock ..).trans (onlyPacks_retryIdleClose ..)).trans (ih _)

theorem onlyPacks_reexamine (s : State) (l : List StackerNo) (p : StackerNo → BlockReason → Bool) :
    OnlyPacks s (s.reexamine l p) := (onlyPacks_examineOver p l s).trans (onlyPacks_raiseFreed ..)

theorem onlyPacks_complete (s : State) (st : StackerNo) (c : ClosingPack) : OnlyPacks s (s.complete st c) :=
  (onlyPacks_completePack ..).trans (onlyPacks_reexamine ..)

theorem onlyPacks_discard (s : State) (st : StackerNo) : OnlyPacks s (s.discard st) :=
  (onlyPacks_setStacker ..).trans (onlyPacks_reexamine ..)

/-! ### Boards -/

theorem onlyPacks_numberGiven (s : State) : OnlyPacks s s.numberGiven := ⟨rfl, .of_ports fun l => by cases l <;> rfl⟩

theorem onlyPacks_standOpen (s : State) (st : StackerNo) (p : Pack) : OnlyPacks s (s.standOpen st p) :=
  onlyPacks_setStacker ..

theorem onlyPacks_blockStacker (s : State) (st : StackerNo) (r : BlockReason) : OnlyPacks s (s.blockStacker st r) :=
  ((onlyPacks_setStacker ..).trans (onlyPacks_raise ..)).trans (onlyPacks_raise ..)

theorem onlyPacks_place (s : State) (st : StackerNo) (b : Placing) : OnlyPacks s (s.place st b).1 := by
  unfold State.place
  split
  · exact .refl s
  · split
    · exact onlyPacks_blockStacker ..
    · dsimp only
      have opened (t : State) (p : Pack) : OnlyPacks t (t.numberGiven.standOpen st p) :=
        (onlyPacks_numberGiven t).trans (onlyPacks_standOpen ..)
      split
      · exact ((onlyPacks_makeClose ..).trans (opened ..)).trans (onlyPacks_complete ..)
      · exact (onlyPacks_makeClose ..).trans (opened ..)
    · exact onlyPacks_makeClose ..
    · exact (onlyPacks_numberGiven s).trans (onlyPacks_makeClose ..)
    · exact onlyPacks_standOpen ..
    · exact (onlyPacks_numberGiven s).trans (onlyPacks_standOpen ..)

theorem onlyPacks_onPack (s : State) (st : StackerNo) (n : Nat) (f : Pack → Pack) : OnlyPacks s (s.onPack st n f) := by
  unfold State.onPack
  dsimp only
  repeat' split
  all_goals first | exact onlyPacks_setStacker .. | exact .refl s

theorem onlyPacks_dissolveEmpty (s : State) (st : StackerNo) (n : Nat) : OnlyPacks s (s.dissolveEmpty st n) := by
  unfold State.dissolveEmpty
  repeat' split
  all_goals first | exact onlyPacks_setStacker .. | exact .refl s

theorem onlyPacks_endClosing (s : State) (st : StackerNo) (c : ClosingPack) : OnlyPacks s (s.endClosing st c).1 := by
  unfold State.endClosing
  split
  · split
    · exact onlyPacks_complete ..
    · exact onlyPacks_discard ..
  · exact .refl s

theorem onlyPacks_settlePack (s : State) (st : StackerNo) (n : Nat) : OnlyPacks s (s.settlePack st n).1 := by
  unfold State.settlePack
  split
  · split
    · exact onlyPacks_endClosing ..
    · exact onlyPacks_dissolveEmpty ..
  · exact onlyPacks_dissolveEmpty ..

theorem onlyPacks_leavePack (s : State) (b : Board) (f : Pack → Pack) : OnlyPacks s (s.leavePack b f).1 := by
  unfold State.leavePack
  split
  · exact (onlyPacks_onPack ..).trans (onlyPacks_settlePack ..)
  · exact .refl s

theorem onlyPacks_loseBoard (s : State) (b : Board) : OnlyPacks s (s.loseBoard b).1 :=
  ((onlyPacks_dequeue ..).trans (onlyPacks_modifyLot ..)).trans (onlyPacks_leavePack ..)

theorem onlyPacks_purge (s : State) : OnlyPacks s s.purge := onlyPacks_foldl _ onlyPacks_loseBoard _ s

theorem onlyPacks_carryOut (s : State) (b : Placing) (r : Route) : OnlyPacks s (s.carryOut b r).1 := by
  unfold State.carryOut
  split
  · exact .refl s
  · dsimp only
    split
    · exact onlyPacks_place ..
    · exact onlyPacks_place ..

theorem onlyPacks_joinQueue (s : State) (b : Board) : OnlyPacks s (s.joinQueue b) := by
  have join : OnlyPacks s { s with queue := s.queue ++ [b], nextSeq := following 1 65535 b.seq } :=
    ⟨rfl, .of_ports fun l => by cases l <;> rfl⟩
  unfold State.joinQueue
  dsimp only
  split
  · exact join.trans (onlyPacks_onPack ..)
  · exact join

theorem onlyPacks_countBoard (s : State) (l : LotRecord) (p : Placed) (r : Reading) :
    OnlyPacks s (s.countBoard l p r) := by
  unfold State.countBoard
  dsimp only
  split
  · exact ((onlyPacks_modifyLot ..).trans (onlyPacks_raise _ .officeLotHeld)).trans (onlyPacks_raise ..)
  · exact onlyPacks_modifyLot ..

theorem onlyPacks_measureBoard (q : MeasureBody) (ov : Bool) (bin : BinNo) (l : LotRecord) (s : State) :
    OnlyPacks s (measureBoard q ov bin l s).1 := by
  unfold measureBoard
  dsimp only
  split
  · exact .refl s
  · exact ((onlyPacks_carryOut ..).trans (onlyPacks_joinQueue ..)).trans (onlyPacks_countBoard ..)

/-! ### Idle counting -/

theorem onlyPacks_idleStacker (s : State) (st : StackerNo) : OnlyPacks s (s.idleStacker st) := by
  unfold State.idleStacker
  split
  · exact .refl s
  · dsimp only
    split
    · split
      · exact (onlyPacks_setStacker ..).trans (onlyPacks_attemptIdleClose ..)
      · exact onlyPacks_setStacker ..
    · split
      · exact onlyPacks_attemptIdleClose ..
      · exact .refl s

theorem onlyPacks_idleStackers (s : State) : OnlyPacks s s.idleStackers := by
  unfold State.idleStackers
  split
  · exact .refl s
  · exact onlyPacks_foldl _ onlyPacks_idleStacker _ s

theorem onlyPacks_idleClose (s : State) (st : StackerNo) : OnlyPacks s (s.idleClose st) := by
  unfold State.idleClose
  split
  · split
    · exact onlyPacks_attemptIdleClose ..
    · exact .refl s
  · exact .refl s

end Sys2Proof.Machine
end

