-- ==== Sys2Proof/Laws/Places.lean ====
section
/-! SUPPORT. Lot places, redry reservations and label places (01, R1, R17; 09, R155, R164, R165; 10, R171, R172): what each operation
of the Pack Builder can do to them. -/

namespace Sys2Proof.Machine

/-! ### Lists -/

theorem mem_insertByNumber (r : LotRecord) (l : List LotRecord) (n : Nat) :
    n ∈ (insertByNumber r l).map LotRecord.number ↔ n = r.number ∨ n ∈ l.map LotRecord.number := by
  induction l with
  | nil => simp [insertByNumber]
  | cons x xs ih =>
    unfold insertByNumber
    split
    · simp
    · simp only [List.map_cons, List.mem_cons, ih]
      tauto

theorem length_insertByNumber (r : LotRecord) (l : List LotRecord) : (insertByNumber r l).length = l.length + 1 := by
  induction l with
  | nil => rfl
  | cons x xs ih =>
    unfold insertByNumber
    split
    · rfl
    · simp [ih]

/-- A new number put into a rising list leaves it rising. -/
theorem insertByNumber_rising (r : LotRecord) (l : List LotRecord) (h : (l.map LotRecord.number).Pairwise (· < ·))
    (fresh : r.number ∉ l.map LotRecord.number) : ((insertByNumber r l).map LotRecord.number).Pairwise (· < ·) := by
  induction l with
  | nil => simp [insertByNumber]
  | cons x xs ih =>
    simp only [List.map_cons, List.pairwise_cons, List.mem_cons, not_or] at h fresh
    unfold insertByNumber
    split
    · next lt =>
      simp only [List.map_cons, List.pairwise_cons, List.mem_cons]
      exact ⟨fun a ha => ha.elim (fun e => e ▸ lt) fun ha => lt.trans (h.1 a ha), h⟩
    · next ge =>
      simp only [List.map_cons, List.pairwise_cons]
      refine ⟨fun a ha => ?_, ih h.2 fresh.2⟩
      rcases (mem_insertByNumber r xs a).mp ha with rfl | ha
      · omega
      · exact h.1 a ha

theorem filterMap_set_same {α β : Type} (f : α → Option β) (l : List α) (i : Nat) (a : α) (hi : i < l.length)
    (h : f a = f l[i]) : (l.set i a).filterMap f = l.filterMap f := by
  induction l generalizing i with
  | nil => rfl
  | cons x xs ih =>
    cases i with
    | zero => simp only [List.set_cons_zero, List.filterMap_cons, h, List.getElem_cons_zero]
    | succ i => simp only [List.set_cons_succ, List.filterMap_cons, ih i (by simpa using hi) (by simpa using h)]

theorem filterMap_set_add {α β : Type} (f : α → Option β) (l : List α) (i : Nat) (a : α) (b : β) (hi : i < l.length)
    (h1 : f l[i] = none) (h2 : f a = some b) : ((l.set i a).filterMap f).Perm (b :: l.filterMap f) := by
  induction l generalizing i with
  | nil => simp at hi
  | cons x xs ih =>
    cases i with
    | zero =>
      simp only [List.getElem_cons_zero] at h1
      simp [h1, h2]
    | succ i =>
      have := ih i (by simpa using hi) (by simpa using h1)
      simp only [List.set_cons_succ, List.filterMap_cons]
      cases f x with
      | none => exact this
      | some c => exact (this.cons c).trans (.swap ..)

/-- The search takes a number that is not taken (01, R17). -/
theorem searchFree_some {taken : Nat → Bool} {first last looks cur n : Nat}
    (h : searchFree taken first last looks cur = some n) : taken n = false := by
  induction looks generalizing cur with
  | zero => cases h
  | succ looks ih =>
    unfold searchFree at h
    split at h
    · exact ih h
    · next free => cases h; simpa using free

/-! ### Numbers in use -/

theorem findLot_none_iff (s : State) (n : Nat) : s.findLot n = none ↔ n ∉ s.lots.map LotRecord.number := by
  simp [State.findLot]

theorem findLot_number {s : State} {n : Nat} {l : LotRecord} (h : s.findLot n = some l) : l.number = n := by
  simpa using List.find?_some h

theorem numberInUse_false (s : State) (n : Nat) (h : s.numberInUse n = false) :
    n ∉ s.lots.map LotRecord.number ∧ n ∉ s.reservations := by
  simp only [State.numberInUse, Bool.or_eq_false_iff, Option.isSome_eq_false_iff, Option.isNone_iff_eq_none,
    List.contains_eq_mem, decide_eq_false_iff_not] at h
  exact ⟨(findLot_none_iff s n).mp h.1, h.2⟩

/-! ### Places that stay, and operations that keep R1 and R172 -/

/-- Lot numbers, reservations, CLOSING packs, label records and the serial counter are the same. -/
structure SamePlaces (s t : State) : Prop where
  numbers : t.lots.map LotRecord.number = s.lots.map LotRecord.number
  reserved : t.reservations = s.reservations
  closing : t.closingCount = s.closingCount
  labels : t.labels.length = s.labels.length
  serial : t.serial = s.serial

theorem SamePlaces.refl (s : State) : SamePlaces s s := ⟨rfl, rfl, rfl, rfl, rfl⟩

theorem SamePlaces.trans {s t u : State} (h : SamePlaces s t) (g : SamePlaces t u) : SamePlaces s u :=
  ⟨g.1.trans h.1, g.2.trans h.2, g.3.trans h.3, g.4.trans h.4, g.5.trans h.5⟩

/-- R1 and R172 are kept. -/
def PlacesKept (s t : State) : Prop := (TableSound s → TableSound t) ∧ (LabelsSound s → LabelsSound t)

theorem PlacesKept.refl (s : State) : PlacesKept s s := ⟨id, id⟩

theorem PlacesKept.trans {s t u : State} (h : PlacesKept s t) (g : PlacesKept t u) : PlacesKept s u :=
  ⟨g.1 ∘ h.1, g.2 ∘ h.2⟩

theorem slotsTaken_eq (s : State) : s.slotsTaken = (s.lots.map LotRecord.number).length + s.reservations.length := by
  simp [State.slotsTaken]

/-- R172 in its two parts: the places, and the serials still owed. -/
theorem labelsSound_iff (s : State) :
    LabelsSound s ↔ s.labels.length + s.closingCount ≤ Config.labelSlots ∧ s.closingCount ≤ s.serialsLeft := by
  simp only [LabelsSound, State.labelsReserved, Config.labelSlots]
  omega

theorem SamePlaces.kept {s t : State} (h : SamePlaces s t) : PlacesKept s t := by
  obtain ⟨h1, h2, h3, h4, h5⟩ := h
  constructor
  · simp only [TableSound, slotsTaken_eq, h1, h2]
    exact id
  · simp only [labelsSound_iff, State.serialsLeft, h3, h4, h5]
    exact id

theorem stackers_getElem (s : State) (st : StackerNo) (h : (st : Nat) < s.stackers.toList.length) :
    s.stackers.toList[(st : Nat)] = s.stacker st := by
  simp [State.stacker]

/-- A stacker whose CLOSING place has as many packs and the same reservation as before. -/
theorem samePlaces_setStacker (s : State) (st : StackerNo) (r : Stacker)
    (h1 : r.closing.isSome = (s.stacker st).closing.isSome)
    (h2 : (r.closing.bind fun c => c.redryLot) = ((s.stacker st).closing.bind fun c => c.redryLot)) :
    SamePlaces s (s.setStacker st r) := by
  have len : (st : Nat) < s.stackers.toList.length := by simp
  refine ⟨rfl, ?_, ?_, rfl, rfl⟩
  · simp only [State.reservations, State.setStacker, Vector.toList_set]
    exact filterMap_set_same _ _ _ _ len (by rw [stackers_getElem]; exact h2)
  · simp only [State.closingCount, State.setStacker, Vector.toList_set]
    rw [List.countP_set len, stackers_getElem]
    have pos : (s.stacker st).closing.isSome = true →
        0 < s.stackers.toList.countP fun x => x.closing.isSome := fun e => by
      refine List.countP_pos_iff.mpr ⟨s.stacker st, ?_, e⟩
      rw [← stackers_getElem s st len]
      exact List.getElem_mem len
    rw [h1]
    cases h : (s.stacker st).closing.isSome
    · simp
    · exact Nat.sub_add_cancel (pos h)

theorem samePlaces_raise (s : State) (c : AttnClass) : SamePlaces s (s.raise c) :=
  ⟨by simp, by simp [State.reservations], by simp [State.closingCount], by simp, by simp⟩

theorem samePlaces_modifyLot (s : State) (n : Nat) (f : LotRecord → LotRecord)
    (h : ∀ l, l.number = n → (f l).number = n) : SamePlaces s (s.modifyLot n f) := by
  refine ⟨?_, rfl, rfl, rfl, rfl⟩
  simp only [State.modifyLot, List.map_map]
  refine List.map_congr_left fun l _ => ?_
  simp only [Function.comp_apply]
  split
  · next e => rw [h l e, e]
  · rfl

theorem samePlaces_numberGiven (s : State) : SamePlaces s s.numberGiven := ⟨rfl, rfl, rfl, rfl, rfl⟩

theorem samePlaces_dequeue (s : State) (n : Nat) : SamePlaces s (s.dequeue n) := ⟨rfl, rfl, rfl, rfl, rfl⟩

theorem samePlaces_unblock (s : State) (st : StackerNo) : SamePlaces s (s.unblock st) :=
  samePlaces_setStacker s st _ rfl rfl

theorem samePlaces_judgeBlock (s : State) (p : BlockReason → Bool) (st : StackerNo) :
    SamePlaces s (s.judgeBlock p st).1 := by
  unfold State.judgeBlock
  split
  · exact samePlaces_unblock ..
  · exact .refl s

theorem samePlaces_raiseFreed (s : State) (b : Bool) : SamePlaces s (s.raiseFreed b) := by
  unfold State.raiseFreed
  split
  · exact samePlaces_raise ..
  · exact .refl s

theorem samePlaces_standOpen (s : State) (st : StackerNo) (p : Pack) : SamePlaces s (s.standOpen st p) :=
  samePlaces_setStacker s st _ rfl rfl

theorem samePlaces_blockStacker (s : State) (st : StackerNo) (r : BlockReason) : SamePlaces s (s.blockStacker st r) :=
  ((samePlaces_setStacker s st { s.stacker st with blocked := some r } rfl rfl).trans (samePlaces_raise ..)).trans
    (samePlaces_raise ..)

theorem samePlaces_onPack (s : State) (st : StackerNo) (n : Nat) (f : Pack → Pack) :
    SamePlaces s (s.onPack st n f) := by
  unfold State.onPack
  dsimp only
  split
  · next p c _ hc =>
    split
    · exact samePlaces_setStacker s st _ rfl rfl
    · split
      · exact samePlaces_setStacker s st _ (by simp [hc]) (by simp [hc])
      · exact .refl s
  · split
    · exact samePlaces_setStacker s st _ rfl rfl
    · exact .refl s
  · next c _ hc =>
    split
    · exact samePlaces_setStacker s st _ (by simp [hc]) (by simp [hc])
    · exact .refl s
  · exact .refl s

theorem samePlaces_dissolveEmpty (s : State) (st : StackerNo) (n : Nat) : SamePlaces s (s.dissolveEmpty st n) := by
  unfold State.dissolveEmpty
  split
  · split
    · exact samePlaces_setStacker s st _ rfl rfl
    · exact .refl s
  · exact .refl s

/-! ### The CLOSING place filled and emptied -/

/-- The CLOSING place of a stacker is filled. -/
theorem fill_closing (s : State) (st : StackerNo) (r : Stacker) (c : ClosingPack)
    (h1 : (s.stacker st).closing = none) (h2 : r.closing = some c) :
    (s.setStacker st r).closingCount = s.closingCount + 1 ∧
      (c.redryLot = none → (s.setStacker st r).reservations = s.reservations) ∧
      ∀ n, c.redryLot = some n → (s.setStacker st r).reservations.Perm (n :: s.reservations) := by
  have len : (st : Nat) < s.stackers.toList.length := by simp
  refine ⟨?_, fun e => ?_, fun n e => ?_⟩
  · simp only [State.closingCount, State.setStacker, Vector.toList_set]
    rw [List.countP_set len, stackers_getElem, h1, h2]
    simp
  · simp only [State.reservations, State.setStacker, Vector.toList_set]
    exact filterMap_set_same _ _ _ _ len (by rw [stackers_getElem, h1, h2]; simp [e])
  · simp only [State.reservations, State.setStacker, Vector.toList_set]
    exact filterMap_set_add _ _ _ _ n len (by rw [stackers_getElem, h1]; rfl) (by simp [h2, e])

/-- The CLOSING place of a stacker is emptied. -/
theorem empty_closing (s : State) (st : StackerNo) (r : Stacker) (c : ClosingPack)
    (h1 : (s.stacker st).closing = some c) (h2 : r.closing = none) :
    (s.setStacker st r).closingCount + 1 = s.closingCount ∧
      (c.redryLot = none → (s.setStacker st r).reservations = s.reservations) ∧
      ∀ n, c.redryLot = some n → s.reservations.Perm (n :: (s.setStacker st r).reservations) := by
  have back : (s.setStacker st r).setStacker st (s.stacker st) = s := by
    simp [State.setStacker, State.stacker]
  have := fill_closing (s.setStacker st r) st (s.stacker st) c (by simpa using h2) h1
  rw [back] at this
  exact ⟨this.1.symm, fun e => (this.2.1 e).symm, this.2.2⟩

/-- What a granted judgement says: no CLOSING pack, a label slot free, and for a redry pack a lot slot and a free number
(09, R155). -/
theorem judgeClose_granted {s : State} {st : StackerNo} {redry : Bool} {n : Option Nat}
    (h : s.judgeClose st redry = .granted n) :
    (s.stacker st).closing = none ∧ s.labelSlotFree = true ∧
      (redry = false → n = none) ∧
      ∀ m, n = some m → s.slotsTaken < Config.lotSlots ∧ s.numberInUse m = false := by
  unfold State.judgeClose at h
  split at h
  · cases h
  · next prior =>
    split at h
    · cases h
    · next labels =>
      refine ⟨by simpa using prior, by simpa using labels, ?_⟩
      split at h
      · next isRedry =>
        unfold State.judgeReservation at h
        split at h
        · cases h
        · next slots =>
          split at h
          · next m found =>
            cases h
            refine ⟨fun e => by simp [isRedry] at e, fun k e => ⟨by omega, ?_⟩⟩
            cases e
            exact searchFree_some found
          · cases h
      · cases h
        exact ⟨fun _ => rfl, fun m e => by cases e⟩

theorem makeClose_stacker (s : State) (st : StackerNo) (p : Pack) (why : CloseReason) (n : Option Nat) :
    (s.makeClose st p why n).stacker st =
      { s.stacker st with
        openPack := none, closing := some ⟨p, why, s.minute, n⟩, idleMinutes := 0, idleDue := false } := by
  unfold State.makeClose
  dsimp only
  split <;> simp [State.stacker, State.setStacker]

/-- A close under a granted judgement (09, R155; 01, R17). -/
theorem kept_makeClose (s : State) (st : StackerNo) (p : Pack) (why : CloseReason) (n : Option Nat)
    (prior : (s.stacker st).closing = none) (label : s.labelSlotFree = true)
    (slot : ∀ m, n = some m → s.slotsTaken < Config.lotSlots ∧ s.numberInUse m = false) :
    PlacesKept s (s.makeClose st p why n) := by
  have fill := fill_closing s st
    { s.stacker st with
      openPack := none, closing := some ⟨p, why, s.minute, n⟩, idleMinutes := 0, idleDue := false }
    ⟨p, why, s.minute, n⟩ prior rfl
  refine PlacesKept.trans (t := s.setStacker st
    { s.stacker st with
      openPack := none, closing := some ⟨p, why, s.minute, n⟩, idleMinutes := 0, idleDue := false }) ?_ ?_
  · constructor
    · rintro ⟨rise, nodup, apart, room⟩
      cases n with
      | none =>
        have same := fill.2.1 rfl
        exact ⟨rise, same ▸ nodup, same ▸ apart, by simp only [slotsTaken_eq, same] at room ⊢; exact room⟩
      | some m =>
        have perm := fill.2.2 m rfl
        obtain ⟨room', free⟩ := slot m rfl
        obtain ⟨new1, new2⟩ := numberInUse_false s m free
        refine ⟨rise, perm.nodup_iff.mpr (List.nodup_cons.mpr ⟨new2, nodup⟩), fun k hk => ?_, ?_⟩
        · rcases List.mem_cons.mp (perm.mem_iff.mp hk) with rfl | hk
          · exact new1
          · exact apart k hk
        · simp only [slotsTaken_eq, perm.length_eq, List.length_cons, State.setStacker_lots] at room' ⊢
          omega
    · rw [labelsSound_iff, labelsSound_iff, fill.1]
      have free : s.labels.length + s.labelsReserved < Config.labelSlots := of_decide_eq_true label
      have left : (s.setStacker st
          { s.stacker st with
            openPack := none, closing := some ⟨p, why, s.minute, n⟩, idleMinutes := 0, idleDue := false }).serialsLeft =
          s.serialsLeft := rfl
      simp only [State.labelsReserved, Config.labelSlots] at free
      rw [left, State.setStacker_labels, Config.labelSlots]
      omega
  · unfold State.makeClose
    dsimp only
    split
    · exact SamePlaces.kept ⟨rfl, rfl, rfl, rfl, rfl⟩
    · exact .refl _

/-- A completion: the reserved places become a record each (09, R164; 01, R19; 10, R171). -/
theorem kept_completePack (s : State) (st : StackerNo) (c : ClosingPack) (h : (s.stacker st).closing = some c) :
    PlacesKept s (s.completePack st c) := by
  unfold State.completePack
  dsimp only
  refine PlacesKept.trans ?_ ((samePlaces_raise ..).trans (samePlaces_raise ..)).kept
  -- the state after the redry lot and the label
  generalize ht : State.pushLabel _ st c (s.findLot c.pack.lot) = t
  have stack : t.stackers = s.stackers := by
    subst ht
    unfold State.pushLabel
    split <;> split <;> simp
  have closing : (t.stacker st).closing = some c := by rw [← h]; simp [State.stacker, stack]
  have counts : t.closingCount = s.closingCount ∧ t.reservations = s.reservations := by
    simp [State.closingCount, State.reservations, stack]
  have gone := empty_closing t st { t.stacker st with closing := none } c closing rfl
  have lots : t.lots = s.lots ∨ ∃ r, c.redryLot = some r.number ∧ t.lots = insertByNumber r s.lots := by
    subst ht
    unfold State.pushLabel
    split <;> split
    all_goals first
      | exact .inl rfl
      | exact .inr ⟨redryLotOf _ _ _ _ _, by assumption, rfl⟩
  constructor
  · rintro ⟨rise, nodup, apart, room⟩
    cases e : c.redryLot with
    | none =>
      have same := gone.2.1 e
      have lots' : t.lots = s.lots := lots.elim id fun ⟨r, hr, _⟩ => by simp [e] at hr
      refine ⟨?_, ?_, ?_, ?_⟩ <;>
        simp only [State.setStacker_lots, slotsTaken_eq, same, counts.2, lots'] at * <;> assumption
    | some n =>
      have perm := gone.2.2 n e
      rw [counts.2] at perm
      have nodup' := List.nodup_cons.mp (perm.nodup_iff.mp nodup)
      have mem : n ∈ s.reservations := perm.mem_iff.mpr (List.mem_cons_self ..)
      have len := perm.length_eq
      simp only [List.length_cons] at len
      rcases lots with same | ⟨r, hr, ins⟩
      · refine ⟨?_, nodup'.2, fun k hk => ?_, ?_⟩
        · simpa [same] using rise
        · simpa [same] using apart k (perm.mem_iff.mpr (List.mem_cons_of_mem _ hk))
        · simp only [slotsTaken_eq, State.setStacker_lots, same] at room ⊢
          omega
      · rw [e] at hr
        cases hr
        refine ⟨?_, nodup'.2, fun k hk => ?_, ?_⟩
        · simpa [ins] using insertByNumber_rising r s.lots rise (apart _ mem)
        · simp only [State.setStacker_lots, ins, mem_insertByNumber, not_or]
          exact ⟨fun e => nodup'.1 (e ▸ hk), apart k (perm.mem_iff.mpr (List.mem_cons_of_mem _ hk))⟩
        · simp only [slotsTaken_eq, State.setStacker_lots, ins, List.length_map, length_insertByNumber] at room ⊢
          omega
  · rw [labelsSound_iff, labelsSound_iff]
    rintro ⟨room, owed⟩
    have pos : 0 < s.closingCount := by have := gone.1; omega
    have label : t.labels.length = s.labels.length + 1 ∧ t.serialsLeft + 1 = s.serialsLeft := by
      cases ser : s.serial with
      | none => simp only [State.serialsLeft, ser] at owed; omega
      | some m =>
        have le : m ≤ Config.serialMax := by simp only [State.serialsLeft, ser] at owed; omega
        subst ht
        have push (u : State) (hu : u.serial = s.serial) (hl : u.labels = s.labels) :
            (u.pushLabel st c (s.findLot c.pack.lot)).labels.length = s.labels.length + 1 ∧
              (u.pushLabel st c (s.findLot c.pack.lot)).serialsLeft + 1 = s.serialsLeft := by
          simp only [State.pushLabel, hu, ser, State.serialsLeft, hl, List.length_append, List.length_cons,
            List.length_nil, serialAfter, true_and]
          by_cases last : m = Config.serialMax
          · simp [last]
          · simp only [last, if_false]; omega
        split
        · exact push _ rfl rfl
        · exact push _ rfl rfl
    have left : (t.setStacker st { t.stacker st with closing := none }).serialsLeft = t.serialsLeft := rfl
    have minus := gone.1
    rw [left, State.setStacker_labels]
    generalize (t.setStacker st { t.stacker st with closing := none }).closingCount = n at minus ⊢
    omega

/-- A discard returns its reservations (09, R165; 01, R18). -/
theorem kept_discardPlace (s : State) (st : StackerNo) (c : ClosingPack) (h : (s.stacker st).closing = some c) :
    PlacesKept s (s.setStacker st { s.stacker st with closing := none }) := by
  have gone := empty_closing s st { s.stacker st with closing := none } c h rfl
  constructor
  · rintro ⟨rise, nodup, apart, room⟩
    cases e : c.redryLot with
    | none =>
      have same := gone.2.1 e
      exact ⟨rise, same ▸ nodup, same ▸ apart, by simp only [slotsTaken_eq, same] at room ⊢; exact room⟩
    | some n =>
      have perm := gone.2.2 n e
      have len := perm.length_eq
      simp only [List.length_cons] at len
      refine ⟨rise, (List.nodup_cons.mp (perm.nodup_iff.mp nodup)).2,
        fun k hk => apart k (perm.mem_iff.mpr (List.mem_cons_of_mem _ hk)), ?_⟩
      simp only [slotsTaken_eq, State.setStacker_lots] at room ⊢
      omega
  · rw [labelsSound_iff, labelsSound_iff]
    have minus := gone.1
    have left : (s.setStacker st { s.stacker st with closing := none }).serialsLeft = s.serialsLeft := rfl
    rw [left, State.setStacker_labels]
    generalize (s.setStacker st { s.stacker st with closing := none }).closingCount = n at minus ⊢
    omega

/-! ### Re-examination, completion and placement -/

theorem kept_completeAndJudge (s : State) (st : StackerNo) (c : ClosingPack) (h : (s.stacker st).closing = some c) :
    PlacesKept s (s.completeAndJudge st c) :=
  (kept_completePack s st c h).trans ((samePlaces_judgeBlock ..).trans (samePlaces_raiseFreed ..)).kept

theorem kept_attemptIdleClose (s : State) (st : StackerNo) (p : Pack) : PlacesKept s (s.attemptIdleClose st p) := by
  unfold State.attemptIdleClose
  split
  · exact (samePlaces_setStacker s st { s.stacker st with idleDue := true } rfl rfl).kept
  · next n granted =>
    obtain ⟨prior, label, -, slot⟩ := judgeClose_granted granted
    have closed := kept_makeClose s st p .idle n prior label slot
    dsimp only
    split
    · exact closed.trans (kept_completeAndJudge _ st _ (by rw [makeClose_stacker]))
    · exact closed

theorem kept_retryIdleClose (s : State) (st : StackerNo) : PlacesKept s (s.retryIdleClose st) := by
  unfold State.retryIdleClose
  split
  · split
    · exact kept_attemptIdleClose ..
    · exact .refl s
  · exact .refl s

theorem kept_examineOver (p : StackerNo → BlockReason → Bool) (l : List StackerNo) :
    ∀ s, PlacesKept s (State.examineOver p s l).1 := by
  induction l with
  | nil => exact fun s => .refl s
  | cons st l ih => exact fun s => ((samePlaces_judgeBlock ..).kept.trans (kept_retryIdleClose ..)).trans (ih _)

theorem kept_reexamine (s : State) (l : List StackerNo) (p : StackerNo → BlockReason → Bool) :
    PlacesKept s (s.reexamine l p) := (kept_examineOver p l s).trans (samePlaces_raiseFreed ..).kept

theorem kept_complete (s : State) (st : StackerNo) (c : ClosingPack) (h : (s.stacker st).closing = some c) :
    PlacesKept s (s.complete st c) := (kept_completePack s st c h).trans (kept_reexamine ..)

theorem kept_discard (s : State) (st : StackerNo) (c : ClosingPack) (h : (s.stacker st).closing = some c) :
    PlacesKept s (s.discard st) := (kept_discardPlace s st c h).trans (kept_reexamine ..)

theorem standOpen_closing (s : State) (st : StackerNo) (p : Pack) :
    ((s.standOpen st p).stacker st).closing = (s.stacker st).closing := by
  simp [State.standOpen]

theorem kept_place (s : State) (st : StackerNo) (b : Placing) : PlacesKept s (s.place st b).1 := by
  unfold State.place
  split
  · exact .refl s
  · split
    · exact (samePlaces_blockStacker ..).kept
    · next p why n need granted =>
      have judged : s.judgeClose st p.isRedry = .granted n := by simpa [State.needJudged, need] using granted
      obtain ⟨prior, label, -, slot⟩ := judgeClose_granted judged
      have closed := kept_makeClose s st p why n prior label slot
      dsimp only
      have opened := ((samePlaces_numberGiven (s.makeClose st p why n)).trans
        (samePlaces_standOpen _ st ((s.makeClose st p why n).openedPack st b))).kept
      split
      · refine (closed.trans opened).trans (kept_complete _ st _ ?_)
        rw [standOpen_closing]
        exact congrArg Stacker.closing (makeClose_stacker s st p why n)
      · exact closed.trans opened
    · next p n need granted =>
      have judged : s.judgeClose st p.isRedry = .granted n := by simpa [State.needJudged, need] using granted
      obtain ⟨prior, label, -, slot⟩ := judgeClose_granted judged
      exact kept_makeClose s st _ .count n prior label slot
    · next n need granted =>
      have judged : s.judgeClose st (b.bin == redryBin) = .granted n := by
        simpa [State.needJudged, need] using granted
      obtain ⟨prior, label, -, slot⟩ := judgeClose_granted judged
      exact (samePlaces_numberGiven s).kept.trans (kept_makeClose s.numberGiven st _ .count n prior label slot)
    · exact (samePlaces_standOpen ..).kept
    · exact ((samePlaces_numberGiven s).trans (samePlaces_standOpen ..)).kept

theorem kept_settlePack (s : State) (st : StackerNo) (n : Nat) : PlacesKept s (s.settlePack st n).1 := by
  unfold State.settlePack
  split
  · next c h =>
    split
    · unfold State.endClosing
      split
      · split
        · exact kept_complete s st c h
        · exact kept_discard s st c h
      · exact .refl s
    · exact (samePlaces_dissolveEmpty ..).kept
  · exact (samePlaces_dissolveEmpty ..).kept

theorem kept_leavePack (s : State) (b : Board) (f : Pack → Pack) : PlacesKept s (s.leavePack b f).1 := by
  unfold State.leavePack
  split
  · exact (samePlaces_onPack ..).kept.trans (kept_settlePack ..)
  · exact .refl s

theorem onPair_number (l : LotRecord) (d : Disposition) (f : Tally → Tally) : (l.onPair d f).number = l.number := by
  cases d <;> rfl

theorem loseBoard_number (l : LotRecord) (d : Disposition) (ft mc : Nat) (v : Bool) :
    (l.loseBoard d ft mc v).number = l.number := by
  unfold LotRecord.loseBoard
  dsimp only
  split <;> simp [onPair_number]

theorem count_number (l : LotRecord) (d : Disposition) (ft mc : Nat) (v : Bool) :
    (l.count d ft mc v).number = l.number := by
  unfold LotRecord.count
  dsimp only
  split <;> simp [onPair_number]

theorem afterBoard_number (l : LotRecord) (d : Disposition) (ft mc : Nat) (v : Bool) :
    (l.afterBoard d ft mc v).number = l.number := by
  unfold LotRecord.afterBoard
  dsimp only
  split <;> simp [LotRecord.withState, count_number]

theorem kept_loseBoard (s : State) (b : Board) : PlacesKept s (s.loseBoard b).1 :=
  ((samePlaces_dequeue ..).trans
    (samePlaces_modifyLot _ _ _ fun _ e => (loseBoard_number ..).trans e)).kept.trans (kept_leavePack ..)

theorem kept_foldl {α : Type} (f : State → α → State) (hf : ∀ s a, PlacesKept s (f s a)) (l : List α) :
    ∀ s, PlacesKept s (l.foldl f s) := by
  induction l with
  | nil => exact fun s => .refl s
  | cons a l ih => exact fun s => (hf s a).trans (ih _)

theorem kept_purge (s : State) : PlacesKept s s.purge := kept_foldl _ kept_loseBoard _ s

theorem kept_measureBoard (q : MeasureBody) (ov : Bool) (bin : BinNo) (l : LotRecord) (s : State) :
    PlacesKept s (measureBoard q ov bin l s).1 := by
  have carry (b : Placing) (r : Route) : PlacesKept s (s.carryOut b r).1 := by
    unfold State.carryOut
    split
    · exact .refl s
    · dsimp only
      split <;> exact kept_place ..
  have join (t : State) (b : Board) : PlacesKept t (t.joinQueue b) := by
    have joined : SamePlaces t { t with queue := t.queue ++ [b], nextSeq := following 1 65535 b.seq } :=
      ⟨rfl, rfl, rfl, rfl, rfl⟩
    unfold State.joinQueue
    dsimp only
    split
    · exact joined.kept.trans (samePlaces_onPack ..).kept
    · exact joined.kept
  have count (t : State) (p : Placed) (r : Reading) : PlacesKept t (t.countBoard l p r) := by
    have lots := samePlaces_modifyLot t l.number
      (fun x => x.afterBoard p.disposition r.footage r.mc r.verified) fun x e => (afterBoard_number ..).trans e
    unfold State.countBoard
    dsimp only
    split
    · exact ((lots.trans (samePlaces_raise _ .officeLotHeld)).trans (samePlaces_raise ..)).kept
    · exact lots.kept
  unfold measureBoard
  dsimp only
  split
  · exact .refl s
  · exact ((carry ..).trans (join ..)).trans (count ..)

theorem kept_idleStacker (s : State) (st : StackerNo) : PlacesKept s (s.idleStacker st) := by
  unfold State.idleStacker
  split
  · exact .refl s
  · next p _ =>
    dsimp only
    have one (n : Nat) : PlacesKept s (s.setStacker st { s.stacker st with idleMinutes := n }) :=
      (samePlaces_setStacker s st { s.stacker st with idleMinutes := n } rfl rfl).kept
    split
    · split
      · exact (one _).trans (kept_attemptIdleClose ..)
      · exact one _
    · split
      · exact kept_attemptIdleClose ..
      · exact .refl s

theorem kept_idleStackers (s : State) : PlacesKept s s.idleStackers := by
  unfold State.idleStackers
  split
  · exact .refl s
  · exact kept_foldl _ kept_idleStacker _ s

end Sys2Proof.Machine
end

