-- ==== Sys2Proof/Laws/Purge.lean ====
section
/-! SUPPORT. What the closing, completion, discard and loss of packs leave beside the queue and the next numbers, and the purge of the
queue at a start-up (08, R147; 09, R159 to R165). -/

namespace Sys2Proof.Machine

/-- `t` is `s` but for ports, lots, stackers, labels and the next redry number: the queue and the next sequence and pack numbers
stay. -/
structure NumbersKept (s t : State) : Prop where
  rest : t = { s with
    officePort := t.officePort, kilnHousePort := t.kilnHousePort, planerPort := t.planerPort, lots := t.lots,
    redryNext := t.redryNext, stackers := t.stackers, labels := t.labels, serial := t.serial }

theorem NumbersKept.refl (s : State) : NumbersKept s s := ⟨rfl⟩

theorem NumbersKept.trans {s t u : State} (h : NumbersKept s t) (g : NumbersKept t u) : NumbersKept s u := by
  obtain ⟨h⟩ := h
  obtain ⟨g⟩ := g
  constructor
  rw [g]
  simp only
  rw [h]

theorem numbersKept_setStacker (s : State) (st : StackerNo) (r : Stacker) : NumbersKept s (s.setStacker st r) := ⟨rfl⟩

theorem numbersKept_raise (s : State) (c : AttnClass) : NumbersKept s (s.raise c) := ⟨by cases c <;> rfl⟩

theorem numbersKept_onPack (s : State) (st : StackerNo) (n : Nat) (f : Pack → Pack) : NumbersKept s (s.onPack st n f) := by
  unfold State.onPack
  dsimp only
  split <;> (repeat' split) <;> first | exact .refl _ | exact numbersKept_setStacker ..

theorem numbersKept_judgeBlock (s : State) (p : BlockReason → Bool) (st : StackerNo) :
    NumbersKept s (s.judgeBlock p st).1 := by
  unfold State.judgeBlock
  split
  · exact numbersKept_setStacker ..
  · exact .refl _

theorem numbersKept_raiseFreed (s : State) (b : Bool) : NumbersKept s (s.raiseFreed b) := by
  unfold State.raiseFreed
  split
  · exact numbersKept_raise ..
  · exact .refl _

theorem numbersKept_pushLabel (s : State) (st : StackerNo) (c : ClosingPack) (l : Option LotRecord) :
    NumbersKept s (s.pushLabel st c l) := by
  unfold State.pushLabel
  split <;> exact ⟨rfl⟩

theorem numbersKept_completePack (s : State) (st : StackerNo) (c : ClosingPack) : NumbersKept s (s.completePack st c) := by
  unfold State.completePack
  dsimp only
  refine .trans ?_ (numbersKept_raise _ _)
  refine .trans ?_ (numbersKept_raise _ _)
  refine .trans ?_ (numbersKept_setStacker _ _ _)
  refine .trans ?_ (numbersKept_pushLabel _ _ _ _)
  split <;> exact ⟨rfl⟩

theorem numbersKept_completeAndJudge (s : State) (st : StackerNo) (c : ClosingPack) :
    NumbersKept s (s.completeAndJudge st c) :=
  ((numbersKept_completePack s st c).trans (numbersKept_judgeBlock ..)).trans (numbersKept_raiseFreed ..)

theorem numbersKept_makeClose (s : State) (st : StackerNo) (p : Pack) (why : CloseReason) (n : Option Nat) :
    NumbersKept s (s.makeClose st p why n) := by
  unfold State.makeClose
  dsimp only
  split <;> exact ⟨rfl⟩

theorem numbersKept_attemptIdleClose (s : State) (st : StackerNo) (p : Pack) : NumbersKept s (s.attemptIdleClose st p) := by
  unfold State.attemptIdleClose
  split
  · exact numbersKept_setStacker ..
  · dsimp only
    split
    · exact (numbersKept_makeClose ..).trans (numbersKept_completeAndJudge ..)
    · exact numbersKept_makeClose ..

theorem numbersKept_retryIdleClose (s : State) (st : StackerNo) : NumbersKept s (s.retryIdleClose st) := by
  unfold State.retryIdleClose
  split
  · split
    · exact numbersKept_attemptIdleClose ..
    · exact .refl _
  · exact .refl _

theorem numbersKept_reexamine (s : State) (l : List StackerNo) (p : StackerNo → BlockReason → Bool) :
    NumbersKept s (s.reexamine l p) := by
  have : ∀ l s, NumbersKept s (State.examineOver p s l).1 := by
    intro l
    induction l with
    | nil => intro s; exact .refl _
    | cons a as ih =>
      intro s
      unfold State.examineOver
      exact ((numbersKept_judgeBlock ..).trans (numbersKept_retryIdleClose ..)).trans (ih _)
  exact (this l s).trans (numbersKept_raiseFreed ..)

theorem numbersKept_settlePack (s : State) (st : StackerNo) (n : Nat) : NumbersKept s (s.settlePack st n).1 := by
  have d : NumbersKept s (s.dissolveEmpty st n) := by
    unfold State.dissolveEmpty
    split
    · split
      · exact numbersKept_setStacker ..
      · exact .refl _
    · exact .refl _
  unfold State.settlePack
  split
  · split
    · unfold State.endClosing
      split
      · split
        · exact (numbersKept_completePack ..).trans (numbersKept_reexamine ..)
        · exact (numbersKept_setStacker ..).trans (numbersKept_reexamine ..)
      · exact .refl _
    · exact d
  · exact d

theorem numbersKept_leavePack (s : State) (b : Board) (f : Pack → Pack) : NumbersKept s (s.leavePack b f).1 := by
  unfold State.leavePack
  split
  · exact (numbersKept_onPack ..).trans (numbersKept_settlePack ..)
  · exact .refl _

/-- A board handled as lost leaves the queue, and the numbers stay (08, R142). -/
theorem numbersKept_loseBoard (s : State) (b : Board) : NumbersKept (s.dequeue b.seq) (s.loseBoard b).1 := by
  unfold State.loseBoard
  exact .trans ⟨rfl⟩ (numbersKept_leavePack ..)

/-- The purge empties the queue and leaves the next numbers (08, R147). -/
theorem numbersKept_purge (s : State) : NumbersKept { s with queue := [] } s.purge := by
  have main : ∀ (q : List Board) (s : State), s.queue = q →
      NumbersKept { s with queue := [] } (q.foldl (fun s b => (s.loseBoard b).1) s) := by
    intro q
    induction q with
    | nil =>
      intro s h
      have e : { s with queue := [] } = s := by cases s; simp_all
      rw [e]; exact .refl _
    | cons b q ih =>
      intro s h
      have e : s.dequeue b.seq = { s with queue := q } := by unfold State.dequeue; rw [h]; simp
      have k := numbersKept_loseBoard s b
      rw [e] at k
      have hq : (s.loseBoard b).1.queue = q := by rw [k.rest]
      refine .trans ?_ (ih _ hq)
      obtain ⟨k⟩ := k
      constructor
      dsimp only
      generalize (s.loseBoard b).1 = t at k ⊢
      rw [k]
  exact main _ _ rfl

end Sys2Proof.Machine
end

