-- ==== Sys2Proof/Laws/Serve.lean ====
section
/-! SUPPORT. What serving a good frame can do (11, R179, R182), said once: every request answers a next state, discarded,
abandoned, refused before its rule, or by its own rule. -/

namespace Sys2Proof.Machine

variable {α : Type} {kind : Nat} {f : Request} {read : List Byte → Option α} {rule : α → State → State × Reply} {s : State}

/-- A frame that its link takes and serves, of a length that agrees, is answered by its own rule (R182). -/
theorem serve_taken {q : α} (hl : s.listens f.link = true) (hb : f.body.length ≤ 248) (hs : served kind f.link = true)
    (hr : read f.body = some q) :
    serve kind f read rule s = .next ((rule q s).1.answer kind f (rule q s).2) := by
  unfold serve
  rw [if_pos hl, if_neg (by simp [Config.bodyMax]; omega), if_pos hs]
  simp only [hr]

/-- The same, for a frame heard on a named link. -/
theorem serve_heard {q : α} {l : Link} (h : Heard s f l) (hb : f.body.length ≤ 248) (hs : served kind l = true)
    (hr : read f.body = some q) :
    serve kind f read rule s = .next ((rule q s).1.answer kind f (rule q s).2) := by
  obtain ⟨rfl, hl⟩ := h
  exact serve_taken hl hb hs hr

/-- The same, for a kind that every link serves. -/
theorem serve_everyLink {q : α} (hl : s.listens f.link = true) (hb : f.body.length ≤ 248) (hs : ∀ l, served kind l = true)
    (hr : read f.body = some q) :
    serve kind f read rule s = .next ((rule q s).1.answer kind f (rule q s).2) := serve_taken hl hb (hs _) hr

/-- A link that does not listen discards the frame (R179). -/
theorem serve_discarded (hl : s.listens f.link = false) : serve kind f read rule s = .next s := by
  unfold serve
  rw [if_neg (by simp [hl])]

/-- A kind that the link does not serve is answered with NOT_PERMITTED (R182, check 2). -/
theorem serve_notPermitted (hl : s.listens f.link = true) (hb : f.body.length ≤ 248) (hs : served kind f.link = false) :
    serve kind f read rule s = .next (s.answer kind f (.refuse .notPermitted)) := by
  unfold serve
  rw [if_pos hl, if_neg (by simp [Config.bodyMax]; omega), if_neg (by simp [hs])]

/-- A body without a reading is answered with BAD_LENGTH (R182, check 3). -/
theorem serve_badLength (hl : s.listens f.link = true) (hb : f.body.length ≤ 248) (hs : served kind f.link = true)
    (hr : read f.body = none) : serve kind f read rule s = .next (s.answer kind f (.refuse .badLength)) := by
  unfold serve
  rw [if_pos hl, if_neg (by simp [Config.bodyMax]; omega), if_pos hs]
  simp only [hr]

/-- All that serving a frame can answer. -/
theorem serve_cases {t : State} (h : serve kind f read rule s = .next t) :
    t = s ∨ t = s.setReceiver f.link .hunting ∨ (∃ st, t = s.answer kind f (.refuse st)) ∨
      ∃ q, read f.body = some q ∧ t = (rule q s).1.answer kind f (rule q s).2 := by
  unfold serve at h
  injection h with h
  split at h
  · split at h
    · exact .inr (.inl h.symm)
    · split at h
      · split at h
        · exact .inr (.inr (.inl ⟨_, h.symm⟩))
        · exact .inr (.inr (.inr ⟨_, ‹_›, h.symm⟩))
      · exact .inr (.inr (.inl ⟨_, h.symm⟩))
  · exact .inl h.symm

/-- An event while the part runs. -/
theorem whileRunning_running {event : State → State} (h : s.condition = .running) : whileRunning s event = .next (event s) := by
  unfold whileRunning; rw [if_pos h]

theorem whileRunning_stopped {event : State → State} (h : s.condition ≠ .running) : whileRunning s event = .next s := by
  unfold whileRunning; rw [if_neg h]

@[simp] theorem placeOf_val {n : Nat} (k : Fin n) : placeOf n k.val = some k := by
  simp [placeOf]

end Sys2Proof.Machine
end

