-- ==== Sys2Proof/Tests/Slice0.lean ====
section
/-! SUPPORT. Tests: the worked cases of the manual, one small step for each command, ill-formed terms that `Instr.wf` refuses, and
for each obligation with hypotheses a state and operands that meet them (`witness_…`). Expected values are the manual's or worked
out from its rules by hand. -/

open Sys2Proof Sys2Proof.Machine

namespace Sys2Proof.Tests

/-! ### Small states -/

/-- A request of tag 7. -/
def req (l : Link) (body : List Byte) : Request := ⟨l, 7, body⟩

/-- The state a command leads to. -/
def after (o : Host.Outcome State Fault Refusal) : State :=
  match o with
  | .next t => t
  | .fault _ => State.reset
  | .refused _ => State.reset

/-- The state after a command. -/
def run (i : Instr) (s : State) : State := after (exec i s)

/-- The status and content of the response a command leads to on a link. -/
def reply (l : Link) (i : Instr) (s : State) : Option (Status × List Byte) :=
  match ((run i s).port l).receiver with
  | .taking r => some (r.status, r.content)
  | .hunting => none
  | .receiving => none
  | .answering _ => none

/-- Red oak by the table of 03, section 3.4. -/
def redOak : Species := ⟨[0x72, 0x6F], 940, 8⟩

/-- The first and the last step of schedule 41 (02, worked example). -/
def oak : Schedule :=
  ⟨41, [], [⟨.heatup, 430, 30, 10, .drybulbReached, 60, 720⟩, ⟨.cool, 300, 0, 0, .drybulbAtOrBelow 350, 120, 1440⟩]⟩

/-- A lot of red oak with target 80, tolerance 10 and redry limit 80. -/
def lot (n : Nat) (st : LotState) : LotRecord := newLot n 3 4 80 10 80 st 0 none

/-- The part with red oak as species 3, schedule 41 and some lots. -/
def table (lots : List LotRecord) : State :=
  { State.reset with species := State.reset.species.set 3 (some redOak), schedules := [oak], lots := lots }

/-- A context that names schedule 41 and holds lot 2217. -/
def contextIn (st : KilnState) : KilnContext :=
  { KilnContext.unused with state := st, scheduleId := some 41, charge := [2217] }

/-- The part with the master enable set and kiln K2 in a state, with a heat record and at a step. -/
def house (st : KilnState) (h : HeatRecord) (index : Nat) : State :=
  { table [lot 2217 .inKiln] with
    masterEnable := true, heat := State.reset.heat.set 2 h,
    kilns := State.reset.kilns.set 2
      { contextIn st with runEnable := st.isOn, stepIndex := index, stepEntered := some 0 } }

/-- A pack of lot 2217 and bin 4, empty. -/
def emptyPack : Pack :=
  { number := 910, lot := 2217, bin := 4, countLimit := 250, footageLimit := 0, idleTime := 60, boards := 0, footage := 0,
    verifiedBoards := 0, verifiedFootage := 0, mcSum := 0, saturated := false, highest := none, outstanding := 0,
    openedMinute := 0 }

/-- The same with two verified boards, some of them outstanding. -/
def twoBoards (outstanding : Nat) : Pack :=
  { (emptyPack.addBoard 650 121 true).addBoard 1250 108 true with outstanding := outstanding }

/-- A board of 6.50 bf and MC 121 of lot 2217 for a stacker, with a pack or none. -/
def board (seq : Nat) (d : Disposition) (dest : Destination) (p : Option Nat) : Board :=
  { seq := seq, lot := 2217, thickness := 4, width := 26, length := 12, footage := 650, bin := 4, raw := 118,
    overRange := false, temperature := 8, mc := 121, verified := true, disposition := d, destination := dest, pack := p,
    measureMinute := 0 }

/-- The part with lot 2217 in PLANING, bin 4 mapped to S3, and S3 and the queue as given. -/
def line (r : Stacker) (q : List Board) : State :=
  { table [lot 2217 .planing] with
    binMap := State.reset.binMap.set 4 (.stacker 3), stackers := State.reset.stackers.set 3 r, queue := q }

/-- S3 with an OPEN pack. -/
def standing (p : Pack) : Stacker := { Stacker.unused with openPack := some p }

/-- S3 with a CLOSING pack. -/
def closingStack (p : Pack) (redry : Option Nat) : Stacker :=
  { Stacker.unused with closing := some ⟨p, .operator, 0, redry⟩ }

/-- A MEASURE body for lot 2217 (08A9h): dimensions, bin, raw reading, temperature. -/
def measureBody (t w len bin raw temp : Byte) : List Byte := [0x08, 0xA9, t, w, len, bin, 0, raw, 0, temp]

/-! ### Which commands can come about -/

theorem test_wf_refuses_long_body : (Instr.ident (req .office (List.replicate 249 0))).wf = false := by decide +kernel
theorem test_wf_takes_longest_body : (Instr.ident (req .office (List.replicate 248 0))).wf = true := by decide +kernel
theorem test_wf_refuses_served_kind : (Instr.unknownKind 0x05 (req .office [])).wf = false := by decide
theorem test_wf_refuses_kind_80h : (Instr.unknownKind 0x80 (req .office [])).wf = false := by decide
theorem test_wf_takes_unknown_kind : (Instr.unknownKind 0x17 (req .office [])).wf = true := by decide
theorem test_wf_refuses_unabandoned : (Instr.frameAbandoned .planer [0, 1, 7]).wf = false := by decide
theorem test_wf_takes_abandoned : (Instr.frameAbandoned .planer [249]).wf = true := by decide

/-- No word spells a command. -/
theorem test_decode_nothing : decodeTableWord 8 1 = none ∧ State.reset.withFetchWord 8 1 = State.reset := by decide

/-! ### Arithmetic: the worked cases of chapter 3 -/

theorem test_divisions : divHalfUp 355 2 = 178 ∧ divHalfUp 908 3 = 303 ∧ divHalfAway (-35600) 1000 = -36 ∧
    divHalfAway (-2500) 1000 = -3 := by decide

theorem test_odw : odwOf 4250 782 = 2385 ∧ odwOf 100 2000 = 33 ∧ odwOf 30000 50 = 28571 := by decide

theorem test_weighings : [4250, 2870, 2300, 4770, 8000].map (fun w => (sampleMc w 2385, sampleClamped w 2385)) =
    [(782, false), (203, false), (0, true), (1000, false), (2000, true)] := by decide +kernel

theorem test_coarse_odw : sampleMc 100 33 = 2000 ∧ sampleClamped 100 33 = true := by decide

theorem test_figures : figuresOf [312, 287, 295, 260, 301] = ⟨some 303, some 260, some 312⟩ ∧
    figuresOf [180, 175, 150, 140] = ⟨some 178, some 140, some 180⟩ ∧ figuresOf [180, 150] = ⟨some 180, some 150, some 180⟩ ∧
    figuresOf [150] = ⟨none, none, none⟩ ∧
    figuresOf [151, 151, 149, 149, 0, 0, 0, 0] = ⟨some 150, some 0, some 151⟩ := by decide

/-- Four samples weighed at minute 50,000 and three times at 51,300. -/
def agedSamples : List Sample :=
  [⟨1, 4250, 782, 2385, 2870, 180, false, 50000⟩, ⟨2, 4250, 782, 2385, 2870, 175, false, 51300⟩,
    ⟨3, 4250, 782, 2385, 2870, 150, false, 51300⟩, ⟨4, 4250, 782, 2385, 2870, 140, false, 51300⟩]

theorem test_freshness : freshAt 51440 ⟨some 178, some 140, some 180⟩ agedSamples = true ∧
    freshAt 51441 ⟨some 178, some 140, some 180⟩ agedSamples = false := by decide

theorem test_corrected_mc : correctedMc 118 false 8 940 8 = 121 ∧ correctedMc 100 false 20 1005 4 = 101 ∧
    correctedMc 96 false (-4) 1020 9 = 120 ∧ correctedMc 20 false 60 600 50 = 0 ∧
    correctedMc 999 false (-45) 1500 50 = 999 ∧ correctedMc 0 true 12 940 8 = 999 := by decide

theorem test_verified : verifiedAt (-4) = false ∧ verifiedAt (-45) = false ∧ verifiedAt 60 = true ∧ verifiedAt 0 = true := by
  decide

theorem test_footage : boardFootage 4 26 12 = 650 ∧ boardFootage 8 30 10 = 1250 ∧ boardFootage 4 9 6 = 113 ∧
    boardFootage 4 8 4 = 67 ∧ boardFootage 16 64 20 = 10667 ∧ boardFootage 4 70 22 = 2667 := by decide

theorem test_dimension_fault : dimensionFault 4 70 22 = true ∧ dimensionFault 16 64 20 = false := by decide

theorem test_pack_mean : (twoBoards 0).mcSum = 213650 ∧ ((twoBoards 0).addBoard 650 115 false).mean = some 112 ∧
    ((twoBoards 0).addBoard 650 115 false).highest = some 121 := by decide

theorem test_pack_losses : ((twoBoards 0).removeBoard 1250 108 true).mean = some 121 ∧
    ((((twoBoards 0).addBoard 650 115 false).removeBoard 1250 108 true).removeBoard 650 121 true).highest = none := by decide

theorem test_pack_saturates : (Pack.addBoard { emptyPack with mcSum := 4294502199, verifiedBoards := 403 } 10667 999 true).mcSum =
    4294967295 ∧ (Pack.addBoard { emptyPack with mcSum := 4294502199, verifiedBoards := 403 } 10667 999 true).mean = none := by
  decide

theorem test_means : ({ lot 2217 .planing with verifiedBoards := 4, verifiedMcSum := 471 } : LotRecord).planerMean = some 118 ∧
    ({ emptyPack with verifiedBoards := 4, verifiedFootage := 3200, mcSum := 370950 } : Pack).mean = some 116 := by decide

theorem test_redry_fraction : redryFractionAbove 18400 1850 80 = true ∧ redryFractionAbove 18400 1850 91 = false ∧
    redryFractionAbove 17000 2900 80 = false ∧ redryFractionAbove 0 20000 500 = true := by decide

/-- The check of the generator over the characters 1 to 9 is 29B1h, its published figure. -/
theorem test_frame_check : frameCheck [0x31, 0x32, 0x33, 0x34, 0x35, 0x36, 0x37, 0x38, 0x39] = 0x29B1 := by
  decide +kernel

/-- A5h, 10100101, goes out from its least significant bit between a start and a stop bit. -/
theorem test_charLevels : charLevels 0xA5 = [false, true, false, true, false, false, true, false, true, true] ∧
    bytesHeard (charLevels 0xA5 ++ charLevels 0x0D) = some [0xA5, 0x0D] := by decide

/-! ### Links and attention -/

theorem test_ident : reply .office (.ident (req .office [])) State.reset = some (.done, [0x0D, 0x16, 1, 2]) := by decide

theorem test_clockRead : reply .planer (.clockRead (req .planer [])) { State.reset with minute := 4294967295 } =
    some (.done, [0xFF, 0xFF, 0xFF, 0xFF, 1]) := by decide

theorem test_attentionTake : reply .office (.attentionTake (req .office [])) State.reset = some (.done, [6, 0, 0, 0]) := by decide

/-- The shift change of section 11.3: HEAT_WAIT (bit 3) masked is not recorded; LABEL_READY and LOT_HELD are. -/
theorem test_attentionMask : ((((run (.attentionMask (req .office [0, 8])) State.reset).raise .heatWait).raise
    .labelReady).raise .officeLotHeld).officePort.pending = 0x0740 := by decide

theorem test_mask_without_class : reply .kilnHouse (.attentionMask (req .kilnHouse [0, 8])) State.reset = some (.badField, []) := by
  decide

theorem test_unknownKind : reply .planer (.unknownKind 0x17 (req .planer [])) State.reset = some (.unknownKind, []) := by decide

theorem test_not_permitted_before_length : reply .planer (.lotCreate (req .planer [1])) State.reset = some (.notPermitted, []) := by
  decide

theorem test_syncByte : (run (.syncByte .planer) State.reset).planerPort.receiver = .receiving := by decide

theorem test_frameAbandoned : (run (.frameAbandoned .planer [249]) (run (.syncByte .planer) State.reset)).planerPort.receiver =
    .hunting := by decide

theorem test_byteGapTimeout : (run (.byteGapTimeout .office) (run (.syncByte .office) State.reset)).officePort.receiver =
    .hunting := by decide

theorem test_lineBreak_taking : run (.lineBreak .office) (run (.ident (req .office [])) State.reset) =
    run (.ident (req .office [])) State.reset := by decide

theorem test_responseSent : (run (.responseSent .office) (run (.ident (req .office [])) State.reset)).officePort.receiver =
    .hunting := by decide

/-! ### Lots, schedules and species -/

/-- Lot 2217 has four verified boards of sum 471: its planer mean is 118 (0076h), and it has one board queued. -/
theorem test_lotRead : ((reply .planer (.lotRead (req .planer [0x08, 0xA9])) { table [{ lot 2217 .planing with
      verifiedBoards := 4, verifiedMcSum := 471 }] with queue := [board 1 .pass .reject none] }).map fun r => r.2.reverse.take 5) =
    some [0, 1, 0x76, 0, 1] := by decide

theorem test_lotList : reply .office (.lotList (req .office [0x08, 0xAA])) (table [lot 2217 .waiting, lot 2218 (.held .aborted)]) =
    some (.done, [2, 0, 0xEA, 0x61, 0xFF, 0xFF, 0xEA, 0x61, 1, 0x08, 0xAA, 4, 1, 2, 0]) := by decide

theorem test_lotCreate : reply .office (.lotCreate (req .office [0x08, 0xA9, 3, 4, 0, 80, 10, 0, 80, 0])) (table [lot 2217 .waiting]) =
    some (.duplicate, []) := by decide

theorem test_lotModify : (run (.lotModify (req .office [0x08, 0xA9, 0, 0, 0, 0, 1, 0, 90, 0, 0, 0, 0, 0]))
    (table [lot 2217 .waiting])).lots.map LotRecord.targetMc = [90] := by decide

theorem test_lotHold : (run (.lotHold (req .office [0x08, 0xA9])) (table [lot 2217 .dried])).lots.map LotRecord.state =
    [.held (.office .dried)] := by decide

theorem test_lotRelease : (run (.lotRelease (req .office [0x08, 0xA9, 0, 0])) (table [lot 2217 (.held (.redry .planing))])).lots =
    [{ lot 2217 .planing with waived := true }] := by decide

theorem test_lotFinish : reply .office (.lotFinish (req .office [0x08, 0xA9])) (line (standing (twoBoards 0)) []) =
    some (.inUse, []) := by decide

theorem test_lotRemove : (run (.lotRemove (req .office [0x08, 0xA9])) (table [lot 2217 .closed, lot 2218 .dried])).lots =
    [lot 2218 .dried] := by decide

theorem test_redryRange : (run (.redryRange (req .office [0xFA, 0x00, 0xFA, 0x03])) State.reset).redryNext = 64000 := by decide

/-- The narrow range of section 1.6: 64002 is in the table and 64003 reserved, so 64000 is taken; then 64001. -/
def narrow : State :=
  { line (closingStack { twoBoards 1 with bin := 14 } (some 64003)) [] with
    lots := [lot 2217 .planing, lot 64002 .closed], redryFirst := 64000, redryLast := 64003, redryNext := 64002 }

theorem test_redry_search : narrow.redrySearch = some 64000 ∧
    { narrow with lots := [lot 64000 .waiting, lot 64002 .closed], redryNext := 64001 }.redrySearch = some 64001 ∧
    { narrow with lots := [lot 64000 .waiting, lot 64001 .waiting, lot 64002 .closed] }.redrySearch = none := by decide

/-- TIME takes no exit value: the second of two steps is refused with step index 1 and field code 9. -/
theorem test_scheduleWrite : reply .office (.scheduleWrite (req .office ([43, 0, 2] ++
      [0, 1, 0xAE, 0, 30, 10, 3, 0, 0, 0, 0, 60, 2, 0xD0] ++ [3, 2, 0xC6, 0, 50, 9, 0, 1, 5, 0xA0, 5, 0xA0, 5, 0xA0]))) (table []) =
    some (.badField, [1, 1, 9]) := by decide

theorem test_scheduleDelete : reply .office (.scheduleDelete (req .office [41])) (house (.running .active) ⟨10, .absent⟩ 0) =
    some (.inUse, [1, 2]) := by decide

theorem test_scheduleRead : ((reply .office (.scheduleRead (req .office [0, 1])) (table [])).map fun r => r.2.take 8) =
    some [1, 41, 0, 2, 0, 1, 0xAE, 0] := by decide

theorem test_speciesWrite : (run (.speciesWrite (req .office [3, 2, 0x72, 0x6F, 3, 0xAC, 8])) State.reset).speciesAt 3 =
    some redOak := by decide

theorem test_speciesDelete : reply .office (.speciesDelete (req .office [3])) (table [lot 2217 .closed]) =
    some (.inUse, [1]) := by decide

theorem test_speciesRead : reply .office (.speciesRead (req .office [3])) (table [lot 2217 .closed]) =
    some (.done, [1, 2, 0x72, 0x6F, 3, 0xAC, 8, 1]) := by decide

/-! ### Samples and kilns -/

/-- Green weight 4,250 (109Ah) and green MC 782 (030Eh) give ODW 2,385 (0951h); one sample gives no figures. -/
theorem test_sampleEnter : reply .office (.sampleEnter (req .office [2, 1, 0x10, 0x9A, 3, 0x0E])) (house .loaded ⟨0, .absent⟩ 0) =
    some (.done, [9, 0x51, 0, 1, 0, 0, 0, 0, 0, 0, 0, 0, 0]) := by decide

/-- K2 with the four samples of the freshness table. -/
def sampled (st : KilnState) : State := (house st ⟨10, .absent⟩ 0).setSamples 2 agedSamples

/-- Sample 1 at 2,870 g (0B36h) is at 203 (00CBh); sample 9 has no id, so the batch ends there with BAD_FIELD. -/
theorem test_sampleWeigh : ((reply .office (.sampleWeigh (req .office [2, 2, 1, 0x0B, 0x36, 9, 0, 1])) (sampled .held)).map
    fun r => (r.1, r.2.take 9)) = some (.partialBatch, [1, 1, 1, 1, 4, 1, 0, 0xCB, 0]) := by decide

theorem test_sampleRemove : reply .office (.sampleRemove (req .office [2, 5])) (sampled .held) = some (.noSuchSample, []) := by decide

theorem test_kilnCharge : ((run (.kilnCharge (req .office [2, 41, 1, 0x08, 0xA9])) (table [lot 2217 .waiting])).kiln 2).state = .loaded := by
  decide

theorem test_kilnStart : reply .office (.kilnStart (req .office [2])) { table [] with millStopLine := true } =
    some (.millStopActive, []) := by decide

theorem test_kilnStop : ((run (.kilnStop (req .office [2])) (house (.running .active) ⟨10, .absent⟩ 0)).kiln 2).history =
    [⟨0, 0, .aborted⟩] := by decide

theorem test_kilnUnload : reply .office (.kilnUnload (req .office [2])) (house .finished ⟨0, .absent⟩ 1) =
    some (.done, [1, 0x08, 0xA9, 2]) := by decide

theorem test_kilnSetup : ((run (.kilnSetup (req .office [2, 1])) State.reset).kiln 2).holdCounts = true := by decide

/-- RUN at 430 and 400 with 10 units in step 0, HEATUP; dry-bulb 300 (012Ch), wet-bulb 290 (0122h). -/
theorem test_kilnReport : reply .kilnHouse (.kilnReport (req .kilnHouse [2, 1, 0x2C, 1, 0x22, 0])) (house (.running .active) ⟨10, .absent⟩ 0) =
    some (.done, [1, 1, 0xAE, 1, 0x90, 10, 0, 0, 0]) := by decide

/-- A dry-bulb of 420 (01A4h) ends step 0 once 60 minutes are counted, and the COOL step returns the 10 units. -/
theorem test_step_exit : reply .kilnHouse (.kilnReport (req .kilnHouse [2, 1, 0xA4, 1, 0x22, 0]))
      ((house (.running .active) ⟨10, .absent⟩ 0).setKiln 2
        { (house (.running .active) ⟨10, .absent⟩ 0).kiln 2 with stepElapsed := 60 }) =
    some (.done, [1, 1, 0x2C, 1, 0x2C, 0, 1, 4, 0]) := by decide

theorem test_kilnRead : reply .planer (.kilnRead (req .planer [2, 1])) (house .held ⟨10, .absent⟩ 1) = some (.done, [3, 1, 1, 0]) := by
  decide

theorem test_kilnHold : ((run (.kilnHold (req .office [2])) (house (.running .waitHeat) ⟨0, .waiting 10 0⟩ 0)).kiln 2).state = .held := by
  decide

theorem test_kilnRelease : reply .office (.kilnRelease (req .office [2])) (house .held ⟨10, .absent⟩ 0) =
    some (.done, [0, 2, 1, 0, 0, 10]) := by decide

theorem test_kilnAdvance : reply .office (.kilnAdvance (req .office [2])) (house .held ⟨10, .absent⟩ 0) =
    some (.done, [0, 1, 1, 0, 0]) := by decide

theorem test_holdPointSet : (run (.holdPointSet (req .office [1, 1, 8, 1, 0, 80, 1])) State.reset).holdPoint 1 =
    ⟨true, .any, .cmcAtOrBelow 80, true, none⟩ := by decide

theorem test_holdPointRead : ((reply .office (.holdPointRead (req .office [])) State.reset).map fun r => r.2.take 15) =
    some [0, 8, 0, 1, 0, 0, 0, 0, 0, 0, 0, 0, 0, 0, 0] := by decide

/-- Capacity 5 (below the grant of 10) revokes K2, which then waits. -/
theorem test_boilerCapacity : ((run (.boilerCapacity (req .office [1, 5])) (house (.running .active) ⟨10, .absent⟩ 0)).heatOf 2) =
    ⟨0, .waiting 10 0⟩ := by decide

/-! ### Boards, stackers and labels -/

theorem test_binMapWrite : reply .office (.binMapWrite (req .office (List.replicate 14 6 ++ [6]))) State.reset =
    some (.badField, []) := by decide

theorem test_binMapSet : (run (.binMapSet (req .office [4, 3])) State.reset).binMap[4] = .stacker 3 := by decide

theorem test_binMapRead : reply .planer (.binMapRead (req .planer [])) State.reset =
    some (.done, List.replicate 15 8 ++ [6]) := by decide

/-- A red oak board of MC 121 is above the dry limit 90: REDRY, and bin 14 is not mapped. -/
theorem test_measure_wet : reply .planer (.measure (req .planer (measureBody 4 26 12 4 118 8))) (line Stacker.unused []) =
    some (.done, [0, 1, 3, 7, 0, 0, 0, 0x79, 1, 0, 3]) := by decide

/-- A raw reading of 80 at 8 degrees is 84.8, that is 85: PASS to S3 in a new pack 1. -/
theorem test_measure_pass : reply .planer (.measure (req .planer (measureBody 4 26 12 4 80 8))) (line Stacker.unused []) =
    some (.done, [0, 1, 0, 3, 0, 1, 0, 0x55, 1, 0, 0]) := by decide

theorem test_drop_completes : ((run (.drop (req .planer [3])) (line (closingStack (twoBoards 1) none)
    [board 1 .pass (.stacker 3) (some 910)])).labels.map Label.mean) = [some 112] := by decide

theorem test_lost_dissolves : ((run (.lost (req .planer [0, 1])) (line (standing { emptyPack.addBoard 650 121 true with
    outstanding := 1 }) [board 1 .pass (.stacker 3) (some 910)])).stacker 3).openPack = none := by decide

theorem test_lineHold : reply .planer (.lineHold (req .planer [])) State.reset = some (.done, [1, 0, 0, 0, 1]) := by decide
theorem test_lineRun : reply .planer (.lineRun (req .planer [])) { State.reset with lineHeld := true } =
    some (.done, [0, 0, 0, 0, 1]) := by decide
theorem test_shadowOn : reply .planer (.shadowOn (req .planer [])) State.reset = some (.done, [0, 1, 0, 0, 1]) := by decide
theorem test_shadowOff : reply .planer (.shadowOff (req .planer [])) { State.reset with shadow := true } =
    some (.done, [0, 0, 0, 0, 1]) := by decide

theorem test_queueRead : ((reply .office (.queueRead (req .office [0])) (line Stacker.unused [board 9 .pass (.stacker 3) none])).map
    fun r => r.2.take 9) = some [1, 1, 0, 9, 0x08, 0xA9, 4, 26, 12] := by decide

theorem test_stackerSetup : reply .office (.stackerSetup (req .office [2, 0, 250, 0, 0, 0, 9, 49])) State.reset =
    some (.badField, []) := by decide

theorem test_stackerRead : ((reply .office (.stackerRead (req .office [3])) (line (standing (twoBoards 2)) [])).map
    fun r => r.2.take 19) = some [0, 250, 0, 0, 0, 0, 0, 0, 0, 0, 0, 0, 0, 1, 1, 3, 0x8E, 3, 0x08] := by decide

theorem test_packClose : reply .planer (.packClose (req .planer [3])) (line (standing (twoBoards 0)) []) =
    some (.done, [3, 0x8E, 0, 0, 0, 1]) := by decide

/-- A label of the queue of section 10.6. -/
def label (serial : Nat) : Label :=
  { serial := serial, pack := 900, stacker := 2, lot := 2240, species := 3, thickness := 4, bin := 4, boards := 3, footage := 2550,
    verifiedBoards := 3, mean := some 116, highest := some 120, kiln := some 2, kilnCmc := some 118, reason := .footage,
    closeMinute := 70000, redryLot := none }

/-- The queue of section 10.6: serials 5,101 to 5,115 and one reserved slot. -/
def labelled : State :=
  { line (closingStack (twoBoards 1) none) [] with labels := (List.range 15).map fun i => label (5101 + i), serial := some 5116 }

/-- Two released, serials 5,101 and 5,102, 13 queued and 1 reserved. -/
theorem test_labelRelease : reply .office (.labelRelease (req .office [2])) labelled =
    some (.done, [2, 1, 0, 0, 0x13, 0xED, 1, 0, 0, 0x13, 0xEE, 13, 1]) := by decide

/-- Fifteen queued, one reserved, counter 5,116, and the three records from index 12. -/
theorem test_labelRead : ((reply .office (.labelRead (req .office [12, 0])) labelled).map fun r => (r.2.take 11, r.2.length)) =
    some ([15, 1, 0, 0, 0x13, 0xFC, 3, 0, 0, 0x13, 0xF9], 112) := by decide

/-- The record of serial 5,101 by the offsets of 11, R190: marks 1 + 2 + 4 + 8 in its last byte. -/
theorem test_label_bytes : (label 5101).bytes = [0, 0, 0x13, 0xED, 3, 0x84, 2, 8, 0xC0, 3, 4, 4, 0, 3, 0, 0, 9, 0xF6, 0, 3, 0, 116, 0,
    120, 2, 0, 118, 1, 0, 1, 0x11, 0x70, 0, 0, 15] := by decide

/-! ### Time, lines and supply -/

/-- A RUNNING, ACTIVE kiln counts the minute, in either order of the aging pass. -/
theorem test_minuteEvent : ∀ agingFirst, (State.minuteWith agingFirst (house (.running .active) ⟨10, .absent⟩ 0)).minute = 1 ∧
    ((State.minuteWith agingFirst (house (.running .active) ⟨10, .absent⟩ 0)).kiln 2).stepElapsed = 1 := by decide

theorem test_minuteCountStopped : run .minuteCountStopped State.reset = State.reset := by decide

/-- K2 in its last step with 1,440 minutes counted. -/
def overdue : State :=
  (house (.running .active) ⟨0, .absent⟩ 1).setKiln 2
    { (house (.running .active) ⟨0, .absent⟩ 1).kiln 2 with stepElapsed := 1440 }

theorem test_stepForced : ((run (.stepForced 2) overdue).kiln 2).history = [⟨1, 1440, .forced⟩] := by decide

/-- K2 is HELD, its demand of 10 waiting since minute 0, at minute 240. -/
def agedWait (free : Nat) : State :=
  { house .held ⟨0, .waiting 10 0⟩ 0 with minute := 240, capacity := free }

theorem test_heatWaitAged : (run (.heatWaitAged 2) (agedWait 10)).heatOf 2 = ⟨10, .absent⟩ ∧
    (run (.heatWaitAged 2) (agedWait 9)).heatOf 2 = ⟨0, .waiting 10 0⟩ := by decide

/-- S3 whose pack has stood its idle time. -/
def idleStack (outstanding : Nat) : Stacker := { standing (twoBoards outstanding) with idleMinutes := 60 }

theorem test_idleClose : ((run (.idleClose 3) (line (idleStack 0) [])).labels.map Label.reason) = [.idle] := by decide

theorem test_millStop : (run .millStop (house (.running .active) ⟨10, .absent⟩ 0)).heatOf 2 = ⟨0, .absent⟩ ∧
    ((run .millStop (house (.running .active) ⟨10, .absent⟩ 0)).kiln 2).state = .running .waitHeat := by decide

theorem test_millStopReleased : (run .millStopReleased { State.reset with millStopLine := true }).millStopLine = false := by decide

/-- A part without supply sends nothing, although its receiver stood in ANSWERING (11, R187). -/
theorem test_powerLoss_silences : let s := { State.reset with officePort := ⟨.answering ⟨0x81, 7, .done, []⟩, 0, 0⟩ }
    s.levelsSent .office ≠ [] ∧ (run .powerLoss s).levelsSent .office = [] := by decide

theorem test_powerLoss : (run .powerLoss State.reset).condition = .stopped ∧ (run .powerLoss State.reset).completionMarker = true := by
  decide

/-- A purge at a power-on with retention intact moves the queued board to its lot's lost pair. -/
theorem test_powerOn : ((run (.powerOn true ⟨false, true⟩) (run .powerLoss (line Stacker.unused [board 1 .reject .reject none]))).lots.map
    LotRecord.lost) = [⟨1, 650⟩] := by decide +kernel

theorem test_resetAsserted : (run .resetAsserted (run (.syncByte .office) State.reset)).officePort.receiver = .hunting ∧
    (run .resetAsserted State.reset).attentionLine .office = false := by decide

theorem test_resetReleased : (run (.resetReleased ⟨true, true⟩) (run .resetAsserted State.reset)).startUpKind = .reset ∧
    (run (.resetReleased ⟨true, true⟩) (run .resetAsserted State.reset)).lineRate = .r115200 := by decide

theorem test_clearAll : reply .office (.clearAll (req .office [])) (house .loaded ⟨0, .absent⟩ 0) = some (.wrongState, [1, 0, 0]) := by
  decide

/-! ### Witnesses of the obligations' hypotheses

A variable that a hypothesis gives by an equation stands here as that equation's right side. -/

theorem witness_StepRunsFrontCommand : { State.reset with pending := [.millStop, .millStopReleased] }.pending =
    Instr.millStop :: [.millStopReleased] := rfl

/-- A state in which nothing is at its empty value: a reservation, a grant, a HELD kiln with its lot, a board in flight, a label, a
masked class, and a command that waits. -/
def busy : State :=
  { narrow with
    lots := [{ lot 2217 .planing with measured := ⟨1, 650⟩, redry := ⟨1, 650⟩ }, lot 2218 .inKiln, lot 64002 .closed]
    kilns := State.reset.kilns.set 2 { contextIn .held with charge := [2218], stepIndex := 1, runEnable := true }
    masterEnable := true, heat := State.reset.heat.set 2 ⟨10, .absent⟩, labels := [label 1], serial := some 2,
    queue := [board 1 .redry (.stacker 3) (some 910)], planerPort := ⟨.hunting, 0x0008, 0x0004⟩,
    pending := [.lotHold (req .office [0x08, 0xA9])] }

theorem witness_PendingClearOfMask : AttentionSound busy ∧ ∃ t, step busy = .next t :=
  ⟨fun l => by cases l <;> decide, _, rfl⟩

theorem witness_GrantsWithinCapacity : HeatSound busy ∧ ∃ t, step busy = .next t := ⟨⟨by decide, by decide⟩, _, rfl⟩

theorem witness_LotNumbersUsedOnce : TableSound busy ∧ ∃ t, step busy = .next t :=
  ⟨⟨by decide, by decide, by decide, by decide⟩, _, rfl⟩

theorem witness_LabelPlacesWithinSixteen : LabelsSound busy ∧ ∃ t, step busy = .next t :=
  ⟨by unfold LabelsSound; decide, _, rfl⟩

theorem witness_QueueMatchesThePacks : QueueSound busy ∧ LineSound busy ∧ ∃ t, step busy = .next t := by
  have hopen : ∀ st, (busy.stacker st).openPack = none := by decide
  have hclosing : ∀ st, (busy.stacker st).closing = none ∨
      (busy.stacker st).closing = some ⟨{ twoBoards 1 with bin := 14 }, .operator, 0, some 64003⟩ ∧ busy.boardsBound st 910 = 1 := by
    decide
  have hq : QueueSound busy := by unfold QueueSound; decide
  refine ⟨hq, ⟨hq, by decide, fun st p h => ?_, fun st c h => ?_, fun st p c h => ?_, fun b hb n hn => ?_⟩, _, rfl⟩
  · rw [hopen] at h; cases h
  · rcases hclosing st with h' | ⟨h', hn⟩
    · rw [h'] at h; cases h
    · rw [h'] at h; cases h; exact hn.symm
  · rw [hopen] at h; cases h
  · obtain rfl : b = board 1 .redry (.stacker 3) (some 910) := by simpa [busy] using hb
    cases hn
    exact ⟨3, rfl, .inr ⟨⟨{ twoBoards 1 with bin := 14 }, .operator, 0, some 64003⟩, by decide, rfl⟩⟩

theorem witness_LotsBalanceAndCharge : LotsSound busy ∧ (∃ k, (busy.kiln k).charge ≠ []) ∧ ∃ t, step busy = .next t := by
  have hcharge : ∀ j k, ∀ n ∈ (busy.kiln j).charge, n ∈ (busy.kiln k).charge → j = k := by decide
  have htally : ∀ l ∈ busy.lots, (l.measured.boards = l.redry.boards ∧ l.passed = ⟨0, 0⟩ ∧ l.rejected = ⟨0, 0⟩ ∧
      l.heldBack = ⟨0, 0⟩ ∧ l.lost = ⟨0, 0⟩ ∧ l.measured.footage = l.redry.footage) ∧
      ∀ d ∈ [Disposition.pass, .redry, .reject, .holdback], (busy.inFlight l.number d).length ≤ (l.pair d).boards ∧
        ((busy.inFlight l.number d).map Board.footage).sum ≤ (l.pair d).footage := by decide
  refine ⟨⟨⟨by decide, by decide, by decide, by decide⟩, by unfold QueueSound; decide, by decide,
    ⟨by decide, fun j k n hj hk => hcharge j k n hj hk, by decide, by decide⟩, fun l hl => ?_, by decide⟩, by decide, _, rfl⟩
  obtain ⟨⟨hm, hp, hr, hh, hlo, hf⟩, hd⟩ := htally l hl
  refine ⟨?_, fun d => hd d (by cases d <;> simp)⟩
  simp [LotRecord.Balanced, hm, hp, hr, hh, hlo, hf]

theorem witness_StoreHoldsNamedSchedules : StoreSound busy ∧ ∃ t, step busy = .next t := by
  refine ⟨⟨by decide, by decide, fun c hc => ?_, by decide⟩, _, rfl⟩
  obtain rfl : c = oak := by simpa [busy, narrow, line, table] using hc
  simp [Schedule.InRange, ScheduleStep.InRange, oak]

/-- K2 runs, the master enable clear. -/
def suspendedHouse : State := { house (.running .waitHeat) ⟨0, .dormant 10⟩ 0 with masterEnable := false }

theorem witness_SuspendedKilnsKeepTheirStep : ¬movesStep (.kilnHold (req .office [2])) suspendedHouse 2 ∧
    ¬movesStep (.kilnAdvance (req .office [3])) suspendedHouse 2 ∧ suspendedHouse.masterEnable = false ∧
    (run (.kilnHold (req .office [2])) suspendedHouse).masterEnable = false ∧
    exec (.kilnHold (req .office [2])) suspendedHouse = .next (run (.kilnHold (req .office [2])) suspendedHouse) :=
  ⟨id, by unfold movesStep; decide, rfl, by decide, rfl⟩

/-- The part with the response to an IDENT about to begin on the office link. -/
def takingState : State := run (.ident (req .office [])) State.reset

/-- The response of `takingState`. -/
def identAnswer : Response := ⟨0x81, 7, .done, [0x0D, 0x16, 1, 2]⟩

theorem witness_IdleStepBeginsResponses : { State.reset with condition := .stopped }.pending = [] ∧
    { State.reset with condition := .stopped }.condition ≠ .running ∧ takingState.pending = [] ∧
    takingState.condition = .running ∧ (takingState.port .office).receiver = .taking identAnswer ∧
    ∀ r, (takingState.port .planer).receiver ≠ .taking r :=
  ⟨rfl, by decide, by decide, by decide, by decide, fun _ h => by cases h⟩

theorem witness_CharactersAndFrames : (0x7F : Byte).toNat < 0x80 ∧ (List.replicate 248 (0 : Byte)).length ≤ 248 ∧
    ([] : List Byte).length ≤ 248 ∧ 248 < (249 : Byte).toNat ∧ 0x80 ≤ (0x80 : Byte).toNat := by decide +kernel

theorem witness_ReceiverEventsAndDiscards : State.reset.condition = .running ∧ (State.reset.port .planer).receiver = .hunting ∧
    ((State.reset.setReceiver .planer .receiving).port .planer).receiver = .receiving ∧ abandons [249] = true ∧
    abandons [248, 0x80] = true ∧ (takingState.port .office).receiver = .taking identAnswer ∧
    ((State.reset.setReceiver .planer (.answering identAnswer)).port .planer).receiver = .answering identAnswer ∧
    (Instr.lotHold (req .office [0, 1])).frame? = some (req .office [0, 1]) ∧
    { State.reset with condition := .held .reset }.condition ≠ .running := by decide

theorem witness_RoutingChecksInOrder : State.reset.listens .planer = true ∧ (req .planer [1]).body.length ≤ 248 ∧
    unserved 0x17 = true ∧ unserved 0x7F = true ∧ (Instr.lotHold (req .planer [1])).frame? = some (req .planer [1]) ∧
    (Instr.lotHold (req .planer [1])).kind? = some 0x12 ∧ served 0x12 .planer = false ∧ served 0x12 .office = true ∧
    layoutAgrees 0x12 (req .office [1]).body = false ∧ State.reset.listens .office = true := by decide

theorem witness_ResponseCarriesKindAndTag : (Instr.packClose (req .planer [3])).frame? = some (req .planer [3]) ∧
    (Instr.packClose (req .planer [3])).kind? = some 0x57 ∧ State.reset.listens .planer = true ∧
    (req .planer [3]).body.length ≤ 248 := by decide

theorem witness_AttentionTakeEmptiesPending : State.reset.listens .office = true ∧ (req .office []).body = [] := by decide

theorem witness_AttentionMaskReplaces : State.reset.listens .office = true ∧ (req .office [8, 0]).body = classBytes 0x0800 ∧
    (∃ bit : Nat, (0x0800 : ClassSet).getLsbD bit = true ∧ classCount .office ≤ bit) ∧
    (req .office [4, 0]).body = classBytes 0x0400 ∧
    ∀ bit : Nat, (0x0400 : ClassSet).getLsbD bit = true → bit < classCount .office := by
  refine ⟨by decide, by decide, ⟨11, by decide⟩, by decide, fun bit h => ?_⟩
  have hb := BitVec.lt_of_getLsbD h
  interval_cases bit <;> revert h <;> decide

theorem witness_LotScheduleAndSpeciesReads : (table [lot 65535 .closed]).listens .office = true ∧
    (req .office [0xFF, 0xFF]).body = u16 65535 ∧ (table [lot 65535 .closed]).findLot 65535 = some (lot 65535 .closed) ∧
    (req .office [0, 1]).body = u16 1 ∧ (req .office [41, 0]).body = u8 41 ++ u8 0 ∧
    (table []).findSchedule 41 = some oak ∧ (req .office [0, 1]).body = u8 0 ++ u8 1 ∧ (table []).nextSchedule 0 = some oak ∧
    (req .office [3]).body = u8 3 ∧ (table []).speciesAt 3 = some redOak ∧ (req .office [15]).body = u8 15 ∧
    (table []).speciesAt 15 = none := by decide

theorem witness_IdentClockKilnAndHoldPointReads : State.reset.listens .kilnHouse = true ∧ (req .kilnHouse []).body = [] ∧
    State.reset.listens .office = true ∧ (req .office [7, 0]).body = u8 (7 : KilnNo) ++ mark false ∧
    (req .office [0, 1]).body = u8 (0 : KilnNo) ++ mark true ∧ (req .office []).body = [] := by decide

theorem witness_QueueStackerAndLabelReads : State.reset.listens .office = true ∧ (req .office [47]).body = u8 47 ∧
    (req .office [5]).body = u8 (5 : StackerNo) ∧ (req .office [15, 16]).body = u8 15 ++ u8 16 ∧
    (req .office [0, 0]).body = u8 0 ++ u8 0 ∧ (label 5101).reason = .footage ∧
    15 = (if (label 5101).mean = none then 0 else 1) + (if (label 5101).highest = none then 0 else 2) +
      (if (label 5101).kiln = none then 0 else 4) + (if (label 5101).kilnCmc = none then 0 else 8) +
      (if (label 5101).redryLot = none then 0 else 16) := by decide

theorem witness_LotCreatePlacesRecord : Heard (table []) (req .office [0xFF, 0xFF, 3, 16, 1, 44, 50, 1, 0xF4, 1]) .office ∧
    (req .office [0xFF, 0xFF, 3, 16, 1, 44, 50, 1, 0xF4, 1]).body =
      u16 65535 ++ u8 3 ++ u8 16 ++ u16 300 ++ u8 50 ++ u16 500 ++ mark true ∧
    ((table []).speciesAt 3).isSome = true ∧ (table []).numberInUse 65535 = false ∧
    (table []).lots.length + (table []).reservations.length < 64 := by decide

theorem witness_LotModifyAndHold : Heard (table [lot 1 .dried]) (req .office [0, 1, 1, 3, 1, 4, 1, 0, 40, 0, 0, 0, 0, 0]) .office ∧
    (req .office [0, 1, 1, 3, 1, 4, 1, 0, 40, 0, 0, 0, 0, 0]).body =
      u16 1 ++ optU8 (some 3) ++ optU8 (some 4) ++ optU16 (some 40) ++ optU8 none ++ optU16 none ∧
    (table [lot 1 .dried]).findLot 1 = some (lot 1 .dried) ∧ (lot 1 .dried).state = .dried ∧
    (∀ v, some 3 = some v → v ≤ 15 ∧ ((table [lot 1 .dried]).speciesAt v).isSome = true) ∧
    (∀ v, some 4 = some v → 4 ≤ v ∧ v ≤ 16) ∧ (∀ v, some 40 = some v → 40 ≤ v ∧ v ≤ 300) ∧
    (table [lot 1 .planing]).findLot 1 = some (lot 1 .planing) ∧ (req .office [0, 1]).body = u16 1 ∧
    (lot 1 .planing).state = ReturnState.planing.lotState ∧ (table [lot 1 .inKiln]).findLot 1 = some (lot 1 .inKiln) ∧
    (lot 1 .inKiln).state = .inKiln := by
  refine ⟨by decide, by decide, by decide, rfl, ?_, ?_, ?_, by decide, by decide, rfl, by decide, rfl⟩ <;> rintro v ⟨⟩ <;> decide

theorem witness_LotReleaseByReason : Heard (table [lot 1 (.held (.office .waiting))]) (req .office [0, 1, 0, 0]) .office ∧
    (req .office [0, 1, 0, 0]).body = u16 1 ++ optU8 none ∧
    (table [lot 1 (.held (.office .waiting))]).findLot 1 = some (lot 1 (.held (.office .waiting))) ∧
    (table [lot 1 (.held (.office .waiting))]).lotOnLine 1 = false ∧
    (table [lot 1 (.held (.redry .planing))]).findLot 1 = some (lot 1 (.held (.redry .planing))) ∧
    (table [lot 1 (.held .aborted)]).findLot 1 = some (lot 1 (.held .aborted)) ∧
    (req .office [0, 1, 1, 0]).body = u16 1 ++ optU8 (some 0) ∧ (table [lot 1 (.held .aborted)]).lotOnLine 1 = false ∧
    (req .office [0, 1, 1, 2]).body = u16 1 ++ optU8 (some 2) ∧
    (table [lot 2217 (.held (.redry .waiting))]).findLot 2217 = some (lot 2217 (.held (.redry .waiting))) ∧
    { table [lot 2217 (.held (.redry .waiting))] with queue := [board 1 .pass .reject none] }.lotOnLine 2217 = true ∧
    (table [lot 1 .closed]).findLot 1 = some (lot 1 .closed) := by decide

theorem witness_LotFinishRemoveAndRange : Heard (line Stacker.unused []) (req .office [0x08, 0xA9]) .office ∧
    (req .office [0x08, 0xA9]).body = u16 2217 ∧ (line Stacker.unused []).findLot 2217 = some (lot 2217 .planing) ∧
    (line Stacker.unused []).lotOnLine 2217 = false ∧
    (line Stacker.unused [board 1 .reject .reject none]).findLot 2217 = some (lot 2217 .planing) ∧
    (line Stacker.unused [board 1 .reject .reject none]).lotOnLine 2217 = true ∧
    (table [lot 2217 .closed]).findLot 2217 = some (lot 2217 .closed) ∧ (req .office [0, 1, 0, 1]).body = u16 1 ++ u16 1 ∧
    (req .office [0, 0, 0, 1]).body = u16 0 ++ u16 1 ∧ (req .office [0, 2, 0, 1]).body = u16 2 ++ u16 1 ∧
    (req .office [0xFF, 0xFF, 0xFF, 0xFF]).body = u16 65535 ++ u16 65535 := by decide

/-- The bytes of a SCHEDULE WRITE of schedule 41. -/
def oakBody : List Byte := [41, 0, 2] ++ [0, 1, 0xAE, 0, 30, 10, 3, 0, 0, 0, 0, 60, 2, 0xD0] ++
  [4, 1, 0x2C, 0, 0, 0, 4, 1, 1, 0x5E, 0, 120, 5, 0xA0]

theorem witness_ScheduleWritePlacesWhole : Heard State.reset (req .office oakBody) .office ∧ oak.InRange ∧
    (req .office oakBody).body = u8 oak.id ++ text oak.text ++ counted ScheduleStep.bytes oak.steps ∧
    State.reset.findSchedule 41 = none ∧ State.reset.schedules.length < 16 ∧
    ((table []).findSchedule 41).isSome = true ∧ (table []).kilnsNaming 41 = [] ∧
    (house .loaded ⟨0, .absent⟩ 0).kilnsNaming 41 ≠ [] := by
  refine ⟨by decide, ?_, by decide, by decide, by decide, by decide, by decide, by decide⟩
  simp [Schedule.InRange, ScheduleStep.InRange, oak]

theorem witness_ScheduleDeleteAndSpecies : Heard (table []) (req .office [41]) .office ∧ (req .office [41]).body = u8 41 ∧
    ((table []).findSchedule 41).isSome = true ∧ (table []).kilnsNaming 41 = [] ∧ redOak.InRange ∧
    (req .office [15, 2, 0x72, 0x6F, 3, 0xAC, 8]).body = u8 (15 : Fin 16) ++ text redOak.name ++ u16 redOak.fs ++ u8 redOak.kt ∧
    (req .office [3]).body = u8 (3 : Fin 16) ∧ ((table []).species[(3 : Fin 16)]).isSome = true ∧
    (table []).lotsOfSpecies 3 = 0 ∧ (req .office [0]).body = u8 0 ∧ State.reset.findSchedule 41 = none ∧
    (house .loaded ⟨0, .absent⟩ 0).kilnsNaming 41 ≠ [] ∧ 0 < (table [lot 2217 .closed]).lotsOfSpecies 3 ∧
    State.reset.species[(3 : Fin 16)] = none := by
  refine ⟨by decide, by decide, by decide, by decide, ?_, by decide, by decide, by decide, by decide, by decide, by decide,
    by decide, by decide, by decide⟩
  simp [Species.InRange, redOak]

/-- The figures of 03, sections 3.2 to 3.4: a weighing of 2,870 g, five samples, a reading of 118, one of 1000, and a negative one. -/
theorem witness_ChapterThreeArithmetic : 0 < 2385 ∧ (0 : Int) ≤ 355 ∧ 2 ≤ [312, 287, 295, 260, 301].length ∧
    [312, 301, 295, 287, 260].Perm [312, 287, 295, 260, 301] ∧ [312, 301, 295, 287, 260].Pairwise (fun a b => b ≤ a) ∧
    999 < 1000 ∧ (0 : Int) ≤ 118 * 940 + (20 - max (-30) (min 60 8)) * 8 * 100 ∧
    (20 * 600 + (20 - max (-30) (min 60 60)) * 50 * 100 : Int) < 0 := by decide

theorem witness_SampleEnterAndRemove :
    Heard (sampled .held) (req .office [2, 8, 0x75, 0x30, 7, 0xD0]) .office ∧ ((sampled .held).kiln 2).state ≠ .empty ∧
    (req .office [2, 8, 0x75, 0x30, 7, 0xD0]).body = u8 (2 : KilnNo) ++ u8 8 ++ u16 30000 ++ u16 2000 ∧
    (req .office [2, 1]).body = u8 (2 : KilnNo) ++ u8 1 ∧
    (((sampled .held).kiln 2).samples.any fun x => x.id == 1) = true ∧
    ((sampled .loaded).kiln 2).state.isOn = false := by decide

theorem witness_BatchWeighsUntilAnEntryFails :
    Heard (sampled .held) (req .office [2, 2, 1, 0xEA, 0x60, 4, 0, 1]) .office ∧ ((sampled .held).kiln 2).state ≠ .empty ∧
    ([⟨1, 60000⟩, ⟨4, 1⟩].map WeighEntry.id).Nodup ∧
    (∀ e ∈ [(⟨1, 60000⟩ : WeighEntry), ⟨4, 1⟩], 1 ≤ e.id ∧ e.id ≤ 8 ∧ 1 ≤ e.weight ∧ e.weight ≤ 60000 ∧
      (((sampled .held).kiln 2).samples.any fun x => x.id == e.id) = true) ∧
    (req .office [2, 2, 1, 0xEA, 0x60, 4, 0, 1]).body =
      u8 (2 : KilnNo) ++ counted (fun e => u8 e.id ++ u16 e.weight) [(⟨1, 60000⟩ : WeighEntry), ⟨4, 1⟩] ∧
    -- after sample 1, an id of 9, no sample 8, sample 1 again, and a weight of 60,001 for sample 4, with one entry behind it
    (req .office [2, 3, 1, 0xEA, 0x60, 4, 0xEA, 0x61, 9, 0xFF, 0xFF]).body = u8 (2 : KilnNo) ++
      counted (fun e => u8 e.id ++ u16 e.weight) ([(⟨1, 60000⟩ : WeighEntry)] ++ ⟨4, 60001⟩ :: [⟨9, 65535⟩]) ∧
    (((sampled .held).kiln 2).samples.any fun x => x.id == 4) = true ∧ 4 ∉ [(⟨1, 60000⟩ : WeighEntry)].map WeighEntry.id ∧
    (((sampled .held).kiln 2).samples.any fun x => x.id == 8) = false ∧ 1 ∈ [(⟨1, 60000⟩ : WeighEntry)].map WeighEntry.id ∧
    (req .office [2, 1, 0, 0, 0]).body =
      u8 (2 : KilnNo) ++ counted (fun e => u8 e.id ++ u16 e.weight) ([] ++ (⟨0, 0⟩ : WeighEntry) :: []) := by decide

/-- K2 RUNNING on its first step with the samples of the freshness table, HP1 at their CMC of 178 and HP2 at step 0, one-shot. -/
def pointed (on : Bool) : State :=
  { (house (.running .active) ⟨10, .absent⟩ 0).setSamples 2 agedSamples with
    holdPoints := (State.reset.holdPoints.set 1 ⟨on, .any, .cmcAtOrBelow 178, false, none⟩).set 2
      ⟨on, .kiln 2, .stepEnter 0, true, some ⟨2, 7⟩⟩ }

/-- With no CMC before, 178 is a crossing; from 178 on it is none, and 179 is above the value. -/
theorem witness_HoldPointsMatchAndHold : 2 ∈ (pointed true).stepEnterMatches 2 0 ∧ 2 ∉ (pointed true).stepEnterMatches 3 0 ∧
    1 ∈ (pointed true).crossingMatches 2 none (some 178) ∧ 1 ∈ (pointed true).crossingMatches 2 (some 179) (some 178) ∧
    1 ∉ (pointed true).crossingMatches 2 (some 178) (some 178) ∧ 1 ∉ (pointed true).crossingMatches 2 none (some 179) ∧
    [(2 : HoldPointNo), 1] ≠ [] ∧ [(2 : HoldPointNo), 1].Nodup ∧
    (figuresOf (((pointed true).kiln 2).samples.map fun x => x.mc)).cmc = some 178 ∧
    (pointed true).crossingMatches 2 ((pointed true).kiln 2).figures.cmc (some 178) ≠ [] ∧
    (pointed false).crossingMatches 2 ((pointed false).kiln 2).figures.cmc (some 178) = [] := by decide

theorem witness_KilnChargeLoads : Heard (table [lot 2217 .waiting]) (req .office [2, 41, 1, 0x08, 0xA9]) .office ∧
    [2217].Nodup ∧ (∀ n ∈ [2217], ∃ l, (table [lot 2217 .waiting]).findLot n = some l ∧ l.state = .waiting) ∧
    ((table [lot 2217 .waiting]).kiln 2).state = .empty ∧ ((table [lot 2217 .waiting]).findSchedule 41).isSome = true ∧
    (req .office [2, 41, 1, 0x08, 0xA9]).body = u8 (2 : KilnNo) ++ u8 41 ++ counted u16 [2217] := by
  refine ⟨by decide, by decide, fun n hn => ?_, by decide, by decide, by decide⟩
  obtain rfl : n = 2217 := by simpa using hn
  exact ⟨lot 2217 .waiting, by decide, rfl⟩

/-- K2 is LOADED, with a capacity. -/
def readyHouse (capacity : Nat) : State := { house .loaded ⟨0, .absent⟩ 0 with capacity := capacity }

theorem witness_KilnStartEntersStepZero : Heard (readyHouse 10) (req .office [2]) .office ∧ (req .office [2]).body = u8 (2 : KilnNo) ∧
    (readyHouse 10).millStopLine = false ∧ (readyHouse 10).masterEnable = true ∧ ((readyHouse 10).kiln 2).state = .loaded ∧
    ((readyHouse 10).kiln 2).scheduleId.bind (readyHouse 10).findSchedule = some oak ∧
    oak.steps[0]? = some ⟨.heatup, 430, 30, 10, .drybulbReached, 60, 720⟩ ∧ (readyHouse 10).heatOf 2 = ⟨0, .absent⟩ ∧
    OthersDoNotWait (readyHouse 10) 2 ∧ (readyHouse 10).stepEnterMatches 2 0 = [] ∧ 10 ≤ (readyHouse 10).freeUnits ∧
    (readyHouse 9).freeUnits < 10 ∧
    { readyHouse 10 with holdPoints := (pointed true).holdPoints }.stepEnterMatches 2 0 ≠ [] ∧
    ((house .held ⟨10, .absent⟩ 0).kiln 2).state.isOn = true := by decide

/-- K2 is HELD, the master enable clear after a mill stop, and the capacity just its demand. -/
def stoppedHouse : State := { house .held ⟨0, .absent⟩ 0 with masterEnable := false, capacity := 10 }

theorem witness_KilnStartResumesTheMill : Heard stoppedHouse (req .office [2]) .office ∧ (req .office [2]).body = u8 (2 : KilnNo) ∧
    stoppedHouse.masterEnable = false ∧ { stoppedHouse with millStopLine := true }.millStopLine = true ∧
    stoppedHouse.millStopLine = false ∧ (stoppedHouse.kiln 2).state = .held ∧ (stoppedHouse.kiln 2).runEnable = true ∧
    (∀ j, j ≠ 2 → (stoppedHouse.kiln j).state.isOn = false ∧ (stoppedHouse.heatOf j).request = .absent) ∧
    stoppedHouse.grantSum = 0 ∧ stoppedHouse.currentDemand 2 ≤ stoppedHouse.capacity ∧
    Heard suspendedHouse (req .office [2]) .office ∧ suspendedHouse.masterEnable = false ∧ suspendedHouse.millStopLine = false ∧
    (suspendedHouse.kiln 2).state.isOn = true ∧
    { readyHouse 10 with masterEnable := false }.masterEnable = false ∧ ((readyHouse 10).kiln 2).state = .loaded ∧
    (suspendedHouse.kiln 2).runEnable = true ∧ ∀ j, ((readyHouse 10).kiln j).runEnable = false := by decide

/-- K2 resumed behind an open door, COAST before and after, and left waiting: SETPOINT_CHANGED all the same (06, R109). -/
theorem test_resume_open_door :
    let s := { suspendedHouse with capacity := 9, kilns := suspendedHouse.kilns.set 2 { suspendedHouse.kiln 2 with doorOpen := true } }
    ((run (.kilnStart (req .office [2])) s).heatOf 2).grant = 0 ∧
      (run (.kilnStart (req .office [2])) s).kilnHousePort.pending = 0x0005 := by decide

theorem witness_KilnStopAborts : Heard stoppedHouse (req .office [2]) .office ∧ (stoppedHouse.kiln 2).state.isOn = true ∧
    OthersDoNotWait stoppedHouse 2 := by decide

theorem witness_KilnUnloadEmpties : Heard (house .loaded ⟨0, .absent⟩ 0) (req .office [2]) .office ∧
    (req .office [2]).body = u8 (2 : KilnNo) ∧ ((house .loaded ⟨0, .absent⟩ 0).kiln 2).state = .loaded ∧
    ((house .finished ⟨0, .absent⟩ 1).kiln 2).state = .finished ∧
    ((house .finished ⟨0, .absent⟩ 1).kiln 2).aborted = false ∧
    ((pointed true).holdPoint 2).hit.map Hit.kiln = some 2 ∧ ((pointed true).holdPoint 1).hit.map Hit.kiln ≠ some 2 ∧
    ((house .held ⟨0, .absent⟩ 0).kiln 2).state ≠ .loaded ∧ ((house .held ⟨0, .absent⟩ 0).kiln 2).state ≠ .finished := by decide

theorem witness_SetupsWriteOneRecord : Heard State.reset (req .office [7, 1]) .office ∧
    (req .office [7, 1]).body = u8 (7 : KilnNo) ++ mark true ∧
    (req .office [3, 1, 8, 0, 0, 11, 0]).body =
      u8 (3 : HoldPointNo) ++ mark true ++ u8 HoldScope.any.code ++ u8 0 ++ u16 11 ++ mark false ∧
    (req .office [0, 0, 7, 1, 7, 0xD0, 1]).body =
      u8 (0 : HoldPointNo) ++ mark false ++ u8 (HoldScope.kiln 7).code ++ u8 1 ++ u16 2000 ++ mark true ∧
    (req .office [5, 3, 0xE7, 0, 7, 0xA1, 0x20, 48]).body = u8 (5 : StackerNo) ++ u16 999 ++ u32 500000 ++ u8 48 := by decide

/-- K2 RUNNING ACTIVE with its door open. -/
def openDoor : State :=
  (house (.running .active) ⟨10, .absent⟩ 0).setKiln 2
    { (house (.running .active) ⟨10, .absent⟩ 0).kiln 2 with doorOpen := true }

theorem witness_KilnReportStoresAndAnswers : Heard State.reset (req .kilnHouse [2, 0x80, 0, 0x7F, 0xFF, 0]) .kilnHouse ∧
    (req .kilnHouse [2, 0x80, 0, 0x7F, 0xFF, 0]).body = u8 (2 : KilnNo) ++ i16 (-32768) ++ i16 32767 ++ mark false ∧
    (State.reset.kiln 2).state = .empty ∧ ((house (.running .active) ⟨10, .absent⟩ 0).kiln 2).state = .running .active ∧
    (house (.running .active) ⟨10, .absent⟩ 0).masterEnable = true ∧
    ((house (.running .active) ⟨10, .absent⟩ 0).kiln 2).doorOpen = false ∧
    (house (.running .active) ⟨10, .absent⟩ 0).currentStep 2 = some ⟨.heatup, 430, 30, 10, .drybulbReached, 60, 720⟩ ∧
    ((house (.running .active) ⟨10, .absent⟩ 0).kiln 2).stepElapsed < 60 ∧
    -- the states of the answer: LOADED, suspended, HELD, WAIT_HEAT, and an open door
    ((readyHouse 10).kiln 2).state = .loaded ∧ (readyHouse 10).currentStep 2 = oak.steps[0]? ∧
    (suspendedHouse.kiln 2).state.isOn = true ∧ suspendedHouse.masterEnable = false ∧ suspendedHouse.currentStep 2 = oak.steps[0]? ∧
    ((house .held ⟨10, .absent⟩ 0).kiln 2).state = .held ∧
    ((house (.running .waitHeat) ⟨0, .waiting 10 0⟩ 0).kiln 2).state = .running .waitHeat ∧
    ((house (.running .waitHeat) ⟨0, .waiting 10 0⟩ 0).kiln 2).doorOpen = false ∧ (openDoor.kiln 2).doorOpen = true ∧
    (openDoor.kiln 2).state.isRunning = true ∧ openDoor.currentStep 2 = oak.steps[0]? := by decide

theorem witness_KilnHoldStopsTheStep : Heard suspendedHouse (req .office [2]) .office ∧
    (suspendedHouse.kiln 2).state = .running .waitHeat ∧ (∀ p, (stoppedHouse.kiln 2).state ≠ .running p) := by
  refine ⟨by decide, by decide, fun p => ?_⟩
  cases p <;> decide

theorem witness_KilnReleaseRuns : Heard stoppedHouse (req .office [2]) .office ∧ (stoppedHouse.kiln 2).state = .held ∧
    ¬((stoppedHouse.heatOf 2).grant = stoppedHouse.currentDemand 2 ∧ (stoppedHouse.heatOf 2).request = .absent) ∧
    ((house .held ⟨10, .absent⟩ 0).kiln 2).state = .held ∧
    ((house .held ⟨10, .absent⟩ 0).heatOf 2).grant = (house .held ⟨10, .absent⟩ 0).currentDemand 2 ∧
    ((house .held ⟨10, .absent⟩ 0).heatOf 2).request = .absent ∧
    -- the case whose phase is free (log 25)
    { house .held ⟨0, .dormant 0⟩ 1 with masterEnable := false }.currentDemand 2 = 0 ∧
    ({ house .held ⟨0, .dormant 0⟩ 1 with masterEnable := false }.heatOf 2).request ≠ .absent := by decide

theorem witness_KilnAdvanceEndsOneStep : Heard stoppedHouse (req .office [2]) .office ∧ (stoppedHouse.kiln 2).state = .held ∧
    ((pointed true).kiln 2).state ≠ .held ∧
    (house .held ⟨0, .absent⟩ 1).stepCount 2 ≤ ((house .held ⟨0, .absent⟩ 1).kiln 2).stepIndex + 1 ∧
    OthersDoNotWait (house .held ⟨0, .absent⟩ 1) 2 ∧ (stoppedHouse.kiln 2).stepIndex + 1 < stoppedHouse.stepCount 2 ∧
    stoppedHouse.stepAt 2 1 = some ⟨.cool, 300, 0, 0, .drybulbAtOrBelow 350, 120, 1440⟩ ∧ OthersDoNotWait stoppedHouse 2 ∧
    OthersDoNotWait (house .held ⟨10, .absent⟩ 0) 2 ∧ 1 < (house .held ⟨10, .absent⟩ 0).stepCount 2 ∧
    ((house .held ⟨10, .absent⟩ 0).heatOf 2).grant = 10 := by decide

/-- K2 HELD and waiting since minute 0 for 10 units, K5 RUNNING with 3, K6 RUNNING with 8, at minute 240. -/
def threeKilns : State :=
  { agedWait 11 with
    kilns := ((agedWait 11).kilns.set 5 (contextIn (.running .active))).set 6 (contextIn (.running .active))
    heat := ((agedWait 11).heat.set 5 ⟨3, .absent⟩).set 6 ⟨8, .absent⟩ }

/-- A pass with 10 units free serves K2, aged, and with 9 free ends at it. -/
theorem witness_PassServesAgedFirst : threeKilns.masterEnable = true ∧ threeKilns.grantSum ≤ threeKilns.capacity ∧
    threeKilns.condition = .running ∧ threeKilns.aged 2 = true ∧ threeKilns.passOrder = [2] ∧
    servedFrom { threeKilns with capacity := 21 }.freeUnits [threeKilns.asking 2] = [2] ∧
    servedFrom 9 [threeKilns.asking 2, ⟨4, 0, 1, false⟩] = [] ∧
    servedFrom 9 [⟨3, 0, 10, false⟩, ⟨4, 0, 9, false⟩] = [4] := by decide

theorem witness_BoilerCapacityStores : Heard (house (.running .active) ⟨10, .absent⟩ 0) (req .office [1, 10]) .office ∧
    (req .office [0, 0]).body = optU8 none ∧ (req .office [1, 10]).body = optU8 (some 10) ∧
    (house (.running .active) ⟨10, .absent⟩ 0).grantSum ≤ 10 ∧ 10 ≤ (house (.running .active) ⟨10, .absent⟩ 0).capacity ∧
    (req .office [1, 64]).body = optU8 (some 64) ∧ stoppedHouse.grantSum ≤ 64 ∧ stoppedHouse.masterEnable = false ∧
    threeKilns.capacity < 64 ∧ threeKilns.masterEnable = true ∧ 1 < threeKilns.grantSum ∧
    threeKilns.grantSum ≤ threeKilns.capacity ∧ revokedFrom (threeKilns.grantSum - 3) threeKilns.grantsDown = [6] ∧
    revokedFrom (threeKilns.grantSum - 1) threeKilns.grantsDown = [6, 5] ∧ (req .office [1, 65]).body = optU8 (some 65) := by decide

theorem witness_MillStopTakesAllHeat : (house (.running .active) ⟨10, .absent⟩ 0).condition = .running ∧
    (house (.running .active) ⟨10, .absent⟩ 0).millStopLine = false ∧
    ((house (.running .active) ⟨10, .absent⟩ 0).heatOf 2).grant ≠ 0 ∧ State.reset.condition = .running ∧
    State.reset.millStopLine = false ∧ State.reset.masterEnable = false ∧ ∀ k, (State.reset.heatOf k).grant = 0 := by decide

/-- K2 runs its first step past its minimum of 60, two minutes below its maximum of 720, with no dry-bulb for its exit; K3 stands
FINISHED past its minimum, and S3 has an OPEN pack at minute 58 of 60. -/
def countingHouse : State :=
  { house (.running .active) ⟨10, .absent⟩ 0 with
    kilns := ((house (.running .active) ⟨10, .absent⟩ 0).kilns.set 3 { contextIn .finished with stepElapsed := 900 }).set 2
      { contextIn (.running .active) with runEnable := true, stepElapsed := 718 }
    stackers := State.reset.stackers.set 3 { standing (twoBoards 1) with idleMinutes := 58 } }

theorem witness_MinuteEventCounts : countingHouse.condition = .running ∧ countingHouse.minute < 4294967295 ∧
    (∀ k, (countingHouse.heatOf k).request.since? = none) ∧ countingHouse.counts 2 = true ∧
    (∀ k t, (countingHouse.kiln k).state = .running .active → countingHouse.counts k = true →
      countingHouse.currentStep k = some t →
      (countingHouse.kiln k).stepElapsed + 1 < t.maxMinutes ∧ ((countingHouse.kiln k).stepElapsed + 1 < t.minMinutes ∨
        State.exitHolds { countingHouse with minute := countingHouse.minute + 1 } k t = false)) ∧
    countingHouse.lineHeld = false ∧ { countingHouse with lineHeld := true }.lineHeld = true ∧
    (∀ st p, (countingHouse.stacker st).openPack = some p → (countingHouse.stacker st).idleMinutes + 1 ≠ p.idleTime ∧
      ((countingHouse.stacker st).idleMinutes = p.idleTime → (countingHouse.stacker st).idleDue = false)) ∧
    { State.reset with minute := 4294967295 }.minute = 4294967295 := by
  refine ⟨by decide, by decide, by decide, by decide, fun k t hr _ h => ?_, rfl, rfl, fun st p h => ?_, rfl⟩
  · have hall : ∀ j, (countingHouse.kiln j).state ≠ .running .active ∨
        (countingHouse.currentStep j = some ⟨.heatup, 430, 30, 10, .drybulbReached, 60, 720⟩ ∧
          (countingHouse.kiln j).stepElapsed = 718 ∧ (countingHouse.kiln j).lastDry = none) := by decide
    rcases hall k with h' | ⟨h', he, hd⟩
    · exact absurd hr h'
    · rw [h'] at h; cases h; rw [he]
      refine ⟨by decide, .inr ?_⟩
      have hd' : (State.kiln { countingHouse with minute := countingHouse.minute + 1 } k).lastDry = none := hd
      simp only [State.exitHolds, hd']
  · have hall : ∀ j, (countingHouse.stacker j).openPack = none ∨ ((countingHouse.stacker j).openPack = some (twoBoards 1) ∧
        (countingHouse.stacker j).idleMinutes = 58) := by decide
    rcases hall st with h' | ⟨h', he⟩
    · rw [h'] at h; cases h
    · rw [h'] at h; cases h; rw [he]; exact ⟨by decide, fun e => absurd e (by decide)⟩

/-- The event that brings S3's pack to its idle time closes it, and one with every label slot taken marks it due (09, R160). -/
theorem test_idle_at_event :
    let s := line { standing (twoBoards 1) with idleMinutes := 59 } []
    (s.idleStackers.stacker 3).closing.map ClosingPack.reason = some .idle ∧
      (State.idleStackers { s with labels := List.replicate 16 (label 1) }).stacker 3 =
        { standing (twoBoards 1) with idleMinutes := 60, idleDue := true } := by decide

/-- K2 on step 0 with its minimum of 60 minutes counted and a dry-bulb of 420, the next step demanding as given, at a hold point or
none, with a capacity. -/
def warmed (demand : Nat) (hold : Bool) (capacity : Nat) : State :=
  { (house (.running .active) ⟨10, .absent⟩ 0).setKiln 2
      { (house (.running .active) ⟨10, .absent⟩ 0).kiln 2 with stepElapsed := 60, lastDry := some 420 } with
    schedules := [{ oak with steps :=
      [⟨.heatup, 430, 30, 10, .drybulbReached, 60, 720⟩, ⟨.drying, 430, 40, demand, .cmcAtOrBelow 150, 0, 1440⟩] }]
    capacity := capacity
    holdPoints := State.reset.holdPoints.set 1 ⟨hold, .any, .stepEnter 1, true, none⟩ }

theorem witness_StepEndsAndAgedRequest : overdue.condition = .running ∧ overdue.masterEnable = true ∧ OthersDoNotWait overdue 2 ∧
    (overdue.kiln 2).state = .running .active ∧
    overdue.currentStep 2 = some ⟨.cool, 300, 0, 0, .drybulbAtOrBelow 350, 120, 1440⟩ ∧ 1440 ≤ (overdue.kiln 2).stepElapsed ∧
    overdue.exitHolds 2 ⟨.cool, 300, 0, 0, .drybulbAtOrBelow 350, 120, 1440⟩ = false ∧
    overdue.stepCount 2 ≤ (overdue.kiln 2).stepIndex + 1 ∧ ((agedWait 10).kiln 2).state = .held ∧
    (agedWait 10).condition = .running ∧ (agedWait 10).masterEnable = true ∧ OthersDoNotWait (agedWait 10) 2 ∧
    ((agedWait 10).heatOf 2).request = .waiting 10 0 ∧ 240 ≤ (agedWait 10).minute - 0 ∧
    10 - ((agedWait 10).heatOf 2).grant ≤ (agedWait 10).freeUnits ∧ 10 ≠ ((agedWait 10).heatOf 2).grant ∧
    (agedWait 9).freeUnits < 10 - ((agedWait 9).heatOf 2).grant := by decide

/-- The end of step 0 by EXIT, at its minimum and at a dry-bulb of 430 less 10; its next step granted, held, and short of one unit; a
kiln that has not reached an end; and a figure fresh at 1,440 minutes. -/
theorem witness_step_ends : (warmed 8 true 12).masterEnable = true ∧ ((warmed 8 true 12).kiln 2).state = .running .active ∧
    OthersDoNotWait (warmed 8 true 12) 2 ∧
    (warmed 8 true 12).currentStep 2 = some ⟨.heatup, 430, 30, 10, .drybulbReached, 60, 720⟩ ∧
    60 ≤ ((warmed 8 true 12).kiln 2).stepElapsed ∧
    (warmed 8 true 12).exitHolds 2 ⟨.heatup, 430, 30, 10, .drybulbReached, 60, 720⟩ = true ∧ 1 < (warmed 8 true 12).stepCount 2 ∧
    (warmed 8 true 12).stepAt 2 1 = some ⟨.drying, 430, 40, 8, .cmcAtOrBelow 150, 0, 1440⟩ ∧
    (warmed 8 true 12).stepEnterMatches 2 1 ≠ [] ∧ (warmed 12 false 12).stepEnterMatches 2 1 = [] ∧
    12 - ((warmed 12 false 12).heatOf 2).grant ≤ (warmed 12 false 12).freeUnits ∧
    (warmed 13 false 12).freeUnits < 13 - ((warmed 13 false 12).heatOf 2).grant ∧
    ((house (.running .active) ⟨10, .absent⟩ 0).kiln 2).stepElapsed < 60 ∧
    (∀ x ∈ agedSamples, 51440 - x.weighMinute ≤ 1440) ∧
    ((run (.kilnReport (req .kilnHouse [2, 1, 0xA4, 1, 0x22, 0])) (warmed 13 false 12)).kiln 2).state = .running .waitHeat := by
  decide

/-- S3 with an OPEN pack of two boards and bin 14, and a redry range of one number. -/
def redryLine : State :=
  { line (standing { twoBoards 1 with bin := 14 }) [] with redryFirst := 65535, redryLast := 65535, redryNext := 65535 }

/-- The same, with the pack at its idle time. -/
def idleRedry : State := redryLine.setStacker 3 { redryLine.stacker 3 with idleMinutes := 60 }

theorem witness_IdleCloseAttempted : (line (idleStack 1) []).condition = .running ∧ (line (idleStack 1) []).lineHeld = false ∧
    ((line (idleStack 1) []).stacker 3).openPack = some (twoBoards 1) ∧
    ((line (idleStack 1) []).stacker 3).idleMinutes = (twoBoards 1).idleTime ∧ (twoBoards 1).bin ≠ 14 ∧
    ((line (idleStack 1) []).stacker 3).closing = none ∧
    (line (idleStack 1) []).labels.length + (line (idleStack 1) []).labelsReserved < 16 ∧ 0 < (twoBoards 1).outstanding ∧
    ((line (idleStack 0) []).stacker 3).openPack = some (twoBoards 0) ∧ (twoBoards 0).outstanding = 0 ∧
    16 ≤ { line (idleStack 1) [] with labels := List.replicate 16 (label 1) }.labels.length +
      { line (idleStack 1) [] with labels := List.replicate 16 (label 1) }.labelsReserved ∧
    ((line { idleStack 1 with closing := (closingStack (twoBoards 1) none).closing } []).stacker 3).closing.isSome = true ∧
    -- a redry pack, with the last number of the range free and taken
    (idleRedry.stacker 3).openPack = some { twoBoards 1 with bin := 14 } ∧ (idleRedry.stacker 3).idleMinutes = 60 ∧
    idleRedry.lots.length + idleRedry.reservations.length < 64 ∧ idleRedry.redrySearch = some 65535 ∧
    { idleRedry with lots := [lot 65535 .closed] }.redrySearch = none ∧
    (redryLine.stacker 3).idleMinutes ≠ ({ twoBoards 1 with bin := 14 } : Pack).idleTime := by decide

theorem witness_BinMapRequests : Heard State.reset (req .office (List.replicate 14 6 ++ [5])) .office ∧
    (req .office (List.replicate 14 6 ++ [5])).body =
      (List.ofFn fun i : Fin 15 => if i = 14 then BinEntry.stacker 5 else .reject).flatMap (fun e => u8 e.code) ∧
    (List.replicate 15 (6 : Byte)).length = 15 ∧
    (∃ (i : Nat) (n : Byte), (List.replicate 15 (6 : Byte))[i]? = some n ∧ ¬(n.toNat ≤ 5 ∨ n.toNat = 8 ∨ n.toNat = 6 ∧ i ≤ 13)) ∧
    (req .office [14, 8]).body = u8 (14 : Fin 15) ++ u8 BinEntry.unmapped.code ∧
    (req .office [13, 6]).body = u8 (13 : Fin 15) ++ u8 BinEntry.reject.code ∧
    15 ≤ (15 : Byte).toNat ∧
    ¬((7 : Byte).toNat ≤ 5 ∨ (7 : Byte).toNat = 8 ∨ (7 : Byte).toNat = 6 ∧ (0 : Byte).toNat ≤ 13) ∧
    State.reset.listens .planer = true ∧ (req .planer []).body = [] ∧ State.reset.binMap[15] = .reject ∧
    exec (.binMapSet (req .office [14, 8])) State.reset = .next (run (.binMapSet (req .office [14, 8])) State.reset) :=
  ⟨by decide, by decide, by decide, ⟨14, 6, by decide, by decide⟩, by decide, by decide, by decide, by decide, by decide, rfl,
    by decide, rfl⟩

/-- Lot 2217 PLANING, with a kiln result of final CMC 91, one above its dry limit; bin 5 is mapped to REJECT, bin 4 to S3, and the
others are UNMAPPED. -/
def asideLine (h : Option Hold) : State :=
  { line Stacker.unused [] with
    lots := [{ lot 2217 (match h with | some x => .held x | none => .planing) with
      kilnResult := some ⟨2, some 91, some 80, some 95, 0, false⟩ }]
    binMap := (line Stacker.unused []).binMap.set 5 .reject }

/-- The lot of `asideLine`. -/
def asideLot (h : Option Hold) : LotRecord :=
  { lot 2217 (match h with | some x => .held x | none => .planing) with
    kilnResult := some ⟨2, some 91, some 80, some 95, 0, false⟩ }

/-- The hypotheses that the MEASURE statements share; a HELD lot; a thickness of 3 and bin 15; an unverified board of bin 14 (log
26); and dry boards of bins 14, 5 and 6, the corrected MC being 90, the dry limit, and one of 91 with bin 14 UNMAPPED. -/
theorem witness_MeasureSendsAside : Heard (asideLine none) (req .planer (measureBody 3 26 12 4 118 8)) .planer ∧
    (req .planer (measureBody 3 26 12 4 118 8)).body =
      u16 2217 ++ u8 3 ++ u8 26 ++ u8 12 ++ u8 (4 : BinNo) ++ u16 118 ++ mark false ++ i8 8 ∧
    (asideLine none).lineHeld = false ∧ (asideLine none).shadow = false ∧ (asideLine none).queue.length < 48 ∧
    (asideLine none).findLot 2217 = some (asideLot none) ∧ (asideLot none).state = .planing ∧
    (asideLine none).speciesAt 3 = some redOak ∧ (asideLot none).measured.boards < 999999 ∧
    (asideLot none).measured.footage + boardFootage 3 26 12 ≤ 9999999999 ∧
    (asideLine (some .aborted)).findLot 2217 = some (asideLot (some .aborted)) ∧ (asideLot (some .aborted)).state = .held .aborted ∧
    dimensionFault 3 26 12 = true ∧ dimensionFault 4 26 12 = false ∧
    (req .planer (measureBody 4 26 12 15 118 0x80)).body =
      u16 2217 ++ u8 4 ++ u8 26 ++ u8 12 ++ u8 (15 : BinNo) ++ u16 118 ++ mark false ++ i8 (-128) ∧
    (req .planer (measureBody 4 26 12 14 118 0xFF)).body =
      u16 2217 ++ u8 4 ++ u8 26 ++ u8 12 ++ u8 (14 : BinNo) ++ u16 118 ++ mark false ++ i8 (-1) ∧
    (asideLot none).kilnResult.bind KilnResult.finalCmc = some 91 ∧ (asideLot none).targetMc + (asideLot none).tolerance = 90 ∧
    correctedMc 86 false 8 940 8 = 90 ∧ correctedMc 87 false 8 940 8 = 91 ∧ (asideLine none).binMap[(5 : BinNo)] = .reject ∧
    (asideLine none).binMap[(6 : BinNo)] = .unmapped ∧ (asideLine none).binMap[14] = .unmapped := by decide

/-- A pack of lot 2217 and bin 4 on S3 that has room for one board of 6.50 bf exactly. -/
def roomForOne : State := line (standing { twoBoards 2 with countLimit := 4, footageLimit := 2550 }) []

/-- `roomForOne` with bin 14 mapped to S2, which is blocked. -/
def wetAway : State :=
  { roomForOne with
    binMap := roomForOne.binMap.set 14 (.stacker 2)
    stackers := roomForOne.stackers.set 2 { Stacker.unused with blocked := some .labels } }

/-- A board of MC 85 has a place in the OPEN pack; a wet board of MC 121 is turned away at a blocked stacker. -/
theorem witness_MeasurePlacesOnStacker : Heard roomForOne (req .planer (measureBody 4 26 12 4 80 8)) .planer ∧
    (req .planer (measureBody 4 26 12 4 80 8)).body =
      u16 2217 ++ u8 4 ++ u8 26 ++ u8 12 ++ u8 (4 : BinNo) ++ u16 80 ++ mark false ++ i8 8 ∧
    roomForOne.lineHeld = false ∧ roomForOne.shadow = false ∧ roomForOne.queue.length < 48 ∧
    roomForOne.findLot 2217 = some (lot 2217 .planing) ∧ roomForOne.speciesAt 3 = some redOak ∧
    dimensionFault 4 26 12 = false ∧ verifiedAt 8 = true ∧ correctedMc 80 false 8 redOak.fs redOak.kt ≤ 90 ∧
    roomForOne.binMap[4] = .stacker 3 ∧ (roomForOne.stacker 3).blocked = none ∧
    (roomForOne.stacker 3).openPack = some { twoBoards 2 with countLimit := 4, footageLimit := 2550 } ∧
    (twoBoards 2).lot = 2217 ∧ (twoBoards 2).bin = 4 ∧ (twoBoards 2).boards + 1 < 4 ∧
    (twoBoards 2).footage + boardFootage 4 26 12 ≤ 2550 ∧ (roomForOne.place 3 ⟨2217, 4, 650, 85, true⟩).2 = some 910 ∧
    Heard wetAway (req .planer (measureBody 4 26 12 4 118 8)) .planer ∧ ¬correctedMc 118 false 8 redOak.fs redOak.kt ≤ 90 ∧
    wetAway.binMap[(14 : BinNo)] = .stacker 2 ∧ (wetAway.place 2 ⟨2217, 14, 650, 121, true⟩).2 = none := by decide

/-- S3 blocked for LABELS. -/
def blockedLine : State := line { Stacker.unused with blocked := some .labels } []

/-- S3 with an OPEN pack of lot 2217 and bin 4 of two boards, at limits. -/
def limited (count footage outstanding : Nat) : State :=
  line (standing { twoBoards outstanding with countLimit := count, footageLimit := footage }) []

/-- `limited` with every label slot taken. -/
def labelsFull : State := { limited 3 0 2 with labels := List.replicate 16 (label 1) }

/-- A board of 6.50 bf: the third of three closes with it; before it, a pack at 2,549, of another bin, or at its count limit closes;
a stacker limited to one board; and each reason that blocks. -/
theorem witness_PlacementOpensAndCloses : 1 ≤ State.reset.nextPack ∧ State.reset.nextPack ≤ 65535 ∧
    (blockedLine.stacker 3).blocked.isSome = true ∧ (State.reset.stacker 3).openPack = none ∧
    (State.reset.stacker 3).blocked = none ∧ (State.reset.stacker 3).countLimit ≠ 1 ∧
    ({ twoBoards 2 with countLimit := 3 } : Pack).boards + 1 = 3 ∧ (twoBoards 2).footage + 650 = 2550 ∧
    ((limited 3 0 2).stacker 3).openPack = some { twoBoards 2 with countLimit := 3 } ∧
    ((limited 2 0 0).stacker 3).openPack = some { twoBoards 0 with countLimit := 2 } ∧ (twoBoards 0).boards = 2 ∧
    ((limited 4 2549 0).stacker 3).openPack = some { twoBoards 0 with countLimit := 4, footageLimit := 2549 } ∧
    2549 < (twoBoards 0).footage + 650 ∧ (twoBoards 0).lot = 2217 ∧ (twoBoards 0).bin ≠ 5 ∧
    ((line { Stacker.unused with countLimit := 1 } []).stacker 3).countLimit = 1 ∧ ((limited 3 0 2).stacker 3).closing = none ∧
    (limited 3 0 2).labels.length + (limited 3 0 2).labelsReserved < 16 ∧
    16 ≤ labelsFull.labels.length + labelsFull.labelsReserved ∧
    (narrow.stacker 3).closing.isSome = true ∧ (redryLine.stacker 3).openPack = some { twoBoards 1 with bin := 14 } ∧
    redryLine.lots.length + redryLine.reservations.length < 64 ∧ redryLine.redrySearch = some 65535 ∧
    { redryLine with lots := [lot 65535 .closed] }.redrySearch = none ∧
    64 ≤ { redryLine with lots := List.replicate 64 (lot 1 .closed) }.lots.length +
      { redryLine with lots := List.replicate 64 (lot 1 .closed) }.reservations.length := by decide

/-- `wetAway` in shadow mode. -/
def shadowed : State := { wetAway with shadow := true }

theorem witness_LineHoldAndShadow : Heard State.reset (req .planer []) .planer ∧ (req .planer []).body = [] ∧
    Heard shadowed (req .planer (measureBody 0 255 255 0 118 0x7F)) .planer ∧
    (req .planer (measureBody 0 255 255 0 118 0x7F)).body =
      u16 2217 ++ u8 0 ++ u8 255 ++ u8 255 ++ u8 (0 : BinNo) ++ u16 118 ++ mark false ++ i8 127 ∧
    (req .planer (measureBody 4 26 12 4 85 8)).body =
      u16 2217 ++ u8 4 ++ u8 26 ++ u8 12 ++ u8 (4 : BinNo) ++ u16 85 ++ mark false ++ i8 8 ∧
    shadowed.lineHeld = false ∧ shadowed.shadow = true ∧ shadowed.findLot 2217 = some (lot 2217 .planing) ∧
    shadowed.speciesAt 3 = some redOak ∧ shadowed.queue.length < 48 ∧ { shadowed with lineHeld := true }.lineHeld = true ∧
    -- the refusals of a MEASURE: its fields, a full queue, a lot absent, CLOSED or full
    Heard State.reset (req .planer [8, 0xA9, 4, 26, 12, 16, 0, 85, 2, 8]) .planer ∧
    (req .planer [8, 0xA9, 4, 26, 12, 16, 0, 85, 2, 8]).body =
      u16 2217 ++ u8 4 ++ u8 26 ++ u8 12 ++ u8 16 ++ u16 85 ++ [2] ++ i8 8 ∧
    48 ≤ (line Stacker.unused (List.replicate 48 (board 1 .reject .reject none))).queue.length ∧
    State.reset.findLot 2217 = none ∧ State.reset.lineHeld = false ∧ State.reset.shadow = false ∧
    (table [lot 2217 .closed]).findLot 2217 = some (lot 2217 .closed) ∧
    (table [{ lot 2217 .planing with measured := ⟨0, 9999999350⟩ }]).findLot 2217 =
      some { lot 2217 .planing with measured := ⟨0, 9999999350⟩ } ∧ 9999999999 < 9999999350 + boardFootage 4 26 12 ∧
    -- a dimension fault; a board at the dry limit of 90 for S3, whose pack takes it; and one above it for the blocked S2
    (shadowed.decideBoard (lot 2217 .planing) ⟨4, 64, 20, boardFootage 0 255 255, true, 60, correctedMc 118 false 127 940 8, true⟩
      0).route = .aside .reject .reject none ∧
    correctedMc 85 false 8 940 8 = 90 ∧ boardFootage 4 26 12 = 650 ∧
    shadowed.decideBoard (lot 2217 .planing) ⟨4, 26, 12, 650, false, 8, 90, true⟩ 4 = ⟨4, .stacker .pass 3⟩ ∧
    (shadowed.place 3 ⟨2217, 4, 650, 90, true⟩).2 = some 910 ∧
    shadowed.decideBoard (lot 2217 .planing) ⟨4, 26, 12, 650, false, 8, 91, true⟩ 4 = ⟨14, .stacker .redry 2⟩ ∧
    (shadowed.place 2 ⟨2217, 14, 650, 91, true⟩).2 = none := by decide

/-- In shadow mode a wet board of MC 121 for the blocked S2 is answered HOLDBACK, STACKER_BLOCKED, with the shadow mark. -/
theorem test_shadow : reply .planer (.measure (req .planer (measureBody 4 26 12 4 118 8))) shadowed =
    some (.done, [0, 0, 3, 7, 0, 0, 0, 121, 1, 1, 5]) := by decide

/-- Lot 2217 at the first row of 03, section 3.8, before the board of 6.50 bf. -/
def nearLimit : LotRecord := { lot 2217 .planing with passed := ⟨30, 18400⟩, redry := ⟨2, 1200⟩ }

theorem witness_RedryCheckHoldsTheLot : nearLimit.state = .planing ∧ (nearLimit.afterBoard .redry 650 121 true).state =
    .held (.redry .planing) ∧ ({ nearLimit with redryLimit := 91 }.afterBoard .redry 650 121 true).state = .planing := by decide

theorem witness_DropTakesOldestBoard :
    Heard (line Stacker.unused [board 1 .reject .reject none]) (req .planer [6]) .planer ∧
    (req .planer [6]).body = u8 Destination.reject.code ∧
    ((line Stacker.unused [board 1 .reject .reject none]).queue.find? fun x => x.destination == .reject) =
      some (board 1 .reject .reject none) ∧
    (req .planer [3]).body = u8 (Destination.stacker 3).code ∧
    ((line (standing (twoBoards 1)) [board 1 .pass (.stacker 3) (some 910)]).queue.find? fun x => x.destination == .stacker 3) =
      some (board 1 .pass (.stacker 3) (some 910)) ∧
    ((line (standing (twoBoards 1)) [board 1 .pass (.stacker 3) (some 910)]).stacker 3).openPack = some (twoBoards 1) ∧
    0 < (twoBoards 1).boards ∧
    ((line (standing (twoBoards 1)) [board 1 .pass (.stacker 3) (some 910)]).stacker 3).closing = none ∧
    ((line (closingStack (twoBoards 1) none) [board 1 .pass (.stacker 3) (some 910)]).stacker 3).closing =
      some ⟨twoBoards 1, .operator, 0, none⟩ ∧ (twoBoards 1).outstanding = 1 ∧
    ((line (closingStack (twoBoards 1) none) [board 1 .pass (.stacker 3) (some 910)]).stacker 3).openPack = none ∧
    ((line (closingStack (twoBoards 2) none) [board 1 .pass (.stacker 3) (some 910)]).stacker 3).closing =
      some ⟨twoBoards 2, .operator, 0, none⟩ ∧ 2 ≤ (twoBoards 2).outstanding ∧ (req .planer [8]).body = u8 8 ∧
    Heard State.reset (req .planer [7]) .planer ∧ (req .planer [7]).body = u8 Destination.holdback.code ∧
    State.reset.queue = [] := by decide

theorem witness_CompletionQueuesLabelAndLot : (narrow.stacker 3).closing = some ⟨{ twoBoards 1 with bin := 14 }, .operator, 0, some 64003⟩ ∧
    narrow.findLot 2217 = some (lot 2217 .planing) ∧ narrow.serial = some 1 ∧
    { narrow with serial := some 4294967295 }.serial = some 4294967295 := by decide

/-- The last serial spends the counter (10, R171). -/
theorem test_last_serial : (State.completePack { line (closingStack (twoBoards 0) none) [] with serial := some 4294967295 } 3
    ⟨twoBoards 0, .operator, 0, none⟩).serial = none := by decide

/-- S3 with a CLOSING redry pack whose one board is in the queue, its number 64003 reserved. -/
def lastOfRedry : State :=
  line (closingStack { emptyPack.addBoard 650 121 true with bin := 14, outstanding := 1 } (some 64003))
    [board 1 .redry (.stacker 3) (some 910)]

theorem witness_LostRetractsTheBoard :
    Heard (line Stacker.unused [board 1 .reject .reject none]) (req .planer [0, 1]) .planer ∧ (req .planer [0, 1]).body = u16 1 ∧
    ((line Stacker.unused [board 1 .reject .reject none]).queue.find? fun x => x.seq == 1) = some (board 1 .reject .reject none) ∧
    ((line (standing (twoBoards 1)) [board 1 .pass (.stacker 3) (some 910)]).queue.find? fun x => x.seq == 1) =
      some (board 1 .pass (.stacker 3) (some 910)) ∧
    ((line (standing (twoBoards 1)) [board 1 .pass (.stacker 3) (some 910)]).stacker 3).openPack = some (twoBoards 1) ∧
    ((line (standing (twoBoards 1)) [board 1 .pass (.stacker 3) (some 910)]).stacker 3).closing = none ∧
    ((line (closingStack (twoBoards 2) none) [board 1 .pass (.stacker 3) (some 910)]).stacker 3).closing =
      some ⟨twoBoards 2, .operator, 0, none⟩ ∧ 2 ≤ (twoBoards 2).outstanding ∧ (twoBoards 1).outstanding ≤ 1 ∧
    2 ≤ (twoBoards 1).boards ∧ (lastOfRedry.stacker 3).closing =
      some ⟨{ emptyPack.addBoard 650 121 true with bin := 14, outstanding := 1 }, .operator, 0, some 64003⟩ ∧
    (lastOfRedry.queue.find? fun x => x.seq == 1) = some (board 1 .redry (.stacker 3) (some 910)) ∧
    (emptyPack.addBoard 650 121 true).boards ≤ 1 ∧
    (∀ j, (lastOfRedry.stacker j).blocked = none ∧ (lastOfRedry.stacker j).idleDue = false) ∧ TableSound lastOfRedry ∧
    lastOfRedry.numberInUse 64003 = true := by
  refine ⟨by decide, by decide, by decide, by decide, by decide, by decide, by decide, by decide, by decide, by decide, by decide,
    by decide, by decide, by decide, ⟨by decide, by decide, by decide, by decide⟩, by decide⟩

theorem witness_PackCloseReserves : Heard (line (standing (twoBoards 1)) []) (req .planer [3]) .planer ∧
    (req .planer [3]).body = u8 (3 : StackerNo) ∧
    ((line (standing (twoBoards 1)) []).stacker 3).openPack = some (twoBoards 1) ∧ 0 < (twoBoards 1).outstanding ∧
    ((line { standing (twoBoards 1) with closing := (closingStack (twoBoards 1) none).closing } []).stacker 3).closing.isSome = true ∧
    ((line (standing (twoBoards 1)) []).stacker 3).closing = none ∧
    16 ≤ { line (standing (twoBoards 1)) [] with labels := List.replicate 16 (label 1) }.labels.length +
      { line (standing (twoBoards 1)) [] with labels := List.replicate 16 (label 1) }.labelsReserved ∧
    (line (standing (twoBoards 1)) []).labels.length + (line (standing (twoBoards 1)) []).labelsReserved < 16 ∧
    (twoBoards 1).bin ≠ 14 ∧ (redryLine.stacker 3).openPack = some { twoBoards 1 with bin := 14 } ∧
    (redryLine.stacker 3).closing = none ∧ redryLine.labels.length + redryLine.labelsReserved < 16 ∧
    redryLine.lots.length + redryLine.reservations.length < 64 ∧ redryLine.redrySearch = some 65535 ∧
    64 ≤ { redryLine with lots := List.replicate 64 (lot 1 .closed) }.lots.length +
      { redryLine with lots := List.replicate 64 (lot 1 .closed) }.reservations.length ∧
    { redryLine with lots := [lot 65535 .closed] }.redrySearch = none ∧ (twoBoards 0).outstanding = 0 ∧
    ((line (standing (twoBoards 0)) []).stacker 3).openPack = some (twoBoards 0) ∧ (State.reset.stacker 3).openPack = none := by
  decide

/-- S3 blocked for a reason, with room for all of them. -/
def blockedBy (why : BlockReason) : State := { redryLine with stackers := (line { Stacker.unused with blocked := some why } []).stackers }

theorem witness_ReexaminationsFreeStackers : Heard labelled (req .office [16]) .office ∧ (req .office [16]).body = u8 16 ∧
    (req .office [17]).body = u8 17 ∧ (req .office [0]).body = u8 0 ∧
    (∀ why ∈ [BlockReason.labels, .lots, .numbers, .prior], (∀ st, ((blockedBy why).stacker st).idleDue = false) ∧
      ((blockedBy why).stacker 3).blocked = some why) ∧
    (blockedBy .labels).labels.length + (blockedBy .labels).labelsReserved < 16 ∧
    (blockedBy .lots).lots.length + (blockedBy .lots).reservations.length < 64 ∧
    (blockedBy .numbers).redrySearch = some 65535 ∧ ((blockedBy .prior).stacker 3).closing = none ∧
    { blockedBy .numbers with lots := [lot 65535 .closed] }.redrySearch = none ∧
    (run (.lotRemove (req .office [0xFF, 0xFF])) { blockedBy .numbers with lots := [lot 65535 .closed] }).planerPort.pending =
      AttnClass.stackerFreed.set ∧
    -- completion and discard of S3's CLOSING pack
    (∀ st, (((line (closingStack (twoBoards 0) none) []).completePack 3 ⟨twoBoards 0, .operator, 0, none⟩).stacker st).idleDue =
      false) ∧
    narrow.redryFirst ≤ narrow.redryNext ∧ narrow.redryNext ≤ narrow.redryLast ∧ narrow.redrySearch = some 64000 := by
  decide

theorem witness_ClearAllEmptiesThePart : Heard State.reset (req .office []) .office ∧ (req .office []).body = [] ∧
    (∃ k, ((house .loaded ⟨0, .absent⟩ 0).kiln k).state ≠ .empty) ∧ (line Stacker.unused [board 1 .reject .reject none]).queue ≠ [] ∧
    (∃ st, ((line (standing (twoBoards 1)) []).stacker st).openPack.isSome = true) ∧
    (∀ k, ((table [lot 2217 .waiting]).kiln k).state = .empty) ∧ (table [lot 2217 .waiting]).queue = [] ∧
    (∀ st, ((table [lot 2217 .waiting]).stacker st).openPack = none ∧ ((table [lot 2217 .waiting]).stacker st).closing = none) := by
  decide

/-- The part stopped with its marker written. -/
def dark (resetLine : Bool) : State :=
  { house (.running .active) ⟨10, .absent⟩ 0 with condition := .stopped, completionMarker := true, resetLine := resetLine }

theorem witness_SupplyAndResetLines : State.reset.condition = .running ∧ (dark false).condition = .stopped ∧
    (dark false).resetLine = false ∧ { dark false with completionMarker := false }.completionMarker = false ∧
    (dark true).condition = .stopped ∧ (dark true).resetLine = true ∧
    { dark true with condition := .held .powerLost }.condition = .held .powerLost := by decide

theorem witness_IntactStartUpKeepsRecords : (dark false).condition = .stopped ∧ (dark false).resetLine = false ∧
    (dark false).completionMarker = true ∧ { dark true with condition := .held .reset }.condition = .held .reset ∧
    { dark true with condition := .held .powerIntact }.condition = .held .powerIntact ∧
    (dark false).queue = [] ∧ (∀ st, ((dark false).stacker st).idleDue = false) ∧
    TableSound { busy with condition := .held .reset } ∧
    { busy with condition := .held .reset }.findLot 2217 =
      some { lot 2217 .planing with measured := ⟨1, 650⟩, redry := ⟨1, 650⟩ } := by
  refine ⟨by decide, by decide, by decide, by decide, by decide, by decide, by decide,
    ⟨by decide, by decide, by decide, by decide⟩, by decide⟩

/-- A start-up frees S3, blocked for LABELS with slots free, and raises no class for it (09, R168). -/
theorem test_startUp_frees : let t := run (.resetReleased ⟨false, false⟩) { blockedBy .labels with condition := .held .powerIntact }
    (t.stacker 3).blocked = none ∧ t.planerPort.pending = 0 := by decide +kernel

end Sys2Proof.Tests
end

section
/-! The Bin Map (08, R143 to R145): what BIN MAP WRITE and BIN MAP SET make of the destinations they carry, and that every command
leaves the map as it is but those two, CLEAR ALL, and a start-up with retention lost, none of which moves bin 15 from REJECT. -/

namespace Sys2Proof.Machine

/-! ### Destinations of a bin -/

/-- The destinations permitted for a bin (08, section 8.6). -/
theorem binEntry_ofCode_eq_none_iff (bin n : Nat) :
    BinEntry.ofCode bin n = none ↔ bin = 15 ∨ ¬(n ≤ 5 ∨ n = 8 ∨ n = 6 ∧ bin ≤ 13) := by
  fun_cases BinEntry.ofCode bin n <;> simp <;> omega

theorem entriesFrom_cons (b n : Nat) (ns : List Nat) :
    entriesFrom b (n :: ns) =
      (BinEntry.ofCode b n).bind fun e => (entriesFrom (b + 1) ns).map fun es => e :: es := by
  simp only [entriesFrom]
  cases BinEntry.ofCode b n <;> cases entriesFrom (b + 1) ns <;> rfl

/-- One destination that is not permitted refuses the whole list (R144). -/
theorem entriesFrom_eq_none (ns : List Nat) : ∀ (b i n : Nat), ns[i]? = some n → BinEntry.ofCode (b + i) n = none →
    entriesFrom b ns = none := by
  induction ns with
  | nil => intro b i n hi; simp at hi
  | cons m ns ih =>
    intro b i n hi hn
    rw [entriesFrom_cons]
    cases i with
    | zero =>
      obtain rfl : m = n := by simpa using hi
      rw [show BinEntry.ofCode b m = none from hn, Option.bind_none]
    | succ i =>
      rw [ih (b + 1) i n (by simpa using hi) (by rwa [show b + 1 + i = b + (i + 1) by omega])]
      cases BinEntry.ofCode b m <;> rfl

/-- Destinations permitted for their bins name no entry for bin 15 (R143, R144). -/
theorem setBins_bin15 (ns : List Nat) : ∀ (b : Nat) (es : List BinEntry) (s : State), entriesFrom b ns = some es →
    (s.setBins b es).binMap[15] = s.binMap[15] := by
  induction ns with
  | nil =>
    intro b es s h
    obtain rfl : [] = es := by simpa [entriesFrom] using h
    rfl
  | cons n ns ih =>
    intro b es s h
    simp only [entriesFrom_cons, Option.bind_eq_some_iff, Option.map_eq_some_iff] at h
    obtain ⟨e, he, es, hes, rfl⟩ := h
    have hb : b ≠ 15 := fun hb => by
      rw [(binEntry_ofCode_eq_none_iff b n).2 (.inl hb)] at he
      cases he
    calc (s.setBins b (e :: es)).binMap[15]
      _ = (s.binMap.setIfInBounds b e)[15] := ih (b + 1) es _ hes
      _ = s.binMap[15] := by simp [hb]

/-! ### The bodies of the bin map requests -/

theorem readBinMap_bytes (ns : List Byte) (h : ns.length = 15) : readBinMap ns = some (ns.map BitVec.toNat) := by
  unfold readBinMap
  rw [if_pos h]

theorem flatMap_u8_eq_map (l : List BinEntry) : l.flatMap (fun e => u8 e.code) = l.map fun e => byteOf e.code :=
  List.map_eq_flatMap.symm

theorem readBinMap_entries (es : List BinEntry) (h : es.length = 15) :
    readBinMap (es.flatMap fun e => u8 e.code) = some (es.map BinEntry.code) := by
  rw [flatMap_u8_eq_map, readBinMap_bytes _ (by simpa using h), List.map_map]
  exact congrArg some (List.map_congr_left fun e _ => byteOf_toNat (binEntry_code_le e))

/-! ### The rules of the bin map requests -/

theorem binMapWrite_accepted (s : State) (es : List BinEntry) {ns : List Nat} (h : entriesFrom 0 ns = some es) :
    binMapWrite ns s = (s.setBins 0 es, .done (s.setBins 0 es).binBytes) := by
  unfold binMapWrite
  rw [h]

theorem binMapWrite_refused (s : State) {ns : List Nat} (h : entriesFrom 0 ns = none) :
    binMapWrite ns s = (s, .refuse .badField) := by
  unfold binMapWrite
  rw [h]

theorem binMapSet_accepted (s : State) (bin : Fin 15) {n : Nat} {e : BinEntry} (h : BinEntry.ofCode bin n = some e) :
    binMapSet (bin, n) s =
      ({ s with binMap := s.binMap.set bin e },
        .done ((s.binMap.set bin e).toList.flatMap fun x => u8 x.code)) := by
  have hmap : s.binMap.setIfInBounds bin e = s.binMap.set bin e := by
    ext i hi
    rw [Vector.getElem_setIfInBounds hi, Vector.getElem_set _ hi]
  have hset : s.setBins bin [e] = { s with binMap := s.binMap.set bin e } := by
    simp only [State.setBins, hmap]
  unfold binMapSet
  simp only [show ¬15 < bin.val by omega, if_false, h, hset]
  rfl

theorem binMapSet_refused (s : State) {bin n : Nat}
    (h : 15 ≤ bin ∨ ¬(n ≤ 5 ∨ n = 8 ∨ n = 6 ∧ bin ≤ 13)) : binMapSet (bin, n) s = (s, .refuse .badField) := by
  unfold binMapSet
  split
  · rfl
  · rw [(binEntry_ofCode_eq_none_iff bin n).2 (by omega)]

/-- The sixteen bytes of the map are those of bins 0 to 14 and that of bin 15 (R145). -/
theorem binBytes_eq_append (s : State) :
    s.binBytes = (s.binMap.toList.take 15).flatMap (fun e => u8 e.code) ++ u8 s.binMap[15].code := by
  have hlast : s.binMap.toList.drop 15 = [s.binMap[15]] := by
    rw [List.drop_eq_getElem_cons (by simp)]
    simp
  calc s.binBytes
    _ = (s.binMap.toList.take 15 ++ s.binMap.toList.drop 15).flatMap fun e => u8 e.code := by
      rw [List.take_append_drop]; rfl
    _ = _ := by rw [hlast, List.flatMap_append, List.flatMap_singleton]

/-! ### Requests that leave the map

The operations of the kiln house and of the Pack Builder change records of their own (Laws/KilnSide, Laws/PackSide), and the map is
none of them. In each rule below the branches that refuse leave the state, and a branch that serves makes an operation of theirs or
writes fields of another record. -/

theorem OnlyKilns.binMap {s t : State} (h : OnlyKilns s t) : t.binMap = s.binMap := by
  rw [h.rest]

theorem OnlyPacks.binMap {s t : State} (h : OnlyPacks s t) : t.binMap = s.binMap := by
  rw [h.rest]

theorem ite_binMap {s t u : State} {p : Prop} [Decidable p] (ht : t.binMap = s.binMap) (hu : u.binMap = s.binMap) :
    (if p then t else u).binMap = s.binMap := by
  split
  · exact ht
  · exact hu

theorem lotRead_binMap (n : Nat) (s : State) : (lotRead n s).1.binMap = s.binMap := by
  fun_cases lotRead n s <;> rfl

theorem lotList_binMap (n : Nat) (s : State) : (lotList n s).1.binMap = s.binMap := by
  fun_cases lotList n s <;> rfl

theorem kilnRead_binMap (q : Nat × Byte) (s : State) : (kilnRead q s).1.binMap = s.binMap := by
  fun_cases kilnRead q s <;> rfl

theorem stackerRead_binMap (n : Nat) (s : State) : (stackerRead n s).1.binMap = s.binMap := by
  fun_cases stackerRead n s <;> rfl

theorem queueRead_binMap (n : Nat) (s : State) : (queueRead n s).1.binMap = s.binMap := by
  fun_cases queueRead n s <;> rfl

theorem scheduleRead_binMap (q : Nat × Nat) (s : State) : (scheduleRead q s).1.binMap = s.binMap := by
  fun_cases scheduleRead q s <;> rfl

theorem speciesRead_binMap (n : Nat) (s : State) : (speciesRead n s).1.binMap = s.binMap := by
  fun_cases speciesRead n s <;> rfl

theorem labelRead_binMap (q : Nat × Nat) (s : State) : (labelRead q s).1.binMap = s.binMap := by
  fun_cases labelRead q s <;> rfl

theorem attentionTake_binMap (l : Link) (u : Unit) (s : State) : (attentionTake l u s).1.binMap = s.binMap :=
  State.setPort_binMap ..

theorem attentionMask_binMap (l : Link) (m : ClassSet) (s : State) : (attentionMask l m s).1.binMap = s.binMap := by
  fun_cases attentionMask l m s
  case case2 => exact State.setPort_binMap ..
  all_goals rfl

theorem unknownKind_binMap (kind : Byte) (f : Request) (s : State) : (unknownKind kind f s).binMap = s.binMap := by
  fun_cases unknownKind kind f s
  case case1 => exact State.setReceiver_binMap ..
  case case3 => exact State.answer_binMap ..
  all_goals rfl

/-! Lots, schedules and species -/

theorem lotCreate_binMap (q : LotCreateBody) (s : State) : (lotCreate q s).1.binMap = s.binMap := by
  fun_cases lotCreate q s <;> rfl

theorem lotModify_binMap (q : LotModifyBody) (s : State) : (lotModify q s).1.binMap = s.binMap := by
  fun_cases lotModify q s <;> rfl

theorem lotHold_binMap (n : Nat) (s : State) : (lotHold n s).1.binMap = s.binMap := by
  fun_cases lotHold n s <;> rfl

theorem lotRelease_binMap (q : LotReleaseBody) (s : State) : (lotRelease q s).1.binMap = s.binMap := by
  fun_cases lotRelease q s <;> rfl

theorem lotFinish_binMap (n : Nat) (s : State) : (lotFinish n s).1.binMap = s.binMap := by
  fun_cases lotFinish n s <;> rfl

theorem lotRemove_binMap (n : Nat) (s : State) : (lotRemove n s).1.binMap = s.binMap := by
  fun_cases lotRemove n s
  case case2 => exact (onlyPacks_reexamine ..).binMap
  all_goals rfl

theorem setRedryRange_binMap (q : Nat × Nat) (s : State) : (setRedryRange q s).1.binMap = s.binMap := by
  fun_cases setRedryRange q s
  case case2 => exact (onlyPacks_reexamine ..).binMap
  all_goals rfl

theorem scheduleWrite_binMap (q : ScheduleBody) (s : State) : (scheduleWrite q s).1.binMap = s.binMap := by
  fun_cases scheduleWrite q s <;> rfl

theorem scheduleDelete_binMap (n : Nat) (s : State) : (scheduleDelete n s).1.binMap = s.binMap := by
  fun_cases scheduleDelete n s <;> rfl

theorem setSpecies_binMap (s : State) (code : Nat) (r : Option Species) : (s.setSpecies code r).binMap = s.binMap := by
  fun_cases State.setSpecies s code r <;> rfl

theorem speciesWrite_binMap (q : SpeciesBody) (s : State) : (speciesWrite q s).1.binMap = s.binMap := by
  fun_cases speciesWrite q s
  case case2 => exact setSpecies_binMap ..
  all_goals rfl

theorem speciesDelete_binMap (n : Nat) (s : State) : (speciesDelete n s).1.binMap = s.binMap := by
  fun_cases speciesDelete n s
  case case3 => exact setSpecies_binMap ..
  all_goals rfl

/-! Samples and kilns -/

theorem sampleEnter_binMap (q : SampleEnterBody) (s : State) : (sampleEnter q s).1.binMap = s.binMap := by
  fun_cases sampleEnter q s
  case case4 => exact (onlyKilns_recompute ..).binMap
  all_goals rfl

/-- A batch recomputes the kiln's figures when an entry of it is applied (04, R59). -/
theorem onlyKilns_recomputeApplied (s : State) (k : KilnNo) (l : List Sample) (p : Prop) [Decidable p] :
    OnlyKilns s (if p then s else (s.setSamples k l).recompute k) := by
  split
  · exact .refl s
  · exact (onlyKilns_setKiln ..).trans (onlyKilns_recompute ..)

theorem sampleWeigh_binMap (q : WeighBody) (s : State) : (sampleWeigh q s).1.binMap = s.binMap := by
  fun_cases sampleWeigh q s
  case case4 => exact (onlyKilns_recomputeApplied ..).binMap
  case case5 => exact (onlyKilns_recomputeApplied ..).binMap
  all_goals rfl

theorem sampleRemove_binMap (q : Nat × Nat) (s : State) : (sampleRemove q s).1.binMap = s.binMap := by
  fun_cases sampleRemove q s
  case case5 => exact (onlyKilns_recompute ..).binMap
  all_goals rfl

theorem kilnCharge_binMap (q : ChargeBody) (s : State) : (kilnCharge q s).1.binMap = s.binMap := by
  fun_cases kilnCharge q s <;> rfl

/-- A start sets the master enable, and enters step 0 of a LOADED kiln (05, R72). -/
theorem onlyKilns_start (s : State) (k : KilnNo) (p : Prop) [Decidable p] :
    OnlyKilns s (if p then s.enableMill.startKiln k else s.enableMill) := by
  split
  · exact (onlyKilns_enableMill s).trans (onlyKilns_startKiln ..)
  · exact onlyKilns_enableMill s

theorem kilnStart_binMap (n : Nat) (s : State) : (kilnStart n s).1.binMap = s.binMap := by
  fun_cases kilnStart n s
  case case4 => exact (onlyKilns_start ..).binMap
  all_goals rfl

theorem kilnStop_binMap (n : Nat) (s : State) : (kilnStop n s).1.binMap = s.binMap := by
  fun_cases kilnStop n s
  case case2 => exact (onlyKilns_stopKiln ..).binMap
  all_goals rfl

theorem kilnUnload_binMap (n : Nat) (s : State) : (kilnUnload n s).1.binMap = s.binMap := by
  fun_cases kilnUnload n s
  case case2 => exact ite_binMap (onlyKilns_clearHits ..).binMap (onlyKilns_clearHits ..).binMap
  all_goals rfl

theorem kilnSetup_binMap (q : Nat × Byte) (s : State) : (kilnSetup q s).1.binMap = s.binMap := by
  fun_cases kilnSetup q s <;> rfl

theorem kilnReport_binMap (q : ReportBody) (s : State) : (kilnReport q s).1.binMap = s.binMap := by
  fun_cases kilnReport q s
  case case1 => exact (onlyKilns_takeReport ..).binMap
  all_goals rfl

theorem kilnHold_binMap (n : Nat) (s : State) : (kilnHold n s).1.binMap = s.binMap := by
  fun_cases kilnHold n s
  case case2 => exact (onlyKilns_holdKiln ..).binMap
  all_goals rfl

theorem kilnRelease_binMap (n : Nat) (s : State) : (kilnRelease n s).1.binMap = s.binMap := by
  fun_cases kilnRelease n s
  case case2 => exact (onlyKilns_releaseKiln ..).binMap
  all_goals rfl

theorem kilnAdvance_binMap (n : Nat) (s : State) : (kilnAdvance n s).1.binMap = s.binMap := by
  fun_cases kilnAdvance n s
  case case2 => exact (onlyKilns_endStep onlyKilns_settle ..).binMap
  all_goals rfl

theorem holdPointSet_binMap (q : HoldPointBody) (s : State) : (holdPointSet q s).1.binMap = s.binMap := by
  fun_cases holdPointSet q s <;> rfl

theorem boilerCapacity_binMap (q : Option (Option Nat)) (s : State) : (boilerCapacity q s).1.binMap = s.binMap := by
  fun_cases boilerCapacity q s
  case case4 => exact (onlyKilns_setCapacity ..).binMap
  all_goals rfl

/-! Boards, stackers and labels -/

theorem takeMeasure_binMap (q : MeasureBody) (s : State) : (takeMeasure q s).1.binMap = s.binMap := by
  fun_cases takeMeasure q s
  case case7 => exact (onlyPacks_measureBoard ..).binMap
  all_goals rfl

theorem drop_binMap (n : Nat) (s : State) : (drop n s).1.binMap = s.binMap := by
  fun_cases drop n s
  case case3 => exact (onlyPacks_leavePack ..).binMap
  all_goals rfl

theorem lost_binMap (n : Nat) (s : State) : (lost n s).1.binMap = s.binMap := by
  fun_cases lost n s
  case case3 => exact (onlyPacks_loseBoard ..).binMap
  all_goals rfl

theorem stackerSetup_binMap (q : StackerSetupBody) (s : State) : (stackerSetup q s).1.binMap = s.binMap := by
  fun_cases stackerSetup q s <;> rfl

/-- A close of a pack with no board outstanding completes at once (09, R161). -/
theorem onlyPacks_close (s : State) (st : StackerNo) (p : Pack) (why : CloseReason) (n : Option Nat) (c : ClosingPack)
    (q : Prop) [Decidable q] :
    OnlyPacks s (if q then (s.makeClose st p why n).complete st c else s.makeClose st p why n) := by
  split
  · exact (onlyPacks_makeClose ..).trans (onlyPacks_complete ..)
  · exact onlyPacks_makeClose ..

theorem packClose_binMap (n : Nat) (s : State) : (packClose n s).1.binMap = s.binMap := by
  fun_cases packClose n s
  case case4 => exact (onlyPacks_close ..).binMap
  all_goals rfl

theorem labelRelease_binMap (n : Nat) (s : State) : (labelRelease n s).1.binMap = s.binMap := by
  fun_cases labelRelease n s
  case case2 => exact (onlyPacks_reexamine ..).binMap
  all_goals rfl

/-! ### Events that leave the map -/

theorem whenReceiving_binMap (s : State) (l : Link) (r : Receiver) : (s.whenReceiving l r).binMap = s.binMap := by
  unfold State.whenReceiving
  split
  · exact State.setReceiver_binMap ..
  all_goals rfl

theorem breakSeen_binMap (s : State) (l : Link) : (s.breakSeen l).binMap = s.binMap := by
  unfold State.breakSeen
  split
  · exact State.setReceiver_binMap ..
  · exact State.setReceiver_binMap ..
  all_goals rfl

theorem sent_binMap (s : State) (l : Link) : (s.sent l).binMap = s.binMap := by
  unfold State.sent
  split
  · exact State.setReceiver_binMap ..
  · exact State.setReceiver_binMap ..
  all_goals rfl

theorem onlyKilns_countKilns (s : State) : OnlyKilns s s.countKilns := onlyKilns_foldl _ onlyKilns_countKiln _ s

theorem minuteWith_binMap (s : State) (agingFirst : Bool) : (s.minuteWith agingFirst).binMap = s.binMap := by
  unfold State.minuteWith
  rw [(onlyPacks_idleStackers _).binMap]
  cases agingFirst with
  | false => exact ((onlyKilns_countKilns _).trans (onlyKilns_passAndSettle _)).binMap
  | true => exact ((onlyKilns_passAndSettle _).trans (onlyKilns_countKilns _)).binMap

/-! ### Start-ups -/

theorem onlyKilns_keepRecord (s : State) (k : KilnNo) : OnlyKilns s ((s.closeDoor k).formDormant k) :=
  (onlyKilns_setKiln ..).trans (onlyKilns_formDormant ..)

theorem keptRecords_binMap (s : State) : s.keptRecords.binMap = s.binMap := by
  unfold State.keptRecords
  exact (onlyKilns_foldl _ onlyKilns_keepRecord _ _).binMap

/-- A start-up with retention lost unmaps the bins, and one with retention intact keeps their map (R143, R147). -/
theorem startUp_binMap (s : State) (kind : StartUpKind) (p : Straps) :
    (s.startUp kind p).binMap = if kind.lost then unmappedBins else s.binMap := by
  change (s.startUpRecords kind.lost).binMap = _
  unfold State.startUpRecords
  split
  · rfl
  · calc s.keptRecords.purge.reexamineAll.binMap
      _ = s.keptRecords.purge.binMap := (onlyPacks_examineOver ..).binMap
      _ = s.keptRecords.binMap := (onlyPacks_purge _).binMap
      _ = s.binMap := keptRecords_binMap s

theorem startUp_bin15 (s : State) (kind : StartUpKind) (p : Straps) (hs : s.binMap[15] = .reject) :
    (s.startUp kind p).binMap[15] = .reject := by
  simp only [startUp_binMap]
  split
  · rfl
  · exact hs

theorem clearAll_bin15 (u : Unit) (s : State) (hs : s.binMap[15] = .reject) : (clearAll u s).1.binMap[15] = .reject := by
  fun_cases clearAll u s
  case case1 => exact hs
  case case2 => rfl

/-! ### Every command -/

section
variable {α : Type} {kind : Nat} {f : Request} {read : List Byte → Option α} {rule : α → State → State × Reply}
  {s t : State}

/-- What holds of the map before a request, and after its rule, holds after the request. -/
theorem serve_binMap_of (P : Vector BinEntry 16 → Prop) (h : serve kind f read rule s = .next t) (hs : P s.binMap)
    (hr : ∀ q, P (rule q s).1.binMap) : P t.binMap := by
  obtain rfl | rfl | ⟨st, rfl⟩ | ⟨q, -, rfl⟩ := serve_cases h
  · exact hs
  · rwa [State.setReceiver_binMap]
  · rwa [State.answer_binMap]
  · rw [State.answer_binMap]; exact hr q

theorem serve_binMap (h : serve kind f read rule s = .next t) (hr : ∀ q, (rule q s).1.binMap = s.binMap) :
    t.binMap = s.binMap := serve_binMap_of (· = s.binMap) h rfl hr

theorem serve_bin15 (h : serve kind f read rule s = .next t) (hs : s.binMap[15] = .reject)
    (hr : ∀ q, (rule q s).1.binMap[15] = .reject) : t.binMap[15] = .reject :=
  serve_binMap_of (fun m => m[15] = .reject) h hs hr

theorem whileRunning_binMap {event : State → State} (h : whileRunning s event = .next t)
    (he : (event s).binMap = s.binMap) : t.binMap = s.binMap := by
  by_cases hc : s.condition = .running
  · rw [whileRunning_running hc] at h
    cases h
    exact he
  · rw [whileRunning_stopped hc] at h
    cases h
    rfl

end

/-- The commands that can change the map: the two bin map requests, and those that give the records their start-up values (R143,
R144; 11, R187 to R189). -/
def changesBinMap : Instr → Bool
  | .binMapWrite _ | .binMapSet _ | .clearAll _ | .powerOn _ _ | .resetReleased _ => true
  | _ => false

/-- Every other command leaves the whole map. -/
theorem exec_binMap {c : Instr} {s t : State} (hc : changesBinMap c = false) (h : exec c s = .next t) :
    t.binMap = s.binMap := by
  cases c with
  | binMapWrite | binMapSet | clearAll | powerOn | resetReleased => cases hc
  | ident | clockRead | binMapRead | holdPointRead | lineHold | lineRun | shadowOn | shadowOff =>
    exact serve_binMap h fun _ => rfl
  | attentionTake => exact serve_binMap h fun q => attentionTake_binMap _ q s
  | attentionMask => exact serve_binMap h fun q => attentionMask_binMap _ q s
  | lotRead => exact serve_binMap h fun q => lotRead_binMap q s
  | lotList => exact serve_binMap h fun q => lotList_binMap q s
  | kilnRead => exact serve_binMap h fun q => kilnRead_binMap q s
  | stackerRead => exact serve_binMap h fun q => stackerRead_binMap q s
  | queueRead => exact serve_binMap h fun q => queueRead_binMap q s
  | lotCreate => exact serve_binMap h fun q => lotCreate_binMap q s
  | lotModify => exact serve_binMap h fun q => lotModify_binMap q s
  | lotHold => exact serve_binMap h fun q => lotHold_binMap q s
  | lotRelease => exact serve_binMap h fun q => lotRelease_binMap q s
  | lotFinish => exact serve_binMap h fun q => lotFinish_binMap q s
  | lotRemove => exact serve_binMap h fun q => lotRemove_binMap q s
  | redryRange => exact serve_binMap h fun q => setRedryRange_binMap q s
  | scheduleWrite => exact serve_binMap h fun q => scheduleWrite_binMap q s
  | scheduleDelete => exact serve_binMap h fun q => scheduleDelete_binMap q s
  | scheduleRead => exact serve_binMap h fun q => scheduleRead_binMap q s
  | speciesWrite => exact serve_binMap h fun q => speciesWrite_binMap q s
  | speciesDelete => exact serve_binMap h fun q => speciesDelete_binMap q s
  | speciesRead => exact serve_binMap h fun q => speciesRead_binMap q s
  | sampleEnter => exact serve_binMap h fun q => sampleEnter_binMap q s
  | sampleWeigh => exact serve_binMap h fun q => sampleWeigh_binMap q s
  | sampleRemove => exact serve_binMap h fun q => sampleRemove_binMap q s
  | kilnCharge => exact serve_binMap h fun q => kilnCharge_binMap q s
  | kilnStart => exact serve_binMap h fun q => kilnStart_binMap q s
  | kilnStop => exact serve_binMap h fun q => kilnStop_binMap q s
  | kilnUnload => exact serve_binMap h fun q => kilnUnload_binMap q s
  | kilnSetup => exact serve_binMap h fun q => kilnSetup_binMap q s
  | kilnHold => exact serve_binMap h fun q => kilnHold_binMap q s
  | kilnRelease => exact serve_binMap h fun q => kilnRelease_binMap q s
  | kilnAdvance => exact serve_binMap h fun q => kilnAdvance_binMap q s
  | holdPointSet => exact serve_binMap h fun q => holdPointSet_binMap q s
  | boilerCapacity => exact serve_binMap h fun q => boilerCapacity_binMap q s
  | stackerSetup => exact serve_binMap h fun q => stackerSetup_binMap q s
  | labelRead => exact serve_binMap h fun q => labelRead_binMap q s
  | labelRelease => exact serve_binMap h fun q => labelRelease_binMap q s
  | kilnReport => exact serve_binMap h fun q => kilnReport_binMap q s
  | measure => exact serve_binMap h fun q => takeMeasure_binMap q s
  | drop => exact serve_binMap h fun q => drop_binMap q s
  | lost => exact serve_binMap h fun q => lost_binMap q s
  | packClose => exact serve_binMap h fun q => packClose_binMap q s
  | unknownKind kind f =>
    injection h with h
    exact h ▸ unknownKind_binMap kind f s
  | syncByte l => exact whileRunning_binMap h (ite_binMap (State.setReceiver_binMap ..) rfl)
  | frameAbandoned l heard => exact whileRunning_binMap h (ite_binMap (whenReceiving_binMap ..) rfl)
  | byteGapTimeout l => exact whileRunning_binMap (event := (·.whenReceiving l _)) h (whenReceiving_binMap s l _)
  | lineBreak l => exact whileRunning_binMap (event := (·.breakSeen l)) h (breakSeen_binMap s l)
  | responseSent l => exact whileRunning_binMap (event := (·.sent l)) h (sent_binMap s l)
  | minuteEvent => exact whileRunning_binMap h (ite_binMap (minuteWith_binMap ..) rfl)
  | stepForced k => exact whileRunning_binMap h (ite_binMap (onlyKilns_evaluateNow s k).binMap rfl)
  | heatWaitAged k => exact whileRunning_binMap h (ite_binMap (onlyKilns_passAndSettle s).binMap rfl)
  | idleClose st =>
    exact whileRunning_binMap (event := (·.idleClose st)) h (onlyPacks_idleClose s st).binMap
  | minuteCountStopped | millStopReleased =>
    injection h with h
    exact h ▸ rfl
  | millStop =>
    injection h with h
    subst h
    exact ite_binMap (onlyKilns_stopMill s).binMap rfl
  | powerLoss =>
    injection h with h
    subst h
    split <;> rfl
  | resetAsserted =>
    injection h with h
    subst h
    exact ite_binMap rfl rfl

theorem binMapWrite_bin15 (ns : List Nat) (s : State) (hs : s.binMap[15] = .reject) :
    (binMapWrite ns s).1.binMap[15] = .reject := by
  cases h : entriesFrom 0 ns with
  | none => rw [binMapWrite_refused s h]; exact hs
  | some es => rw [binMapWrite_accepted s es h]; exact (setBins_bin15 ns 0 es s h).trans hs

theorem binMapSet_bin15 (q : Nat × Nat) (s : State) (hs : s.binMap[15] = .reject) :
    (binMapSet q s).1.binMap[15] = .reject := by
  obtain ⟨bin, n⟩ := q
  by_cases hb : bin < 15
  · cases he : BinEntry.ofCode bin n with
    | none =>
      rw [binMapSet_refused s (.inr ?_)]
      · exact hs
      · have := (binEntry_ofCode_eq_none_iff bin n).1 he
        omega
    | some e =>
      rw [binMapSet_accepted s ⟨bin, hb⟩ he]
      simpa [Vector.getElem_set, show bin ≠ 15 by omega] using hs
  · rw [binMapSet_refused s (.inl (by omega))]
    exact hs

/-- Bin 15 stays REJECT through every command (R143). -/
theorem exec_bin15 (c : Instr) (s t : State) (hs : s.binMap[15] = .reject) (h : exec c s = .next t) :
    t.binMap[15] = .reject := by
  cases hc : changesBinMap c with
  | false => simpa only [exec_binMap hc h] using hs
  | true =>
    cases c with
    | binMapWrite => exact serve_bin15 h hs fun q => binMapWrite_bin15 q s hs
    | binMapSet => exact serve_bin15 h hs fun q => binMapSet_bin15 q s hs
    | clearAll => exact serve_bin15 h hs fun q => clearAll_bin15 q s hs
    | powerOn cellHeld straps =>
      injection h with h
      subst h
      dsimp only
      split
      · split
        · exact hs
        · exact startUp_bin15 _ _ _ hs
      · exact hs
    | resetReleased straps =>
      injection h with h
      subst h
      dsimp only
      split
      · exact startUp_bin15 _ _ _ hs
      · exact hs
      · exact hs
    | _ => cases hc

/-! ### The three requests -/

/-- BIN MAP WRITE of destinations permitted for their bins (R144). -/
theorem exec_binMapWrite_accepted (s : State) (f : Request) (h : Heard s f .office) (es : Fin 15 → BinEntry)
    (he : es 14 ≠ .reject) (hf : f.body = (List.ofFn es).flatMap (fun e => u8 e.code)) :
    ∃ m : Vector BinEntry 16, (∀ i : Fin 15, m[i.val] = es i) ∧ m[15] = s.binMap[15] ∧
      exec (.binMapWrite f) s =
        .next (State.answer { s with binMap := m } 0x30 f ⟨.done, m.toList.flatMap fun e => u8 e.code⟩) := by
  have hcodes : entriesFrom 0 ((List.ofFn es).map BinEntry.code) = some (List.ofFn es) := by
    refine entriesFrom_codes _ 0 (by simp) fun i hi h14 => ?_
    obtain rfl : i = 14 := by omega
    simpa using he
  obtain ⟨m, hset, hm⟩ := setBins_spec (List.ofFn es) 0 s (by simp)
  refine ⟨m, fun i => ?_, ?_, ?_⟩
  · rw [hm i (by omega), dif_pos (by rw [List.length_ofFn]; omega), List.getElem_ofFn]
    rfl
  · simp [hm 15 (by omega)]
  · have hlen : f.body.length = 15 := by rw [hf, flatMap_u8_eq_map]; simp
    have hread : readBinMap f.body = some ((List.ofFn es).map BinEntry.code) := by
      rw [hf]; exact readBinMap_entries _ (by simp)
    calc exec (.binMapWrite f) s
      _ = .next ((binMapWrite _ s).1.answer 0x30 f (binMapWrite _ s).2) := serve_heard h (by omega) rfl hread
      _ = _ := by rw [binMapWrite_accepted s _ hcodes, hset]; rfl

/-- BIN MAP WRITE with a destination that is not permitted for its bin (R144). -/
theorem exec_binMapWrite_refused (s : State) (f : Request) (h : Heard s f .office) (hlen : f.body.length = 15)
    (hbad : ∃ (i : Nat) (n : Byte), f.body[i]? = some n ∧ ¬(n.toNat ≤ 5 ∨ n.toNat = 8 ∨ n.toNat = 6 ∧ i ≤ 13)) :
    exec (.binMapWrite f) s = .next (s.answer 0x30 f ⟨.badField, []⟩) := by
  obtain ⟨i, n, hi, hn⟩ := hbad
  have hnone : entriesFrom 0 (f.body.map BitVec.toNat) = none :=
    entriesFrom_eq_none _ 0 i n.toNat (by rw [List.getElem?_map, hi]; rfl)
      ((binEntry_ofCode_eq_none_iff _ _).2 (.inr (by rwa [Nat.zero_add])))
  calc exec (.binMapWrite f) s
    _ = .next ((binMapWrite _ s).1.answer 0x30 f (binMapWrite _ s).2) :=
      serve_heard h (by omega) rfl (readBinMap_bytes _ hlen)
    _ = _ := by rw [binMapWrite_refused s hnone]; rfl

/-- BIN MAP SET of a destination permitted for its bin (R144). -/
theorem exec_binMapSet_accepted (s : State) (f : Request) (h : Heard s f .office) (bin : Fin 15) (e : BinEntry)
    (he : bin = 14 → e ≠ .reject) (hf : f.body = u8 bin ++ u8 e.code) :
    exec (.binMapSet f) s = .next (State.answer { s with binMap := s.binMap.set bin e } 0x31 f
      ⟨.done, (s.binMap.set bin e).toList.flatMap fun x => u8 x.code⟩) := by
  have hread : readU8U8 f.body = some (bin.val, e.code) := by
    rw [hf]; exact readU8U8_u8 (by omega) (binEntry_code_le e)
  have hcode : BinEntry.ofCode bin e.code = some e := binEntry_ofCode bin (by omega) e fun hb => he (Fin.ext hb)
  calc exec (.binMapSet f) s
    _ = .next ((binMapSet _ s).1.answer 0x31 f (binMapSet _ s).2) :=
      serve_heard h (by rw [hf]; simp [u8]) rfl hread
    _ = _ := by rw [binMapSet_accepted s bin hcode]; rfl

/-- BIN MAP SET of bin 15 or above, or of a destination that is not permitted (R144). -/
theorem exec_binMapSet_refused (s : State) (f : Request) (h : Heard s f .office) (bin n : Byte) (hf : f.body = [bin, n])
    (hbad : 15 ≤ bin.toNat ∨ ¬(n.toNat ≤ 5 ∨ n.toNat = 8 ∨ n.toNat = 6 ∧ bin.toNat ≤ 13)) :
    exec (.binMapSet f) s = .next (s.answer 0x31 f ⟨.badField, []⟩) :=
  calc exec (.binMapSet f) s
    _ = .next ((binMapSet _ s).1.answer 0x31 f (binMapSet _ s).2) :=
      serve_heard h (by rw [hf]; simp) rfl (show readU8U8 f.body = some (bin.toNat, n.toNat) by rw [hf]; rfl)
    _ = _ := by rw [binMapSet_refused s hbad]; rfl

/-- BIN MAP READ, on every link (R145). -/
theorem exec_binMapRead (s : State) (f : Request) (hl : s.listens f.link = true) (hf : f.body = [])
    (hs : s.binMap[15] = .reject) :
    exec (.binMapRead f) s = .next (s.answer 0x09 f
      ⟨.done, ((s.binMap.toList.take 15).flatMap fun e => u8 e.code) ++ [6]⟩) :=
  calc exec (.binMapRead f) s
    _ = .next (s.answer 0x09 f ⟨.done, s.binBytes⟩) :=
      serve_everyLink (q := ()) hl (by simp [hf]) (fun _ => rfl) (by rw [hf]; rfl)
    _ = _ := by rw [binBytes_eq_append, hs]; rfl

/-- Settles O47: the three requests by their rules, and bin 15 by the case analysis over every command. -/
theorem binMapRequests : Obligations.BinMapRequests :=
  ⟨fun s f h =>
    ⟨fun es he hf => exec_binMapWrite_accepted s f h es he hf,
      fun _ hlen hf hbad => exec_binMapWrite_refused s f h (hf ▸ hlen) (hf ▸ hbad),
      fun bin e he hf => exec_binMapSet_accepted s f h bin e he hf,
      fun bin n hf hbad => exec_binMapSet_refused s f h bin n hf hbad⟩,
    exec_binMapRead, exec_bin15⟩

end Sys2Proof.Machine
end

section
/-! ATTENTION TAKE and ATTENTION MASK (11, R185, R186): what each makes of its link's pending set and mask, and that the attention
line follows the set while the part runs (R184). -/

namespace Sys2Proof.Machine

/-! ### The attention line (R184) -/

/-- Only a running part listens (R179, R187, R188). -/
theorem State.condition_of_listens {s : State} {l : Link} (h : s.listens l = true) : s.condition = .running :=
  of_decide_eq_true (Bool.and_eq_true_iff.1 h).1

/-- An answer changes the receiver of its link, and no pending set. -/
theorem State.pending_answer (s : State) (kind : Nat) (f : Request) (r : Reply) (l : Link) :
    ((s.answer kind f r).port l).pending = (s.port l).pending := by
  unfold State.answer State.setReceiver
  by_cases h : l = f.link
  · subst h; rw [State.port_setPort_same]
  · rw [State.port_setPort_other _ _ h]

/-- An answer leaves the attention line: it waits for no response frame (R184). -/
theorem State.attentionLine_answer (s : State) (kind : Nat) (f : Request) (r : Reply) (l : Link) :
    (s.answer kind f r).attentionLine l = s.attentionLine l := by
  simp only [State.attentionLine, State.pending_answer, State.answer_condition]

/-- While the part runs, the line of a link follows the pending set written to its port. -/
theorem State.attentionLine_setPort {s : State} (h : s.condition = .running) (l : Link) (p : LinkPort) :
    (s.setPort l p).attentionLine l = (p.pending != 0) := by
  simp [State.attentionLine, h]

/-! ### Sets that name no class (R186) -/

/-- A set leaves something above the classes of its link exactly when one of its bits is at or above their count. -/
theorem namesNoClass_iff (l : Link) (m : ClassSet) :
    namesNoClass l m = true ↔ ∃ bit : Nat, m.getLsbD bit = true ∧ classCount l ≤ bit := by
  unfold namesNoClass
  rw [bne_iff_ne]
  constructor
  · intro hne
    by_contra hno
    refine hne (BitVec.eq_of_getLsbD_eq fun i _ => ?_)
    rw [BitVec.getLsbD_ushiftRight]
    simpa using fun hbit => hno ⟨_, hbit, Nat.le_add_right ..⟩
  · rintro ⟨bit, hbit, hle⟩ hzero
    have habove : (m >>> classCount l).getLsbD (bit - classCount l) = true := by
      rw [BitVec.getLsbD_ushiftRight, Nat.add_sub_cancel' hle, hbit]
    simp [hzero] at habove

theorem attentionMask_refused {l : Link} {m : ClassSet} (h : namesNoClass l m = true) (s : State) :
    attentionMask l m s = (s, .refuse .badField) := by
  unfold attentionMask
  rw [if_pos h]

theorem attentionMask_accepted {l : Link} {m : ClassSet} (h : namesNoClass l m = false) (s : State) :
    attentionMask l m s = (s.maskAttention l m,
      .done (classBytes m ++ classBytes ((s.port l).pending &&& ~~~m))) := by
  unfold attentionMask
  simp [h, State.maskAttention]

/-! ### The requests -/

/-- ATTENTION TAKE, on every link, is answered by its rule (R182, R185). -/
theorem exec_attentionTake {s : State} {f : Request} (hl : s.listens f.link = true) (hf : f.body = []) :
    exec (.attentionTake f) s = .next ((s.takeAttention f.link).answer 0x03 f
      (.done (classBytes (s.port f.link).pending ++ classBytes (s.port f.link).mask))) :=
  serve_everyLink (q := ()) hl (by simp [hf]) (fun _ => rfl) (by rw [hf]; rfl)

/-- ATTENTION MASK, on every link, is answered by its rule for the set it carries (R182, R186). -/
theorem exec_attentionMask {s : State} {f : Request} {m : ClassSet} (hl : s.listens f.link = true)
    (hf : f.body = classBytes m) :
    exec (.attentionMask f) s =
      .next ((attentionMask f.link m s).1.answer 0x04 f (attentionMask f.link m s).2) :=
  serve_everyLink hl (by simp [hf, classBytes, u16]) (fun _ => rfl) (hf ▸ readClassSet_classBytes m)

/-- Settles O16: the line follows the emptied set. -/
theorem attentionTakeEmptiesPending : Obligations.AttentionTakeEmptiesPending := by
  intro s f hl hf
  refine ⟨_, exec_attentionTake hl hf, rfl, ?_⟩
  rw [State.attentionLine_answer, State.takeAttention, State.attentionLine_setPort (State.condition_of_listens hl)]
  rfl

/-- Settles O17: a set is refused exactly when it names no class of its link, and the line follows what the new mask leaves. -/
theorem attentionMaskReplaces : Obligations.AttentionMaskReplaces := by
  intro s f m hl hf
  refine ⟨fun hbit => ?_, fun hbits => ?_⟩
  · rw [exec_attentionMask hl hf, attentionMask_refused ((namesNoClass_iff ..).2 hbit)]
    rfl
  · have hnamed : namesNoClass f.link m = false := by
      rw [Bool.eq_false_iff, Ne, namesNoClass_iff]
      rintro ⟨bit, hbit, hle⟩
      exact absurd (hbits bit hbit) (Nat.not_lt.2 hle)
    have hexec := exec_attentionMask hl hf
    rw [attentionMask_accepted hnamed] at hexec
    refine ⟨_, hexec, rfl, ?_⟩
    rw [State.attentionLine_answer, State.maskAttention, State.attentionLine_setPort (State.condition_of_listens hl),
      bne_iff_ne]

end Sys2Proof.Machine
end

section
/-! What the operations of the kiln house keep of every kiln: the schedules, the charge lists, the schedule a kiln names, whether it is
EMPTY, and a step index within its schedule (02, R28; 05, R73); and, while the master enable stays clear, its step index and elapsed
minutes (06, R108). -/

namespace Sys2Proof.Machine

/-- `t` is `s` after operations that keep what a kiln in use rests on; `moves` says which kilns may change step although the master
enable is clear. -/
structure KilnsKept (moves : KilnNo → Prop) (s t : State) : Prop where
  schedules : t.schedules = s.schedules
  charge : ∀ k, (t.kiln k).charge = (s.kiln k).charge
  scheduleId : ∀ k, (t.kiln k).scheduleId = (s.kiln k).scheduleId
  empty : ∀ k, (t.kiln k).state = .empty ↔ (s.kiln k).state = .empty
  index : ∀ k, (s.kiln k).stepIndex < s.stepCount k → (t.kiln k).stepIndex < s.stepCount k
  enable : s.masterEnable = true → t.masterEnable = true
  steps : t.masterEnable = false → ∀ k, ¬moves k →
    (t.kiln k).stepIndex = (s.kiln k).stepIndex ∧ (t.kiln k).stepElapsed = (s.kiln k).stepElapsed

variable {moves : KilnNo → Prop} {s t u : State}

theorem KilnsKept.refl (s : State) : KilnsKept moves s s :=
  ⟨rfl, fun _ => rfl, fun _ => rfl, fun _ => .rfl, fun _ => id, id, fun _ _ _ => ⟨rfl, rfl⟩⟩

theorem KilnsKept.stepCount (h : KilnsKept moves s t) (k : KilnNo) : t.stepCount k = s.stepCount k := by
  simp only [State.stepCount, h.scheduleId k]
  unfold State.findSchedule
  rw [h.schedules]

theorem KilnsKept.trans (h : KilnsKept moves s t) (g : KilnsKept moves t u) : KilnsKept moves s u where
  schedules := g.schedules.trans h.schedules
  charge k := (g.charge k).trans (h.charge k)
  scheduleId k := (g.scheduleId k).trans (h.scheduleId k)
  empty k := (g.empty k).trans (h.empty k)
  index k hi := h.stepCount k ▸ g.index k ((h.stepCount k).symm ▸ h.index k hi)
  enable on := g.enable (h.enable on)
  steps off k hk := by
    have hoff : t.masterEnable = false := by
      cases on : t.masterEnable with
      | false => rfl
      | true => rw [g.enable on] at off; cases off
    obtain ⟨hi, he⟩ := h.steps hoff k hk
    obtain ⟨gi, ge⟩ := g.steps off k hk
    exact ⟨gi.trans hi, ge.trans he⟩

/-- A state with the same kilns and schedules, and an enable not cleared. -/
theorem KilnsKept.of_same (hs : t.schedules = s.schedules) (hk : t.kilns = s.kilns)
    (he : s.masterEnable = true → t.masterEnable = true) : KilnsKept moves s t := by
  have kiln k : t.kiln k = s.kiln k := by unfold State.kiln; rw [hk]
  exact ⟨hs, fun k => by rw [kiln], fun k => by rw [kiln], fun k => by rw [kiln], fun k h => by rw [kiln]; exact h, he,
    fun _ k _ => by rw [kiln]; exact ⟨rfl, rfl⟩⟩

theorem kilnsKept_foldl {α : Type} (f : State → α → State) (hf : ∀ s a, KilnsKept moves s (f s a)) (l : List α) :
    ∀ s, KilnsKept moves s (l.foldl f s) := by
  induction l with
  | nil => exact fun s => .refl s
  | cons a l ih => exact fun s => (hf s a).trans (ih (f s a))

/-- One kiln's record replaced. -/
theorem kilnsKept_setKiln {k : KilnNo} {c : KilnContext} (charge : c.charge = (s.kiln k).charge)
    (id : c.scheduleId = (s.kiln k).scheduleId) (empty : c.state = .empty ↔ (s.kiln k).state = .empty)
    (index : (s.kiln k).stepIndex < s.stepCount k → c.stepIndex < s.stepCount k)
    (steps : s.masterEnable = false → moves k ∨ c.stepIndex = (s.kiln k).stepIndex ∧ c.stepElapsed = (s.kiln k).stepElapsed) :
    KilnsKept moves s (s.setKiln k c) := by
  have each {P : KilnNo → KilnContext → Prop} (hk : P k c) (hj : ∀ j ≠ k, P j (s.kiln j)) j : P j ((s.setKiln k c).kiln j) := by
    obtain rfl | h := eq_or_ne j k
    · rwa [State.kiln_setKiln_same]
    · rw [State.kiln_setKiln_other s c h]; exact hj j h
  exact
    { schedules := rfl
      charge := each (P := fun j x => x.charge = (s.kiln j).charge) charge fun _ _ => rfl
      scheduleId := each (P := fun j x => x.scheduleId = (s.kiln j).scheduleId) id fun _ _ => rfl
      empty := each (P := fun j x => x.state = .empty ↔ (s.kiln j).state = .empty) empty fun _ _ => .rfl
      index := each (P := fun j x => (s.kiln j).stepIndex < s.stepCount j → x.stepIndex < s.stepCount j) index
        fun _ _ => fun h => h
      enable := fun on => on
      steps := fun off => each
        (P := fun j x => ¬moves j → x.stepIndex = (s.kiln j).stepIndex ∧ x.stepElapsed = (s.kiln j).stepElapsed)
        (fun hk => (steps off).resolve_left hk) fun _ _ _ => ⟨rfl, rfl⟩ }

/-- A change of the fields that no kiln in use rests on. -/
theorem kilnsKept_setKiln_same {k : KilnNo} {c : KilnContext} (charge : c.charge = (s.kiln k).charge := by rfl)
    (id : c.scheduleId = (s.kiln k).scheduleId := by rfl) (empty : c.state = .empty ↔ (s.kiln k).state = .empty)
    (index : c.stepIndex = (s.kiln k).stepIndex := by rfl) (elapsed : c.stepElapsed = (s.kiln k).stepElapsed := by rfl) :
    KilnsKept moves s (s.setKiln k c) :=
  kilnsKept_setKiln charge id empty (fun h => index ▸ h) fun _ => .inr ⟨index, elapsed⟩

theorem kilnsKept_setHeat (s : State) (k : KilnNo) (h : HeatRecord) : KilnsKept moves s (s.setHeat k h) :=
  .of_same rfl rfl id

theorem kilnsKept_setHoldPoint (s : State) (h : HoldPointNo) (p : HoldPoint) : KilnsKept moves s (s.setHoldPoint h p) :=
  .of_same rfl rfl id

theorem kilnsKept_raise (s : State) (c : AttnClass) : KilnsKept moves s (s.raise c) :=
  .of_same (by simp) (by simp) (by simp)

theorem kilnsKept_noteSetpoints (h : KilnsKept moves s t) (b : State) : KilnsKept moves s (t.noteSetpoints b) := by
  unfold State.noteSetpoints
  split
  · exact h.trans (kilnsKept_raise t _)
  · exact h

theorem kilnsKept_noteResumed (h : KilnsKept moves s t) (b : State) : KilnsKept moves s (t.noteResumed b) := by
  unfold State.noteResumed
  split
  · exact (kilnsKept_noteSetpoints h b).trans (kilnsKept_raise ..)
  · exact kilnsKept_noteSetpoints h b

theorem kilnsKept_setPhase (s : State) (k : KilnNo) (p : Phase) : KilnsKept moves s (s.setPhase k p) := by
  unfold State.setPhase
  split
  next h => exact kilnsKept_setKiln_same (empty := by simp [h])
  · exact .refl s

/-! ### Hold points -/

theorem kilnsKept_holdKiln (s : State) (k : KilnNo) : KilnsKept moves s (s.holdKiln k) := by
  unfold State.holdKiln
  split
  next h => exact kilnsKept_noteSetpoints (kilnsKept_setKiln_same (empty := by simp [h])) s
  · exact .refl s

theorem kilnsKept_takeMatches (s : State) (k : KilnNo) (l : List HoldPointNo) : KilnsKept moves s (s.takeMatches k l) := by
  unfold State.takeMatches
  split
  · exact .refl s
  · exact ((kilnsKept_foldl _ (fun s h => kilnsKept_setHoldPoint ..) _ s).trans (kilnsKept_holdKiln ..)).trans
      (kilnsKept_raise ..)

theorem kilnsKept_clearHits (s : State) (k : KilnNo) : KilnsKept moves s (s.clearHits k) :=
  kilnsKept_foldl _ (fun _ _ => kilnsKept_setHoldPoint ..) _ s

/-! ### The arbiter -/

theorem kilnsKept_grantKiln (s : State) (k : KilnNo) (d : Nat) : KilnsKept moves s (s.grantKiln k d) :=
  kilnsKept_noteSetpoints ((kilnsKept_setHeat ..).trans (kilnsKept_setPhase ..)) s

theorem kilnsKept_passOver (ks : List KilnNo) : ∀ s : State, KilnsKept moves s (s.passOver ks).1 := by
  induction ks with
  | nil => exact fun s => .refl s
  | cons k ks ih =>
    intro s
    simp only [State.passOver]
    split
    · split
      · exact (kilnsKept_grantKiln ..).trans (ih _)
      · split
        · exact .refl s
        · exact ih s
    · exact ih s
    · exact ih s

theorem kilnsKept_pass (s : State) : KilnsKept moves s s.pass.1 := by
  unfold State.pass
  split
  · exact kilnsKept_passOver ..
  · exact .refl s

theorem kilnsKept_waitUnlessGranted (s : State) (k : KilnNo) : KilnsKept moves s (s.waitUnlessGranted k) := by
  unfold State.waitUnlessGranted
  split
  · exact (kilnsKept_noteSetpoints (kilnsKept_setPhase ..) s).trans (kilnsKept_raise ..)
  · exact .refl s

theorem kilnsKept_handDemand (s : State) (k : KilnNo) (d : Nat) : KilnsKept moves s (s.handDemand k d).1 := by
  have cover : KilnsKept moves s (((s.setHeat k ⟨d, .absent⟩).setPhase k .active).noteSetpoints s) :=
    kilnsKept_noteSetpoints ((kilnsKept_setHeat ..).trans (kilnsKept_setPhase ..)) s
  simp only [State.handDemand]
  split
  · split
    · exact cover.trans (kilnsKept_pass _)
    · exact cover
  · split
    · exact ((kilnsKept_setHeat ..).trans (kilnsKept_pass _)).trans (kilnsKept_waitUnlessGranted ..)
    · exact kilnsKept_noteSetpoints ((kilnsKept_setHeat ..).trans (kilnsKept_setPhase ..)) s

theorem kilnsKept_releaseHeat (s : State) (k : KilnNo) : KilnsKept moves s (s.releaseHeat k).1 := by
  simp only [State.releaseHeat]
  split
  · exact (kilnsKept_setHeat ..).trans (kilnsKept_pass _)
  · exact kilnsKept_setHeat ..

/-! ### Steps -/

section
variable {settles : List KilnNo → State → State} (hs : ∀ l s, KilnsKept moves s (settles l s))
include hs

/-- A kiln enters a step that its schedule has; with the enable clear it is one that may move. -/
theorem kilnsKept_enterStep (s : State) (k : KilnNo) {i : Nat} (hi : (s.kiln k).stepIndex < s.stepCount k → i < s.stepCount k)
    (hk : s.masterEnable = true ∨ moves k) : KilnsKept moves s (s.enterStep settles k i) := by
  have index : KilnsKept moves s (s.setKiln k { s.kiln k with
      stepIndex := i, stepEntered := some s.minute, stepElapsed := 0 }) :=
    kilnsKept_setKiln rfl rfl .rfl hi fun off => hk.elim (fun on => by rw [on] at off; cases off) .inl
  exact (((index.trans (kilnsKept_takeMatches ..)).trans (kilnsKept_handDemand ..)).trans (kilnsKept_raise ..)).trans (hs ..)

theorem kilnsKept_finishKiln (s : State) (k : KilnNo) (inUse : (s.kiln k).state ≠ .empty) :
    KilnsKept moves s (s.finishKiln settles k) := by
  have finished : KilnsKept moves s (s.setKiln k { s.kiln k with state := .finished, runEnable := false }) :=
    kilnsKept_setKiln_same (empty := by simp [inUse])
  exact (((finished.trans (kilnsKept_releaseHeat ..)).trans (kilnsKept_raise ..)).trans (kilnsKept_raise ..)).trans (hs ..)

theorem kilnsKept_endStep (s : State) (k : KilnNo) (c : EndCause) (inUse : (s.kiln k).state ≠ .empty)
    (hk : s.masterEnable = true ∨ moves k) : KilnsKept moves s (s.endStep settles k c) := by
  have recorded : KilnsKept moves s (s.recordEnd k c) := kilnsKept_setKiln_same (empty := .rfl)
  simp only [State.endStep]
  split
  next more => exact recorded.trans (kilnsKept_enterStep hs _ _ (fun _ => recorded.stepCount k ▸ more) hk)
  · exact recorded.trans (kilnsKept_finishKiln hs _ _ (by simpa [State.recordEnd] using inUse))

theorem kilnsKept_evaluate (s : State) (k : KilnNo) : KilnsKept moves s (s.evaluate settles k) := by
  unfold State.evaluate
  split
  next h =>
    obtain ⟨running, on⟩ := h
    split
    · exact .refl s
    · split
      · exact kilnsKept_endStep hs _ _ _ (by simp [running]) (.inl on)
      · split
        · exact (kilnsKept_raise ..).trans (kilnsKept_endStep hs _ _ _ (by simp [running]) (.inl (by simpa using on)))
        · exact .refl s
  · exact .refl s

end

theorem kilnsKept_evaluateAll (n : Nat) : ∀ ks s, KilnsKept moves s (evaluateAll n ks s) := by
  induction n with
  | zero => exact fun _ s => .refl s
  | succ n ih => exact fun ks s => kilnsKept_foldl _ (fun s k => kilnsKept_evaluate ih s k) ks s

theorem kilnsKept_settle (ks : List KilnNo) (s : State) : KilnsKept moves s (settle ks s) := kilnsKept_evaluateAll _ ks s

theorem kilnsKept_evaluateNow (s : State) (k : KilnNo) : KilnsKept moves s (s.evaluateNow k) :=
  kilnsKept_evaluate kilnsKept_settle s k

theorem kilnsKept_passAndSettle (s : State) : KilnsKept moves s s.passAndSettle :=
  (kilnsKept_pass s).trans (kilnsKept_settle ..)

/-! ### Capacity, mill stop and resumption -/

theorem kilnsKept_revokeKiln (s : State) (k : KilnNo) : KilnsKept moves s (s.revokeKiln k) := by
  simp only [State.revokeKiln]
  refine (kilnsKept_noteSetpoints ?_ s).trans (kilnsKept_raise ..)
  split
  · exact ((kilnsKept_setHeat ..).trans (kilnsKept_setPhase ..)).trans (kilnsKept_raise ..)
  · exact kilnsKept_setHeat ..
  · exact kilnsKept_setHeat ..

theorem kilnsKept_revokeOver (ks : List KilnNo) : ∀ s : State, KilnsKept moves s (s.revokeOver ks).1 := by
  induction ks with
  | nil => exact fun s => .refl s
  | cons k ks ih =>
    intro s
    simp only [State.revokeOver]
    split
    · exact .refl s
    · split
      · exact ih s
      · exact (kilnsKept_revokeKiln ..).trans (ih _)

theorem kilnsKept_setCapacity (s : State) (n : Nat) : KilnsKept moves s (s.setCapacity n).1 := by
  have stored : KilnsKept moves s { s with capacity := n } := .of_same rfl rfl id
  simp only [State.setCapacity]
  split
  · exact .refl s
  · split
    · exact stored.trans (kilnsKept_passAndSettle _)
    · split
      · exact stored
      · exact (stored.trans (kilnsKept_revokeOver ..)).trans (kilnsKept_passAndSettle _)

theorem kilnsKept_dropHeat (s : State) (k : KilnNo) : KilnsKept moves s (s.dropHeat k) :=
  (kilnsKept_setHeat ..).trans (kilnsKept_setPhase ..)

/-- The mill stop clears the enable and then keeps every kiln's step (06, R106). -/
theorem kilnsKept_stopMill (s : State) :
    KilnsKept moves { s with millStopLine := true, masterEnable := false } s.stopMill := by
  have dropped := kilnsKept_foldl (moves := moves) State.dropHeat kilnsKept_dropHeat allKilns
    { s with millStopLine := true, masterEnable := false }
  unfold State.stopMill
  generalize allKilns.foldl State.dropHeat _ = t at dropped ⊢
  exact ((kilnsKept_noteSetpoints dropped s).trans (kilnsKept_raise ..)).trans (kilnsKept_raise ..)

theorem kilnsKept_submitRequest (s : State) (k : KilnNo) : KilnsKept moves s (s.submitRequest k) := by
  unfold State.submitRequest
  split
  · exact (kilnsKept_setHeat ..).trans (kilnsKept_setPhase ..)
  · split
    · exact kilnsKept_setHeat ..
    · exact .refl s
    · exact .refl s

theorem kilnsKept_resume (s : State) : KilnsKept moves { s with masterEnable := true } s.resume := by
  have passed : KilnsKept moves { s with masterEnable := true }
      (allKilns.foldl State.submitRequest { s with masterEnable := true }).pass.1 :=
    (kilnsKept_foldl _ kilnsKept_submitRequest _ _).trans (kilnsKept_pass _)
  have noted := ((kilnsKept_noteResumed passed s).trans (kilnsKept_raise _ .officeMillResume)).trans
    (kilnsKept_raise _ .kilnMillResume)
  simp only [State.resume]
  split
  · exact (noted.trans (kilnsKept_raise ..)).trans (kilnsKept_settle ..)
  · exact noted.trans (kilnsKept_settle ..)

theorem kilnsKept_enableMill (s : State) : KilnsKept moves s s.enableMill ∧ s.enableMill.masterEnable = true := by
  unfold State.enableMill
  split
  next on => exact ⟨.refl s, on⟩
  · have enabled : KilnsKept moves s { s with masterEnable := true } := .of_same rfl rfl fun _ => rfl
    exact ⟨enabled.trans (kilnsKept_resume s), (kilnsKept_resume (moves := moves) s).enable rfl⟩

theorem kilnsKept_formDormant (s : State) (k : KilnNo) : KilnsKept moves s (s.formDormant k) := by
  unfold State.formDormant
  split
  · exact (kilnsKept_setHeat ..).trans (kilnsKept_setPhase ..)
  · exact kilnsKept_setHeat ..

/-! ### The requests and events of a kiln -/

theorem kilnsKept_setFigures (s : State) (k : KilnNo) (g : Figures) :
    KilnsKept moves s (s.setKiln k { s.kiln k with figures := g }) := kilnsKept_setKiln_same (empty := .rfl)

theorem kilnsKept_setSamples (s : State) (k : KilnNo) (l : List Sample) : KilnsKept moves s (s.setSamples k l) :=
  kilnsKept_setKiln_same (empty := .rfl)

theorem kilnsKept_recompute (s : State) (k : KilnNo) : KilnsKept moves s (s.recompute k) :=
  ((kilnsKept_takeMatches ..).trans (kilnsKept_setFigures ..)).trans (kilnsKept_evaluateNow ..)

/-- A LOADED kiln starts with the enable set; its index is that of a step, and so is 0 (05, R72). -/
theorem kilnsKept_startKiln (s : State) (k : KilnNo) (loaded : (s.kiln k).state ≠ .empty) (on : s.masterEnable = true) :
    KilnsKept moves s (s.startKiln k) := by
  have running : KilnsKept moves s (s.setKiln k { s.kiln k with state := .running .active, runEnable := true }) :=
    kilnsKept_setKiln_same (empty := by simp [loaded])
  exact running.trans (kilnsKept_enterStep kilnsKept_settle _ _ (fun h => by omega) (.inl on))

theorem kilnsKept_stopKiln (s : State) (k : KilnNo) (inUse : (s.kiln k).state ≠ .empty) :
    KilnsKept moves s (s.stopKiln k) := by
  have recorded : KilnsKept moves s (s.recordEnd k .aborted) := kilnsKept_setKiln_same (empty := .rfl)
  have finished : KilnsKept moves (s.recordEnd k .aborted) ((s.recordEnd k .aborted).setKiln k
      { (s.recordEnd k .aborted).kiln k with state := .finished, aborted := true, runEnable := false }) :=
    kilnsKept_setKiln_same (empty := by simp [State.recordEnd, inUse])
  exact (((recorded.trans finished).trans (kilnsKept_releaseHeat ..)).trans (kilnsKept_raise ..)).trans (kilnsKept_settle ..)

theorem kilnsKept_takeReport (s : State) (k : KilnNo) (dry wet : Int) (door : Bool) :
    KilnsKept moves s (s.takeReport k dry wet door) := by
  have stored : KilnsKept moves s (s.setKiln k { (s.kiln k).readings dry wet with doorOpen := door }) :=
    kilnsKept_setKiln_same (empty := .rfl)
  exact (kilnsKept_noteSetpoints stored s).trans (kilnsKept_evaluateNow ..)

theorem kilnsKept_releaseKiln (s : State) (k : KilnNo) (held : (s.kiln k).state ≠ .empty) :
    KilnsKept moves s (s.releaseKiln k) := by
  have cleared : KilnsKept moves s (s.clearHits k) := kilnsKept_clearHits s k
  have running p : KilnsKept moves s (((s.clearHits k).setKiln k
      { (s.clearHits k).kiln k with state := .running p }).noteSetpoints (s.clearHits k)) :=
    cleared.trans (kilnsKept_noteSetpoints (kilnsKept_setKiln_same (empty := by simp [cleared.empty, held])) _)
  simp only [State.releaseKiln]
  split
  · split
    · exact ((running _).trans (kilnsKept_raise ..)).trans (kilnsKept_passAndSettle _)
    · exact running _
  · exact (running _).trans (kilnsKept_evaluateNow ..)

theorem kilnsKept_countKiln (s : State) (k : KilnNo) : KilnsKept moves s (s.countKiln k) := by
  unfold State.countKiln
  split
  next counts =>
    have on : s.masterEnable = true := by
      simp only [State.counts, Bool.and_eq_true] at counts
      exact counts.1.1
    have counted : KilnsKept moves s (s.setKiln k (s.kiln k).counted) :=
      kilnsKept_setKiln rfl rfl .rfl (fun h => h) fun off => by rw [on] at off; cases off
    simp only
    split
    · exact counted.trans (kilnsKept_evaluateNow ..)
    · exact counted
  · exact .refl s

theorem kilnsKept_countKilns (s : State) : KilnsKept moves s s.countKilns := kilnsKept_foldl _ kilnsKept_countKiln _ s

/-- A start-up with retention intact closes a kiln's door and forms its dormant request (05, R91). -/
theorem kilnsKept_keepRecord (s : State) (k : KilnNo) : KilnsKept moves s ((s.closeDoor k).formDormant k) := by
  have closed : KilnsKept moves s (s.closeDoor k) := kilnsKept_setKiln_same (empty := .rfl)
  exact closed.trans (kilnsKept_formDormant ..)

end Sys2Proof.Machine
end

section
/-! The tracking queue and the packs (08, R126; 09, R162): a stacker's record matches the boards queued for it, and every operation of
the Pack Builder keeps it so. -/

namespace Sys2Proof.Machine

/-- A stacker's record matches the boards queued for it, counted by pack number: the outstanding counts are those of the boards, an
OPEN pack holds its outstanding boards, its two packs have different numbers, and every number that boards carry is one of theirs. -/
structure Stacker.Matches (r : Stacker) (bound : Nat → Nat) : Prop where
  opened : ∀ p, r.openPack = some p → p.outstanding = bound p.number ∧ p.outstanding ≤ p.boards
  closing : ∀ c, r.closing = some c → c.pack.outstanding = bound c.pack.number
  apart : ∀ p c, r.openPack = some p → r.closing = some c → p.number ≠ c.pack.number
  named : ∀ n, bound n ≠ 0 → r.Holds n

theorem boardsBound_ne_zero {s : State} {st : StackerNo} {n : Nat} :
    s.boardsBound st n ≠ 0 ↔ ∃ b ∈ s.queue, b.destination = .stacker st ∧ b.pack = some n := by
  simp [State.boardsBound]

theorem lineSound_iff (s : State) : LineSound s ↔ QueueSound s ∧ (s.queue.map Board.seq).Nodup ∧
    (∀ b ∈ s.queue, ∀ n, b.pack = some n → ∃ st, b.destination = .stacker st) ∧
    ∀ st, (s.stacker st).Matches (s.boardsBound st) := by
  constructor
  · rintro ⟨room, seqs, opened, closing, apart, named⟩
    refine ⟨room, seqs, fun b hb n hn => ?_, fun st => ⟨opened st, closing st, apart st, fun n hn => ?_⟩⟩
    · obtain ⟨st, hst, -⟩ := named b hb n hn
      exact ⟨st, hst⟩
    · obtain ⟨b, hb, hd, hp⟩ := boardsBound_ne_zero.1 hn
      obtain ⟨st', hst', holds⟩ := named b hb n hp
      cases hd.symm.trans hst'
      exact holds
  · rintro ⟨room, seqs, bound, matched⟩
    refine ⟨room, seqs, fun st => (matched st).opened, fun st => (matched st).closing, fun st => (matched st).apart,
      fun b hb n hn => ?_⟩
    obtain ⟨st, hst⟩ := bound b hb n hn
    exact ⟨st, hst, (matched st).named n (boardsBound_ne_zero.2 ⟨b, hb, hst, hn⟩)⟩

theorem LineSound.matches {s : State} (h : LineSound s) (st : StackerNo) : (s.stacker st).Matches (s.boardsBound st) :=
  ((lineSound_iff s).1 h).2.2.2 st

/-! ### One record -/

section
variable {r q : Stacker} {bound : Nat → Nat}

/-- The record with the same packs. -/
theorem Stacker.Matches.of_packs (h : r.Matches bound) (ho : q.openPack = r.openPack) (hc : q.closing = r.closing) :
    q.Matches bound := by
  obtain ⟨opened, closing, apart, named⟩ := h
  refine ⟨ho ▸ opened, hc ▸ closing, ?_, fun n hn => ?_⟩
  · rw [ho, hc]; exact apart
  · unfold Stacker.Holds; rw [ho, hc]; exact named n hn

/-- No board is queued for a number that no pack of the stacker has. -/
theorem Stacker.Matches.bound_eq_zero (h : r.Matches bound) {n : Nat} (hn : ¬r.Holds n) : bound n = 0 :=
  Classical.byContradiction fun hb => hn (h.named n hb)

/-- The OPEN pack closes, with boards added that are not queued yet (09, R155). -/
theorem Stacker.Matches.close (h : r.Matches bound) {p p' : Pack} {c : ClosingPack} (ho : r.openPack = some p)
    (hc : r.closing = none) (number : p'.number = p.number) (outstanding : p'.outstanding = p.outstanding)
    (qo : q.openPack = none) (qc : q.closing = some c) (hp : c.pack = p') : q.Matches bound := by
  subst hp
  refine ⟨fun _ e => by simp [qo] at e, fun c' e => ?_, fun _ _ e => by simp [qo] at e, fun n hn => ?_⟩
  · obtain rfl : c = c' := by simpa [qc] using e
    rw [number, outstanding]
    exact (h.opened p ho).1
  · obtain ⟨p', hp', hn'⟩ | ⟨c', hc', -⟩ := h.named n hn
    · obtain rfl : p = p' := by simpa [ho] using hp'
      exact .inr ⟨c, qc, number.trans hn'⟩
    · simp [hc] at hc'

/-- The OPEN pack stands with boards added that are not queued yet. -/
theorem Stacker.Matches.join (h : r.Matches bound) {p p' : Pack} (ho : r.openPack = some p)
    (number : p'.number = p.number) (outstanding : p'.outstanding = p.outstanding) (boards : p.boards ≤ p'.boards)
    (qo : q.openPack = some p') (qc : q.closing = r.closing) : q.Matches bound := by
  refine ⟨fun x e => ?_, fun c e => h.closing c (qc ▸ e), fun x c e ec => ?_, fun n hn => ?_⟩
  · obtain rfl : p' = x := by simpa [qo] using e
    obtain ⟨ho1, ho2⟩ := h.opened p ho
    rw [number, outstanding]
    exact ⟨ho1, by omega⟩
  · obtain rfl : p' = x := by simpa [qo] using e
    exact number ▸ h.apart p c ho (qc ▸ ec)
  · obtain ⟨x, hx, hn'⟩ | ⟨c, hc, hn'⟩ := h.named n hn
    · obtain rfl : p = x := by simpa [ho] using hx
      exact .inl ⟨p', qo, number.trans hn'⟩
    · exact .inr ⟨c, qc ▸ hc, hn'⟩

/-- A pack of a new number opens on a stacker without an OPEN pack (09, R152). -/
theorem Stacker.Matches.stand (h : r.Matches bound) {p : Pack} (ho : r.openPack = none) (fresh : ¬r.Holds p.number)
    (outstanding : p.outstanding = 0) (qo : q.openPack = some p) (qc : q.closing = r.closing) : q.Matches bound := by
  refine ⟨fun x e => ?_, fun c e => h.closing c (qc ▸ e), fun x c e ec => ?_, fun n hn => ?_⟩
  · obtain rfl : p = x := by simpa [qo] using e
    rw [outstanding, h.bound_eq_zero fresh]
    exact ⟨rfl, Nat.zero_le _⟩
  · obtain rfl : p = x := by simpa [qo] using e
    exact fun e => fresh (.inr ⟨c, qc ▸ ec, e.symm⟩)
  · obtain ⟨x, hx, -⟩ | ⟨c, hc, hn'⟩ := h.named n hn
    · simp [ho] at hx
    · exact .inr ⟨c, qc ▸ hc, hn'⟩

/-- A pack of a new number closes with its opening board (09, R154). -/
theorem Stacker.Matches.standClosed (h : r.Matches bound) {c : ClosingPack} (ho : r.openPack = none) (hc : r.closing = none)
    (fresh : ¬r.Holds c.pack.number) (outstanding : c.pack.outstanding = 0) (qo : q.openPack = none)
    (qc : q.closing = some c) : q.Matches bound := by
  refine ⟨fun _ e => by simp [qo] at e, fun c' e => ?_, fun _ _ e => by simp [qo] at e, fun n hn => ?_⟩
  · obtain rfl : c = c' := by simpa [qc] using e
    rw [outstanding, h.bound_eq_zero fresh]
  · obtain ⟨x, hx, -⟩ | ⟨c', hc', -⟩ := h.named n hn
    · simp [ho] at hx
    · simp [hc] at hc'

/-- A CLOSING pack without outstanding boards leaves (09, R164, R165). -/
theorem Stacker.Matches.leaveClosing (h : r.Matches bound) {c : ClosingPack} (hc : r.closing = some c)
    (outstanding : c.pack.outstanding = 0) (qo : q.openPack = r.openPack) (qc : q.closing = none) : q.Matches bound := by
  refine ⟨fun p e => h.opened p (qo ▸ e), fun _ e => by simp [qc] at e, fun _ _ _ e => by simp [qc] at e, fun n hn => ?_⟩
  obtain ⟨p, hp, hn'⟩ | ⟨c', hc', hn'⟩ := h.named n hn
  · exact .inl ⟨p, qo ▸ hp, hn'⟩
  · obtain rfl : c = c' := by simpa [hc] using hc'
    exact absurd (hn' ▸ (h.closing c hc).symm.trans outstanding) hn

/-- An OPEN pack without boards leaves (09, R162). -/
theorem Stacker.Matches.leaveOpen (h : r.Matches bound) {p : Pack} (ho : r.openPack = some p) (boards : p.boards = 0)
    (qo : q.openPack = none) (qc : q.closing = r.closing) : q.Matches bound := by
  refine ⟨fun _ e => by simp [qo] at e, fun c e => h.closing c (qc ▸ e), fun _ _ e => by simp [qo] at e, fun n hn => ?_⟩
  obtain ⟨x, hx, hn'⟩ | ⟨c, hc, hn'⟩ := h.named n hn
  · obtain rfl : p = x := by simpa [ho] using hx
    obtain ⟨ho1, ho2⟩ := h.opened p ho
    exact absurd (hn' ▸ ho1.symm.trans (by omega)) hn
  · exact .inr ⟨c, qc ▸ hc, hn'⟩

/-- The boards of one pack change in number, and its outstanding count with them (08, R138; 09, R162). -/
theorem Stacker.Matches.recount (h : r.Matches bound) {bound' : Nat → Nat} {n : Nat} (others : ∀ m, m ≠ n → bound' m = bound m)
    (holds : r.Holds n)
    (qo : ∀ p, q.openPack = some p → ∃ p₀, r.openPack = some p₀ ∧ p.number = p₀.number ∧
      (if p₀.number = n then p.outstanding = bound' n ∧ p.outstanding ≤ p.boards else p = p₀))
    (qc : ∀ c, q.closing = some c → ∃ c₀, r.closing = some c₀ ∧ c.pack.number = c₀.pack.number ∧
      (if c₀.pack.number = n then c.pack.outstanding = bound' n else c = c₀))
    (qo' : ∀ p₀, r.openPack = some p₀ → ∃ p, q.openPack = some p ∧ p.number = p₀.number)
    (qc' : ∀ c₀, r.closing = some c₀ → ∃ c, q.closing = some c ∧ c.pack.number = c₀.pack.number) : q.Matches bound' := by
  refine ⟨fun p e => ?_, fun c e => ?_, fun p c e ec => ?_, fun m hm => ?_⟩
  · obtain ⟨p₀, hp₀, hn, h'⟩ := qo p e
    split at h'
    next hn' => rw [hn, hn']; exact h'
    next hn' => rw [hn, others _ hn', h']; exact h.opened p₀ hp₀
  · obtain ⟨c₀, hc₀, hn, h'⟩ := qc c e
    split at h'
    next hn' => rw [hn, hn']; exact h'
    next hn' => rw [hn, others _ hn', h']; exact h.closing c₀ hc₀
  · obtain ⟨p₀, hp₀, hn, -⟩ := qo p e
    obtain ⟨c₀, hc₀, hn', -⟩ := qc c ec
    rw [hn, hn']
    exact h.apart p₀ c₀ hp₀ hc₀
  · have old : r.Holds m := by
      obtain rfl | ne := eq_or_ne m n
      · exact holds
      · exact h.named m (others m ne ▸ hm)
    obtain ⟨p₀, hp₀, rfl⟩ | ⟨c₀, hc₀, rfl⟩ := old
    · exact .inl (qo' p₀ hp₀)
    · exact .inr (qc' c₀ hc₀)

end

/-! ### The state -/

/-- An operation that keeps the match of queue and packs. -/
structure LineKept (s t : State) : Prop where
  sound : LineSound s → LineSound t

theorem LineKept.refl (s : State) : LineKept s s := ⟨id⟩

theorem LineKept.trans {s t u : State} (h : LineKept s t) (g : LineKept t u) : LineKept s u := ⟨g.sound ∘ h.sound⟩

/-- An operation that leaves the queue and the packs. -/
theorem LineKept.of_same {s t : State} (hq : t.queue = s.queue)
    (ho : ∀ st, (t.stacker st).openPack = (s.stacker st).openPack) (hc : ∀ st, (t.stacker st).closing = (s.stacker st).closing) :
    LineKept s t := by
  refine ⟨fun h => ?_⟩
  obtain ⟨room, seqs, bound, matched⟩ := (lineSound_iff s).1 h
  have counts st : t.boardsBound st = s.boardsBound st := by unfold State.boardsBound; rw [hq]
  refine (lineSound_iff t).2 ⟨by unfold QueueSound; rwa [hq], by rwa [hq], by rwa [hq], fun st => ?_⟩
  rw [counts]
  exact (matched st).of_packs (ho st) (hc st)

theorem LineKept.of_queue_stackers {s t : State} (hq : t.queue = s.queue) (hs : t.stackers = s.stackers) : LineKept s t :=
  .of_same hq (fun _ => by unfold State.stacker; rw [hs]) fun _ => by unfold State.stacker; rw [hs]

/-- A record that matches put on a stacker. -/
theorem lineSound_setStacker {s : State} (h : LineSound s) {st : StackerNo} {r : Stacker} (hr : r.Matches (s.boardsBound st)) :
    LineSound (s.setStacker st r) := by
  obtain ⟨room, seqs, bound, matched⟩ := (lineSound_iff s).1 h
  refine (lineSound_iff _).2 ⟨room, seqs, bound, fun j => ?_⟩
  obtain rfl | ne := eq_or_ne j st
  · rw [State.stacker_setStacker_same]; exact hr
  · rw [State.stacker_setStacker_other s r ne]; exact matched j

theorem lineKept_setStacker (s : State) (st : StackerNo) (r : Stacker) (ho : r.openPack = (s.stacker st).openPack)
    (hc : r.closing = (s.stacker st).closing) : LineKept s (s.setStacker st r) where
  sound h := lineSound_setStacker h ((h.matches st).of_packs ho hc)

theorem lineKept_raise (s : State) (c : AttnClass) : LineKept s (s.raise c) := .of_queue_stackers (by simp) (by simp)

theorem lineKept_modifyLot (s : State) (n : Nat) (f : LotRecord → LotRecord) : LineKept s (s.modifyLot n f) :=
  .of_queue_stackers rfl rfl

theorem lineKept_foldl {α : Type} (f : State → α → State) (hf : ∀ s a, LineKept s (f s a)) (l : List α) :
    ∀ s, LineKept s (l.foldl f s) := by
  induction l with
  | nil => exact fun s => .refl s
  | cons a l ih => exact fun s => (hf s a).trans (ih _)

theorem lineKept_judgeBlock (s : State) (p : BlockReason → Bool) (st : StackerNo) : LineKept s (s.judgeBlock p st).1 := by
  unfold State.judgeBlock
  split
  · exact lineKept_setStacker s st _ rfl rfl
  · exact .refl s

theorem lineKept_raiseFreed (s : State) (b : Bool) : LineKept s (s.raiseFreed b) := by
  unfold State.raiseFreed
  split
  · exact lineKept_raise ..
  · exact .refl s

/-! ### Completion and re-examination -/

/-- A completion before its CLOSING place is emptied: lots, labels and serial alone. -/
theorem completePack_eq (s : State) (st : StackerNo) (c : ClosingPack) : ∃ u : State,
    u = { s with lots := u.lots, labels := u.labels, serial := u.serial } ∧
      s.completePack st c = ((u.setStacker st { u.stacker st with closing := none }).raise .labelReady).raise .packClosed := by
  refine ⟨_, ?_, rfl⟩
  unfold State.pushLabel
  split <;> split <;> rfl

theorem lineSound_completePack {s : State} (h : LineSound s) {st : StackerNo} {c : ClosingPack}
    (hc : (s.stacker st).closing = some c) (outstanding : c.pack.outstanding = 0) (c' : ClosingPack) :
    LineSound (s.completePack st c') := by
  obtain ⟨u, hu, eq⟩ := completePack_eq s st c'
  rw [eq]
  refine ((lineKept_raise ..).trans (lineKept_raise ..)).sound ?_
  have hs : LineSound u := (LineKept.of_queue_stackers (by rw [hu]) (by rw [hu])).sound h
  have hc' : (u.stacker st).closing = some c := by rw [hu]; exact hc
  exact lineSound_setStacker hs ((hs.matches st).leaveClosing hc' outstanding rfl rfl)

theorem lineSound_makeClose {s : State} {st : StackerNo} {p : Pack} {why : CloseReason} {n : Option Nat} (h : LineSound s)
    (hr : Stacker.Matches { s.stacker st with
      openPack := none, closing := some ⟨p, why, s.minute, n⟩, idleMinutes := 0, idleDue := false } (s.boardsBound st)) :
    LineSound (s.makeClose st p why n) := by
  unfold State.makeClose
  cases n with
  | none => exact lineSound_setStacker h hr
  | some n =>
    exact (LineKept.of_queue_stackers rfl rfl).sound (lineSound_setStacker h hr)

/-- The close of the OPEN pack of a stacker without a CLOSING one. -/
theorem lineSound_closeOpen {s : State} {st : StackerNo} {p p' : Pack} {why : CloseReason} {n : Option Nat} (h : LineSound s)
    (ho : (s.stacker st).openPack = some p) (hc : (s.stacker st).closing = none) (number : p'.number = p.number)
    (outstanding : p'.outstanding = p.outstanding) : LineSound (s.makeClose st p' why n) :=
  lineSound_makeClose h ((h.matches st).close ho hc number outstanding rfl rfl rfl)

theorem lineKept_attemptIdleClose {s : State} {st : StackerNo} {p : Pack} (ho : (s.stacker st).openPack = some p) :
    LineKept s (s.attemptIdleClose st p) := by
  unfold State.attemptIdleClose
  split
  · exact lineKept_setStacker s st _ rfl rfl
  next n granted =>
    obtain ⟨prior, -⟩ := judgeClose_granted granted
    refine ⟨fun h => ?_⟩
    have closed : LineSound (s.makeClose st p .idle n) := lineSound_closeOpen h ho prior rfl rfl
    dsimp only
    split
    next outstanding =>
      exact ((lineKept_judgeBlock ..).trans (lineKept_raiseFreed ..)).sound (lineSound_completePack closed
        (congrArg Stacker.closing (makeClose_stacker s st p .idle n)) outstanding _)
    · exact closed

theorem lineKept_retryIdleClose (s : State) (st : StackerNo) : LineKept s (s.retryIdleClose st) := by
  unfold State.retryIdleClose
  split
  next p ho =>
    split
    · exact lineKept_attemptIdleClose ho
    · exact .refl s
  · exact .refl s

theorem lineKept_examineOver (p : StackerNo → BlockReason → Bool) (l : List StackerNo) :
    ∀ s, LineKept s (State.examineOver p s l).1 := by
  induction l with
  | nil => exact fun s => .refl s
  | cons st l ih => exact fun s => ((lineKept_judgeBlock ..).trans (lineKept_retryIdleClose ..)).trans (ih _)

theorem lineKept_reexamine (s : State) (l : List StackerNo) (p : StackerNo → BlockReason → Bool) :
    LineKept s (s.reexamine l p) := (lineKept_examineOver p l s).trans (lineKept_raiseFreed ..)

theorem lineSound_complete {s : State} (h : LineSound s) {st : StackerNo} {c : ClosingPack}
    (hc : (s.stacker st).closing = some c) (outstanding : c.pack.outstanding = 0) (c' : ClosingPack) :
    LineSound (s.complete st c') :=
  (lineKept_reexamine ..).sound (lineSound_completePack h hc outstanding c')

theorem lineSound_discard {s : State} (h : LineSound s) {st : StackerNo} {c : ClosingPack}
    (hc : (s.stacker st).closing = some c) (outstanding : c.pack.outstanding = 0) : LineSound (s.discard st) :=
  (lineKept_reexamine ..).sound (lineSound_setStacker h ((h.matches st).leaveClosing hc outstanding rfl rfl))

theorem lineSound_settlePack {s : State} (h : LineSound s) (st : StackerNo) (n : Nat) : LineSound (s.settlePack st n).1 := by
  have dissolved : LineSound (s.dissolveEmpty st n) := by
    unfold State.dissolveEmpty
    split
    next p ho =>
      split
      next hp => exact lineSound_setStacker h ((h.matches st).leaveOpen ho hp.2 rfl rfl)
      · exact h
    · exact h
  unfold State.settlePack
  split
  next c hc =>
    split
    · unfold State.endClosing
      split
      next outstanding =>
        split
        · exact lineSound_complete h hc outstanding c
        · exact lineSound_discard h hc outstanding
      · exact h
    · exact dissolved
  · exact dissolved

theorem lineKept_idleStacker (s : State) (st : StackerNo) : LineKept s (s.idleStacker st) := by
  unfold State.idleStacker
  split
  · exact .refl s
  next p ho =>
    have one n : LineKept s (s.setStacker st { s.stacker st with idleMinutes := n }) := lineKept_setStacker s st _ rfl rfl
    dsimp only
    split
    · split
      · exact (one _).trans (lineKept_attemptIdleClose (by simpa using ho))
      · exact one _
    · split
      · exact lineKept_attemptIdleClose ho
      · exact .refl s

theorem lineKept_idleStackers (s : State) : LineKept s s.idleStackers := by
  unfold State.idleStackers
  split
  · exact .refl s
  · exact lineKept_foldl _ lineKept_idleStacker _ s

end Sys2Proof.Machine
end

section
/-! The searches for a number not taken (01, R17; 08, R127; 09, R152): which numbers they look at, and that a search finds one where
fewer numbers are taken than it looks at. -/

namespace Sys2Proof.Machine

/-- The number a search from `cur` looks at after `i` others, wrapping from `last` to `first`. -/
def looked (first last cur i : Nat) : Nat := if last < cur ∨ cur + i ≤ last then cur + i else cur + i - (last + 1 - first)

theorem looked_zero (first last cur : Nat) : looked first last cur 0 = cur := by
  unfold looked
  split <;> omega

theorem looked_succ {first last cur i : Nat} (hi : i + 1 < last + 1 - first) :
    looked first last (if cur = last then first else cur + 1) i = looked first last cur (i + 1) := by
  unfold looked
  split_ifs <;> omega

/-- A search looks at each number once. -/
theorem looked_injective {first last cur i j : Nat} (hi : i < last + 1 - first) (hj : j < last + 1 - first)
    (h : looked first last cur i = looked first last cur j) : i = j := by
  unfold looked at h
  split_ifs at h <;> omega

theorem looked_range {first last cur i : Nat} (lo : first ≤ cur) (hi : cur ≤ last) (h : i < last + 1 - first) :
    first ≤ looked first last cur i ∧ looked first last cur i ≤ last := by
  unfold looked
  split_ifs <;> omega

section
variable {taken : Nat → Bool} {first last : Nat}

theorem searchFree_eq_some {looks cur n : Nat} (hl : looks ≤ last + 1 - first)
    (h : searchFree taken first last looks cur = some n) :
    ∃ i < looks, n = looked first last cur i ∧ ∀ j < i, taken (looked first last cur j) = true := by
  induction looks generalizing cur with
  | zero => cases h
  | succ looks ih =>
    unfold searchFree at h
    split at h
    next ht =>
      obtain ⟨i, hi, rfl, hj⟩ := ih (by omega) h
      refine ⟨i + 1, by omega, looked_succ (by omega), fun j hlt => ?_⟩
      cases j with
      | zero => rw [looked_zero]; exact ht
      | succ j => rw [← looked_succ (by omega)]; exact hj j (by omega)
    next ht =>
      cases h
      exact ⟨0, by omega, (looked_zero ..).symm, fun j hj => by omega⟩

theorem searchFree_eq_none {looks cur : Nat} (hl : looks ≤ last + 1 - first)
    (h : searchFree taken first last looks cur = none) : ∀ i < looks, taken (looked first last cur i) = true := by
  induction looks generalizing cur with
  | zero => exact fun i hi => absurd hi (by omega)
  | succ looks ih =>
    unfold searchFree at h
    split at h
    next ht =>
      intro i hi
      cases i with
      | zero => rw [looked_zero]; exact ht
      | succ i => rw [← looked_succ (by omega)]; exact ih (by omega) h i (by omega)
    · cases h

/-- Numbers of a list shorter than the search cannot all be taken. -/
theorem searchFree_finds {cur : Nat} (numbers : List Nat) (hn : ∀ n, taken n = true → n ∈ numbers)
    (hl : numbers.length < last + 1 - first) : ∃ n, searchFree taken first last (last + 1 - first) cur = some n := by
  cases h : searchFree taken first last (last + 1 - first) cur with
  | some n => exact ⟨n, rfl⟩
  | none =>
    have all := searchFree_eq_none (Nat.le_refl _) h
    have nodup : ((List.range (last + 1 - first)).map (looked first last cur)).Nodup :=
      List.Nodup.map_on (fun i hi j hj => looked_injective (List.mem_range.1 hi) (List.mem_range.1 hj)) List.nodup_range
    have sub : (List.range (last + 1 - first)).map (looked first last cur) ⊆ numbers := fun n hn' => by
      obtain ⟨i, hi, rfl⟩ := List.mem_map.1 hn'
      exact hn _ (all i (List.mem_range.1 hi))
    have := (List.subperm_of_subset nodup sub).length_le
    rw [List.length_map, List.length_range] at this
    omega

end

/-! ### Pack numbers and sequence numbers -/

theorem packNumberTaken_iff (s : State) (n : Nat) : s.packNumberTaken n = true ↔ ∃ st, (s.stacker st).Holds n := by
  have one (r : Stacker) : ((match r.openPack with | some p => p.number == n | none => false) ||
      match r.closing with | some c => c.pack.number == n | none => false) = true ↔ r.Holds n := by
    unfold Stacker.Holds
    cases r.openPack <;> cases r.closing <;> simp
  simp only [State.packNumberTaken, List.any_eq_true]
  constructor
  · rintro ⟨r, hr, holds⟩
    obtain ⟨i, hi, rfl⟩ := List.getElem_of_mem hr
    rw [Vector.length_toList] at hi
    exact ⟨⟨i, hi⟩, (one _).1 holds⟩
  · rintro ⟨st, holds⟩
    exact ⟨s.stacker st, by simp [State.stacker], (one _).2 holds⟩

/-- The numbers of the packs of a stacker. -/
def Stacker.numbers (r : Stacker) : List Nat := (r.openPack.map Pack.number).toList ++ (r.closing.map fun c => c.pack.number).toList

theorem Stacker.mem_numbers (r : Stacker) (n : Nat) : n ∈ r.numbers ↔ r.Holds n := by
  unfold Stacker.numbers Stacker.Holds
  cases r.openPack <;> cases r.closing <;> simp [eq_comm]

theorem Stacker.length_numbers (r : Stacker) : r.numbers.length ≤ 2 := by
  unfold Stacker.numbers
  cases r.openPack <;> cases r.closing <;> simp

theorem freePackNumber_found (s : State) :
    searchFree s.packNumberTaken 1 65535 65535 s.nextPack = some s.freePackNumber := by
  obtain ⟨n, hn⟩ : ∃ n, searchFree s.packNumberTaken 1 65535 (65535 + 1 - 1) s.nextPack = some n := by
    refine searchFree_finds (allStackers.flatMap fun st => (s.stacker st).numbers) (fun n hn => ?_) ?_
    · obtain ⟨st, hst⟩ := (packNumberTaken_iff s n).1 hn
      exact List.mem_flatMap.2 ⟨st, mem_allStackers st, (Stacker.mem_numbers ..).2 hst⟩
    · have two st := (s.stacker st).length_numbers
      have h0 := two 0; have h1 := two 1; have h2 := two 2; have h3 := two 3; have h4 := two 4; have h5 := two 5
      simp only [allStackers, List.flatMap_cons, List.flatMap_nil, List.append_nil, List.length_append]
      omega
  simp only [Nat.add_sub_cancel] at hn
  rw [State.freePackNumber, hn, Option.getD_some]

/-- A new pack has a number that no standing pack carries (09, R152). -/
theorem not_holds_freePackNumber (s : State) (st : StackerNo) : ¬(s.stacker st).Holds s.freePackNumber := fun h => by
  have free := searchFree_some (freePackNumber_found s)
  rw [(packNumberTaken_iff ..).2 ⟨st, h⟩] at free
  cases free

theorem freePackNumber_range (s : State) (lo : 1 ≤ s.nextPack) (hi : s.nextPack ≤ 65535) :
    1 ≤ s.freePackNumber ∧ s.freePackNumber ≤ 65535 := by
  obtain ⟨i, hlt, eq, -⟩ := searchFree_eq_some (by omega) (freePackNumber_found s)
  rw [eq]
  exact looked_range lo hi (by omega)

/-- A new board has a sequence number that no queued board carries (08, R127). -/
theorem freeSeq_not_mem (s : State) (room : s.queue.length ≤ 48) : s.freeSeq ∉ s.queue.map Board.seq := by
  have iff n : (s.queue.any fun b => b.seq == n) = true ↔ n ∈ s.queue.map Board.seq := by simp
  obtain ⟨n, hn⟩ : ∃ n, searchFree (fun n => s.queue.any fun b => b.seq == n) 1 65535 (65535 + 1 - 1) s.nextSeq = some n :=
    searchFree_finds (s.queue.map Board.seq) (fun n => (iff n).1) (by rw [List.length_map]; omega)
  have free := searchFree_some hn
  simp only [Nat.add_sub_cancel] at hn
  rw [State.freeSeq, hn, Option.getD_some, ← iff, free]
  simp

end Sys2Proof.Machine
end

section
/-! What the placement of a board can do (09, R153 to R156), said once, and that it keeps the match of queue and packs. -/

namespace Sys2Proof.Machine

/-- The stacker after a before-close: the pack closed, and the new one with the board standing open. -/
def State.closedAndOpened (s : State) (st : StackerNo) (p : Pack) (why : CloseReason) (n : Option Nat) (b : Placing) : State :=
  (s.makeClose st p why n).numberGiven.standOpen st ((s.makeClose st p why n).openedPack st b)

/-- The outcomes of a placement: blocked, blocked now by the requirement that fails, and the five ways to take the board. -/
inductive Placement (s : State) (st : StackerNo) (b : Placing) : State × Option Nat → Prop
  | blocked (h : (s.stacker st).blocked.isSome = true) : Placement s st b (s, none)
  | fails {r : BlockReason} (free : (s.stacker st).blocked = none)
      (judged : s.needJudged st b (s.closeNeed st b) = .fails r) : Placement s st b (s.blockStacker st r, none)
  | before {p : Pack} {why : CloseReason} {n : Option Nat} (free : (s.stacker st).blocked = none)
      (opened : (s.stacker st).openPack = some p) (reason : beforeReason p b = some why)
      (judged : s.judgeClose st p.isRedry = .granted n) :
      Placement s st b (if p.outstanding = 0 then (s.closedAndOpened st p why n b).complete st ⟨p, why, s.minute, n⟩
        else s.closedAndOpened st p why n b, some ((s.makeClose st p why n).openedPack st b).number)
  | afterJoin {p : Pack} {n : Option Nat} (free : (s.stacker st).blocked = none)
      (opened : (s.stacker st).openPack = some p) (reason : beforeReason p b = none) (full : p.boards + 1 = p.countLimit)
      (judged : s.judgeClose st p.isRedry = .granted n) :
      Placement s st b (s.makeClose st (p.addBoard b.footage b.mc b.verified) .count n, some p.number)
  | afterOpen {n : Option Nat} (free : (s.stacker st).blocked = none) (opened : (s.stacker st).openPack = none)
      (one : (s.stacker st).countLimit = 1) (judged : s.judgeClose st (b.bin == redryBin) = .granted n) :
      Placement s st b (s.numberGiven.makeClose st (s.openedPack st b) .count n, some (s.openedPack st b).number)
  | joins {p : Pack} (free : (s.stacker st).blocked = none) (opened : (s.stacker st).openPack = some p)
      (reason : beforeReason p b = none) (room : p.boards + 1 ≠ p.countLimit) :
      Placement s st b (s.standOpen st (p.addBoard b.footage b.mc b.verified), some p.number)
  | opens (free : (s.stacker st).blocked = none) (opened : (s.stacker st).openPack = none)
      (room : (s.stacker st).countLimit ≠ 1) :
      Placement s st b (s.numberGiven.standOpen st (s.openedPack st b), some (s.openedPack st b).number)

/-- What `closeNeed` says of the OPEN pack. -/
theorem closeNeed_before {s : State} {st : StackerNo} {b : Placing} {p : Pack} {why : CloseReason}
    (h : s.closeNeed st b = .before p why) : (s.stacker st).openPack = some p ∧ beforeReason p b = some why := by
  unfold State.closeNeed at h
  split at h
  next ho =>
    split at h
    next hr => cases h; exact ⟨ho, hr⟩
    · split at h <;> cases h
  · split at h <;> cases h

theorem closeNeed_afterJoin {s : State} {st : StackerNo} {b : Placing} {p : Pack} (h : s.closeNeed st b = .afterJoin p) :
    (s.stacker st).openPack = some p ∧ beforeReason p b = none ∧ p.boards + 1 = p.countLimit := by
  unfold State.closeNeed at h
  split at h
  next ho =>
    split at h
    · cases h
    next hr =>
      split at h
      next full => cases h; exact ⟨ho, hr, full⟩
      · cases h
  · split at h <;> cases h

theorem closeNeed_afterOpen {s : State} {st : StackerNo} {b : Placing} (h : s.closeNeed st b = .afterOpen) :
    (s.stacker st).openPack = none ∧ (s.stacker st).countLimit = 1 := by
  unfold State.closeNeed at h
  split at h
  · split at h
    · cases h
    · split at h <;> cases h
  next ho =>
    split at h
    next one => exact ⟨ho, one⟩
    · cases h

theorem closeNeed_noneJoin {s : State} {st : StackerNo} {b : Placing} {p : Pack} (h : s.closeNeed st b = .noneJoin p) :
    (s.stacker st).openPack = some p ∧ beforeReason p b = none ∧ p.boards + 1 ≠ p.countLimit := by
  unfold State.closeNeed at h
  split at h
  next ho =>
    split at h
    · cases h
    next hr =>
      split at h
      · cases h
      next room => cases h; exact ⟨ho, hr, room⟩
  · split at h <;> cases h

theorem closeNeed_noneOpen {s : State} {st : StackerNo} {b : Placing} (h : s.closeNeed st b = .noneOpen) :
    (s.stacker st).openPack = none ∧ (s.stacker st).countLimit ≠ 1 := by
  unfold State.closeNeed at h
  split at h
  · split at h
    · cases h
    · split at h <;> cases h
  next ho =>
    split at h
    · cases h
    next room => exact ⟨ho, room⟩

/-- Every placement is one of these. -/
theorem placement (s : State) (st : StackerNo) (b : Placing) : Placement s st b (s.place st b) := by
  unfold State.place
  split
  next h => exact .blocked h
  next h =>
    have free : (s.stacker st).blocked = none := by simpa using h
    split
    next judged => exact .fails free judged
    next need judged =>
      obtain ⟨opened, reason⟩ := closeNeed_before need
      exact .before free opened reason (by simpa [State.needJudged, need] using judged)
    next need judged =>
      obtain ⟨opened, reason, full⟩ := closeNeed_afterJoin need
      exact .afterJoin free opened reason full (by simpa [State.needJudged, need] using judged)
    next need judged =>
      obtain ⟨opened, one⟩ := closeNeed_afterOpen need
      exact .afterOpen free opened one (by simpa [State.needJudged, need] using judged)
    next need judged =>
      obtain ⟨opened, reason, room⟩ := closeNeed_noneJoin need
      exact .joins free opened reason room
    next need judged =>
      obtain ⟨opened, room⟩ := closeNeed_noneOpen need
      exact .opens free opened room

/-! ### What a placement leaves -/

theorem makeClose_queue (s : State) (st : StackerNo) (p : Pack) (why : CloseReason) (n : Option Nat) :
    (s.makeClose st p why n).queue = s.queue := by cases n <;> rfl

theorem NumbersKept.queue {s t : State} (h : NumbersKept s t) : t.queue = s.queue := by rw [h.rest]

theorem complete_numbersKept (s : State) (st : StackerNo) (c : ClosingPack) : NumbersKept s (s.complete st c) :=
  (numbersKept_completePack s st c).trans (numbersKept_reexamine ..)

theorem place_queue (s : State) (st : StackerNo) (b : Placing) : (s.place st b).1.queue = s.queue := by
  have placed := placement s st b
  generalize s.place st b = placedAs at placed ⊢
  cases placed with
  | blocked | joins | opens => rfl
  | fails => simp [State.blockStacker]
  | before =>
    split
    · exact (complete_numbersKept ..).queue.trans (makeClose_queue ..)
    · exact makeClose_queue ..
  | afterJoin | afterOpen => exact makeClose_queue ..

/-! ### The stacker after a placement -/

/-- An operation that leaves the OPEN pack of a stacker without an idle close due. -/
theorem reexamine_own_openPack {s : State} {st : StackerNo} (due : (s.stacker st).idleDue = false)
    (p : StackerNo → BlockReason → Bool) : ((s.reexamine [st] p).stacker st).openPack = (s.stacker st).openPack := by
  have judged : ((s.judgeBlock (p st) st).1.stacker st).openPack = (s.stacker st).openPack ∧
      ((s.judgeBlock (p st) st).1.stacker st).idleDue = false := by
    unfold State.judgeBlock
    split
    · simp [State.unblock, due]
    · exact ⟨rfl, due⟩
  have retried : ((s.judgeBlock (p st) st).1.retryIdleClose st) = (s.judgeBlock (p st) st).1 := by
    unfold State.retryIdleClose
    split
    · rw [if_neg (by simp [judged.2])]
    · rfl
  have freed (u : State) (f : Bool) : ((u.raiseFreed f).stacker st).openPack = (u.stacker st).openPack := by
    unfold State.raiseFreed
    split <;> simp
  unfold State.reexamine
  simp only [freed, State.examineOver, retried, judged.1]

theorem completePack_stacker (s : State) (st : StackerNo) (c : ClosingPack) (j : StackerNo) :
    (s.completePack st c).stacker j = if j = st then { s.stacker st with closing := none } else s.stacker j := by
  obtain ⟨u, hu, eq⟩ := completePack_eq s st c
  have same i : u.stacker i = s.stacker i := by rw [hu]; rfl
  rw [eq]
  simp only [State.stacker_raise, same]
  split
  next h => subst h; rw [State.stacker_setStacker_same]
  next h => rw [State.stacker_setStacker_other _ _ h, same]

theorem complete_openPack {s : State} {st : StackerNo} (due : (s.stacker st).idleDue = false) (c : ClosingPack) :
    ((s.complete st c).stacker st).openPack = (s.stacker st).openPack := by
  unfold State.complete
  rw [reexamine_own_openPack (by simp [completePack_stacker, due]), completePack_stacker, if_pos rfl]

theorem addBoard_kept (p : Pack) (ft mc : Nat) (v : Bool) : (p.addBoard ft mc v).number = p.number ∧
    (p.addBoard ft mc v).outstanding = p.outstanding ∧ (p.addBoard ft mc v).boards = p.boards + 1 := by
  cases v <;> exact ⟨rfl, rfl, rfl⟩

theorem openedPack_number (s : State) (st : StackerNo) (b : Placing) : (s.openedPack st b).number = s.freePackNumber ∧
    (s.openedPack st b).outstanding = 0 ∧ (s.openedPack st b).boards = 1 :=
  addBoard_kept _ b.footage b.mc b.verified

theorem standOpen_stacker (s : State) (st : StackerNo) (p : Pack) :
    (s.standOpen st p).stacker st = { s.stacker st with openPack := some p, idleMinutes := 0, idleDue := false } := by
  simp [State.standOpen]

theorem lineKept_numberGiven (s : State) : LineKept s s.numberGiven := .of_queue_stackers rfl rfl

theorem lineKept_blockStacker (s : State) (st : StackerNo) (r : BlockReason) : LineKept s (s.blockStacker st r) :=
  ((lineKept_setStacker s st { s.stacker st with blocked := some r } rfl rfl).trans (lineKept_raise ..)).trans
    (lineKept_raise ..)

/-- A new pack with its board stands open on a stacker without an OPEN pack. -/
theorem lineSound_standFresh {s : State} (h : LineSound s) {st : StackerNo} (ho : (s.stacker st).openPack = none)
    (b : Placing) : LineSound (s.numberGiven.standOpen st (s.openedPack st b)) := by
  obtain ⟨number, outstanding, -⟩ := openedPack_number s st b
  exact lineSound_setStacker ((lineKept_numberGiven s).sound h)
    ((h.matches st).stand ho (number ▸ not_holds_freePackNumber s st) outstanding rfl rfl)

theorem lineSound_closedAndOpened {s : State} (h : LineSound s) {st : StackerNo} {p : Pack}
    (ho : (s.stacker st).openPack = some p) (prior : (s.stacker st).closing = none) (why : CloseReason) (n : Option Nat)
    (b : Placing) : LineSound (s.closedAndOpened st p why n b) :=
  lineSound_standFresh (lineSound_closeOpen h ho prior rfl rfl) (by rw [makeClose_stacker]) b

/-- A placement keeps the match; the pack a board joins stands on the stacker, with room among its boards for one more outstanding. -/
theorem lineSound_place {s : State} (h : LineSound s) (st : StackerNo) (b : Placing) : LineSound (s.place st b).1 ∧
    ∀ n, (s.place st b).2 = some n → ((s.place st b).1.stacker st).Holds n ∧
      ∀ p, ((s.place st b).1.stacker st).openPack = some p → p.number = n → p.outstanding + 1 ≤ p.boards := by
  have placed := placement s st b
  generalize s.place st b = placedAs at placed ⊢
  cases placed with
  | blocked => exact ⟨h, fun n e => by cases e⟩
  | fails => exact ⟨(lineKept_blockStacker ..).sound h, fun n e => by cases e⟩
  | @before p why n free opened reason judged =>
    obtain ⟨prior, -⟩ := judgeClose_granted judged
    have sound := lineSound_closedAndOpened h opened prior why n b
    have stands : (s.closedAndOpened st p why n b).stacker st =
        { (s.makeClose st p why n).stacker st with
          openPack := some ((s.makeClose st p why n).openedPack st b), idleMinutes := 0, idleDue := false } :=
      standOpen_stacker ..
    obtain ⟨number, outstanding, boards⟩ := openedPack_number (s.makeClose st p why n) st b
    have openNow : ((if p.outstanding = 0 then (s.closedAndOpened st p why n b).complete st ⟨p, why, s.minute, n⟩
        else s.closedAndOpened st p why n b).stacker st).openPack = some ((s.makeClose st p why n).openedPack st b) := by
      split
      · rw [complete_openPack (by rw [stands]), stands]
      · rw [stands]
    refine ⟨?_, fun m e => ?_⟩
    · split
      next none =>
        refine lineSound_complete sound (c := ⟨p, why, s.minute, n⟩) ?_ none _
        rw [stands, makeClose_stacker]
      · exact sound
    · obtain rfl : ((s.makeClose st p why n).openedPack st b).number = m := by simpa using e
      refine ⟨.inl ⟨_, openNow, rfl⟩, fun x hx _ => ?_⟩
      obtain rfl : (s.makeClose st p why n).openedPack st b = x := by simpa [openNow] using hx
      omega
  | @afterJoin p n free opened reason full judged =>
    obtain ⟨prior, -⟩ := judgeClose_granted judged
    obtain ⟨number, outstanding, -⟩ := addBoard_kept p b.footage b.mc b.verified
    refine ⟨lineSound_closeOpen h opened prior number outstanding, fun m e => ?_⟩
    obtain rfl : p.number = m := by simpa using e
    rw [makeClose_stacker]
    exact ⟨.inr ⟨_, rfl, number⟩, fun x hx => by cases hx⟩
  | @afterOpen n free opened one judged =>
    obtain ⟨prior, -⟩ := judgeClose_granted judged
    obtain ⟨number, outstanding, -⟩ := openedPack_number s st b
    have given := (lineKept_numberGiven s).sound h
    refine ⟨lineSound_makeClose given ((given.matches st).standClosed opened prior
      (number ▸ not_holds_freePackNumber s st) outstanding rfl rfl), fun m e => ?_⟩
    obtain rfl : (s.openedPack st b).number = m := by simpa using e
    rw [makeClose_stacker]
    exact ⟨.inr ⟨_, rfl, rfl⟩, fun x hx => by cases hx⟩
  | @joins p free opened reason room =>
    obtain ⟨number, outstanding, boards⟩ := addBoard_kept p b.footage b.mc b.verified
    refine ⟨lineSound_setStacker h ((h.matches st).join opened number outstanding (by omega) rfl rfl), fun m e => ?_⟩
    obtain rfl : p.number = m := by simpa using e
    rw [standOpen_stacker]
    refine ⟨.inl ⟨_, rfl, number⟩, fun x hx _ => ?_⟩
    obtain rfl : p.addBoard b.footage b.mc b.verified = x := by simpa using hx
    have := ((h.matches st).opened p opened).2
    omega
  | @opens free opened room =>
    obtain ⟨number, outstanding, boards⟩ := openedPack_number s st b
    refine ⟨lineSound_standFresh h opened b, fun m e => ?_⟩
    obtain rfl : (s.openedPack st b).number = m := by simpa using e
    rw [standOpen_stacker]
    refine ⟨.inl ⟨_, rfl, rfl⟩, fun x hx _ => ?_⟩
    obtain rfl : s.openedPack st b = x := by simpa using hx
    omega

end Sys2Proof.Machine
end

section
/-! Boards that join and leave the queue (08, R138, R141, R142): what each makes of the packs, and that queue and packs match after it. -/

namespace Sys2Proof.Machine

/-! ### The queue -/

/-- A board leaves a queue that has its sequence number once. -/
theorem perm_cons_eraseSeq {b : Board} {q : List Board} (hb : b ∈ q) (seqs : (q.map Board.seq).Nodup) :
    q.Perm (b :: q.eraseP fun x => x.seq == b.seq) := by
  induction q with
  | nil => cases hb
  | cons a q ih =>
    rw [List.map_cons, List.nodup_cons] at seqs
    obtain ⟨fresh, seqs⟩ := seqs
    by_cases h : a.seq = b.seq
    · have : b = a := by
        obtain rfl | hb := List.mem_cons.1 hb
        · rfl
        · exact absurd (List.mem_map.2 ⟨b, hb, h.symm⟩) fresh
      subst this
      rw [List.eraseP_cons_of_pos (by simp)]
    · have hb' : b ∈ q := (List.mem_cons.1 hb).resolve_left fun e => h (e ▸ rfl)
      rw [List.eraseP_cons_of_neg (by simpa using h)]
      exact ((ih hb' seqs).cons a).trans (.swap ..)

theorem dequeue_queue (s : State) (n : Nat) : (s.dequeue n).queue = s.queue.eraseP fun b => b.seq == n := rfl

theorem dequeue_sublist (s : State) (n : Nat) : ((s.dequeue n).queue).Sublist s.queue := List.eraseP_sublist

/-- Whether a board is queued for a pack. -/
def Board.isBound (b : Board) (st : StackerNo) (n : Nat) : Bool := b.destination == .stacker st && b.pack == some n

theorem boardsBound_dequeue {s : State} {b : Board} (hb : b ∈ s.queue) (seqs : (s.queue.map Board.seq).Nodup)
    (st : StackerNo) (n : Nat) :
    s.boardsBound st n = (s.dequeue b.seq).boardsBound st n + if b.isBound st n then 1 else 0 := by
  have perm := (perm_cons_eraseSeq hb seqs).countP_eq fun x => x.isBound st n
  rw [List.countP_cons] at perm
  exact perm

/-! ### A pack changed by its number -/

/-- The record with a change to its pack of a number. -/
def Stacker.changed (r : Stacker) (n : Nat) (f : Pack → Pack) : Stacker :=
  { r with
    openPack := r.openPack.map fun p => if p.number = n then f p else p
    closing := r.closing.map fun c => if c.pack.number = n then { c with pack := f c.pack } else c }

theorem onPack_eq (s : State) (st : StackerNo) (n : Nat) (f : Pack → Pack)
    (apart : ∀ p c, (s.stacker st).openPack = some p → (s.stacker st).closing = some c → p.number ≠ c.pack.number) :
    s.onPack st n f = s.setStacker st ((s.stacker st).changed n f) := by
  unfold State.onPack
  generalize hr : s.stacker st = r at apart ⊢
  have self : s.setStacker st r = s := setStacker_self s st hr
  obtain ⟨countLimit, footageLimit, idleParam, openPack, closing, blocked, idleMinutes, idleDue⟩ := r
  cases openPack with
  | none =>
    cases closing with
    | none => exact self.symm
    | some c => by_cases hc : c.pack.number = n <;> simp [Stacker.changed, hc, self]
  | some p =>
    cases closing with
    | none => by_cases hp : p.number = n <;> simp [Stacker.changed, hp, self]
    | some c =>
      have ne := apart p c rfl rfl
      by_cases hp : p.number = n
      · have hc : c.pack.number ≠ n := fun e => ne (hp.trans e.symm)
        simp [Stacker.changed, hp, hc]
      · by_cases hc : c.pack.number = n <;> simp [Stacker.changed, hp, hc, self]

/-- The match after one board more or one less of the pack of a number, its outstanding count changed with it. -/
theorem Stacker.Matches.changed {r : Stacker} {bound bound' : Nat → Nat} (h : r.Matches bound) {n : Nat} {f : Pack → Pack}
    (others : ∀ m, m ≠ n → bound' m = bound m) (holds : r.Holds n) (number : ∀ p, (f p).number = p.number)
    (outstanding : ∀ p, p.number = n → p.outstanding = bound n → (f p).outstanding = bound' n)
    (boards : ∀ p, r.openPack = some p → p.number = n → bound' n ≤ (f p).boards) : (r.changed n f).Matches bound' := by
  refine h.recount (n := n) others holds (fun p hp => ?_) (fun c hc => ?_) (fun p hp => ?_) (fun c hc => ?_)
  · obtain ⟨p₀, hp₀, rfl⟩ := Option.map_eq_some_iff.1 hp
    refine ⟨p₀, hp₀, ?_, ?_⟩
    · split
      · exact number p₀
      · rfl
    · split
      next e =>
        have count := outstanding p₀ e ((h.opened p₀ hp₀).1.trans (by rw [e]))
        exact ⟨count, count ▸ boards p₀ hp₀ e⟩
      · rfl
  · obtain ⟨c₀, hc₀, rfl⟩ := Option.map_eq_some_iff.1 hc
    refine ⟨c₀, hc₀, ?_, ?_⟩
    · split
      · exact number c₀.pack
      · rfl
    · split
      next e => exact outstanding c₀.pack e ((h.closing c₀ hc₀).trans (by rw [e]))
      · rfl
  · refine ⟨_, Option.map_eq_some_iff.2 ⟨p, hp, rfl⟩, ?_⟩
    split
    · exact number p
    · rfl
  · refine ⟨_, Option.map_eq_some_iff.2 ⟨c, hc, rfl⟩, ?_⟩
    split
    · exact number c.pack
    · rfl

/-! ### A board leaves (R141, R142) -/

/-- A queued board leaves the queue and its pack; `v` is the part with the board taken out of the queue. -/
theorem lineSound_leavePack {s v : State} (h : LineSound s) {b : Board} (hb : b ∈ s.queue)
    (queue : v.queue = (s.dequeue b.seq).queue) (stackers : v.stackers = s.stackers) {f : Pack → Pack}
    (number : ∀ p, (f p).number = p.number) (boards : ∀ p, p.boards ≤ (f p).boards + 1) :
    LineSound (v.leavePack b f).1 := by
  obtain ⟨room, seqs, bound, matched⟩ := (lineSound_iff s).1 h
  have sub : v.queue.Sublist s.queue := queue ▸ dequeue_sublist s b.seq
  have vroom : QueueSound v := Nat.le_trans sub.length_le room
  have vseqs : (v.queue.map Board.seq).Nodup := seqs.sublist (sub.map _)
  have vbound : ∀ x ∈ v.queue, ∀ n, x.pack = some n → ∃ st, x.destination = .stacker st := fun x hx => bound x (sub.subset hx)
  have same st : v.stacker st = s.stacker st := by unfold State.stacker; rw [stackers]
  have counts st n : s.boardsBound st n = v.boardsBound st n + if b.isBound st n then 1 else 0 := by
    rw [boardsBound_dequeue hb seqs st n]
    simp only [State.boardsBound, queue]
  unfold State.leavePack
  split
  next n st hn hd =>
    have own : b.isBound st n = true := by simp [Board.isBound, hn, hd]
    have only j m : b.isBound j m = true ↔ j = st ∧ m = n := by
      simp only [Board.isBound, hd, hn, Bool.and_eq_true, beq_iff_eq, Destination.stacker.injEq, Option.some.injEq]
      exact and_congr eq_comm eq_comm
    have holds : (s.stacker st).Holds n := (matched st).named n (by rw [counts, if_pos own]; omega)
    refine lineSound_settlePack ?_ st n
    rw [onPack_eq v st n _ (by rw [same]; exact (matched st).apart), same]
    refine (lineSound_iff _).2 ⟨vroom, vseqs, vbound, fun j => ?_⟩
    obtain rfl | ne := eq_or_ne j st
    · rw [State.stacker_setStacker_same]
      refine (matched j).changed (n := n) (fun m hm => ?_) holds (fun p => number p) (fun p e count => ?_) fun p hp e => ?_
      · have := counts j m
        rw [if_neg (by rw [only]; exact fun e => hm e.2)] at this
        exact this.symm
      · have := counts j n
        rw [if_pos own] at this
        change p.outstanding - 1 = v.boardsBound j n
        omega
      · have := counts j n
        rw [if_pos own] at this
        have outstanding := (matched j).opened p hp
        have := boards p
        change v.boardsBound j n ≤ (f p).boards
        rw [e] at outstanding
        omega
    · rw [State.stacker_setStacker_other _ _ ne, same]
      have : s.boardsBound j = v.boardsBound j := funext fun m => by
        have := counts j m
        rwa [if_neg (by rw [only]; exact fun e => ne e.1)] at this
      exact this ▸ matched j
  next none =>
    refine (lineSound_iff v).2 ⟨vroom, vseqs, vbound, fun st => ?_⟩
    have : s.boardsBound st = v.boardsBound st := funext fun m => by
      have := counts st m
      rwa [if_neg fun e => ?_] at this
      simp only [Board.isBound, Bool.and_eq_true, beq_iff_eq] at e
      exact none m st e.2 e.1
    rw [same]
    exact this ▸ matched st

theorem removeBoard_kept (p : Pack) (ft mc : Nat) (v : Bool) : (p.removeBoard ft mc v).number = p.number ∧
    (p.removeBoard ft mc v).outstanding = p.outstanding ∧ (p.removeBoard ft mc v).boards = p.boards - 1 := by
  cases v <;> exact ⟨rfl, rfl, rfl⟩

theorem lineSound_loseBoard {s : State} (h : LineSound s) {b : Board} (hb : b ∈ s.queue) : LineSound (s.loseBoard b).1 := by
  have kept p := removeBoard_kept p b.footage b.mc b.verified
  refine lineSound_leavePack h hb ?_ ?_ (fun p => (kept p).1) fun p => ?_
  · rfl
  · rfl
  · rw [(kept p).2.2]; omega

theorem loseBoard_queue (s : State) (b : Board) : (s.loseBoard b).1.queue = (s.dequeue b.seq).queue :=
  (numbersKept_loseBoard s b).queue

/-- What every loss of a queued board keeps, the purge of the queue keeps (08, R147). -/
theorem purge_keeps {P : State → Prop} (lose : ∀ s b, P s → b ∈ s.queue → P (s.loseBoard b).1) (s : State) (h : P s) :
    P s.purge := by
  unfold State.purge
  generalize hq : s.queue = q
  induction q generalizing s with
  | nil => exact h
  | cons b q ih =>
    refine ih _ (lose s b h (by simp [hq])) ?_
    rw [loseBoard_queue, dequeue_queue, hq, List.eraseP_cons_of_pos (by simp)]

theorem lineKept_purge (s : State) : LineKept s s.purge := ⟨purge_keeps (fun _ _ h => lineSound_loseBoard h) s⟩

/-! ### A board joins (R138) -/

/-- A board joins the queue, without a pack, or with a pack that stands on its stacker and has it among its boards. -/
theorem lineSound_joinQueue {s : State} (h : LineSound s) {b : Board} (room : s.queue.length < Config.queueSlots)
    (fresh : b.seq ∉ s.queue.map Board.seq)
    (pack : b.pack = none ∨ ∃ n st, b.pack = some n ∧ b.destination = .stacker st ∧ (s.stacker st).Holds n ∧
      ∀ p, (s.stacker st).openPack = some p → p.number = n → p.outstanding + 1 ≤ p.boards) :
    LineSound (s.joinQueue b) := by
  obtain ⟨-, seqs, bound, matched⟩ := (lineSound_iff s).1 h
  obtain ⟨v, hv⟩ : ∃ v : State, v = { s with queue := s.queue ++ [b], nextSeq := following 1 65535 b.seq } := ⟨_, rfl⟩
  have vroom : QueueSound v := by rw [hv]; simp only [QueueSound, List.length_append, List.length_singleton]; omega
  have vseqs : (v.queue.map Board.seq).Nodup := by
    rw [hv]
    simp only [List.map_append, List.map_cons, List.map_nil]
    exact List.nodup_append.2 ⟨seqs, List.nodup_singleton _, fun a ha c hc => by
      rw [List.mem_singleton.1 hc]; exact fun e => fresh (e ▸ ha)⟩
  have vbound : ∀ x ∈ v.queue, ∀ n, x.pack = some n → ∃ st, x.destination = .stacker st := fun x hx n hn => by
    rw [hv, List.mem_append, List.mem_singleton] at hx
    obtain hx | rfl := hx
    · exact bound x hx n hn
    · obtain none | ⟨m, st, -, hd, -⟩ := pack
      · rw [none] at hn; cases hn
      · exact ⟨st, hd⟩
  have same st : v.stacker st = s.stacker st := by rw [hv]; rfl
  have counts st n : v.boardsBound st n = s.boardsBound st n + if b.isBound st n then 1 else 0 := by
    rw [hv]
    simp only [State.boardsBound, List.countP_append, List.countP_singleton]
    rfl
  obtain none | ⟨n, st, hn, hd, holds, opened⟩ := pack
  · have eq : s.joinQueue b = v := by simp [State.joinQueue, none, hv]
    rw [eq]
    refine (lineSound_iff v).2 ⟨vroom, vseqs, vbound, fun st => ?_⟩
    have : s.boardsBound st = v.boardsBound st := funext fun m => by
      have := counts st m
      rw [if_neg (by simp [Board.isBound, none])] at this
      exact this.symm
    rw [same]
    exact this ▸ matched st
  · have own : b.isBound st n = true := by simp [Board.isBound, hn, hd]
    have only j m : b.isBound j m = true ↔ j = st ∧ m = n := by
      simp only [Board.isBound, hd, hn, Bool.and_eq_true, beq_iff_eq, Destination.stacker.injEq, Option.some.injEq]
      exact and_congr eq_comm eq_comm
    have eq : s.joinQueue b = v.setStacker st ((s.stacker st).changed n fun p => { p with outstanding := p.outstanding + 1 }) := by
      rw [← same, ← onPack_eq v st n _ (by rw [same]; exact (matched st).apart), hv]
      simp only [State.joinQueue, hn, hd]
    rw [eq]
    refine (lineSound_iff _).2 ⟨vroom, vseqs, vbound, fun j => ?_⟩
    obtain rfl | ne := eq_or_ne j st
    · rw [State.stacker_setStacker_same]
      refine (matched j).changed (n := n) (fun m hm => ?_) holds (fun p => rfl) (fun p e count => ?_) fun p hp e => ?_
      · have := counts j m
        rwa [if_neg (by rw [only]; exact fun e => hm e.2)] at this
      · have := counts j n
        rw [if_pos own] at this
        change p.outstanding + 1 = v.boardsBound j n
        omega
      · have := counts j n
        rw [if_pos own] at this
        have outstanding := ((matched j).opened p hp).1
        have := opened p hp e
        change v.boardsBound j n ≤ p.boards
        rw [e] at outstanding
        omega
    · rw [State.stacker_setStacker_other _ _ ne, same]
      have : s.boardsBound j = v.boardsBound j := funext fun m => by
        have := counts j m
        rw [if_neg (by rw [only]; exact fun e => ne e.1)] at this
        exact this.symm
      exact this ▸ matched j

/-- The carrying out of a route keeps the queue; a board that takes a pack has it on its stacker, and among its boards. -/
theorem lineSound_carryOut {s : State} (h : LineSound s) (b : Placing) (r : Route) : LineSound (s.carryOut b r).1 ∧
    (s.carryOut b r).1.queue = s.queue ∧ ((s.carryOut b r).2.pack = none ∨ ∃ n st, (s.carryOut b r).2.pack = some n ∧
      (s.carryOut b r).2.destination = .stacker st ∧ ((s.carryOut b r).1.stacker st).Holds n ∧
      ∀ p, ((s.carryOut b r).1.stacker st).openPack = some p → p.number = n → p.outstanding + 1 ≤ p.boards) := by
  unfold State.carryOut
  split
  · exact ⟨h, rfl, .inl rfl⟩
  next d st =>
    obtain ⟨sound, joined⟩ := lineSound_place h st b
    have queue := place_queue s st b
    dsimp only
    split
    next n hn =>
      obtain ⟨holds, opened⟩ := joined n hn
      exact ⟨sound, queue, .inr ⟨n, st, rfl, rfl, holds, opened⟩⟩
    · exact ⟨sound, queue, .inl rfl⟩

theorem lineKept_countBoard (s : State) (l : LotRecord) (p : Placed) (r : Reading) : LineKept s (s.countBoard l p r) := by
  unfold State.countBoard
  dsimp only
  split
  · exact ((lineKept_modifyLot ..).trans (lineKept_raise ..)).trans (lineKept_raise ..)
  · exact lineKept_modifyLot ..

theorem lineSound_measureBoard {s : State} (h : LineSound s) (room : s.shadow = false → s.queue.length < Config.queueSlots)
    (q : MeasureBody) (ov : Bool) (bin : BinNo) (l : LotRecord) : LineSound (measureBoard q ov bin l s).1 := by
  unfold measureBoard
  dsimp only
  split
  · exact h
  next counted =>
    have room := room (by simpa using counted)
    obtain ⟨sound, queue, pack⟩ := lineSound_carryOut h
      ⟨l.number, (s.decideBoard l (readingOf q ov (s.speciesAt l.species)) bin).bin,
        (readingOf q ov (s.speciesAt l.species)).footage, (readingOf q ov (s.speciesAt l.species)).mc,
        (readingOf q ov (s.speciesAt l.species)).verified⟩ (s.decideBoard l (readingOf q ov (s.speciesAt l.species)) bin).route
    refine (lineKept_countBoard ..).sound (lineSound_joinQueue sound (by rwa [queue]) ?_ pack)
    rw [queue]
    exact freeSeq_not_mem s (Nat.le_of_lt room)

end Sys2Proof.Machine
end

section
/-! The Lot Table beside the charge lists and the boards in flight (01, R1, R8, R15): what each operation of the Pack Builder and of the
tracking queue keeps of it. -/

namespace Sys2Proof.Machine

/-! ### One lot record -/

theorem pair_onPair (l : LotRecord) (d e : Disposition) (f : Tally → Tally) :
    (l.onPair d f).pair e = if e = d then f (l.pair e) else l.pair e := by
  cases d <;> cases e <;> rfl

theorem onPair_measured (l : LotRecord) (d : Disposition) (f : Tally → Tally) :
    (l.onPair d f).measured = l.measured ∧ (l.onPair d f).lost = l.lost ∧ (l.onPair d f).state = l.state := by
  cases d <;> exact ⟨rfl, rfl, rfl⟩

theorem loseBoard_pairs (l : LotRecord) (d : Disposition) (ft mc : Nat) (v : Bool) :
    (∀ e, (l.loseBoard d ft mc v).pair e = if e = d then (l.pair e).sub ft else l.pair e) ∧
      (l.loseBoard d ft mc v).measured = l.measured ∧ (l.loseBoard d ft mc v).lost = l.lost.add ft ∧
      (l.loseBoard d ft mc v).state = l.state := by
  obtain ⟨measured, lost, state⟩ := onPair_measured { l with lost := l.lost.add ft } d fun t => t.sub ft
  have pairs e := pair_onPair { l with lost := l.lost.add ft } d e fun t => t.sub ft
  unfold LotRecord.loseBoard
  dsimp only
  split <;> exact ⟨pairs, measured, lost, state⟩

theorem count_pairs (l : LotRecord) (d : Disposition) (ft mc : Nat) (v : Bool) :
    (∀ e, (l.count d ft mc v).pair e = if e = d then (l.pair e).add ft else l.pair e) ∧
      (l.count d ft mc v).measured = l.measured.add ft ∧ (l.count d ft mc v).lost = l.lost ∧
      (l.count d ft mc v).state = l.state := by
  obtain ⟨measured, lost, state⟩ := onPair_measured { l with measured := l.measured.add ft } d fun t => t.add ft
  have pairs e := pair_onPair { l with measured := l.measured.add ft } d e fun t => t.add ft
  unfold LotRecord.count
  dsimp only
  split <;> exact ⟨pairs, measured, lost, state⟩

theorem planingBegun_measurable (st : LotState) : (planingBegun st).measurable = st.measurable ∧
    (planingBegun st = .inKiln ↔ st = .inKiln) := by
  unfold planingBegun
  split <;> simp [LotState.measurable]

theorem afterBoard_eq (l : LotRecord) (d : Disposition) (ft mc : Nat) (v : Bool) : ∃ st, st.measurable = true ∧
    (l.afterBoard d ft mc v = (l.count d ft mc v).withState (planingBegun l.state) ∨
      l.afterBoard d ft mc v = (l.count d ft mc v).withState st) := by
  refine ⟨.held (.redry .planing), rfl, ?_⟩
  unfold LotRecord.afterBoard
  dsimp only
  rw [(count_pairs ..).2.2.2]
  split
  · exact .inr rfl
  · exact .inl rfl

theorem afterBoard_pairs (l : LotRecord) (d : Disposition) (ft mc : Nat) (v : Bool) :
    (∀ e, (l.afterBoard d ft mc v).pair e = if e = d then (l.pair e).add ft else l.pair e) ∧
      (l.afterBoard d ft mc v).measured = l.measured.add ft ∧ (l.afterBoard d ft mc v).lost = l.lost := by
  obtain ⟨pairs, measured, lost, -⟩ := count_pairs l d ft mc v
  obtain ⟨st, -, eq | eq⟩ := afterBoard_eq l d ft mc v <;> rw [eq] <;>
    exact ⟨fun e => (by cases e <;> rfl : ((l.count d ft mc v).withState _).pair e = (l.count d ft mc v).pair e).trans (pairs e),
      measured, lost⟩

theorem afterBoard_measurable (l : LotRecord) (d : Disposition) (ft mc : Nat) (v : Bool) (h : l.state.measurable = true) :
    (l.afterBoard d ft mc v).state.measurable = true := by
  obtain ⟨st, hst, eq | eq⟩ := afterBoard_eq l d ft mc v <;> rw [eq]
  · exact (planingBegun_measurable _).1.trans h
  · exact hst

/-- The measured pair is the sum of the pairs of the dispositions and of the lost pair. -/
theorem balanced_iff (l : LotRecord) : l.Balanced ↔
    l.measured.boards = (l.pair .pass).boards + (l.pair .redry).boards + (l.pair .reject).boards + (l.pair .holdback).boards +
        l.lost.boards ∧
      l.measured.footage = (l.pair .pass).footage + (l.pair .redry).footage + (l.pair .reject).footage +
        (l.pair .holdback).footage + l.lost.footage := Iff.rfl

/-- A counted board keeps the balance (R13, R15). -/
theorem Balanced.afterBoard {l : LotRecord} (h : l.Balanced) (d : Disposition) (ft mc : Nat) (v : Bool) :
    (l.afterBoard d ft mc v).Balanced := by
  obtain ⟨pairs, measured, lost⟩ := afterBoard_pairs l d ft mc v
  rw [balanced_iff] at h ⊢
  simp only [pairs, measured, lost]
  cases d <;> simp [Tally.add] <;> omega

/-- A lost board that its pair covers keeps the balance (R14, R15). -/
theorem Balanced.loseBoard {l : LotRecord} (h : l.Balanced) (d : Disposition) (ft mc : Nat) (v : Bool)
    (boards : 1 ≤ (l.pair d).boards) (footage : ft ≤ (l.pair d).footage) : (l.loseBoard d ft mc v).Balanced := by
  obtain ⟨pairs, measured, lost, -⟩ := loseBoard_pairs l d ft mc v
  rw [balanced_iff] at h ⊢
  simp only [pairs, measured, lost]
  cases d <;> simp [Tally.add, Tally.sub] at boards footage ⊢ <;> omega

/-- A record with the same tallies. -/
structure SameTallies (l x : LotRecord) : Prop where
  number : x.number = l.number
  pair : ∀ d, x.pair d = l.pair d
  measured : x.measured = l.measured
  lost : x.lost = l.lost

theorem SameTallies.balanced {l x : LotRecord} (h : SameTallies l x) (hl : l.Balanced) : x.Balanced := by
  rw [balanced_iff] at hl ⊢
  simpa only [h.pair, h.measured, h.lost] using hl

/-! ### The table -/

/-- A number names one record. -/
theorem TableSound.unique {s : State} (h : TableSound s) {l x : LotRecord} (hl : l ∈ s.lots) (hx : x ∈ s.lots)
    (e : x.number = l.number) : x = l := by
  have nodup : (s.lots.map LotRecord.number).Nodup := h.1.imp Nat.ne_of_lt
  exact List.inj_on_of_nodup_map nodup hx hl e

theorem findLot_mem {s : State} {n : Nat} {l : LotRecord} (h : s.findLot n = some l) : l ∈ s.lots ∧ l.number = n :=
  ⟨List.mem_of_find?_eq_some h, findLot_number h⟩

theorem TableSound.findLot {s : State} (h : TableSound s) {l : LotRecord} (hl : l ∈ s.lots) :
    s.findLot l.number = some l := by
  cases e : s.findLot l.number with
  | none => exact absurd (List.mem_map.2 ⟨l, hl, rfl⟩) ((findLot_none_iff ..).1 e)
  | some x =>
    obtain ⟨hx, number⟩ := findLot_mem e
    rw [h.unique hl hx number]

/-- The charge lists after records changed that keep their number and whether they are IN_KILN, and kilns that keep their charge. -/
theorem ChargesSound.map {s t : State} (h : ChargesSound s) {g : LotRecord → LotRecord} (lots : t.lots = s.lots.map g)
    (number : ∀ l ∈ s.lots, (g l).number = l.number) (state : ∀ l ∈ s.lots, (g l).state = .inKiln ↔ l.state = .inKiln)
    (charge : ∀ k, (t.kiln k).charge = (s.kiln k).charge)
    (empty : ∀ k, (t.kiln k).state = .empty → (s.kiln k).state = .empty) : ChargesSound t := by
  obtain ⟨inKiln, once, named, emptied⟩ := h
  refine ⟨fun l hl => ?_, ?_, ?_, fun k hk => by rw [charge]; exact emptied k (empty k hk)⟩
  · rw [lots] at hl
    obtain ⟨x, hx, rfl⟩ := List.mem_map.1 hl
    simp only [charge, state x hx, number x hx, inKiln x hx]
  · simpa only [charge] using once
  · have same : t.lots.map LotRecord.number = s.lots.map LotRecord.number := by
      rw [lots, List.map_map]; exact List.map_congr_left number
    simpa only [charge, same] using named

theorem TalliesSound.map {s t : State} (h : TalliesSound s) {g : LotRecord → LotRecord} (lots : t.lots = s.lots.map g)
    (tallies : ∀ l ∈ s.lots, SameTallies l (g l)) (queue : t.queue = s.queue) : TalliesSound t := by
  intro l hl
  rw [lots] at hl
  obtain ⟨x, hx, rfl⟩ := List.mem_map.1 hl
  obtain ⟨balanced, cover⟩ := h x hx
  refine ⟨(tallies x hx).balanced balanced, fun d => ?_⟩
  rw [(tallies x hx).number, (tallies x hx).pair]
  unfold State.inFlight
  rw [queue]
  exact cover d

/-- Records that change state, and nothing that their boards, pairs or kilns rest on. -/
theorem LotsSound.map {s t : State} (h : LotsSound s) (table : TableSound t) {g : LotRecord → LotRecord}
    (lots : t.lots = s.lots.map g) (tallies : ∀ l ∈ s.lots, SameTallies l (g l)) (queue : t.queue = s.queue) (charges : ChargesSound t)
    (boards : ∀ l ∈ s.lots, 0 < s.boardsOf l.number → l.state.measurable = true → (g l).state.measurable = true) :
    LotsSound t := by
  obtain ⟨-, room, seqs, -, covered, measurable⟩ := h
  refine ⟨table, by unfold QueueSound; rwa [queue], by rwa [queue], charges, covered.map lots tallies queue, fun b hb => ?_⟩
  rw [queue] at hb
  obtain ⟨l, hl, number, state⟩ := measurable b hb
  refine ⟨g l, by rw [lots]; exact List.mem_map.2 ⟨l, hl, rfl⟩, (tallies l hl).number.trans number, boards l hl ?_ state⟩
  exact List.countP_pos_iff.2 ⟨b, hb, by simp [number]⟩

/-! ### Operations that keep the records -/

/-- An operation that keeps every record as it is, and the invariant of the Lot Table. -/
structure LotsKept (s t : State) : Prop where
  sound : LotsSound s → LotsSound t
  lots : ∀ l ∈ s.lots, l ∈ t.lots

theorem LotsKept.refl (s : State) : LotsKept s s := ⟨id, fun _ h => h⟩

theorem LotsKept.trans {s t u : State} (h : LotsKept s t) (g : LotsKept t u) : LotsKept s u :=
  ⟨g.sound ∘ h.sound, fun l hl => g.lots l (h.lots l hl)⟩

theorem lotsSound_same {s t : State} (table : TableSound s → TableSound t) (lots : t.lots = s.lots) (queue : t.queue = s.queue)
    (charge : ∀ k, (t.kiln k).charge = (s.kiln k).charge)
    (empty : ∀ k, (t.kiln k).state = .empty → (s.kiln k).state = .empty) (h : LotsSound s) : LotsSound t :=
  h.map (g := id) (table h.1) (by rw [lots, List.map_id]) (fun _ _ => ⟨rfl, fun _ => rfl, rfl, rfl⟩) queue
    (h.2.2.2.1.map (g := id) (by rw [lots, List.map_id]) (fun _ _ => rfl) (fun _ _ => .rfl) charge empty) fun _ _ _ hm => hm

/-- Places kept (Laws/Places), and lots, queue and kilns left. -/
theorem LotsKept.of_same {s t : State} (table : TableSound s → TableSound t) (lots : t.lots = s.lots)
    (queue : t.queue = s.queue) (kilns : t.kilns = s.kilns) : LotsKept s t := by
  have kiln k : t.kiln k = s.kiln k := by unfold State.kiln; rw [kilns]
  exact ⟨lotsSound_same table lots queue (fun k => by rw [kiln]) fun k => by rw [kiln]; exact id, fun l hl => lots ▸ hl⟩

theorem lotsKept_setStacker {s : State} {st : StackerNo} {r : Stacker} (places : PlacesKept s (s.setStacker st r)) :
    LotsKept s (s.setStacker st r) := .of_same places.1 rfl rfl rfl

theorem lotsKept_raise (s : State) (c : AttnClass) : LotsKept s (s.raise c) :=
  .of_same (samePlaces_raise s c).kept.1 (by simp) (by simp) (by simp)

theorem lotsKept_foldl {α : Type} (f : State → α → State) (hf : ∀ s a, LotsKept s (f s a)) (l : List α) :
    ∀ s, LotsKept s (l.foldl f s) := by
  induction l with
  | nil => exact fun s => .refl s
  | cons a l ih => exact fun s => (hf s a).trans (ih _)

theorem mem_insertByNumber_iff (r x : LotRecord) (l : List LotRecord) : x ∈ insertByNumber r l ↔ x = r ∨ x ∈ l := by
  induction l with
  | nil => simp [insertByNumber]
  | cons a l ih =>
    unfold insertByNumber
    split
    · simp
    · simp only [List.mem_cons, ih]
      tauto

/-- A new record of a number that no record carries, not IN_KILN, its counters balanced (01, R2, R19). -/
theorem lotsSound_insert {s t : State} (h : LotsSound s) (table : TableSound t) {r : LotRecord}
    (lots : t.lots = insertByNumber r s.lots) (queue : t.queue = s.queue) (kilns : t.kilns = s.kilns)
    (fresh : r.number ∉ s.lots.map LotRecord.number) (state : r.state ≠ .inKiln) (balanced : r.Balanced) : LotsSound t := by
  obtain ⟨-, room, seqs, ⟨inKiln, once, named, emptied⟩, covered, measurable⟩ := h
  have kiln k : t.kiln k = s.kiln k := by unfold State.kiln; rw [kilns]
  have mem l : l ∈ t.lots ↔ l = r ∨ l ∈ s.lots := by rw [lots]; exact mem_insertByNumber_iff ..
  have none d : t.inFlight r.number d = [] := by
    refine List.filter_eq_nil_iff.2 fun b hb => ?_
    obtain ⟨l, hl, number, -⟩ := measurable b (queue ▸ hb)
    have : b.lot ≠ r.number := fun e => fresh (List.mem_map.2 ⟨l, hl, number.trans e⟩)
    simp [this]
  refine ⟨table, by unfold QueueSound; rwa [queue], by rwa [queue], ⟨fun l hl => ?_, ?_, ?_, ?_⟩, fun l hl => ?_,
    fun b hb => ?_⟩
  · simp only [kiln]
    obtain rfl | hl := (mem l).1 hl
    · exact ⟨fun e => absurd e state, fun ⟨k, hk⟩ => absurd (named k _ hk) fresh⟩
    · exact inKiln l hl
  · simpa only [kiln] using once
  · intro k n hn
    rw [lots, mem_insertByNumber]
    exact .inr (named k n (kiln k ▸ hn))
  · simpa only [kiln] using emptied
  · obtain rfl | hl := (mem l).1 hl
    · exact ⟨balanced, fun d => by rw [none]; exact ⟨Nat.zero_le _, Nat.zero_le _⟩⟩
    · have : ∀ d, t.inFlight l.number d = s.inFlight l.number d := fun d => by unfold State.inFlight; rw [queue]
      simpa only [this] using covered l hl
  · obtain ⟨l, hl, number⟩ := measurable b (queue ▸ hb)
    exact ⟨l, (mem l).2 (.inr hl), number⟩

theorem newLot_balanced (n sp th tm tol rl : Nat) (st : LotState) (m : Nat) (o : Option RedryOrigin) :
    (newLot n sp th tm tol rl st m o).Balanced := ⟨rfl, rfl⟩

/-! ### Completion, close and re-examination -/

theorem completePack_lots (s : State) (st : StackerNo) (c : ClosingPack) : (s.completePack st c).lots = s.lots ∨
    ∃ n l, c.redryLot = some n ∧ s.findLot c.pack.lot = some l ∧
      (s.completePack st c).lots = insertByNumber (redryLotOf l n c.pack.boards c.pack.footage s.minute) s.lots := by
  have pushed (u : State) lot : (u.pushLabel st c lot).lots = u.lots := by
    unfold State.pushLabel
    split <;> rfl
  unfold State.completePack
  simp only [State.raise_lots, State.setStacker_lots, pushed]
  split
  next n l hn hl => exact .inr ⟨n, l, hn, hl, rfl⟩
  · exact .inl rfl

theorem mem_reservations {s : State} {st : StackerNo} {c : ClosingPack} {n : Nat} (hc : (s.stacker st).closing = some c)
    (hn : c.redryLot = some n) : n ∈ s.reservations :=
  List.mem_filterMap.2 ⟨s.stacker st, by simp [State.stacker], by rw [hc]; exact hn⟩

theorem lotsKept_completePack {s : State} {st : StackerNo} {c : ClosingPack} (hc : (s.stacker st).closing = some c) :
    LotsKept s (s.completePack st c) := by
  have rest := (onlyPacks_completePack s st c).rest
  have kilns : (s.completePack st c).kilns = s.kilns := by rw [rest]
  have queue := (numbersKept_completePack s st c).queue
  obtain same | ⟨n, l, hn, -, lots⟩ := completePack_lots s st c
  · exact .of_same (kept_completePack s st c hc).1 same queue kilns
  · refine ⟨fun h => ?_, fun l hl => by rw [lots, mem_insertByNumber_iff]; exact .inr hl⟩
    exact lotsSound_insert h ((kept_completePack s st c hc).1 h.1) lots queue kilns
      (h.1.2.2.1 n (mem_reservations hc hn)) (fun e => by cases e) (newLot_balanced ..)

theorem lotsKept_judgeBlock (s : State) (p : BlockReason → Bool) (st : StackerNo) : LotsKept s (s.judgeBlock p st).1 := by
  unfold State.judgeBlock
  split
  · exact lotsKept_setStacker (samePlaces_unblock s st).kept
  · exact .refl s

theorem lotsKept_raiseFreed (s : State) (b : Bool) : LotsKept s (s.raiseFreed b) := by
  unfold State.raiseFreed
  split
  · exact lotsKept_raise ..
  · exact .refl s

theorem makeClose_lots (s : State) (st : StackerNo) (p : Pack) (why : CloseReason) (n : Option Nat) :
    (s.makeClose st p why n).lots = s.lots ∧ (s.makeClose st p why n).kilns = s.kilns := by cases n <;> exact ⟨rfl, rfl⟩

/-- A close that was granted. -/
theorem lotsKept_makeClose {s : State} {st : StackerNo} {redry : Bool} {n : Option Nat}
    (granted : s.judgeClose st redry = .granted n) (p : Pack) (why : CloseReason) : LotsKept s (s.makeClose st p why n) := by
  obtain ⟨prior, label, -, slot⟩ := judgeClose_granted granted
  obtain ⟨lots, kilns⟩ := makeClose_lots s st p why n
  exact .of_same (kept_makeClose s st p why n prior label slot).1 lots (makeClose_queue ..) kilns

theorem lotsKept_attemptIdleClose (s : State) (st : StackerNo) (p : Pack) : LotsKept s (s.attemptIdleClose st p) := by
  unfold State.attemptIdleClose
  split
  · exact lotsKept_setStacker (samePlaces_setStacker s st { s.stacker st with idleDue := true } rfl rfl).kept
  next n granted =>
    have closed := lotsKept_makeClose granted p .idle
    dsimp only
    split
    · exact closed.trans (((lotsKept_completePack (by rw [makeClose_stacker])).trans (lotsKept_judgeBlock ..)).trans
        (lotsKept_raiseFreed ..))
    · exact closed

theorem lotsKept_retryIdleClose (s : State) (st : StackerNo) : LotsKept s (s.retryIdleClose st) := by
  unfold State.retryIdleClose
  split
  · split
    · exact lotsKept_attemptIdleClose ..
    · exact .refl s
  · exact .refl s

theorem lotsKept_examineOver (p : StackerNo → BlockReason → Bool) (l : List StackerNo) :
    ∀ s, LotsKept s (State.examineOver p s l).1 := by
  induction l with
  | nil => exact fun s => .refl s
  | cons st l ih => exact fun s => ((lotsKept_judgeBlock ..).trans (lotsKept_retryIdleClose ..)).trans (ih _)

theorem lotsKept_reexamine (s : State) (l : List StackerNo) (p : StackerNo → BlockReason → Bool) :
    LotsKept s (s.reexamine l p) := (lotsKept_examineOver p l s).trans (lotsKept_raiseFreed ..)

theorem lotsKept_complete {s : State} {st : StackerNo} {c : ClosingPack} (hc : (s.stacker st).closing = some c) :
    LotsKept s (s.complete st c) := (lotsKept_completePack hc).trans (lotsKept_reexamine ..)

theorem lotsKept_discard {s : State} {st : StackerNo} {c : ClosingPack} (hc : (s.stacker st).closing = some c) :
    LotsKept s (s.discard st) := (lotsKept_setStacker (kept_discardPlace s st c hc)).trans (lotsKept_reexamine ..)

theorem lotsKept_idleStacker (s : State) (st : StackerNo) : LotsKept s (s.idleStacker st) := by
  unfold State.idleStacker
  split
  · exact .refl s
  · have one n : LotsKept s (s.setStacker st { s.stacker st with idleMinutes := n }) :=
      lotsKept_setStacker (samePlaces_setStacker s st { s.stacker st with idleMinutes := n } rfl rfl).kept
    dsimp only
    split
    · split
      · exact (one _).trans (lotsKept_attemptIdleClose ..)
      · exact one _
    · split
      · exact lotsKept_attemptIdleClose ..
      · exact .refl s

theorem lotsKept_idleStackers (s : State) : LotsKept s s.idleStackers := by
  unfold State.idleStackers
  split
  · exact .refl s
  · exact lotsKept_foldl _ lotsKept_idleStacker _ s

end Sys2Proof.Machine
end

section
/-! The Lot Table through the line's requests: placement, boards that join and leave, and the lots' own requests (01, R3 to R8, R13 to
R15; 08, R138, R141, R142, R147). -/

namespace Sys2Proof.Machine

/-! ### Placement -/

/-- Places kept, and lots, queue and kilns left: for operations on the stackers alone. -/
theorem lotsKept_standOpen (s : State) (st : StackerNo) (p : Pack) : LotsKept s (s.standOpen st p) :=
  .of_same (samePlaces_standOpen s st p).kept.1 rfl rfl rfl

theorem lotsKept_numberGiven (s : State) : LotsKept s s.numberGiven :=
  .of_same (samePlaces_numberGiven s).kept.1 rfl rfl rfl

theorem lotsKept_blockStacker (s : State) (st : StackerNo) (r : BlockReason) : LotsKept s (s.blockStacker st r) :=
  .of_same (samePlaces_blockStacker s st r).kept.1 (by simp [State.blockStacker]) (by simp [State.blockStacker])
    (by simp [State.blockStacker])

theorem lotsKept_place (s : State) (st : StackerNo) (b : Placing) : LotsKept s (s.place st b).1 := by
  have placed := placement s st b
  generalize s.place st b = placedAs at placed ⊢
  cases placed with
  | blocked => exact .refl s
  | fails => exact lotsKept_blockStacker ..
  | @before p why n free opened reason judged =>
    have stood : LotsKept s (s.closedAndOpened st p why n b) :=
      ((lotsKept_makeClose judged p why).trans (lotsKept_numberGiven _)).trans (lotsKept_standOpen ..)
    dsimp only
    split
    · refine stood.trans (lotsKept_complete ?_)
      unfold State.closedAndOpened
      rw [standOpen_closing]
      exact congrArg Stacker.closing (makeClose_stacker ..)
    · exact stood
  | afterJoin free opened reason full judged => exact lotsKept_makeClose judged ..
  | afterOpen free opened one judged =>
    exact (lotsKept_numberGiven s).trans (lotsKept_makeClose (s := s.numberGiven) judged ..)
  | joins => exact lotsKept_standOpen ..
  | opens => exact (lotsKept_numberGiven s).trans (lotsKept_standOpen ..)

theorem lotsKept_carryOut (s : State) (b : Placing) (r : Route) : LotsKept s (s.carryOut b r).1 := by
  unfold State.carryOut
  split
  · exact .refl s
  · dsimp only
    split <;> exact lotsKept_place ..

/-! ### A pack changed and settled -/

theorem onPack_same (s : State) (st : StackerNo) (n : Nat) (f : Pack → Pack) :
    (s.onPack st n f).lots = s.lots ∧ (s.onPack st n f).queue = s.queue ∧ (s.onPack st n f).kilns = s.kilns := by
  unfold State.onPack
  dsimp only
  split <;> (repeat' split) <;> exact ⟨rfl, rfl, rfl⟩

theorem lotsKept_onPack (s : State) (st : StackerNo) (n : Nat) (f : Pack → Pack) : LotsKept s (s.onPack st n f) := by
  obtain ⟨lots, queue, kilns⟩ := onPack_same s st n f
  exact .of_same (samePlaces_onPack s st n f).kept.1 lots queue kilns

theorem lotsKept_dissolveEmpty (s : State) (st : StackerNo) (n : Nat) : LotsKept s (s.dissolveEmpty st n) := by
  have places := (samePlaces_dissolveEmpty s st n).kept
  unfold State.dissolveEmpty at places ⊢
  split
  · split
    next opened h =>
      simp only [opened, if_pos h] at places
      exact lotsKept_setStacker places
    · exact .refl s
  · exact .refl s

theorem lotsKept_settlePack (s : State) (st : StackerNo) (n : Nat) : LotsKept s (s.settlePack st n).1 := by
  unfold State.settlePack
  split
  next c hc =>
    split
    · unfold State.endClosing
      split
      · split
        · exact lotsKept_complete hc
        · exact lotsKept_discard hc
      · exact .refl s
    · exact lotsKept_dissolveEmpty ..
  · exact lotsKept_dissolveEmpty ..

theorem lotsKept_leavePack (s : State) (b : Board) (f : Pack → Pack) : LotsKept s (s.leavePack b f).1 := by
  unfold State.leavePack
  split
  · exact (lotsKept_onPack ..).trans (lotsKept_settlePack ..)
  · exact .refl s

/-! ### A board leaves (R14, R141, R142) -/

theorem inFlight_sublist {s t : State} (h : t.queue.Sublist s.queue) (n : Nat) (d : Disposition) :
    (t.inFlight n d).Sublist (s.inFlight n d) := h.filter _

/-- Boards that leave with no change to their lots. -/
theorem lotsSound_dequeue {s : State} (h : LotsSound s) (n : Nat) : LotsSound (s.dequeue n) := by
  obtain ⟨table, room, seqs, charges, covered, measurable⟩ := h
  have sub := dequeue_sublist s n
  refine ⟨table, Nat.le_trans sub.length_le room, seqs.sublist (sub.map _), charges, fun l hl => ?_,
    fun b hb => measurable b (sub.subset hb)⟩
  obtain ⟨balanced, cover⟩ := covered l hl
  refine ⟨balanced, fun d => ?_⟩
  have less := inFlight_sublist sub l.number d
  obtain ⟨boards, footage⟩ := cover d
  exact ⟨Nat.le_trans less.length_le boards,
    Nat.le_trans ((less.map Board.footage).sum_le_sum fun _ _ => Nat.zero_le _) footage⟩

/-- A queued board is one of its lot's boards in flight, and the others stay. -/
theorem inFlight_dequeue {s : State} {b : Board} (hb : b ∈ s.queue) (seqs : (s.queue.map Board.seq).Nodup) (n : Nat)
    (d : Disposition) : (s.inFlight n d).Perm
      (if b.lot = n ∧ b.disposition = d then b :: (s.dequeue b.seq).inFlight n d else (s.dequeue b.seq).inFlight n d) := by
  have perm := (perm_cons_eraseSeq hb seqs).filter fun x => x.lot == n && x.disposition == d
  rw [List.filter_cons] at perm
  simp only [Bool.and_eq_true, beq_iff_eq] at perm
  exact perm

/-- The lot of a lost board with its tally moved, and the board out of the queue. -/
def State.lostFromLot (s : State) (b : Board) : State :=
  (s.dequeue b.seq).modifyLot b.lot fun l => l.loseBoard b.disposition b.footage b.mc b.verified

/-- What a loss makes of a lot record. -/
def Board.lostFrom (b : Board) (l : LotRecord) : LotRecord :=
  if l.number = b.lot then l.loseBoard b.disposition b.footage b.mc b.verified else l

theorem lostFrom_number (b : Board) (l : LotRecord) : (b.lostFrom l).number = l.number := by
  unfold Board.lostFrom
  split
  · exact loseBoard_number ..
  · rfl

theorem lostFrom_state (b : Board) (l : LotRecord) : (b.lostFrom l).state = l.state := by
  unfold Board.lostFrom
  split
  · exact (loseBoard_pairs ..).2.2.2
  · rfl

theorem lostFromLot_lots (s : State) (b : Board) : (s.lostFromLot b).lots = s.lots.map b.lostFrom := rfl

theorem lotsSound_lostFromLot {s : State} (h : LotsSound s) {b : Board} (hb : b ∈ s.queue) : LotsSound (s.lostFromLot b) := by
  obtain ⟨table, room, seqs, charges, covered, measurable⟩ := h
  have sub := dequeue_sublist s b.seq
  have places : PlacesKept s (s.lostFromLot b) :=
    (samePlaces_dequeue s b.seq).kept.trans (samePlaces_modifyLot _ _ _ fun l hl => (loseBoard_number ..).trans hl).kept
  refine ⟨places.1 table, Nat.le_trans sub.length_le room, seqs.sublist (sub.map _),
    charges.map (lostFromLot_lots s b) (fun l _ => lostFrom_number b l) (fun l _ => by rw [lostFrom_state]) (fun _ => rfl) (fun _ => id),
    fun l hl => ?_, fun x hx => ?_⟩
  · rw [lostFromLot_lots] at hl
    obtain ⟨x, hx, rfl⟩ := List.mem_map.1 hl
    obtain ⟨balanced, cover⟩ := covered x hx
    have left d := inFlight_dequeue hb seqs x.number d
    rw [lostFrom_number]
    unfold Board.lostFrom
    split
    next own =>
      have mine := left b.disposition
      rw [if_pos ⟨own.symm, rfl⟩] at mine
      have one : 1 ≤ (x.pair b.disposition).boards ∧ b.footage ≤ (x.pair b.disposition).footage := by
        have := mine.length_eq
        have := (mine.map Board.footage).sum_eq
        obtain ⟨boards, footage⟩ := cover b.disposition
        simp only [List.map_cons, List.sum_cons, List.length_cons] at *
        omega
      refine ⟨Balanced.loseBoard balanced _ _ _ _ one.1 one.2, fun d => ?_⟩
      rw [(loseBoard_pairs ..).1]
      have length := (left d).length_eq
      have sum := ((left d).map Board.footage).sum_eq
      obtain ⟨boards, footage⟩ := cover d
      change ((s.dequeue b.seq).inFlight x.number d).length ≤ _ ∧ (((s.dequeue b.seq).inFlight x.number d).map Board.footage).sum ≤ _
      split
      next e =>
        subst e
        rw [if_pos ⟨own.symm, rfl⟩] at length sum
        simp only [List.map_cons, List.sum_cons, List.length_cons, Tally.sub] at *
        omega
      next ne =>
        rw [if_neg fun e => ne e.2.symm] at length sum
        omega
    next other =>
      refine ⟨balanced, fun d => ?_⟩
      have length := (left d).length_eq
      have sum := ((left d).map Board.footage).sum_eq
      rw [if_neg fun e => other e.1.symm] at length sum
      obtain ⟨boards, footage⟩ := cover d
      exact ⟨length ▸ boards, sum ▸ footage⟩
  · obtain ⟨l, hl, number, state⟩ := measurable x (sub.subset hx)
    refine ⟨b.lostFrom l, ?_, (lostFrom_number b l).trans number, (congrArg LotState.measurable (lostFrom_state b l)).trans state⟩
    rw [lostFromLot_lots]
    exact List.mem_map.2 ⟨l, hl, rfl⟩

theorem lotsSound_loseBoard {s : State} (h : LotsSound s) {b : Board} (hb : b ∈ s.queue) : LotsSound (s.loseBoard b).1 :=
  (lotsKept_leavePack ..).sound (lotsSound_lostFromLot h hb)

theorem lotsSound_purge {s : State} (h : LotsSound s) : LotsSound s.purge := purge_keeps (fun _ _ h => lotsSound_loseBoard h) s h

/-! ### A board joins (R13, R138) -/

/-- What a counted board makes of the records, from a table that has its lot. -/
theorem lotsSound_countBoard {s : State} (h : LotsSound s) {l : LotRecord} (hl : l ∈ s.lots) (state : l.state.measurable = true)
    {b : Board} (room : s.queue.length < Config.queueSlots) (fresh : b.seq ∉ s.queue.map Board.seq) (lot : b.lot = l.number)
    {mc : Nat} {v : Bool} {t : State} (queue : t.queue = s.queue ++ [b]) (kilns : t.kilns = s.kilns)
    (table : TableSound s → TableSound t)
    (lots : t.lots = s.lots.map fun x => if x.number = l.number then x.afterBoard b.disposition b.footage mc v else x) :
    LotsSound t := by
  obtain ⟨sound, -, seqs, charges, covered, measurable⟩ := h
  have kiln k : t.kiln k = s.kiln k := by unfold State.kiln; rw [kilns]
  have only x (hx : x ∈ s.lots) (e : x.number = l.number) : x = l := sound.unique hl hx e
  have inKiln x (hx : x ∈ s.lots) : (if x.number = l.number then x.afterBoard b.disposition b.footage mc v else x).state = .inKiln ↔
      x.state = .inKiln := by
    split
    next e =>
      rw [only x hx e]
      have after := afterBoard_measurable l b.disposition b.footage mc v state
      exact ⟨fun e => (by rw [e] at after; cases after), fun e => (by rw [e] at state; cases state)⟩
    · rfl
  refine ⟨table sound, by rw [QueueSound, queue, List.length_append]; exact room, ?_,
    charges.map lots (fun x _ => ?_) inKiln (fun k => by rw [kiln]) (fun k => by rw [kiln]; exact id), fun x hx => ?_, fun c hc => ?_⟩
  · rw [queue, List.map_append]
    exact List.nodup_append.2 ⟨seqs, List.nodup_singleton _, fun a ha c hc => by
      rw [List.mem_singleton.1 hc]; exact fun e => fresh (e ▸ ha)⟩
  · split
    · exact afterBoard_number ..
    · rfl
  · rw [lots] at hx
    obtain ⟨y, hy, rfl⟩ := List.mem_map.1 hx
    obtain ⟨balanced, cover⟩ := covered y hy
    have flight n d : t.inFlight n d = s.inFlight n d ++ if b.lot = n ∧ b.disposition = d then [b] else [] := by
      unfold State.inFlight
      rw [queue, List.filter_append]
      simp only [List.filter_cons, List.filter_nil, Bool.and_eq_true, beq_iff_eq]
    split
    next e =>
      rw [only y hy e] at balanced cover ⊢
      refine ⟨Balanced.afterBoard balanced .., fun d => ?_⟩
      rw [afterBoard_number, (afterBoard_pairs ..).1, flight, lot]
      obtain ⟨boards, footage⟩ := cover d
      by_cases e : b.disposition = d
      · rw [if_pos ⟨rfl, e⟩, if_pos e.symm]
        simp only [List.length_append, List.map_append, List.sum_append, Tally.add, List.length_singleton, List.map_cons, List.map_nil,
          List.sum_cons, List.sum_nil]
        omega
      · rw [if_neg fun h => e h.2, if_neg fun h => e h.symm, List.append_nil]
        exact ⟨boards, footage⟩
    next ne =>
      refine ⟨balanced, fun d => ?_⟩
      rw [flight, if_neg fun h => ne (h.1.symm.trans lot), List.append_nil]
      exact cover d
  · rw [lots]
    have of x (hx : x ∈ s.lots) (m : x.state.measurable = true) : ∃ y ∈ s.lots.map fun x => if x.number = l.number then
        x.afterBoard b.disposition b.footage mc v else x, y.number = x.number ∧ y.state.measurable = true := by
      refine ⟨_, List.mem_map.2 ⟨x, hx, rfl⟩, ?_⟩
      split
      · exact ⟨afterBoard_number .., afterBoard_measurable _ _ _ _ _ m⟩
      · exact ⟨rfl, m⟩
    rw [queue, List.mem_append, List.mem_singleton] at hc
    obtain hc | rfl := hc
    · obtain ⟨x, hx, number, m⟩ := measurable c hc
      rw [← number]
      exact of x hx m
    · rw [lot]
      exact of l hl state

theorem joinQueue_same (s : State) (b : Board) : (s.joinQueue b).queue = s.queue ++ [b] ∧ (s.joinQueue b).lots = s.lots ∧
    (s.joinQueue b).kilns = s.kilns := by
  unfold State.joinQueue
  dsimp only
  split
  · obtain ⟨lots, queue, kilns⟩ := onPack_same { s with queue := s.queue ++ [b], nextSeq := following 1 65535 b.seq } ‹_› ‹_›
      fun p => { p with outstanding := p.outstanding + 1 }
    exact ⟨queue, lots, kilns⟩
  · exact ⟨rfl, rfl, rfl⟩

theorem samePlaces_joinQueue (s : State) (b : Board) : SamePlaces s (s.joinQueue b) := by
  unfold State.joinQueue
  dsimp only
  have joined : SamePlaces s { s with queue := s.queue ++ [b], nextSeq := following 1 65535 b.seq } := ⟨rfl, rfl, rfl, rfl, rfl⟩
  split
  · exact joined.trans (samePlaces_onPack ..)
  · exact joined

theorem countBoard_same (s : State) (l : LotRecord) (p : Placed) (r : Reading) :
    (s.countBoard l p r).queue = s.queue ∧ (s.countBoard l p r).kilns = s.kilns ∧
      (s.countBoard l p r).lots =
        s.lots.map (fun x => if x.number = l.number then x.afterBoard p.disposition r.footage r.mc r.verified else x) ∧
      SamePlaces s (s.countBoard l p r) := by
  have modified : SamePlaces s (s.modifyLot l.number fun x => x.afterBoard p.disposition r.footage r.mc r.verified) :=
    samePlaces_modifyLot _ _ _ fun x hx => (afterBoard_number ..).trans hx
  unfold State.countBoard
  dsimp only
  split
  · exact ⟨by simp [State.raiseLotHeld], by simp [State.raiseLotHeld], by simp [State.raiseLotHeld, State.modifyLot],
      (modified.trans (samePlaces_raise ..)).trans (samePlaces_raise ..)⟩
  · exact ⟨rfl, rfl, rfl, modified⟩

theorem carryOut_queue (s : State) (b : Placing) (r : Route) : (s.carryOut b r).1.queue = s.queue := by
  unfold State.carryOut
  split
  · rfl
  · dsimp only
    split <;> exact place_queue ..

theorem lotsSound_measureBoard {s : State} (h : LotsSound s) (room : s.shadow = false → s.queue.length < Config.queueSlots)
    {q : MeasureBody} {l : LotRecord} (found : s.findLot q.lot = some l) (state : l.state.measurable = true) (ov : Bool) (bin : BinNo) :
    LotsSound (measureBoard q ov bin l s).1 := by
  unfold measureBoard
  dsimp only
  split
  · exact h
  next counted =>
    have room := room (by simpa using counted)
    generalize ha : readingOf q ov (s.speciesAt l.species) = a
    generalize hd : s.decideBoard l a bin = d
    generalize hb : (⟨l.number, d.bin, a.footage, a.mc, a.verified⟩ : Placing) = b
    have carried := lotsKept_carryOut s b d.route
    have queue := carryOut_queue s b d.route
    generalize s.carryOut b d.route = c at carried queue ⊢
    obtain ⟨hl, number⟩ := findLot_mem found
    obtain ⟨joined, lots, kilns⟩ := joinQueue_same c.1 (boardOf q ov s.freeSeq d.bin a c.2 s.minute)
    obtain ⟨countedQueue, countedKilns, countedLots, places⟩ := countBoard_same (c.1.joinQueue (boardOf q ov s.freeSeq d.bin a c.2 s.minute)) l c.2 a
    refine lotsSound_countBoard (carried.sound h) (carried.lots l hl) state (b := boardOf q ov s.freeSeq d.bin a c.2 s.minute)
      (by rwa [queue]) ?_ number.symm (countedQueue.trans joined) (countedKilns.trans kilns)
      ((samePlaces_joinQueue ..).trans places).kept.1 (mc := a.mc) (v := a.verified) (by rw [countedLots, lots]; rfl)
    rw [queue]
    exact freeSeq_not_mem s (Nat.le_of_lt room)

end Sys2Proof.Machine
end

section
/-! What a command keeps of the part: every invariant, and the steps of the kilns that it may not move while the master enable is
clear (06, R108); and the three kinds of operation by what they change. -/

namespace Sys2Proof.Machine

/-- `t` follows `s` with every invariant kept; `moves` says which kilns may change step while the master enable is clear. -/
structure Keeps (moves : KilnNo → Prop) (s t : State) : Prop where
  attention : AttentionSound s → AttentionSound t
  heat : HeatSound s → HeatSound t
  table : TableSound s → TableSound t
  labels : LabelsSound s → LabelsSound t
  queue : QueueSound s → QueueSound t
  line : LineSound s → LineSound t
  lots : LotsSound s → LotsSound t
  store : StoreSound s → StoreSound t
  steps : s.masterEnable = false → t.masterEnable = false → ∀ k, ¬moves k →
    (t.kiln k).stepIndex = (s.kiln k).stepIndex ∧ (t.kiln k).stepElapsed = (s.kiln k).stepElapsed

variable {moves : KilnNo → Prop} {s t u : State}

theorem Keeps.refl (s : State) : Keeps moves s s := ⟨id, id, id, id, id, id, id, id, fun _ _ _ _ => ⟨rfl, rfl⟩⟩

/-- Two operations, the enable not set between them and cleared again. -/
theorem Keeps.trans (h : Keeps moves s t) (g : Keeps moves t u) (off : s.masterEnable = false → u.masterEnable = false → t.masterEnable = false) :
    Keeps moves s u where
  attention := g.attention ∘ h.attention
  heat := g.heat ∘ h.heat
  table := g.table ∘ h.table
  labels := g.labels ∘ h.labels
  queue := g.queue ∘ h.queue
  line := g.line ∘ h.line
  lots := g.lots ∘ h.lots
  store := g.store ∘ h.store
  steps hs hu k hk := by
    have ht := off hs hu
    obtain ⟨index, elapsed⟩ := h.steps hs ht k hk
    obtain ⟨index', elapsed'⟩ := g.steps ht hu k hk
    exact ⟨index'.trans index, elapsed'.trans elapsed⟩

/-- An operation that leaves kilns, schedules and the enable keeps the store and the steps. -/
theorem storeSound_same (schedules : t.schedules = s.schedules) (kilns : t.kilns = s.kilns) (h : StoreSound s) : StoreSound t := by
  have kiln k : t.kiln k = s.kiln k := by unfold State.kiln; rw [kilns]
  have count k : t.stepCount k = s.stepCount k := by simp only [State.stepCount, kiln]; unfold State.findSchedule; rw [schedules]
  simpa only [StoreSound, schedules, kiln, count] using h

/-! ### Records that no invariant speaks of -/

/-- An operation beside the records of the invariants: lines, receivers, clock, species, hold points, settings, bin map, next numbers. -/
structure Beside (s t : State) : Prop where
  rest : t = { s with
    condition := t.condition, resetLine := t.resetLine, millStopLine := t.millStopLine, lineRate := t.lineRate,
    completionMarker := t.completionMarker, startUpKind := t.startUpKind, officePort := t.officePort,
    kilnHousePort := t.kilnHousePort, planerPort := t.planerPort, minute := t.minute, redryFirst := t.redryFirst,
    redryLast := t.redryLast, redryNext := t.redryNext, species := t.species, holdPoints := t.holdPoints, nextSeq := t.nextSeq,
    lineHeld := t.lineHeld, shadow := t.shadow, binMap := t.binMap, nextPack := t.nextPack, choices := t.choices,
    pending := t.pending }
  attention : AttentionSound s → AttentionSound t

theorem Beside.refl (s : State) : Beside s s := ⟨rfl, id⟩

theorem Beside.enable (h : Beside s t) : t.masterEnable = s.masterEnable := by rw [h.rest]

theorem Beside.trans (h : Beside s t) (g : Beside t u) : Beside s u := by
  obtain ⟨rest, attention⟩ := h
  obtain ⟨rest', attention'⟩ := g
  refine ⟨?_, attention' ∘ attention⟩
  rw [rest', rest]

theorem Beside.keeps (h : Beside s t) : Keeps moves s t where
  attention := h.attention
  heat := by rw [h.rest]; exact id
  table := by rw [h.rest]; exact id
  labels := by rw [h.rest]; exact id
  queue := by rw [h.rest]; exact id
  line := by rw [h.rest]; exact id
  lots := by rw [h.rest]; exact id
  store := by rw [h.rest]; exact id
  steps _ _ k _ := by rw [h.rest]; exact ⟨rfl, rfl⟩

theorem Keeps.then_beside (h : Keeps moves s t) (g : Beside t u) : Keeps moves s u := h.trans g.keeps fun _ off => g.enable ▸ off

theorem Keeps.after_beside (h : Beside s t) (g : Keeps moves t u) : Keeps moves s u := h.keeps.trans g fun off _ => h.enable.trans off

/-- A receiver's new state leaves pending set and mask. -/
theorem attentionSound_setReceiver (l : Link) (r : Receiver) (h : AttentionSound s) : AttentionSound (s.setReceiver l r) := by
  intro j
  have := h j
  unfold State.setReceiver State.setPort
  cases l <;> cases j <;> exact this

theorem beside_setReceiver (s : State) (l : Link) (r : Receiver) : Beside s (s.setReceiver l r) :=
  ⟨by cases l <;> rfl, attentionSound_setReceiver l r⟩

theorem beside_answer (s : State) (kind : Nat) (f : Request) (r : Reply) : Beside s (s.answer kind f r) := beside_setReceiver ..

theorem attentionSound_ports (ports : ∀ l, t.port l = s.port l) (h : AttentionSound s) : AttentionSound t :=
  (PortsRaised.of_ports ports).sound h

/-! ### Operations of the kiln house -/

theorem keeps_of_kilns (only : OnlyKilns s t) (heat : HeatSound s → HeatSound t) (kept : KilnsKept moves s t) : Keeps moves s t where
  attention := only.ports.sound
  heat := heat
  table := by rw [only.rest]; exact id
  labels := by rw [only.rest]; exact id
  queue := by rw [only.rest]; exact id
  line := by rw [only.rest]; exact id
  lots := lotsSound_same (by rw [only.rest]; exact id) (by rw [only.rest]) (by rw [only.rest]) kept.charge fun k => (kept.empty k).1
  store := by
    intro ⟨rise, room, ranges, kilns⟩
    unfold StoreSound
    rw [kept.schedules]
    refine ⟨rise, room, ranges, fun k => ?_⟩
    rw [kept.scheduleId, kept.stepCount]
    obtain ⟨named, index⟩ := kilns k
    exact ⟨(kept.empty k).trans named, fun inUse => kept.index k (index fun e => inUse ((kept.empty k).2 e))⟩
  steps _ off k hk := kept.steps off k hk

/-! ### Operations of the planer side -/

theorem keeps_of_packs (only : OnlyPacks s t) (places : PlacesKept s t) (queue : QueueSound s → QueueSound t)
    (line : LineSound s → LineSound t) (lots : LotsSound s → LotsSound t) : Keeps moves s t where
  attention := only.ports.sound
  heat := by rw [only.rest]; exact id
  table := places.1
  labels := places.2
  queue := queue
  line := line
  lots := lots
  store := by rw [only.rest]; exact id
  steps _ _ k _ := by rw [only.rest]; exact ⟨rfl, rfl⟩

/-- One that leaves the queue. -/
theorem keeps_of_stackers (only : OnlyPacks s t) (places : PlacesKept s t) (queue : t.queue = s.queue) (line : LineKept s t)
    (lots : LotsKept s t) : Keeps moves s t :=
  keeps_of_packs only places (by unfold QueueSound; rw [queue]; exact id) line.sound lots.sound

/-! ### Requests -/

/-- What a request keeps, its rule keeps (11, R179, R182). -/
theorem keeps_serve {α : Type} {kind : Nat} {f : Request} {read : List Byte → Option α} {rule : α → State → State × Reply}
    (ruled : ∀ q, read f.body = some q → Keeps moves s (rule q s).1) (h : serve kind f read rule s = .next t) : Keeps moves s t := by
  obtain rfl | rfl | ⟨st, rfl⟩ | ⟨q, hq, rfl⟩ := serve_cases h
  · exact .refl _
  · exact (beside_setReceiver ..).keeps
  · exact (beside_answer ..).keeps
  · exact (ruled q hq).then_beside (beside_answer ..)

/-- What an event keeps, it keeps while the part runs. -/
theorem keeps_whileRunning {event : State → State} (kept : s.condition = .running → Keeps moves s (event s))
    (h : whileRunning s event = .next t) : Keeps moves s t := by
  by_cases running : s.condition = .running
  · rw [whileRunning_running running] at h
    injection h with h
    exact h ▸ kept running
  · rw [whileRunning_stopped running] at h
    injection h with h
    exact h ▸ .refl s

end Sys2Proof.Machine
end

section
/-! The kiln house's requests and events keep every invariant (05 to 07). -/

namespace Sys2Proof.Machine

variable {moves : KilnNo → Prop}

/-! ### Heat through the requests of a kiln -/

theorem heatKept_recompute (s : State) (k : KilnNo) : HeatKept s (s.recompute k) :=
  ((sameHeat_takeMatches ..).kept.trans (sameHeat_setKiln ..).kept).trans (heatKept_evaluateNow ..)

theorem heatKept_startKiln (s : State) (k : KilnNo) : HeatKept s (s.startKiln k) :=
  (sameHeat_setKiln ..).kept.trans (heatKept_enterStep heatKept_settle ..)

theorem heatKept_stopKiln (s : State) (k : KilnNo) : HeatKept s (s.stopKiln k) :=
  ((((sameHeat_setKiln ..).kept.trans (sameHeat_setKiln ..).kept).trans (heatKept_releaseHeat ..)).trans
    (sameHeat_raise ..).kept).trans (heatKept_settle ..)

theorem heatKept_takeReport (s : State) (k : KilnNo) (dry wet : Int) (door : Bool) : HeatKept s (s.takeReport k dry wet door) :=
  ((sameHeat_setKiln ..).kept.trans (sameHeat_noteSetpoints ..).kept).trans (heatKept_evaluateNow ..)

theorem heatKept_releaseKiln (s : State) (k : KilnNo) : HeatKept s (s.releaseKiln k) := by
  have running p : HeatKept s (((s.clearHits k).setKiln k
      { (s.clearHits k).kiln k with state := .running p }).noteSetpoints (s.clearHits k)) :=
    ((sameHeat_clearHits ..).trans ((sameHeat_setKiln ..).trans (sameHeat_noteSetpoints ..))).kept
  simp only [State.releaseKiln]
  split
  · split
    · exact ((running _).trans (sameHeat_raise ..).kept).trans (heatKept_passAndSettle _)
    · exact running _
  · exact (running _).trans (heatKept_evaluateNow ..)

theorem heatKept_countKiln (s : State) (k : KilnNo) : HeatKept s (s.countKiln k) := by
  unfold State.countKiln
  split
  · dsimp only
    split
    · exact (sameHeat_setKiln ..).kept.trans (heatKept_evaluateNow ..)
    · exact (sameHeat_setKiln ..).kept
  · exact .refl s

theorem heatKept_countKilns (s : State) : HeatKept s s.countKilns := heatKept_foldl _ heatKept_countKiln _ s

/-- Where the heat is kept as the arbiter's operations keep it. -/
theorem keeps_of_heatKept {s t : State} (only : OnlyKilns s t) (heat : HeatKept s t) (kept : KilnsKept moves s t) : Keeps moves s t :=
  keeps_of_kilns only heat.2.2 kept

/-! ### Samples (04, R55 to R60) -/

theorem keeps_newSamples (s : State) (k : KilnNo) (l : List Sample) : Keeps moves s ((s.setSamples k l).recompute k) :=
  keeps_of_heatKept ((onlyKilns_setKiln ..).trans (onlyKilns_recompute ..)) ((sameHeat_setKiln ..).kept.trans (heatKept_recompute ..))
    ((kilnsKept_setSamples ..).trans (kilnsKept_recompute ..))

theorem keeps_sampleEnter (q : SampleEnterBody) (s : State) : Keeps moves s (sampleEnter q s).1 := by
  fun_cases sampleEnter q s
  case case4 => exact keeps_newSamples ..
  all_goals exact .refl s

theorem keeps_sampleRemove (q : Nat × Nat) (s : State) : Keeps moves s (sampleRemove q s).1 := by
  fun_cases sampleRemove q s
  case case5 => exact keeps_newSamples ..
  all_goals exact .refl s

theorem keeps_weighed (s : State) (k : KilnNo) (l : List Sample) (p : Prop) [Decidable p] :
    Keeps moves s (if p then s else (s.setSamples k l).recompute k) := by
  split
  · exact .refl s
  · exact keeps_newSamples ..

theorem keeps_sampleWeigh (q : WeighBody) (s : State) : Keeps moves s (sampleWeigh q s).1 := by
  fun_cases sampleWeigh q s
  case case4 => exact keeps_weighed ..
  case case5 => exact keeps_weighed ..
  all_goals exact .refl s

/-! ### Start, stop, hold and release (05, R72, R82; 07, R120 to R122) -/

/-- A start leaves the enable set, so that no kiln is suspended after it. -/
theorem keeps_kilnStart (n : Nat) (s : State) : Keeps moves s (kilnStart n s).1 := by
  fun_cases kilnStart n s
  case case4 k hk line inUse s1 s2 =>
    obtain ⟨kept, on⟩ := kilnsKept_enableMill (moves := moves) s
    have inUse' : (s.kiln k).state ≠ .empty := fun e => inUse (.inl e)
    show Keeps moves s (if _ then _ else _)
    split
    · have started := kilnsKept_startKiln (moves := moves) s.enableMill k (fun e => inUse' ((kept.empty k).1 e)) on
      exact keeps_of_kilns ((onlyKilns_enableMill s).trans (onlyKilns_startKiln ..))
        (fun h => (heatKept_startKiln ..).2.2 (heatSound_enableMill s h)) (kept.trans started)
    · exact keeps_of_kilns (onlyKilns_enableMill s) (heatSound_enableMill s) kept
  all_goals exact .refl s

theorem isOn_not_empty {st : KilnState} (h : st.isOn = true) : st ≠ .empty := by
  rintro rfl
  cases h

theorem keeps_kilnStop (n : Nat) (s : State) : Keeps moves s (kilnStop n s).1 := by
  fun_cases kilnStop n s
  case case2 k hk on => exact keeps_of_heatKept (onlyKilns_stopKiln ..) (heatKept_stopKiln ..) (kilnsKept_stopKiln s k (isOn_not_empty on))
  all_goals exact .refl s

theorem keeps_setKiln {s : State} {k : KilnNo} {c : KilnContext} (kept : KilnsKept moves s (s.setKiln k c)) :
    Keeps moves s (s.setKiln k c) := keeps_of_heatKept (onlyKilns_setKiln ..) (sameHeat_setKiln ..).kept kept

theorem keeps_kilnSetup (q : Nat × Byte) (s : State) : Keeps moves s (kilnSetup q s).1 := by
  fun_cases kilnSetup q s
  case case1 => exact keeps_setKiln (kilnsKept_setKiln_same (empty := .rfl))
  all_goals exact .refl s

theorem keeps_kilnReport (q : ReportBody) (s : State) : Keeps moves s (kilnReport q s).1 := by
  fun_cases kilnReport q s
  case case1 => exact keeps_of_heatKept (onlyKilns_takeReport ..) (heatKept_takeReport ..) (kilnsKept_takeReport ..)
  all_goals exact .refl s

theorem keeps_kilnHold (n : Nat) (s : State) : Keeps moves s (kilnHold n s).1 := by
  fun_cases kilnHold n s
  case case2 => exact keeps_of_heatKept (onlyKilns_holdKiln ..) (sameHeat_holdKiln ..).kept (kilnsKept_holdKiln ..)
  all_goals exact .refl s

theorem keeps_kilnRelease (n : Nat) (s : State) : Keeps moves s (kilnRelease n s).1 := by
  fun_cases kilnRelease n s
  case case2 k hk held s' =>
    exact keeps_of_heatKept (onlyKilns_releaseKiln ..) (heatKept_releaseKiln ..) (kilnsKept_releaseKiln s k (by rw [held]; nofun))
  all_goals exact .refl s

/-- An advance moves the HELD kiln it names. -/
theorem keeps_kilnAdvance (n : Nat) (s : State) (named : ∀ k, placeOf 8 n = some k → (s.kiln k).state = .held → moves k) :
    Keeps moves s (kilnAdvance n s).1 := by
  fun_cases kilnAdvance n s
  case case2 k hk held =>
    exact keeps_of_heatKept (onlyKilns_endStep onlyKilns_settle ..) (heatKept_endStep heatKept_settle ..)
      (kilnsKept_endStep kilnsKept_settle s k .advanced (by rw [held]; nofun) (.inr (named k hk held)))
  all_goals exact .refl s

theorem keeps_holdPointSet (q : HoldPointBody) (s : State) : Keeps moves s (holdPointSet q s).1 := by
  fun_cases holdPointSet q s
  case case1 => exact keeps_of_heatKept (onlyKilns_setHoldPoint ..) (sameHeat_setHoldPoint ..).kept (kilnsKept_setHoldPoint ..)
  all_goals exact .refl s

theorem keeps_boilerCapacity (q : Option (Option Nat)) (s : State) : Keeps moves s (boilerCapacity q s).1 := by
  fun_cases boilerCapacity q s
  case case4 => exact keeps_of_kilns (onlyKilns_setCapacity ..) (heatSound_setCapacity s _) (kilnsKept_setCapacity ..)
  all_goals exact .refl s

/-! ### The mill stop, and what time brings (05, R74, R79; 06, R99, R106) -/

theorem keeps_evaluateNow (s : State) (k : KilnNo) : Keeps moves s (s.evaluateNow k) :=
  keeps_of_heatKept (onlyKilns_evaluateNow ..) (heatKept_evaluateNow ..) (kilnsKept_evaluateNow ..)

theorem keeps_passAndSettle (s : State) : Keeps moves s s.passAndSettle :=
  keeps_of_heatKept (onlyKilns_passAndSettle s) (heatKept_passAndSettle s) (kilnsKept_passAndSettle s)

theorem keeps_countKilns (s : State) : Keeps moves s s.countKilns :=
  keeps_of_heatKept (onlyKilns_countKilns s) (heatKept_countKilns s) (kilnsKept_countKilns s)

/-- The mill stop clears the enable, and leaves every kiln at its step. -/
theorem keeps_stopMill (s : State) : Keeps moves s s.stopMill := by
  have only := onlyKilns_stopMill s
  have kept : KilnsKept moves { s with millStopLine := true, masterEnable := false } s.stopMill := kilnsKept_stopMill s
  have off : OnlyKilns s { s with millStopLine := true, masterEnable := false } := ⟨rfl, .of_ports fun l => by cases l <;> rfl⟩
  have cleared : Keeps moves { s with millStopLine := true, masterEnable := false } s.stopMill := by
    refine keeps_of_kilns ⟨?_, fun l => ?_⟩ (fun _ => heatSound_stopMill s) kept
    · rw [only.rest]
    · exact only.ports l
  exact
    { attention := only.ports.sound, heat := fun _ => heatSound_stopMill s, table := cleared.table, labels := cleared.labels,
      queue := cleared.queue, line := cleared.line, lots := cleared.lots, store := cleared.store,
      steps := fun _ off k hk => cleared.steps rfl off k hk }

end Sys2Proof.Machine
end

section
/-! The planer side's requests and events, and those of the lots, keep every invariant (01, 08 to 10). -/

namespace Sys2Proof.Machine

variable {moves : KilnNo → Prop}

/-! ### Re-examination and the idle closes (09, R159, R160) -/

theorem keeps_reexamine (s : State) (l : List StackerNo) (p : StackerNo → BlockReason → Bool) : Keeps moves s (s.reexamine l p) :=
  keeps_of_stackers (onlyPacks_reexamine ..) (kept_reexamine ..) (numbersKept_reexamine ..).queue (lineKept_reexamine ..)
    (lotsKept_reexamine ..)

theorem numbersKept_idleStackers (s : State) : s.idleStackers.queue = s.queue := by
  have one (s : State) st : (s.idleStacker st).queue = s.queue := by
    unfold State.idleStacker
    split
    · rfl
    · dsimp only
      split
      · split
        · exact (numbersKept_attemptIdleClose ..).queue
        · rfl
      · split
        · exact (numbersKept_attemptIdleClose ..).queue
        · rfl
  have all (l : List StackerNo) : ∀ s : State, (l.foldl State.idleStacker s).queue = s.queue := by
    induction l with
    | nil => exact fun _ => rfl
    | cons st l ih => exact fun s => (ih _).trans (one s st)
  unfold State.idleStackers
  split
  · rfl
  · exact all _ s

theorem keeps_idleStackers (s : State) : Keeps moves s s.idleStackers :=
  keeps_of_stackers (onlyPacks_idleStackers s) (kept_idleStackers s) (numbersKept_idleStackers s) (lineKept_idleStackers s)
    (lotsKept_idleStackers s)

theorem keeps_idleClose (s : State) (st : StackerNo) : Keeps moves s (s.idleClose st) := by
  unfold State.idleClose
  split
  next p opened =>
    split
    · exact keeps_of_stackers (onlyPacks_attemptIdleClose ..) (kept_attemptIdleClose ..) (numbersKept_attemptIdleClose ..).queue
        (lineKept_attemptIdleClose opened) (lotsKept_attemptIdleClose ..)
    · exact .refl s
  · exact .refl s

/-! ### Boards (08, R131 to R142) -/

theorem measureBoard_queue_le (q : MeasureBody) (ov : Bool) (bin : BinNo) (l : LotRecord) (s : State)
    (room : s.shadow = false → s.queue.length < Config.queueSlots) (h : QueueSound s) : QueueSound (measureBoard q ov bin l s).1 := by
  unfold measureBoard
  dsimp only
  split
  · exact h
  next counted =>
    rw [QueueSound, (countBoard_same ..).1, (joinQueue_same ..).1, carryOut_queue, List.length_append]
    exact room (by simpa using counted)

/-- A MEASURE that passes its refusals finds its lot, and room for a board that is counted (08, R131). -/
theorem keeps_takeMeasure (q : MeasureBody) (s : State) : Keeps moves s (takeMeasure q s).1 := by
  fun_cases takeMeasure q s
  case case7 bin ov hbin hov nonzero line full l found state notFull =>
    have room : s.shadow = false → s.queue.length < Config.queueSlots := fun off => by simpa [off] using full
    exact keeps_of_packs (onlyPacks_measureBoard ..) (kept_measureBoard ..) (measureBoard_queue_le q ov bin l s room)
      (fun h => lineSound_measureBoard h room q ov bin l)
      (fun h => lotsSound_measureBoard h room found (by simpa using state) ov bin)
  all_goals exact .refl s

theorem keeps_drop (n : Nat) (s : State) : Keeps moves s (drop n s).1 := by
  fun_cases drop n s
  case case3 d hd b found r =>
    have hb : b ∈ s.queue := List.mem_of_find?_eq_some found
    have queue : r.1.queue = (s.dequeue b.seq).queue := (numbersKept_leavePack ..).queue
    exact keeps_of_packs ((onlyPacks_dequeue ..).trans (onlyPacks_leavePack ..))
      ((samePlaces_dequeue ..).kept.trans (kept_leavePack ..))
      (fun h => by rw [QueueSound, queue]; exact Nat.le_trans (dequeue_sublist ..).length_le h)
      (fun h => lineSound_leavePack h hb rfl rfl (fun _ => rfl) fun p => Nat.le_succ _)
      (fun h => (lotsKept_leavePack ..).sound (lotsSound_dequeue h _))
  all_goals exact .refl s

theorem queueSound_loseBoard (s : State) (b : Board) (h : QueueSound s) : QueueSound (s.loseBoard b).1 := by
  rw [QueueSound, loseBoard_queue]
  exact Nat.le_trans (dequeue_sublist ..).length_le h

theorem keeps_lost (n : Nat) (s : State) : Keeps moves s (lost n s).1 := by
  fun_cases lost n s
  case case3 nonzero b found r =>
    have hb : b ∈ s.queue := List.mem_of_find?_eq_some found
    exact keeps_of_packs (onlyPacks_loseBoard ..) (kept_loseBoard ..) (queueSound_loseBoard s b)
      (fun h => lineSound_loseBoard h hb) (fun h => lotsSound_loseBoard h hb)
  all_goals exact .refl s

theorem keeps_setLine (held : Bool) (s : State) : Keeps moves s (setLine held s).1 :=
  Beside.keeps ⟨rfl, attentionSound_ports fun l => by cases l <;> rfl⟩

theorem keeps_setShadow (on : Bool) (s : State) : Keeps moves s (setShadow on s).1 :=
  Beside.keeps ⟨rfl, attentionSound_ports fun l => by cases l <;> rfl⟩

/-! ### Stackers and labels (09, R150, R161; 10, R174) -/

theorem keeps_stackerSetup (q : StackerSetupBody) (s : State) : Keeps moves s (stackerSetup q s).1 := by
  fun_cases stackerSetup q s
  case case3 st hst ok =>
    have places := (samePlaces_setStacker s st
      { s.stacker st with countLimit := q.countLimit, footageLimit := q.footageLimit, idleParam := q.idleParam } rfl rfl).kept
    exact keeps_of_stackers (onlyPacks_setStacker ..) places rfl (lineKept_setStacker s st _ rfl rfl) (lotsKept_setStacker places)
  all_goals exact .refl s

/-- A close that was granted, completed at once when nothing is outstanding. -/
theorem keeps_closed {s : State} {st : StackerNo} {p : Pack} {n : Option Nat} (opened : (s.stacker st).openPack = some p)
    (granted : s.judgeClose st p.isRedry = .granted n) (why : CloseReason) (q : Prop) [Decidable q] (none : q → p.outstanding = 0) :
    Keeps moves s
      (if q then (s.makeClose st p why n).complete st ⟨p, why, s.minute, n⟩ else s.makeClose st p why n) := by
  obtain ⟨prior, label, -, slot⟩ := judgeClose_granted granted
  have closed : Keeps moves s (s.makeClose st p why n) :=
    keeps_of_stackers (onlyPacks_makeClose ..) (kept_makeClose s st p why n prior label slot) (makeClose_queue ..)
      ⟨fun h => lineSound_closeOpen h opened prior rfl rfl⟩ (lotsKept_makeClose granted p why)
  have closing : ((s.makeClose st p why n).stacker st).closing = some ⟨p, why, s.minute, n⟩ := by rw [makeClose_stacker]
  split
  next hq =>
    have completed : Keeps moves (s.makeClose st p why n) ((s.makeClose st p why n).complete st ⟨p, why, s.minute, n⟩) :=
      keeps_of_stackers (onlyPacks_complete ..) (kept_complete _ _ _ closing) (complete_numbersKept ..).queue
        ⟨fun h => lineSound_complete h closing (none hq) _⟩ (lotsKept_complete closing)
    exact closed.trans completed fun off _ => by rw [(onlyPacks_makeClose ..).rest]; exact off
  · exact closed

theorem keeps_packClose (n : Nat) (s : State) : Keeps moves s (packClose n s).1 := by
  fun_cases packClose n s
  case case4 st hst p opened redry granted s1 s2 => exact keeps_closed opened granted .operator _ id
  all_goals exact .refl s

/-- Records that leave the Label Queue leave places free (10, R171, R172). -/
theorem keeps_dropLabels (s : State) (n : Nat) : Keeps moves s (s.dropLabels n) := by
  have labels : LabelsSound s → LabelsSound (s.dropLabels n) := fun h => by
    rw [labelsSound_iff] at h ⊢
    obtain ⟨room, serials⟩ := h
    refine ⟨Nat.le_trans ?_ room, serials⟩
    change (s.labels.drop n).length + s.closingCount ≤ _
    rw [List.length_drop]
    omega
  exact keeps_of_stackers ⟨rfl, .of_ports fun l => by cases l <;> rfl⟩ ⟨id, labels⟩ rfl (.of_queue_stackers rfl rfl)
    (.of_same id rfl rfl rfl)

theorem keeps_labelRelease (n : Nat) (s : State) : Keeps moves s (labelRelease n s).1 := by
  fun_cases labelRelease n s
  case case2 => exact (keeps_dropLabels s n).trans (keeps_reexamine ..) fun off _ => off
  all_goals exact .refl s

/-! ### Lot records (01, R2 to R7, R16) -/

/-- A record put into the table. -/
theorem keeps_insertLot {s : State} {r : LotRecord} (fresh : s.numberInUse r.number = false)
    (room : s.slotsTaken < Config.lotSlots) (state : r.state ≠ .inKiln) (balanced : r.Balanced) : Keeps moves s (s.insertLot r) := by
  obtain ⟨new, unreserved⟩ := numberInUse_false s _ fresh
  have table : TableSound s → TableSound (s.insertLot r) := fun ⟨rise, nodup, apart, slots⟩ => by
    refine ⟨insertByNumber_rising r s.lots rise new, nodup, fun n hn => ?_, ?_⟩
    · change n ∉ (insertByNumber r s.lots).map LotRecord.number
      rw [mem_insertByNumber]
      rintro (rfl | h)
      · exact unreserved hn
      · exact apart n hn h
    · change (insertByNumber r s.lots).length + s.reservations.length ≤ _
      rw [length_insertByNumber]
      unfold State.slotsTaken at room
      omega
  exact keeps_of_packs (onlyPacks_insertLot ..) ⟨table, id⟩ id (LineKept.of_queue_stackers rfl rfl).sound
    fun h => lotsSound_insert h (table h.1) rfl rfl rfl new state balanced

theorem keeps_lotCreate (q : LotCreateBody) (s : State) : Keeps moves s (lotCreate q s).1 := by
  fun_cases lotCreate q s
  case case5 ok known fresh room =>
    exact keeps_insertLot (Bool.eq_false_iff.2 fresh) (by simpa using room) (by simp only [newLot]; split <;> nofun) (newLot_balanced ..)
  all_goals exact .refl s

/-- A record changed in state and targets alone, not to or from IN_KILN, and out of the states of queued boards only without any. -/
theorem keeps_modifyLot {s : State} {n : Nat} {l : LotRecord} (found : s.findLot n = some l) {f : LotRecord → LotRecord}
    (number : ∀ x, x.number = n → (f x).number = n) (tallies : SameTallies l (f l)) (inKiln : (f l).state = .inKiln ↔ l.state = .inKiln)
    (boards : 0 < s.boardsOf n → l.state.measurable = true → (f l).state.measurable = true) : Keeps moves s (s.modifyLot n f) := by
  have places := samePlaces_modifyLot s n f number
  obtain ⟨hl, hn⟩ := findLot_mem found
  refine keeps_of_packs (onlyPacks_modifyLot ..) places.kept id (lineKept_modifyLot ..).sound fun h => ?_
  have only x (hx : x ∈ s.lots) (e : x.number = n) : x = l := h.1.unique hl hx (e.trans hn.symm)
  have same x (hx : x ∈ s.lots) : SameTallies x (if x.number = n then f x else x) := by
    split
    next e => rw [only x hx e]; exact tallies
    · exact ⟨rfl, fun _ => rfl, rfl, rfl⟩
  have kilns x (hx : x ∈ s.lots) : (if x.number = n then f x else x).state = .inKiln ↔ x.state = .inKiln := by
    split
    next e => rw [only x hx e]; exact inKiln
    · rfl
  refine h.map (places.kept.1 h.1) rfl same rfl (h.2.2.2.1.map rfl (fun x hx => (same x hx).number) kilns (fun _ => rfl) fun _ => id) ?_
  intro x hx queued state
  split
  next e =>
    rw [only x hx e] at state queued ⊢
    exact boards (hn ▸ queued) state
  · exact state

theorem keeps_raise (s : State) (c : AttnClass) : Keeps moves s (s.raise c) :=
  keeps_of_stackers (onlyPacks_raise ..) (samePlaces_raise ..).kept (by simp) (lineKept_raise ..) (lotsKept_raise ..)

theorem keeps_raiseLotHeld (s : State) : Keeps moves s s.raiseLotHeld :=
  (keeps_raise ..).trans (keeps_raise ..) fun off _ => by simpa using off

theorem sameTallies_withState (l : LotRecord) (st : LotState) : SameTallies l (l.withState st) :=
  ⟨rfl, fun d => by cases d <;> rfl, rfl, rfl⟩

theorem keeps_lotModify (q : LotModifyBody) (s : State) : Keeps moves s (lotModify q s).1 := by
  fun_cases lotModify q s
  case case4 l found ok state =>
    exact keeps_modifyLot found (fun _ h => h) ⟨rfl, fun d => by cases d <;> rfl, rfl, rfl⟩ .rfl fun _ h => h
  all_goals exact .refl s

/-- A lot that can be held is not IN_KILN. -/
theorem holdable_state {st : LotState} {r : ReturnState} (h : st.holdable = some r) : st ≠ .inKiln := by
  rintro rfl
  cases h

theorem keeps_lotHold (n : Nat) (s : State) : Keeps moves s (lotHold n s).1 := by
  fun_cases lotHold n s
  case case3 l found r state =>
    have held : Keeps moves s (s.modifyLot n fun l => l.withState (.held (.office r))) :=
      keeps_modifyLot found (fun _ h => h) (sameTallies_withState ..) ⟨nofun, fun e => absurd e (holdable_state state)⟩ fun _ _ => rfl
    exact held.trans (keeps_raiseLotHeld _) fun off _ => off
  all_goals exact .refl s

/-- What a release makes of a lot: the same tallies, and a state other than HELD and IN_KILN (01, R5). -/
theorem released_spec {l x : LotRecord} {h : Hold} {ret : Option (Option Nat)} (e : l.released h ret = some x) :
    SameTallies l x ∧ x.state ≠ .inKiln ∧ (x.state = .waiting ∨ x.state.measurable = true) := by
  have returned (r : ReturnState) : r.lotState ≠ .inKiln ∧ (r.lotState = .waiting ∨ r.lotState.measurable = true) := by
    cases r <;> simp [ReturnState.lotState, LotState.measurable]
  unfold LotRecord.released at e
  split at e
  next r => cases e; exact ⟨sameTallies_withState .., returned r⟩
  next r => cases e; exact ⟨⟨rfl, fun d => by cases d <;> rfl, rfl, rfl⟩, returned r⟩
  next c =>
    split at e
    · cases e; exact ⟨⟨rfl, fun d => by cases d <;> rfl, rfl, rfl⟩, nofun, .inl rfl⟩
    · split at e
      · cases e
        refine ⟨sameTallies_withState .., ?_⟩
        simp only [LotRecord.withState]
        split <;> exact ⟨nofun, .inr rfl⟩
      · cases e
  · cases e

theorem keeps_lotRelease (q : LotReleaseBody) (s : State) : Keeps moves s (lotRelease q s).1 := by
  fun_cases lotRelease q s
  case case5 l found h held x released free =>
    obtain ⟨tallies, notKiln, after⟩ := released_spec released
    have number : x.number = q.number := tallies.number.trans (findLot_mem found).2
    have wasHeld : l.state ≠ .inKiln := fun e => by rw [e] at held; cases held
    refine keeps_modifyLot found (fun _ _ => number) tallies ⟨fun e => absurd e notKiln, fun e => absurd e wasHeld⟩ fun queued _ => ?_
    obtain waiting | measurable := after
    · exact absurd ⟨waiting, by simp [State.lotOnLine, queued]⟩ free
    · exact measurable
  all_goals exact .refl s

theorem keeps_lotFinish (n : Nat) (s : State) : Keeps moves s (lotFinish n s).1 := by
  fun_cases lotFinish n s
  case case3 l found state free =>
    refine keeps_modifyLot found (fun _ h => h) (sameTallies_withState ..) ⟨nofun, fun e => ?_⟩ fun queued _ => ?_
    · rw [e] at state
      obtain h | h := state <;> cases h
    · exact absurd (by simp [State.lotOnLine, queued]) free
  all_goals exact .refl s

/-- A record without boards and on no charge list leaves the table. -/
theorem lotsSound_removeLot {s : State} {n : Nat} {l : LotRecord} (found : s.findLot n = some l)
    (state : l.state = .waiting ∨ l.state = .closed) (table : TableSound (s.removeLot n)) (h : LotsSound s) :
    LotsSound (s.removeLot n) := by
  obtain ⟨sound, room, seqs, ⟨inKiln, once, named, emptied⟩, covered, measurable⟩ := h
  obtain ⟨hl, hn⟩ := findLot_mem found
  have stays x : x ∈ (s.removeLot n).lots ↔ x ∈ s.lots ∧ x.number ≠ n := by
    simp [State.removeLot, List.mem_filter]
  have notKiln : l.state ≠ .inKiln := by obtain e | e := state <;> rw [e] <;> nofun
  refine ⟨table, room, seqs, ⟨fun x hx => inKiln x ((stays x).1 hx).1, once, fun k m hm => ?_, emptied⟩,
    fun x hx => covered x ((stays x).1 hx).1, fun b hb => ?_⟩
  · obtain ⟨x, hx, rfl⟩ := List.mem_map.1 (named k m hm)
    refine List.mem_map.2 ⟨x, (stays x).2 ⟨hx, fun e => notKiln ?_⟩, rfl⟩
    rw [← sound.unique hl hx (e.trans hn.symm)]
    exact (inKiln x hx).2 ⟨k, hm⟩
  · obtain ⟨x, hx, number, m⟩ := measurable b hb
    refine ⟨x, (stays x).2 ⟨hx, fun e => ?_⟩, number, m⟩
    rw [sound.unique hl hx (e.trans hn.symm)] at m
    obtain e | e := state <;> rw [e] at m <;> cases m

theorem keeps_removeLot {s : State} {n : Nat} {l : LotRecord} (found : s.findLot n = some l)
    (state : l.state = .waiting ∨ l.state = .closed) : Keeps moves s (s.removeLot n) := by
  have sub : (s.removeLot n).lots.Sublist s.lots := List.filter_sublist
  have table : TableSound s → TableSound (s.removeLot n) := fun ⟨rise, nodup, apart, slots⟩ =>
    ⟨rise.sublist (sub.map _), nodup, fun m hm h => apart m hm ((sub.map _).subset h),
      Nat.le_trans (Nat.add_le_add_right sub.length_le _) slots⟩
  exact keeps_of_packs ⟨rfl, .of_ports fun l => by cases l <;> rfl⟩ ⟨table, id⟩ id (LineKept.of_queue_stackers rfl rfl).sound
    fun h => lotsSound_removeLot found state (table h.1) h

theorem keeps_lotRemove (n : Nat) (s : State) : Keeps moves s (lotRemove n s).1 := by
  fun_cases lotRemove n s
  case case2 l found state => exact (keeps_removeLot found state).trans (keeps_reexamine ..) fun off _ => off
  all_goals exact .refl s

theorem keeps_setRedryRange (q : Nat × Nat) (s : State) : Keeps moves s (setRedryRange q s).1 := by
  fun_cases setRedryRange q s
  case case2 =>
    have ranged : Beside s { s with redryFirst := q.1, redryLast := q.2, redryNext := q.1 } :=
      ⟨rfl, attentionSound_ports fun l => by cases l <;> rfl⟩
    exact (keeps_reexamine ..).after_beside ranged
  all_goals exact .refl s

end Sys2Proof.Machine
end

section
/-! Schedules written and deleted, kilns charged and unloaded, and the records of a start-up keep every invariant (01, R8, R9; 02, R26
to R30; 05, R70, R83; 11, R187, R189). -/

namespace Sys2Proof.Machine

variable {moves : KilnNo → Prop}

/-! ### Schedules within their ranges (02, R26) -/

/-- The range of an exit's value, as a step's range has it (`ScheduleStep.InRange`). -/
def StepExit.InRange (e : StepExit) : Prop := ∀ v, e.value? = some v → v ≤ match e with
  | .drybulbAtOrBelow _ => 950
  | _ => 2000

theorem exitOf_inRange {kind : Nat} {value : Option (Option Nat)} {e : StepExit} (h : exitOf kind value = .inr e) : e.InRange := by
  revert h
  fun_cases exitOf kind value
  case case3 v le => rintro ⟨⟩ _ ⟨⟩; exact le
  case case5 v le => rintro ⟨⟩ _ ⟨⟩; exact le
  case case7 v le => rintro ⟨⟩ _ ⟨⟩; exact le
  all_goals nofun

theorem check_inRange {b : StepBody} {t : ScheduleStep} (h : b.check = .inr t) : t.InRange := by
  revert h
  fun_cases StepBody.check b
  case case10 kind hkind dry depression demand few e he low high order =>
    intro h
    cases h
    have exit := exitOf_inRange he
    rw [not_or, Nat.not_lt, Nat.not_lt] at dry
    rw [not_or, Nat.not_lt] at high
    obtain ⟨nonzero, high⟩ := high
    refine ⟨dry.1, dry.2, Nat.le_of_not_lt depression, Nat.le_of_not_lt demand, Nat.le_of_not_lt low, Nat.one_le_iff_ne_zero.2 nonzero,
      high, Nat.le_of_not_lt order, ?_⟩
    cases e with
    | time | drybulbReached => trivial
    | cmcAtOrBelow v | driestAtOrAbove v | drybulbAtOrBelow v => exact exit v rfl
  all_goals nofun

theorem checkSteps_inRange {bs : List StepBody} : ∀ {i : Nat} {ts : List ScheduleStep}, checkSteps i bs = .inr ts →
    ts.length = bs.length ∧ ∀ t ∈ ts, t.InRange := by
  induction bs with
  | nil => intro i ts h; cases h; exact ⟨rfl, nofun⟩
  | cons b bs ih =>
    intro i ts h
    unfold checkSteps at h
    split at h
    · cases h
    next t ht =>
      split at h
      · cases h
      next rest hrest =>
        cases h
        obtain ⟨length, ranges⟩ := ih hrest
        exact ⟨congrArg (· + 1) length, List.forall_mem_cons.2 ⟨check_inRange ht, ranges⟩⟩

theorem readSteps_length (n : Nat) : ∀ {l : List Byte} {bs : List StepBody}, readSteps n l = some bs → bs.length = n := by
  induction n with
  | zero =>
    intro l bs h
    cases l with
    | nil => cases h; rfl
    | cons => cases h
  | succ n ih =>
    intro l bs h
    unfold readSteps at h
    split at h
    next e => cases e
    next e => cases e
    · cases e : ‹_ + 1 = _›
      obtain ⟨rest, hrest, rfl⟩ := Option.map_eq_some_iff.1 h
      exact congrArg (· + 1) (ih hrest)
    · cases h

/-- The counts that a SCHEDULE WRITE carries are those of its texts and steps (11, R190). -/
theorem readScheduleWrite_counts {body : List Byte} {q : ScheduleBody} (h : readScheduleWrite body = some q) :
    q.id ≤ 255 ∧ q.text.length = q.textLen ∧ q.steps.length = q.stepCount := by
  unfold readScheduleWrite at h
  split at h
  next id len rest =>
    dsimp only at h
    split at h
    next count steps _ =>
      split at h
      next length =>
        obtain ⟨bs, hbs, rfl⟩ := Option.map_eq_some_iff.1 h
        exact ⟨Nat.le_of_lt_succ id.isLt, length, readSteps_length _ hbs⟩
      · cases h
    · cases h
  · cases h

theorem scheduleCheck_inRange {q : ScheduleBody} {c : Schedule} (h : q.check = .inr c) (id : q.id ≤ 255)
    (text : q.text.length = q.textLen) (steps : q.steps.length = q.stepCount) : c.InRange := by
  unfold ScheduleBody.check at h
  split_ifs at h with zero chars count
  split at h
  · cases h
  next ts hts =>
    cases h
    obtain ⟨length, ranges⟩ := checkSteps_inRange hts
    simp only [not_or, Bool.not_eq_true', Bool.not_eq_false, List.all_eq_true, printable, Bool.and_eq_true, decide_eq_true_eq] at chars
    have few : q.text.length ≤ 12 := by omega
    have some : 1 ≤ ts.length ∧ ts.length ≤ 12 := by omega
    exact ⟨Nat.one_le_iff_ne_zero.2 zero, id, few, chars.2, some.1, some.2, ranges⟩

/-! ### The store written and deleted from (02, R27, R30) -/

theorem stepCount_named {s : State} {k : KilnNo} {id : Nat} (h : (s.kiln k).scheduleId = some id) :
    s.stepCount k = match s.findSchedule id with | some c => c.steps.length | none => 0 := by
  unfold State.stepCount
  rw [h]
  rfl

/-- The store with another list of schedules, in which the kilns find those they name. -/
theorem keeps_schedules {s : State} {l : List Schedule}
    (rise : (s.schedules.map Schedule.id).Pairwise (· < ·) → (l.map Schedule.id).Pairwise (· < ·))
    (room : s.schedules.length ≤ Config.scheduleSlots → l.length ≤ Config.scheduleSlots)
    (ranges : (∀ c ∈ s.schedules, c.InRange) → ∀ c ∈ l, c.InRange)
    (named : ∀ k id, (s.kiln k).scheduleId = some id → (s.findSchedule id).isSome = true →
      (l.find? fun c => c.id == id) = s.findSchedule id) : Keeps moves s { s with schedules := l } where
  attention := attentionSound_ports fun l => by cases l <;> rfl
  heat := id
  table := id
  labels := id
  queue := id
  line := id
  lots := id
  store := by
    intro ⟨rise', room', ranges', kilns⟩
    refine ⟨rise rise', room room', ranges ranges', fun k => ?_⟩
    obtain ⟨empty, index⟩ := kilns k
    refine ⟨empty, fun inUse => ?_⟩
    have index := index inUse
    obtain ⟨id, hid⟩ := Option.ne_none_iff_exists'.1 fun none => inUse (empty.2 none)
    rw [stepCount_named hid] at index
    rw [stepCount_named (show (({ s with schedules := l } : State).kiln k).scheduleId = some id from hid)]
    cases found : s.findSchedule id with
    | none => rw [found] at index; exact absurd index (Nat.not_lt_zero _)
    | some c =>
      have same := named k id hid (by rw [found]; rfl)
      rw [found] at index same
      unfold State.findSchedule
      rw [same]
      exact index
  steps _ _ _ _ := ⟨rfl, rfl⟩

/-- No kiln names a schedule whose list of kilns is empty. -/
theorem kilnsNaming_empty {s : State} {id : Nat} (h : (s.kilnsNaming id).isEmpty = true) (k : KilnNo) : (s.kiln k).scheduleId ≠ some id := by
  have := List.filter_eq_nil_iff.1 (List.isEmpty_iff.1 h) k (mem_allKilns k)
  simpa using this

theorem find_map_other {l : List Schedule} {c : Schedule} {id : Nat} (h : c.id ≠ id) :
    ((l.map fun d => if d.id = c.id then c else d).find? fun d => d.id == id) = l.find? fun d => d.id == id := by
  induction l with
  | nil => rfl
  | cons d l ih =>
    rw [List.map_cons, List.find?_cons, List.find?_cons, ih]
    by_cases e : d.id = c.id
    · have : d.id ≠ id := fun e' => h (e.symm.trans e')
      rw [if_pos e, beq_false_of_ne h, beq_false_of_ne this]
    · simp [e]

theorem mem_insertById (c x : Schedule) (l : List Schedule) : x ∈ insertById c l ↔ x = c ∨ x ∈ l := by
  induction l with
  | nil => simp [insertById]
  | cons d l ih =>
    unfold insertById
    split
    · simp
    · simp only [List.mem_cons, ih]
      tauto

theorem length_insertById (c : Schedule) (l : List Schedule) : (insertById c l).length = l.length + 1 := by
  induction l with
  | nil => rfl
  | cons d l ih =>
    unfold insertById
    split
    · rfl
    · simp [ih]

theorem insertById_rising (c : Schedule) (l : List Schedule) (h : (l.map Schedule.id).Pairwise (· < ·))
    (new : ∀ d ∈ l, d.id ≠ c.id) : ((insertById c l).map Schedule.id).Pairwise (· < ·) := by
  induction l with
  | nil => simp [insertById]
  | cons d l ih =>
    rw [List.map_cons, List.pairwise_cons] at h
    obtain ⟨above, rise⟩ := h
    unfold insertById
    split
    next lt =>
      simp only [List.map_cons, List.pairwise_cons]
      refine ⟨fun m hm => ?_, above, rise⟩
      obtain rfl | hm := List.mem_cons.1 hm
      · exact lt
      · exact Nat.lt_trans lt (above m hm)
    next le =>
      rw [List.map_cons, List.pairwise_cons]
      refine ⟨fun m hm => ?_, ih rise fun x hx => new x (List.mem_cons_of_mem _ hx)⟩
      obtain ⟨x, hx, rfl⟩ := List.mem_map.1 hm
      obtain rfl | hx := (mem_insertById ..).1 hx
      · have := new d (List.mem_cons_self ..)
        omega
      · exact above _ (List.mem_map.2 ⟨x, hx, rfl⟩)

theorem find_insertById_other {l : List Schedule} {c : Schedule} {id : Nat} (h : c.id ≠ id) :
    ((insertById c l).find? fun d => d.id == id) = l.find? fun d => d.id == id := by
  induction l with
  | nil => simp [insertById, h]
  | cons d l ih =>
    unfold insertById
    split
    · rw [List.find?_cons_of_neg (by simpa using h)]
    · rw [List.find?_cons, List.find?_cons, ih]

theorem findSchedule_isNone {s : State} {id : Nat} (h : (s.findSchedule id).isSome ≠ true) : ∀ d ∈ s.schedules, d.id ≠ id := by
  have := List.find?_eq_none.1 (Option.not_isSome_iff_eq_none.1 h)
  exact fun d hd e => this d hd (by simp [e])

theorem keeps_scheduleWrite (q : ScheduleBody) (s : State)
    (counts : q.id ≤ 255 ∧ q.text.length = q.textLen ∧ q.steps.length = q.stepCount) : Keeps moves s (scheduleWrite q s).1 := by
  obtain ⟨id, text, steps⟩ := counts
  fun_cases scheduleWrite q s
  case case2 c checked present free =>
    have inRange := scheduleCheck_inRange checked id text steps
    have ids : (s.schedules.map fun d => if d.id = c.id then c else d).map Schedule.id = s.schedules.map Schedule.id := by
      rw [List.map_map]
      refine List.map_congr_left fun d _ => ?_
      simp only [Function.comp]
      split
      next e => exact e.symm
      · rfl
    refine keeps_schedules (fun rise => by rw [ids]; exact rise) (fun room => by rw [List.length_map]; exact room)
      (fun ranges d hd => ?_) fun k n hn _ => find_map_other fun e => kilnsNaming_empty free k (e ▸ hn)
    obtain ⟨x, hx, rfl⟩ := List.mem_map.1 hd
    split
    · exact inRange
    · exact ranges x hx
  case case4 c checked absent room =>
    have inRange := scheduleCheck_inRange checked id text steps
    refine keeps_schedules (fun rise => insertById_rising c _ rise (findSchedule_isNone absent))
      (fun _ => by rw [length_insertById]; exact room) (fun ranges d hd => ?_)
      fun k n _ found => find_insertById_other fun e => absent (e ▸ found)
    obtain rfl | hd := (mem_insertById ..).1 hd
    · exact inRange
    · exact ranges d hd
  all_goals exact .refl s

theorem find_filter_other {l : List Schedule} {id n : Nat} (h : id ≠ n) :
    ((l.filter fun c => c.id != id).find? fun c => c.id == n) = l.find? fun c => c.id == n := by
  rw [List.find?_filter]
  congr 1
  funext c
  by_cases e : c.id = n
  · simp [e, h.symm]
  · simp [e]

theorem keeps_scheduleDelete (id : Nat) (s : State) : Keeps moves s (scheduleDelete id s).1 := by
  fun_cases scheduleDelete id s
  case case3 nonzero present free =>
    have sub : (s.schedules.filter fun c => c.id != id).Sublist s.schedules := List.filter_sublist
    exact keeps_schedules (fun rise => rise.sublist (sub.map _)) (fun room => Nat.le_trans sub.length_le room)
      (fun ranges c hc => ranges c (sub.subset hc)) fun k n hn _ => find_filter_other fun e => kilnsNaming_empty free k (e ▸ hn)
  all_goals exact .refl s

theorem beside_setSpecies (s : State) (code : Nat) (r : Option Species) : Beside s (s.setSpecies code r) := by
  unfold State.setSpecies
  split
  · exact ⟨rfl, attentionSound_ports fun l => by cases l <;> rfl⟩
  · exact .refl s

theorem keeps_speciesWrite (q : SpeciesBody) (s : State) : Keeps moves s (speciesWrite q s).1 := by
  fun_cases speciesWrite q s
  case case2 => exact (beside_setSpecies ..).keeps
  all_goals exact .refl s

theorem keeps_speciesDelete (code : Nat) (s : State) : Keeps moves s (speciesDelete code s).1 := by
  fun_cases speciesDelete code s
  case case3 => exact (beside_setSpecies ..).keeps
  all_goals exact .refl s

/-! ### The bin map (08, R144) -/

theorem beside_setBins (es : List BinEntry) : ∀ (s : State) (bin : Nat), Beside s (s.setBins bin es) := by
  induction es with
  | nil => exact fun s _ => .refl s
  | cons e es ih =>
    intro s bin
    have one : Beside s { s with binMap := s.binMap.setIfInBounds bin e } := ⟨rfl, attentionSound_ports fun l => by cases l <;> rfl⟩
    exact one.trans (ih _ _)

theorem keeps_binMapWrite (q : List Nat) (s : State) : Keeps moves s (binMapWrite q s).1 := by
  fun_cases binMapWrite q s
  case case1 => exact (beside_setBins ..).keeps
  all_goals exact .refl s

theorem keeps_binMapSet (q : Nat × Nat) (s : State) : Keeps moves s (binMapSet q s).1 := by
  fun_cases binMapSet q s
  case case2 => exact (beside_setBins ..).keeps
  all_goals exact .refl s

end Sys2Proof.Machine
end

section
/-! Kilns charged and unloaded, and the records of a start-up, keep every invariant (01, R8, R9; 05, R70, R83; 11, R187, R189). -/

namespace Sys2Proof.Machine

variable {moves : KilnNo → Prop}

/-! ### A charge list written or emptied -/

/-- The charge lists after one kiln's list was replaced, its lots in and out of IN_KILN with it. -/
theorem chargesSound_replace {s t : State} (h : ChargesSound s) {k : KilnNo} {g : LotRecord → LotRecord}
    (lots : t.lots = s.lots.map g) (number : ∀ l ∈ s.lots, (g l).number = l.number)
    (others : ∀ j, j ≠ k → t.kiln j = s.kiln j)
    (state : ∀ l ∈ s.lots, (g l).state = .inKiln ↔
      l.number ∈ (t.kiln k).charge ∨ l.state = .inKiln ∧ l.number ∉ (s.kiln k).charge)
    (apart : ∀ n ∈ (t.kiln k).charge, ∀ j, j ≠ k → n ∉ (s.kiln j).charge)
    (named : ∀ n ∈ (t.kiln k).charge, n ∈ s.lots.map LotRecord.number)
    (empty : (t.kiln k).state = .empty → (t.kiln k).charge = []) : ChargesSound t := by
  obtain ⟨inKiln, once, known, emptied⟩ := h
  have same : t.lots.map LotRecord.number = s.lots.map LotRecord.number := by
    rw [lots, List.map_map]; exact List.map_congr_left number
  refine ⟨fun x hx => ?_, fun i j n hi hj => ?_, fun j n hn => ?_, fun j hj => ?_⟩
  · rw [lots] at hx
    obtain ⟨l, hl, rfl⟩ := List.mem_map.1 hx
    rw [state l hl, number l hl, inKiln l hl]
    constructor
    · rintro (own | ⟨⟨j, hj⟩, out⟩)
      · exact ⟨k, own⟩
      · exact ⟨j, by rw [others j fun e => out (e ▸ hj)]; exact hj⟩
    · rintro ⟨j, hj⟩
      obtain rfl | ne := eq_or_ne j k
      · exact .inl hj
      · rw [others j ne] at hj
        exact .inr ⟨⟨j, hj⟩, fun hk => ne (once j k _ hj hk)⟩
  · by_cases ei : i = k <;> by_cases ej : j = k
    · exact ei.trans ej.symm
    · rw [others j ej] at hj
      exact absurd hj (apart n (ei ▸ hi) j ej)
    · rw [others i ei] at hi
      exact absurd hi (apart n (ej ▸ hj) i ei)
    · rw [others i ei] at hi
      rw [others j ej] at hj
      exact once i j n hi hj
  · rw [same]
    obtain rfl | ne := eq_or_ne j k
    · exact named n hn
    · exact known j n (others j ne ▸ hn)
  · obtain rfl | ne := eq_or_ne j k
    · exact empty hj
    · rw [others j ne] at hj ⊢
      exact emptied j hj

/-- The store after one kiln's context was replaced. -/
theorem storeSound_replace {s t : State} (h : StoreSound s) {k : KilnNo} (schedules : t.schedules = s.schedules)
    (others : ∀ j, j ≠ k → t.kiln j = s.kiln j)
    (own : ((t.kiln k).state = .empty ↔ (t.kiln k).scheduleId = none) ∧
      ((t.kiln k).state ≠ .empty → (t.kiln k).stepIndex < t.stepCount k)) : StoreSound t := by
  obtain ⟨rise, room, ranges, kilns⟩ := h
  unfold StoreSound
  rw [schedules]
  refine ⟨rise, room, ranges, fun j => ?_⟩
  obtain rfl | ne := eq_or_ne j k
  · exact own
  · have count : t.stepCount j = s.stepCount j := by
      simp only [State.stepCount, others j ne]; unfold State.findSchedule; rw [schedules]
    rw [others j ne, count]
    exact kilns j

/-! ### KILN CHARGE (05, R70) -/

/-- The lots of an accepted charge are WAITING. -/
theorem uncharged_waiting {s : State} {ns : List Nat} (h : s.uncharged ns = none) {n : Nat} (hn : n ∈ ns) :
    ∃ l, s.findLot n = some l ∧ l.state = .waiting := by
  unfold State.uncharged at h
  split at h
  · cases h
  next present =>
    split at h
    · cases h
    next waiting =>
      have found := List.find?_eq_none.1 present n hn
      obtain ⟨l, hl⟩ := Option.isSome_iff_exists.1 (show (s.findLot n).isSome = true by simpa [Option.isSome_iff_ne_none] using found)
      have state := List.find?_eq_none.1 waiting l (List.mem_filterMap.2 ⟨n, hn, hl⟩)
      exact ⟨l, hl, by simpa using state⟩

/-- An EMPTY kiln charged with WAITING lots and a schedule of the store. -/
def State.chargeKiln (s : State) (k : KilnNo) (schedule : Nat) (lots : List Nat) : State :=
  (s.setLotStates lots .inKiln).setKiln k ((s.kiln k).charged schedule lots)

theorem keeps_chargeKiln {s : State} {k : KilnNo} {schedule : Nat} {lots : List Nat} (empty : (s.kiln k).state = .empty)
    (known : (s.findSchedule schedule).isSome = true) (waiting : s.uncharged lots = none) (moved : moves k) :
    Keeps moves s (s.chargeKiln k schedule lots) := by
  have own : (s.chargeKiln k schedule lots).kiln k = (s.kiln k).charged schedule lots := State.kiln_setKiln_same ..
  have others j (ne : j ≠ k) : (s.chargeKiln k schedule lots).kiln j = s.kiln j := State.kiln_setKiln_other _ _ ne
  have numbers (l : LotRecord) : (if lots.contains l.number then l.withState .inKiln else l).number = l.number := by split <;> rfl
  have places : SamePlaces s (s.chargeKiln k schedule lots) :=
    ⟨by simp only [State.chargeKiln, State.setLotStates, State.setKiln_lots, List.map_map]; exact List.map_congr_left fun l _ => numbers l,
      rfl, rfl, rfl, rfl⟩
  refine
    { attention := attentionSound_ports fun l => by cases l <;> rfl, heat := id, table := places.kept.1, labels := places.kept.2,
      queue := id, line := (LineKept.of_queue_stackers rfl rfl).sound, lots := fun h => ?_, store := fun h => ?_,
      steps := fun _ _ j hj => by rw [others j fun e => hj (e ▸ moved)]; exact ⟨rfl, rfl⟩ }
  · obtain ⟨table, -, -, charges, -, -⟩ := id h
    have state l (hl : l ∈ s.lots) (hn : lots.contains l.number = true) : l.state = .waiting := by
      obtain ⟨x, found, state⟩ := uncharged_waiting waiting (by simpa using hn)
      obtain ⟨hx, number⟩ := findLot_mem found
      rwa [table.unique hl hx number] at state
    have wasEmpty := charges.2.2.2 k empty
    refine h.map (places.kept.1 table) rfl (fun l _ => ?_) rfl
      (chargesSound_replace charges rfl (fun l _ => numbers l) others (fun l hl => ?_) (fun n hn j _ hj => ?_) (fun n hn => ?_) ?_)
      fun l hl _ m => ?_
    · split
      · exact sameTallies_withState ..
      · exact ⟨rfl, fun _ => rfl, rfl, rfl⟩
    · rw [own, wasEmpty]
      simp only [KilnContext.charged, List.not_mem_nil, not_false_eq_true, and_true]
      split
      next hn => exact ⟨fun _ => .inl (by simpa using hn), fun _ => rfl⟩
      next hn => exact ⟨.inr, fun e => e.resolve_left (by simpa using hn)⟩
    · rw [own] at hn
      obtain ⟨x, found, waits⟩ := uncharged_waiting waiting hn
      obtain ⟨hx, rfl⟩ := findLot_mem found
      rw [(charges.1 x hx).2 ⟨j, hj⟩] at waits
      cases waits
    · rw [own] at hn
      obtain ⟨x, found, -⟩ := uncharged_waiting waiting hn
      obtain ⟨hx, rfl⟩ := findLot_mem found
      exact List.mem_map.2 ⟨x, hx, rfl⟩
    · rw [own]; nofun
    · split
      next hn => rw [state l hl hn] at m; cases m
      · exact m
  · refine storeSound_replace h rfl others ?_
    rw [stepCount_named (show ((s.chargeKiln k schedule lots).kiln k).scheduleId = some schedule by rw [own]; rfl), own]
    refine ⟨⟨nofun, nofun⟩, fun _ => ?_⟩
    obtain ⟨c, found⟩ := Option.isSome_iff_exists.1 known
    have : (s.chargeKiln k schedule lots).findSchedule schedule = some c := found
    rw [this]
    exact (h.2.2.1 c (List.mem_of_find?_eq_some found)).2.2.2.2.1

theorem keeps_kilnCharge (q : ChargeBody) (s : State)
    (named : ∀ k, placeOf 8 q.kiln = some k → (s.kiln k).state = .empty → moves k) : Keeps moves s (kilnCharge q s).1 := by
  fun_cases kilnCharge q s
  case case7 k hk ok empty known distinct waiting =>
    have empty : (s.kiln k).state = .empty := not_not.1 empty
    exact keeps_chargeKiln empty (by simpa [Option.isSome_iff_ne_none] using known) waiting (named k hk empty)
  all_goals exact .refl s

/-! ### KILN UNLOAD (05, R83) -/

theorem unload_spec (l : LotRecord) (k : KilnNo) (c : KilnContext) (m : Nat) :
    SameTallies l (l.unload k c m) ∧ (l.unload k c m).state ≠ .inKiln := by
  unfold LotRecord.unload
  split
  · refine ⟨⟨rfl, fun d => by cases d <;> rfl, rfl, rfl⟩, ?_⟩
    dsimp only
    split <;> nofun
  · exact ⟨⟨rfl, fun d => by cases d <;> rfl, rfl, rfl⟩, nofun⟩

/-- A kiln's lots out of it, and the kiln EMPTY. -/
def State.unloadKiln (s : State) (k : KilnNo) : State := (s.unloadLots k).setKiln k (s.kiln k).unloaded

theorem keeps_unloadKiln {s : State} {k : KilnNo} (moved : moves k) : Keeps moves s (s.unloadKiln k) := by
  have own : (s.unloadKiln k).kiln k = (s.kiln k).unloaded := State.kiln_setKiln_same ..
  have others j (ne : j ≠ k) : (s.unloadKiln k).kiln j = s.kiln j := State.kiln_setKiln_other _ _ ne
  have tallies (l : LotRecord) : SameTallies l (if (s.kiln k).charge.contains l.number then l.unload k (s.kiln k) s.minute else l) := by
    split
    · exact (unload_spec ..).1
    · exact ⟨rfl, fun _ => rfl, rfl, rfl⟩
  have places : SamePlaces s (s.unloadKiln k) :=
    ⟨by simp only [State.unloadKiln, State.unloadLots, State.setKiln_lots, List.map_map]
        exact List.map_congr_left fun l _ => (tallies l).number, rfl, rfl, rfl, rfl⟩
  refine
    { attention := attentionSound_ports fun l => by cases l <;> rfl, heat := id, table := places.kept.1, labels := places.kept.2,
      queue := id, line := (LineKept.of_queue_stackers rfl rfl).sound, lots := fun h => ?_, store := fun h => ?_,
      steps := fun _ _ j hj => by rw [others j fun e => hj (e ▸ moved)]; exact ⟨rfl, rfl⟩ }
  · obtain ⟨table, -, -, charges, -, -⟩ := id h
    refine h.map (places.kept.1 table) rfl (fun l _ => tallies l) rfl
      (chargesSound_replace charges rfl (fun l _ => (tallies l).number) others (fun l hl => ?_) (fun n hn => ?_) (fun n hn => ?_) ?_)
      fun l hl _ m => ?_
    · rw [own]
      simp only [KilnContext.unloaded, List.not_mem_nil, false_or]
      split
      next hn => exact ⟨fun e => absurd e (unload_spec ..).2, fun e => absurd (by simpa using hn) e.2⟩
      next hn => exact ⟨fun e => ⟨e, by simpa using hn⟩, fun e => e.1⟩
    · rw [own] at hn; cases hn
    · rw [own] at hn; cases hn
    · rw [own]; exact fun _ => rfl
    · split
      next hn =>
        rw [(charges.1 l hl).2 ⟨k, by simpa using hn⟩] at m
        cases m
      · exact m
  · refine storeSound_replace h rfl others ?_
    rw [own]
    exact ⟨⟨fun _ => rfl, fun _ => rfl⟩, fun e => absurd rfl e⟩

theorem keeps_clearHits (s : State) (k : KilnNo) : Keeps moves s (s.clearHits k) :=
  keeps_of_heatKept (onlyKilns_clearHits ..) (sameHeat_clearHits ..).kept (kilnsKept_clearHits ..)

theorem keeps_kilnUnload (n : Nat) (s : State)
    (named : ∀ k, placeOf 8 n = some k → (s.kiln k).state = .loaded ∨ (s.kiln k).state = .finished → moves k) :
    Keeps moves s (kilnUnload n s).1 := by
  fun_cases kilnUnload n s
  case case2 k hk c state s1 s2 =>
    have enable : s2.masterEnable = s.masterEnable := (sameHeat_clearHits ..).2.2
    have emptied : Keeps moves s s2 :=
      (keeps_unloadKiln (named k hk state)).trans (keeps_clearHits ..) fun off _ => off
    show Keeps moves s (if _ then _ else _)
    split
    · exact emptied.trans (keeps_raiseLotHeld _) fun off _ => enable.trans off
    · exact emptied
  all_goals exact .refl s

end Sys2Proof.Machine
end

section
/-! The start-ups and CLEAR ALL keep every invariant (11, R187 to R189), and so does every command. -/

namespace Sys2Proof.Machine

variable {moves : KilnNo → Prop}

/-! ### The records with retention lost -/

theorem cleared_kiln (s : State) (k : KilnNo) : s.clearedRecords.kiln k = .unused := Vector.getElem_replicate ..

theorem cleared_stacker (s : State) (st : StackerNo) : s.clearedRecords.stacker st = .unused := Vector.getElem_replicate ..

theorem cleared_heatSound (s : State) : HeatSound s.clearedRecords := ⟨Nat.zero_le _, fun _ => rfl⟩

theorem cleared_tableSound (s : State) : TableSound s.clearedRecords := by
  have reserved : s.clearedRecords.reservations = [] := rfl
  refine ⟨.nil, by rw [reserved]; exact .nil, fun n hn => (by rw [reserved] at hn; cases hn), ?_⟩
  unfold State.slotsTaken
  rw [reserved]
  exact Nat.zero_le _

theorem cleared_labelsSound (s : State) : LabelsSound s.clearedRecords :=
  (labelsSound_iff _).2 ⟨Nat.zero_le _, Nat.zero_le _⟩

theorem cleared_lots (s : State) : s.clearedRecords.lots = [] := rfl

theorem cleared_queue (s : State) : s.clearedRecords.queue = [] := rfl

theorem cleared_lineSound (s : State) : LineSound s.clearedRecords := by
  simp [LineSound, QueueSound, cleared_stacker, cleared_queue, Stacker.unused]

theorem cleared_lotsSound (s : State) : LotsSound s.clearedRecords := by
  have charges : ChargesSound s.clearedRecords := by
    simp [ChargesSound, cleared_kiln, cleared_lots, KilnContext.unused]
  have tallies : TalliesSound s.clearedRecords := by simp [TalliesSound, cleared_lots]
  exact ⟨cleared_tableSound s, Nat.zero_le _, by simp [cleared_queue], charges, tallies, by simp [cleared_queue]⟩

theorem cleared_storeSound (s : State) : StoreSound s.clearedRecords := by
  simp only [StoreSound, cleared_kiln, KilnContext.unused]
  exact ⟨.nil, Nat.zero_le _, nofun, fun _ => ⟨by simp, fun h => absurd rfl h⟩⟩

theorem attentionSound_fresh {t : State} (h : ∀ l, (t.port l).mask = 0) : AttentionSound t := fun l => by
  rw [h l]
  exact BitVec.and_zero

theorem keeps_cleared {s t : State} (rest : Beside s.clearedRecords t) (ports : ∀ l, (t.port l).mask = 0) (moved : ∀ k, moves k) :
    Keeps moves s t := by
  have kept : Keeps moves s.clearedRecords t := rest.keeps
  exact
    { attention := fun _ => attentionSound_fresh ports, heat := fun _ => kept.heat (cleared_heatSound s),
      table := fun _ => kept.table (cleared_tableSound s), labels := fun _ => kept.labels (cleared_labelsSound s),
      queue := fun _ => kept.queue (Nat.zero_le _), line := fun _ => kept.line (cleared_lineSound s),
      lots := fun _ => kept.lots (cleared_lotsSound s), store := fun _ => kept.store (cleared_storeSound s),
      steps := fun _ _ k hk => absurd (moved k) hk }

/-! ### The records with retention intact -/

/-- The settings and stackers of a start-up, before its kilns (R147, R168). -/
def State.restarted (s : State) : State :=
  { s with masterEnable := false, lineHeld := false, shadow := false, stackers := s.stackers.map Stacker.restarted }

theorem keptRecords_eq (s : State) : s.keptRecords = allKilns.foldl (fun s k => (s.closeDoor k).formDormant k) s.restarted := rfl

theorem restarted_stacker (s : State) (st : StackerNo) : s.restarted.stacker st = (s.stacker st).restarted := Vector.getElem_map ..

theorem samePlaces_restarted (s : State) : SamePlaces s s.restarted where
  numbers := rfl
  reserved := by
    unfold State.reservations
    change List.filterMap _ (s.stackers.map Stacker.restarted).toList = _
    rw [Vector.toList_map, List.filterMap_map]
    rfl
  closing := by
    unfold State.closingCount
    change List.countP _ (s.stackers.map Stacker.restarted).toList = _
    rw [Vector.toList_map, List.countP_map]
    rfl
  labels := rfl
  serial := rfl

/-- No kiln holds a grant after the records of a start-up. -/
theorem keptRecords_heatSound (s : State) : HeatSound s.keptRecords := by
  obtain ⟨kilns, heat, rest, grants, -⟩ := dormant_fold allKilns (by decide) s.restarted
  have zero : s.keptRecords.grantSum = 0 := grantSum_eq_zero _ fun k => by
    rw [keptRecords_eq, grants k, if_pos (mem_allKilns k)]
  exact ⟨by rw [zero]; exact Nat.zero_le _, fun _ => zero⟩

theorem keeps_keptRecords (s : State) : Keeps moves s s.keptRecords := by
  have kept : KilnsKept moves s.restarted s.keptRecords := kilnsKept_foldl _ kilnsKept_keepRecord _ _
  have only : OnlyKilns s.restarted s.keptRecords := onlyKilns_foldl _ onlyKilns_keepRecord _ _
  have kilns : Keeps moves s.restarted s.keptRecords := keeps_of_kilns only (fun _ => keptRecords_heatSound s) kept
  have places := (samePlaces_restarted s).kept
  have ports : PortsRaised s s.restarted := .of_ports fun l => by cases l <;> rfl
  have line : LineKept s s.restarted :=
    .of_same rfl (fun st => by rw [restarted_stacker]; rfl) fun st => by rw [restarted_stacker]; rfl
  exact
    { attention := kilns.attention ∘ ports.sound, heat := fun _ => keptRecords_heatSound s, table := kilns.table ∘ places.1,
      labels := kilns.labels ∘ places.2, queue := kilns.queue, line := kilns.line ∘ line.sound,
      lots := kilns.lots ∘ lotsSound_same places.1 rfl rfl (fun _ => rfl) fun _ => id,
      store := kilns.store ∘ storeSound_same rfl rfl, steps := fun _ off k hk => kept.steps off k hk }

theorem keeps_purge (s : State) : Keeps moves s s.purge :=
  keeps_of_packs (onlyPacks_purge s) (kept_purge s) (purge_keeps (fun s b h _ => queueSound_loseBoard s b h) s)
    (lineKept_purge s).sound lotsSound_purge

theorem onlyPacks_reexamineAll (s : State) : OnlyPacks s s.reexamineAll := onlyPacks_examineOver (fun _ _ => true) allStackers s

theorem numbersKept_examineOver (p : StackerNo → BlockReason → Bool) (l : List StackerNo) :
    ∀ s, NumbersKept s (State.examineOver p s l).1 := by
  induction l with
  | nil => exact fun s => .refl s
  | cons st l ih => exact fun s => ((numbersKept_judgeBlock ..).trans (numbersKept_retryIdleClose ..)).trans (ih _)

theorem keeps_reexamineAll (s : State) : Keeps moves s s.reexamineAll := by
  have places : PlacesKept s s.reexamineAll := kept_examineOver (fun _ _ => true) allStackers s
  have numbers : NumbersKept s s.reexamineAll := numbersKept_examineOver (fun _ _ => true) allStackers s
  have line : LineKept s s.reexamineAll := lineKept_examineOver (fun _ _ => true) allStackers s
  have lots : LotsKept s s.reexamineAll := lotsKept_examineOver (fun _ _ => true) allStackers s
  exact keeps_of_stackers (onlyPacks_reexamineAll s) places numbers.queue line lots

theorem OnlyPacks.enable {s t : State} (h : OnlyPacks s t) : t.masterEnable = s.masterEnable := by rw [h.rest]

theorem keeps_purgeReexamine (s : State) : Keeps moves s s.purge.reexamineAll :=
  (keeps_purge s).trans (keeps_reexamineAll s.purge) fun off _ => (onlyPacks_purge s).enable.trans off

/-- A start-up with retention intact leaves the kilns at their steps. -/
theorem keeps_intact (s : State) : Keeps moves s s.keptRecords.purge.reexamineAll := by
  have packs (v : State) : OnlyPacks v v.purge.reexamineAll := (onlyPacks_purge v).trans (onlyPacks_reexamineAll v.purge)
  exact (keeps_keptRecords s).trans (keeps_purgeReexamine s.keptRecords) fun _ off => (packs s.keptRecords).enable.symm.trans off

theorem startUp_mask (s : State) (kind : StartUpKind) (p : Straps) (l : Link) : ((s.startUp kind p).port l).mask = 0 := by
  cases l <;> rfl

/-- A start-up from the state before it, or from one that differs from it beside the records. -/
theorem keeps_startUp {s v : State} (before : Beside s v) (kind : StartUpKind) (p : Straps) (moved : kind.lost = true → ∀ k, moves k) :
    Keeps moves s (v.startUp kind p) := by
  refine Keeps.after_beside before ?_
  have ports : AttentionSound (v.startUp kind p) := attentionSound_fresh (startUp_mask v kind p)
  have records : Beside (v.startUpRecords kind.lost) (v.startUp kind p) := ⟨rfl, fun _ => ports⟩
  unfold State.startUpRecords at records
  split at records
  next lost => exact keeps_cleared records (startUp_mask v kind p) (moved lost)
  · exact (keeps_intact v).then_beside records

/-- A CLEAR ALL is accepted when every kiln is EMPTY (R189). -/
theorem keeps_clearAll (u : Unit) (s : State) (moved : (∀ k, (s.kiln k).state = .empty) → ∀ k, moves k) : Keeps moves s (clearAll u s).1 := by
  fun_cases clearAll u s
  case case2 free =>
    have masks l : (s.cleared.port l).mask = 0 := by cases l <;> rfl
    have empty : s.kilnsEmpty = true := by
      simp only [Bool.or_eq_true, not_or, Bool.not_eq_true, Bool.not_eq_false'] at free
      exact free.1.1
    exact keeps_cleared ⟨rfl, fun _ => attentionSound_fresh masks⟩ masks
      (moved fun k => by simpa using List.all_eq_true.1 empty k (mem_allKilns k))
  all_goals exact .refl s

/-! ### Links, supply and time -/

theorem keeps_attentionTake (l : Link) (u : Unit) (s : State) : Keeps moves s (attentionTake l u s).1 := by
  refine Beside.keeps ⟨by cases l <;> rfl, fun h j => ?_⟩
  obtain rfl | ne := eq_or_ne j l
  · cases j <;> exact BitVec.zero_and
  · have : ((s.takeAttention l).port j) = s.port j := State.port_setPort_other s _ ne
    exact (congrArg (fun p : LinkPort => p.pending &&& p.mask) this).trans (h j)

/-- The classes of a new mask leave the pending set (R186). -/
theorem keeps_attentionMask (l : Link) (m : ClassSet) (s : State) : Keeps moves s (attentionMask l m s).1 := by
  fun_cases attentionMask l m s
  case case2 =>
    refine Beside.keeps ⟨by cases l <;> rfl, fun h j => ?_⟩
    obtain rfl | ne := eq_or_ne j l
    · have : ((s.maskAttention j m).port j).pending &&& ((s.maskAttention j m).port j).mask = (s.port j).pending &&& ~~~m &&& m := by
        cases j <;> rfl
      refine this.trans ?_
      rw [BitVec.and_assoc]
      simp
    · have : ((s.maskAttention l m).port j) = s.port j := State.port_setPort_other s _ ne
      exact (congrArg (fun p : LinkPort => p.pending &&& p.mask) this).trans (h j)
  all_goals exact .refl s

theorem beside_unknownKind (kind : Byte) (f : Request) (s : State) : Beside s (unknownKind kind f s) := by
  unfold unknownKind
  split
  · split
    · exact beside_setReceiver ..
    · split
      · exact .refl s
      · exact beside_answer ..
  · exact .refl s

theorem beside_whenReceiving (s : State) (l : Link) (r : Receiver) : Beside s (s.whenReceiving l r) := by
  unfold State.whenReceiving
  split
  · exact beside_setReceiver ..
  all_goals exact .refl s

theorem beside_breakSeen (s : State) (l : Link) : Beside s (s.breakSeen l) := by
  unfold State.breakSeen
  split
  · exact beside_setReceiver ..
  · exact beside_setReceiver ..
  all_goals exact .refl s

theorem beside_sent (s : State) (l : Link) : Beside s (s.sent l) := by
  unfold State.sent
  split
  · exact beside_setReceiver ..
  · exact beside_setReceiver ..
  all_goals exact .refl s

theorem beside_beginResponse (s : State) (l : Link) : Beside s (s.beginResponse l) := by
  unfold State.beginResponse
  split
  · exact beside_setReceiver ..
  all_goals exact .refl s

theorem beside_beginResponses (s : State) : Beside s s.beginResponses := by
  unfold State.beginResponses
  split
  · exact ((beside_beginResponse ..).trans (beside_beginResponse ..)).trans (beside_beginResponse ..)
  · exact .refl s

/-- A minute's passes and counts leave the enable (05, R69, R74; 06, R98). -/
theorem keeps_minuteWith (first : Bool) (s : State) : Keeps moves s (State.minuteWith first s) := by
  obtain ⟨v, hv⟩ : ∃ v : State, v = { s with minute := s.minute + 1 } := ⟨_, rfl⟩
  have clock : Beside s v := hv ▸ ⟨rfl, attentionSound_ports fun l => by cases l <;> rfl⟩
  have enable (u : State) (h : HeatKept v u) (off : u.masterEnable = false) : v.masterEnable = false := h.2.1.symm.trans off
  have counted : Keeps moves v (if first then v.passAndSettle.countKilns else v.countKilns.passAndSettle) := by
    split
    · exact (keeps_passAndSettle v).trans (keeps_countKilns _) fun off _ => (heatKept_passAndSettle v).2.1.trans off
    · exact (keeps_countKilns v).trans (keeps_passAndSettle _) fun off _ => (heatKept_countKilns v).2.1.trans off
  refine Keeps.after_beside clock ?_
  have whole : State.minuteWith first s =
      (if first then v.passAndSettle.countKilns else v.countKilns.passAndSettle).idleStackers := by rw [hv]; rfl
  rw [whole]
  exact counted.trans (keeps_idleStackers _) fun _ off => by rw [(onlyPacks_idleStackers _).rest] at off; exact off

/-- A body of one byte names its place by that byte. -/
theorem readU8_place {body : List Byte} {n m : Nat} {k : Fin m} (h : readU8 body = some n) (hk : placeOf m n = some k) : body = u8 k := by
  unfold readU8 at h
  split at h
  next a =>
    cases h
    unfold placeOf at hk
    split at hk
    · cases hk
      simp [u8, byteOf]
    · cases hk
  · cases h

theorem readKilnCharge_head {body : List Byte} {q : ChargeBody} {k : KilnNo} (h : readKilnCharge body = some q)
    (hk : placeOf 8 q.kiln = some k) : body.head? = some (byteOf k) := by
  unfold readKilnCharge at h
  split at h
  next a b c rest =>
    obtain ⟨l, -, rfl⟩ := Option.map_eq_some_iff.1 h
    unfold placeOf at hk
    split at hk
    · cases hk
      simp [byteOf]
    · cases hk
  · cases h

/-! ### Every command -/

/-- Every command keeps every invariant, and, while the master enable is clear, the steps of the kilns it does not move (06, R108). -/
theorem exec_keeps {c : Instr} {s t : State} (h : exec c s = .next t) : Keeps (movesStep c s) s t := by
  cases c with
  | ident | clockRead | binMapRead | holdPointRead => exact keeps_serve (fun _ _ => .refl s) h
  | lotRead f => exact keeps_serve (fun q _ => by fun_cases lotRead q s <;> exact .refl s) h
  | lotList f => exact keeps_serve (fun q _ => by fun_cases lotList q s <;> exact .refl s) h
  | kilnRead f => exact keeps_serve (fun q _ => by fun_cases kilnRead q s <;> exact .refl s) h
  | stackerRead f => exact keeps_serve (fun q _ => by fun_cases stackerRead q s <;> exact .refl s) h
  | queueRead f => exact keeps_serve (fun q _ => by fun_cases queueRead q s <;> exact .refl s) h
  | scheduleRead f => exact keeps_serve (fun q _ => by fun_cases scheduleRead q s <;> exact .refl s) h
  | speciesRead f => exact keeps_serve (fun q _ => by fun_cases speciesRead q s <;> exact .refl s) h
  | labelRead f => exact keeps_serve (fun q _ => by fun_cases labelRead q s <;> exact .refl s) h
  | lineHold => exact keeps_serve (fun _ _ => keeps_setLine true s) h
  | lineRun => exact keeps_serve (fun _ _ => keeps_setLine false s) h
  | shadowOn => exact keeps_serve (fun _ _ => keeps_setShadow true s) h
  | shadowOff => exact keeps_serve (fun _ _ => keeps_setShadow false s) h
  | attentionTake => exact keeps_serve (fun q _ => keeps_attentionTake _ q s) h
  | attentionMask => exact keeps_serve (fun q _ => keeps_attentionMask _ q s) h
  | lotCreate => exact keeps_serve (fun q _ => keeps_lotCreate q s) h
  | lotModify => exact keeps_serve (fun q _ => keeps_lotModify q s) h
  | lotHold => exact keeps_serve (fun q _ => keeps_lotHold q s) h
  | lotRelease => exact keeps_serve (fun q _ => keeps_lotRelease q s) h
  | lotFinish => exact keeps_serve (fun q _ => keeps_lotFinish q s) h
  | lotRemove => exact keeps_serve (fun q _ => keeps_lotRemove q s) h
  | redryRange => exact keeps_serve (fun q _ => keeps_setRedryRange q s) h
  | scheduleWrite => exact keeps_serve (fun q hq => keeps_scheduleWrite q s (readScheduleWrite_counts hq)) h
  | scheduleDelete => exact keeps_serve (fun q _ => keeps_scheduleDelete q s) h
  | speciesWrite => exact keeps_serve (fun q _ => keeps_speciesWrite q s) h
  | speciesDelete => exact keeps_serve (fun q _ => keeps_speciesDelete q s) h
  | sampleEnter => exact keeps_serve (fun q _ => keeps_sampleEnter q s) h
  | sampleWeigh => exact keeps_serve (fun q _ => keeps_sampleWeigh q s) h
  | sampleRemove => exact keeps_serve (fun q _ => keeps_sampleRemove q s) h
  | kilnCharge => exact keeps_serve (fun q hq => keeps_kilnCharge q s fun k hk empty => ⟨readKilnCharge_head hq hk, empty⟩) h
  | kilnStart => exact keeps_serve (fun q _ => keeps_kilnStart q s) h
  | kilnStop => exact keeps_serve (fun q _ => keeps_kilnStop q s) h
  | kilnUnload => exact keeps_serve (fun q hq => keeps_kilnUnload q s fun k hk state => ⟨readU8_place hq hk, state⟩) h
  | kilnSetup => exact keeps_serve (fun q _ => keeps_kilnSetup q s) h
  | kilnHold => exact keeps_serve (fun q _ => keeps_kilnHold q s) h
  | kilnRelease => exact keeps_serve (fun q _ => keeps_kilnRelease q s) h
  | kilnAdvance => exact keeps_serve (fun q hq => keeps_kilnAdvance q s fun k hk state => ⟨readU8_place hq hk, state⟩) h
  | holdPointSet => exact keeps_serve (fun q _ => keeps_holdPointSet q s) h
  | boilerCapacity => exact keeps_serve (fun q _ => keeps_boilerCapacity q s) h
  | binMapWrite => exact keeps_serve (fun q _ => keeps_binMapWrite q s) h
  | binMapSet => exact keeps_serve (fun q _ => keeps_binMapSet q s) h
  | stackerSetup => exact keeps_serve (fun q _ => keeps_stackerSetup q s) h
  | labelRelease => exact keeps_serve (fun q _ => keeps_labelRelease q s) h
  | clearAll => exact keeps_serve (fun q _ => keeps_clearAll q s fun empty => empty) h
  | kilnReport => exact keeps_serve (fun q _ => keeps_kilnReport q s) h
  | measure => exact keeps_serve (fun q _ => keeps_takeMeasure q s) h
  | drop => exact keeps_serve (fun q _ => keeps_drop q s) h
  | lost => exact keeps_serve (fun q _ => keeps_lost q s) h
  | packClose => exact keeps_serve (fun q _ => keeps_packClose q s) h
  | unknownKind kind f =>
    injection h with h
    exact h ▸ (beside_unknownKind kind f s).keeps
  | syncByte l =>
    refine keeps_whileRunning (fun _ => ?_) h
    split
    · exact (beside_setReceiver ..).keeps
    · exact .refl s
  | frameAbandoned l heard =>
    refine keeps_whileRunning (fun _ => ?_) h
    split
    · exact (beside_whenReceiving ..).keeps
    · exact .refl s
  | byteGapTimeout l => exact keeps_whileRunning (event := (·.whenReceiving l _)) (fun _ => (beside_whenReceiving ..).keeps) h
  | lineBreak l => exact keeps_whileRunning (event := (·.breakSeen l)) (fun _ => (beside_breakSeen ..).keeps) h
  | responseSent l => exact keeps_whileRunning (event := (·.sent l)) (fun _ => (beside_sent ..).keeps) h
  | minuteEvent =>
    refine keeps_whileRunning (fun _ => ?_) h
    have chosen : Beside s { s with choices := s.choices + 1 } := ⟨rfl, attentionSound_ports fun l => by cases l <;> rfl⟩
    split
    · exact (keeps_minuteWith ..).after_beside chosen
    · exact .refl s
  | minuteCountStopped =>
    injection h with h
    exact h ▸ .refl s
  | stepForced k =>
    refine keeps_whileRunning (fun _ => ?_) h
    split
    · exact keeps_evaluateNow s k
    · exact .refl s
  | heatWaitAged k =>
    refine keeps_whileRunning (fun _ => ?_) h
    split
    · exact keeps_passAndSettle s
    · exact .refl s
  | idleClose st => exact keeps_whileRunning (event := (·.idleClose st)) (fun _ => keeps_idleClose s st) h
  | millStop =>
    injection h with h
    subst h
    split
    · exact keeps_stopMill s
    · exact Beside.keeps ⟨rfl, attentionSound_ports fun l => by cases l <;> rfl⟩
  | millStopReleased =>
    injection h with h
    exact h ▸ Beside.keeps ⟨rfl, attentionSound_ports fun l => by cases l <;> rfl⟩
  | powerLoss =>
    injection h with h
    subst h
    split
    · exact Beside.keeps ⟨rfl, attentionSound_ports fun l => by cases l <;> rfl⟩
    · exact Beside.keeps ⟨rfl, attentionSound_ports fun l => by cases l <;> rfl⟩
    · exact .refl s
  | powerOn held straps =>
    injection h with h
    subst h
    have marker : Beside s { s with completionMarker := false } := ⟨rfl, attentionSound_ports fun l => by cases l <;> rfl⟩
    split
    · dsimp only
      split
      · exact Beside.keeps ⟨rfl, attentionSound_ports fun l => by cases l <;> rfl⟩
      · refine keeps_startUp marker _ straps fun lost _ => ?_
        unfold State.judgePower at lost
        split at lost
        · cases lost
        next judged => exact Bool.eq_false_iff.2 judged
    · exact .refl s
  | resetAsserted =>
    injection h with h
    subst h
    have line : Beside s { s with resetLine := true } := ⟨rfl, attentionSound_ports fun l => by cases l <;> rfl⟩
    dsimp only
    split
    · have receivers := ((line.trans (beside_setReceiver _ .office .hunting)).trans (beside_setReceiver _ .kilnHouse .hunting)).trans
        (beside_setReceiver _ .planer .hunting)
      exact (receivers.trans ⟨rfl, attentionSound_ports fun l => by cases l <;> rfl⟩).keeps
    · exact line.keeps
  | resetReleased straps =>
    injection h with h
    subst h
    have line : Beside s { s with resetLine := false } := ⟨rfl, attentionSound_ports fun l => by cases l <;> rfl⟩
    dsimp only
    split
    next kind held =>
      refine keeps_startUp line kind straps fun lost _ => ?_
      cases kind with
      | powerLost => exact held
      | powerIntact | reset | clearAll => cases lost
    · exact line.keeps
    · exact line.keeps

/-- Every step keeps every invariant. -/
theorem step_keeps {s t : State} (h : step s = .next t) : ∃ moves, Keeps moves s t := by
  unfold step at h
  split at h
  · injection h with h
    exact ⟨fun _ => True, h ▸ (beside_beginResponses s).keeps⟩
  next c rest hp =>
    have dequeued : Beside s { s with pending := rest } := ⟨rfl, attentionSound_ports fun l => by cases l <;> rfl⟩
    exact ⟨_, (exec_keeps h).after_beside dequeued⟩

end Sys2Proof.Machine

open Sys2Proof Sys2Proof.Machine

/-- Settles O4: every step keeps the ports as raising, taking and masking do, each of which keeps the pending set clear of the mask. -/
theorem pendingClearOfMask : Obligations.PendingClearOfMask := fun _ _ sound h => let ⟨_, kept⟩ := step_keeps h; kept.attention sound

/-- Settles O5: every operation of the arbiter grants within the free units, or takes grants back. -/
theorem grantsWithinCapacity : Obligations.GrantsWithinCapacity := fun _ _ sound h => let ⟨_, kept⟩ := step_keeps h; kept.heat sound

/-- Settles O6: a number is taken from those not in use, and a reservation becomes the record of its number. -/
theorem lotNumbersUsedOnce : Obligations.LotNumbersUsedOnce := fun _ _ sound h => let ⟨_, kept⟩ := step_keeps h; kept.table sound

/-- Settles O7: a close takes a free label slot, and a completion makes a label of it. -/
theorem labelPlacesWithinSixteen : Obligations.LabelPlacesWithinSixteen := fun _ _ sound h =>
  let ⟨_, kept⟩ := step_keeps h; kept.labels sound

/-- Settles O8: a board joins or leaves the queue with its pack's outstanding count. -/
theorem queueMatchesThePacks : Obligations.QueueMatchesThePacks := fun _ _ h => let ⟨_, kept⟩ := step_keeps h; ⟨kept.queue, kept.line⟩

/-- Settles O9: each counted or lost board moves its footage between pairs, and a charge takes and returns its lots whole. -/
theorem lotsBalanceAndCharge : Obligations.LotsBalanceAndCharge := fun _ _ sound h => let ⟨_, kept⟩ := step_keeps h; kept.lots sound

/-- Settles O10: a schedule is written within its ranges, and replaced or deleted only while no kiln names it. -/
theorem storeHoldsNamedSchedules : Obligations.StoreHoldsNamedSchedules := fun _ _ sound h =>
  let ⟨_, kept⟩ := step_keeps h; kept.store sound

/-- Settles O11: only a command that may move a kiln's step changes it while the enable is clear before and after. -/
theorem suspendedKilnsKeepTheirStep : Obligations.SuspendedKilnsKeepTheirStep := fun _ _ _ k before after h free =>
  (exec_keeps h).steps before after k free
end

section
/-! The step, the receivers and the routing of a frame (11, R178 to R182). -/

namespace Sys2Proof.Machine

/-! ### The beginning of responses (R181) -/

/-- A port on which the waiting response has begun. -/
def LinkPort.begun (p : LinkPort) : LinkPort :=
  match p.receiver with
  | .taking r => { p with receiver := .answering r }
  | _ => p

theorem beginResponse_port (s : State) (l j : Link) : (s.beginResponse l).port j = if j = l then (s.port l).begun else s.port j := by
  cases h : (s.port l).receiver with
  | taking r =>
    have begun : (s.port l).begun = { s.port l with receiver := .answering r } := by rw [LinkPort.begun, h]
    have begins : s.beginResponse l = s.setReceiver l (.answering r) := by rw [State.beginResponse, h]
    rw [begins, begun]
    obtain rfl | ne := eq_or_ne j l
    · rw [if_pos rfl]; exact State.port_setPort_same ..
    · rw [if_neg ne]; exact State.port_setPort_other _ _ ne
  | hunting | receiving | answering =>
    have begun : (s.port l).begun = s.port l := by rw [LinkPort.begun, h]
    have begins : s.beginResponse l = s := by rw [State.beginResponse, h]
    rw [begins, begun]
    split
    next e => rw [e]
    · rfl

theorem beginResponses_port (s : State) (h : s.condition = .running) (l : Link) : (s.beginResponses.port l) = (s.port l).begun := by
  unfold State.beginResponses
  rw [if_pos h, beginResponse_port, beginResponse_port, beginResponse_port]
  cases l <;> simp [beginResponse_port]

theorem beginResponse_rest (s : State) (l : Link) : s.beginResponse l =
    { s with officePort := (s.beginResponse l).officePort, kilnHousePort := (s.beginResponse l).kilnHousePort,
             planerPort := (s.beginResponse l).planerPort } := by
  unfold State.beginResponse
  split
  · cases l <;> rfl
  all_goals rfl

theorem beginResponses_rest (s : State) : s.beginResponses =
    { s with officePort := s.beginResponses.officePort, kilnHousePort := s.beginResponses.kilnHousePort,
             planerPort := s.beginResponses.planerPort } := by
  unfold State.beginResponses
  split
  · rw [beginResponse_rest _ .planer, beginResponse_rest _ .kilnHouse, beginResponse_rest _ .office]
  · rfl

/-! ### The routing of a frame (R182) -/

/-- A reading that has nothing for a body of another length. -/
def ReadsOnly {α : Type} (read : List Byte → Option α) (n : Nat) : Prop := ∀ b : List Byte, b.length ≠ n → read b = none

theorem readEmpty_only : ReadsOnly readEmpty 0 := fun b h => by unfold readEmpty; split; exacts [absurd rfl h, rfl]
theorem readU8_only : ReadsOnly readU8 1 := fun b h => by unfold readU8; split; exacts [absurd rfl h, rfl]
theorem readU16_only : ReadsOnly readU16 2 := fun b h => by unfold readU16; split; exacts [absurd rfl h, rfl]
theorem readU8U8_only : ReadsOnly readU8U8 2 := fun b h => by unfold readU8U8; split; exacts [absurd rfl h, rfl]
theorem readU16U16_only : ReadsOnly readU16U16 4 := fun b h => by unfold readU16U16; split; exacts [absurd rfl h, rfl]
theorem readU8Byte_only : ReadsOnly readU8Byte 2 := fun b h => by unfold readU8Byte; split; exacts [absurd rfl h, rfl]
theorem readClassSet_only : ReadsOnly readClassSet 2 := fun b h => by unfold readClassSet; split; exacts [absurd rfl h, rfl]
theorem readLotCreate_only : ReadsOnly readLotCreate 10 := fun b h => by unfold readLotCreate; split; exacts [absurd rfl h, rfl]
theorem readLotModify_only : ReadsOnly readLotModify 14 := fun b h => by unfold readLotModify; split; exacts [absurd rfl h, rfl]
theorem readLotRelease_only : ReadsOnly readLotRelease 4 := fun b h => by unfold readLotRelease; split; exacts [absurd rfl h, rfl]
theorem readSampleEnter_only : ReadsOnly readSampleEnter 6 := fun b h => by unfold readSampleEnter; split; exacts [absurd rfl h, rfl]
theorem readHoldPointSet_only : ReadsOnly readHoldPointSet 7 := fun b h => by unfold readHoldPointSet; split; exacts [absurd rfl h, rfl]
theorem readCapacity_only : ReadsOnly readCapacity 2 := fun b h => by unfold readCapacity; split; exacts [absurd rfl h, rfl]
theorem readBinMap_only : ReadsOnly readBinMap 15 := fun _ h => if_neg h
theorem readStackerSetup_only : ReadsOnly readStackerSetup 8 := fun b h => by unfold readStackerSetup; split; exacts [absurd rfl h, rfl]
theorem readKilnReport_only : ReadsOnly readKilnReport 6 := fun b h => by unfold readKilnReport; split; exacts [absurd rfl h, rfl]
theorem readMeasure_only : ReadsOnly readMeasure 10 := fun b h => by unfold readMeasure; split; exacts [absurd rfl h, rfl]

/-- A request of R182's table is served by its kind, with a reading that has nothing for a body out of its layout. -/
def ServedBy (i : Instr) (kind : Nat) (f : Request) : Prop :=
  ∃ (α : Type) (read : List Byte → Option α) (rule : α → State → State × Reply), (∀ s, exec i s = serve kind f read rule s) ∧
    ∀ b, layoutAgrees kind b = false → read b = none

/-- The layout of a fixed length. -/
theorem servedBy_fixed {i : Instr} {kind n : Nat} {f : Request} {α : Type} {read : List Byte → Option α}
    {rule : α → State → State × Reply} (only : ReadsOnly read n) (layout : ∀ b, layoutAgrees kind b = (b.length == n))
    (h : ∀ s, exec i s = serve kind f read rule s) : ServedBy i kind f :=
  ⟨α, read, rule, h, fun b hb => only b (by rw [layout] at hb; simpa using hb)⟩

theorem request_servedBy {i : Instr} {f : Request} {kind : Nat} (hf : i.frame? = some f) (hk : i.kind? = some kind) :
    ServedBy i kind f := by
  cases i with
  | ident | clockRead | attentionTake | binMapRead | holdPointRead | clearAll | lineHold | lineRun | shadowOn | shadowOff =>
    cases hf; cases hk; exact servedBy_fixed readEmpty_only (fun _ => rfl) fun _ => rfl
  | stackerRead | queueRead | scheduleDelete | speciesDelete | speciesRead | kilnStart | kilnStop | kilnUnload | kilnHold
  | kilnRelease | kilnAdvance | labelRelease | drop | packClose =>
    cases hf; cases hk; exact servedBy_fixed readU8_only (fun _ => rfl) fun _ => rfl
  | lotRead | lotList | lotHold | lotFinish | lotRemove | lost =>
    cases hf; cases hk; exact servedBy_fixed readU16_only (fun _ => rfl) fun _ => rfl
  | scheduleRead | sampleRemove | binMapSet | labelRead =>
    cases hf; cases hk; exact servedBy_fixed readU8U8_only (fun _ => rfl) fun _ => rfl
  | kilnRead | kilnSetup => cases hf; cases hk; exact servedBy_fixed readU8Byte_only (fun _ => rfl) fun _ => rfl
  | attentionMask => cases hf; cases hk; exact servedBy_fixed readClassSet_only (fun _ => rfl) fun _ => rfl
  | lotCreate => cases hf; cases hk; exact servedBy_fixed readLotCreate_only (fun _ => rfl) fun _ => rfl
  | lotModify => cases hf; cases hk; exact servedBy_fixed readLotModify_only (fun _ => rfl) fun _ => rfl
  | lotRelease => cases hf; cases hk; exact servedBy_fixed readLotRelease_only (fun _ => rfl) fun _ => rfl
  | redryRange => cases hf; cases hk; exact servedBy_fixed readU16U16_only (fun _ => rfl) fun _ => rfl
  | sampleEnter => cases hf; cases hk; exact servedBy_fixed readSampleEnter_only (fun _ => rfl) fun _ => rfl
  | holdPointSet => cases hf; cases hk; exact servedBy_fixed readHoldPointSet_only (fun _ => rfl) fun _ => rfl
  | boilerCapacity => cases hf; cases hk; exact servedBy_fixed readCapacity_only (fun _ => rfl) fun _ => rfl
  | binMapWrite => cases hf; cases hk; exact servedBy_fixed readBinMap_only (fun _ => rfl) fun _ => rfl
  | stackerSetup => cases hf; cases hk; exact servedBy_fixed readStackerSetup_only (fun _ => rfl) fun _ => rfl
  | kilnReport => cases hf; cases hk; exact servedBy_fixed readKilnReport_only (fun _ => rfl) fun _ => rfl
  | measure => cases hf; cases hk; exact servedBy_fixed readMeasure_only (fun _ => rfl) fun _ => rfl
  | scheduleWrite => cases hf; cases hk; exact ⟨_, _, _, fun _ => rfl, readScheduleWrite_none⟩
  | speciesWrite => cases hf; cases hk; exact ⟨_, _, _, fun _ => rfl, readSpeciesWrite_none⟩
  | sampleWeigh => cases hf; cases hk; exact ⟨_, _, _, fun _ => rfl, readSampleWeigh_none⟩
  | kilnCharge => cases hf; cases hk; exact ⟨_, _, _, fun _ => rfl, readKilnCharge_none⟩
  | unknownKind | frameAbandoned | byteGapTimeout | lineBreak | responseSent | minuteEvent | minuteCountStopped | stepForced
  | heatWaitAged | idleClose | millStop | millStopReleased | powerLoss | powerOn | resetAsserted | resetReleased | syncByte =>
    cases hk

/-- A request is of a kind of the table, or of one that the table lacks. -/
theorem request_kind {i : Instr} {f : Request} (hf : i.frame? = some f) :
    (∃ kind, i.kind? = some kind) ∨ ∃ kind, i = .unknownKind kind f := by
  cases i with
  | unknownKind kind g => cases hf; exact .inr ⟨kind, rfl⟩
  | frameAbandoned | byteGapTimeout | lineBreak | responseSent | minuteEvent | minuteCountStopped | stepForced | heatWaitAged
  | idleClose | millStop | millStopReleased | powerLoss | powerOn | resetAsserted | resetReleased | syncByte => cases hf
  | _ => exact .inl ⟨_, rfl⟩

theorem answer_receiver (s : State) (kind : Nat) (f : Request) (r : Reply) :
    ((s.answer kind f r).port f.link).receiver = .taking ⟨byteOf (kind + 0x80), f.tag, r.status, r.content⟩ := by
  unfold State.answer State.setReceiver
  rw [State.port_setPort_same]

/-! ### Characters and the check (R178, R180) -/

theorem bytesHeard_flatMap (bytes : List Byte) : bytesHeard (bytes.flatMap charLevels) = some bytes := by
  induction bytes with
  | nil => rfl
  | cons b bytes ih => rw [List.flatMap_cons, bytesHeard_charLevels, ih]; rfl

/-- One bit of the check as the generator's division takes it in. -/
def checkStep (r : BitVec 16) (d : Bool) : BitVec 16 := if r.getLsbD 15 != d then (r <<< 1) ^^^ 0x1021#16 else r <<< 1

/-- Data bits added to the register ahead of the division come out where they are taken in one by one. -/
theorem checkBit_xor (r w : BitVec 16) : checkBit (r ^^^ w) = checkStep r (w.getLsbD 15) ^^^ (w <<< 1) := by
  have msb : (r ^^^ w).msb = (r.getLsbD 15 != w.getLsbD 15) := by
    rw [BitVec.msb_xor, BitVec.msb_eq_getLsbD_last, BitVec.msb_eq_getLsbD_last]
  unfold checkBit checkStep
  rw [msb, BitVec.shiftLeft_xor_distrib]
  split
  · rw [BitVec.xor_assoc, BitVec.xor_comm (w <<< 1), ← BitVec.xor_assoc]; rfl
  · rfl

/-- The bits of a byte, from the most significant. -/
def bitsDown (b : Byte) : List Bool :=
  [b.getLsbD 7, b.getLsbD 6, b.getLsbD 5, b.getLsbD 4, b.getLsbD 3, b.getLsbD 2, b.getLsbD 1, b.getLsbD 0]

theorem checkByte_eq (r : BitVec 16) (b : Byte) : checkByte r b = (bitsDown b).foldl checkStep r := by
  have bit (i : Nat) (h : i < 8) : ((b.zeroExtend 16 <<< 8) <<< i).getLsbD 15 = b.getLsbD (7 - i) := by
    simp [← BitVec.shiftLeft_add, show ¬15 < 8 + i by omega, show 15 - (8 + i) = 7 - i by omega]
  have next (i : Nat) : ((b.zeroExtend 16 <<< 8) <<< i) <<< 1 = (b.zeroExtend 16 <<< 8) <<< (i + 1) := (BitVec.shiftLeft_add ..).symm
  have last : (b.zeroExtend 16 <<< 8) <<< 8 = 0#16 := by
    rw [← BitVec.shiftLeft_add]; exact BitVec.shiftLeft_eq_zero (by omega)
  have first : b.zeroExtend 16 <<< 8 = (b.zeroExtend 16 <<< 8) <<< 0 := (BitVec.shiftLeft_zero _).symm
  unfold checkByte
  dsimp only
  rw [first]
  simp only [checkBit_xor, next, last]
  simp only [bit, Nat.reduceAdd, Nat.reduceSub, Nat.reduceLT, Nat.lt_add_one, Nat.zero_lt_succ, BitVec.xor_zero]
  rfl

theorem foldl_checkByte (bytes : List Byte) : ∀ r, bytes.foldl checkByte r = (bytes.flatMap bitsDown).foldl checkStep r := by
  induction bytes with
  | nil => exact fun _ => rfl
  | cons b bytes ih =>
    intro r
    rw [List.foldl_cons, ih, checkByte_eq, List.flatMap_cons, List.foldl_append]

/-! ### Frames abandoned (R179) -/

theorem abandons_long {len : Byte} {rest : List Byte} (h : 248 < len.toNat) : abandons (len :: rest) = true := by
  unfold abandons
  exact if_pos h

theorem abandons_kind {len kind : Byte} {rest : List Byte} (h : 0x80 ≤ kind.toNat) : abandons (len :: kind :: rest) = true := by
  unfold abandons
  simp only [if_pos h, ite_self]

theorem abandons_whole (kind tag hi lo : Byte) (body : List Byte) (hk : kind.toNat < 0x80) (hb : body.length ≤ 248) :
    abandons (byteOf body.length :: kind :: tag :: (body ++ [hi, lo])) =
      (frameCheck (byteOf body.length :: kind :: tag :: body) != BitVec.ofNat 16 (n16 hi lo)) := by
  have length : (byteOf body.length).toNat = body.length := byteOf_toNat (by omega)
  have short : ¬Config.bodyMax < body.length := Nat.not_lt.2 hb
  unfold abandons
  simp only [length, if_neg short, if_neg (Nat.not_le.2 hk), List.take_left, List.drop_left]

end Sys2Proof.Machine

open Sys2Proof Sys2Proof.Machine

/-- Settles O1: the step's own branch for a command that waits. -/
theorem stepRunsFrontCommand : Obligations.StepRunsFrontCommand := by
  intro s c rest front
  unfold step
  rw [front]

/-- Settles O2: each port on its own. -/
theorem idleStepBeginsResponses : Obligations.IdleStepBeginsResponses := by
  intro s idle
  have stepped : step s = .next s.beginResponses := by unfold step; rw [idle]
  refine ⟨fun stopped => ?_, fun running => ⟨_, stepped, beginResponses_rest s, fun l r taking => ?_, fun l other => ?_⟩⟩
  · rw [stepped, State.beginResponses, if_neg stopped]
  · rw [beginResponses_port s running, LinkPort.begun, taking]
  · rw [beginResponses_port s running, LinkPort.begun]
    split
    next r h => exact absurd h (other r)
    · rfl

/-- Settles O3: the state after reset is what a start-up with retention lost gives. -/
theorem resetMeetsInvariants : Obligations.ResetMeetsInvariants := by
  have cleared : State.reset = State.reset.clearedRecords := rfl
  have masks l : (State.reset.port l).mask = 0 := by cases l <;> rfl
  exact ⟨attentionSound_fresh masks, cleared ▸ cleared_heatSound _, cleared ▸ cleared_tableSound _, cleared ▸ cleared_labelsSound _,
    cleared ▸ cleared_lineSound _, cleared ▸ cleared_lotsSound _, cleared ▸ cleared_storeSound _, rfl⟩

/-- Settles O12, the check by the lemma that added data bits divide as bits taken in. -/
theorem charactersAndFrames : Obligations.CharactersAndFrames := by
  refine ⟨fun b => rfl, bytesHeard_flatMap, fun bytes => foldl_checkByte bytes _, fun len rest h => abandons_long h,
    fun len kind rest h => abandons_kind h, fun kind tag hi lo body hk hb => ⟨?_, ?_⟩⟩
  · rw [abandons_whole kind tag hi lo body hk hb, bne_iff_ne]
    exact ne_comm
  · have tail : (frameBytes kind tag body).tail = byteOf body.length :: kind :: tag :: (body ++
        [byteOf ((frameCheck (byteOf body.length :: kind :: tag :: body)).toNat / 256),
          byteOf (frameCheck (byteOf body.length :: kind :: tag :: body)).toNat]) := rfl
    rw [tail, abandons_whole _ _ _ _ _ hk hb, ofNat_n16]
    simp

/-- Settles O13: each event by the receiver's state; a request that no receiver listens for, by the one rule of serving. -/
theorem receiverEventsAndDiscards : Obligations.ReceiverEventsAndDiscards := by
  refine ⟨fun s l running => ⟨fun h => ?_, fun heard h bad => ?_, fun h => ?_, fun h => ?_, fun r h => ?_, fun r h => ?_⟩,
    fun i f s hf deaf => ?_⟩
  · exact (whileRunning_running running).trans (by rw [if_pos h])
  · exact (whileRunning_running running).trans (by rw [if_pos bad, State.whenReceiving, h])
  · exact (whileRunning_running (event := (·.whenReceiving l _)) running).trans (by rw [State.whenReceiving, h])
  · exact (whileRunning_running (event := (·.breakSeen l)) running).trans (by
      obtain h | h := h <;> rw [State.breakSeen, h])
  · exact (whileRunning_running (event := (·.breakSeen l)) running).trans (by rw [State.breakSeen, h])
  · exact (whileRunning_running (event := (·.sent l)) running).trans (by rw [State.sent, h])
  · have unheard : s.listens f.link = false := by
      unfold State.listens
      obtain stopped | ⟨r, busy | busy⟩ := deaf
      · simp [stopped]
      · simp [busy]
      · simp [busy]
    obtain ⟨kind, hk⟩ | ⟨kind, rfl⟩ := request_kind hf
    · obtain ⟨_, _, _, served, -⟩ := request_servedBy hf hk
      rw [served, serve_discarded unheard]
    · change Host.Outcome.next (unknownKind kind f s) = _
      rw [unknownKind, unheard]
      rfl

/-- Settles O14: the checks of serving, with the reading of each kind's layout. -/
theorem routingChecksInOrder : Obligations.RoutingChecksInOrder := by
  refine ⟨fun kind f s hl hb unknown => ?_, fun i f kind s hf hk hl hb => ?_⟩
  · simp only [unserved, Bool.and_eq_true, decide_eq_true_eq, Option.isNone_iff_eq_none] at unknown
    obtain ⟨low, absent⟩ := unknown
    have short : ¬(0x80 ≤ kind.toNat ∨ Config.bodyMax < f.body.length) := not_or.2 ⟨Nat.not_le.2 low, Nat.not_lt.2 hb⟩
    change Host.Outcome.next (unknownKind kind f s) = _
    rw [unknownKind, if_pos hl, if_neg short, absent]
    rfl
  · obtain ⟨_, _, _, served, layout⟩ := request_servedBy hf hk
    exact ⟨fun other => by rw [served, serve_notPermitted hl hb other]; rfl,
      fun here bad => by rw [served, serve_badLength hl hb here (layout _ bad)]; rfl⟩

/-- Settles O15: whatever a request answers, it answers through `State.answer`. -/
theorem responseCarriesKindAndTag : Obligations.ResponseCarriesKindAndTag := by
  intro i f kind s hf hk hl hb
  obtain ⟨_, read, rule, by_kind, -⟩ := request_servedBy hf hk
  have answered (u : State) (r : Reply) (h : exec i s = .next (u.answer kind f r)) : ∃ t r, exec i s = .next t ∧
      (t.port f.link).receiver = .taking r ∧ r.kind = byteOf (kind + 0x80) ∧ r.tag = f.tag :=
    ⟨_, _, h, answer_receiver .., rfl, rfl⟩
  cases here : served kind f.link with
  | false => exact answered _ _ ((by_kind s).trans (serve_notPermitted hl hb here))
  | true =>
    cases q : read f.body with
    | none => exact answered _ _ ((by_kind s).trans (serve_badLength hl hb here q))
    | some q => exact answered _ _ ((by_kind s).trans (serve_taken hl hb here ‹_›))
end

section
/-! The requests that read, and those on lots, schedules and species (01, 02, 05 to 10): the body read by its layout, then the rule's
own branch. -/

namespace Sys2Proof.Machine

/-! ### A request by its body -/

section
variable {α : Type} {kind : Nat} {f : Request} {read : List Byte → Option α} {rule : α → State → State × Reply} {s t : State} {q : α}
  {r : Reply} {b : List Byte}

/-- A frame that its link takes, by the body it carries and the outcome of its rule. -/
theorem serve_body {l : Link} (h : Heard s f l) (hf : f.body = b) (hs : served kind l = true) (hr : read b = some q)
    (hb : b.length ≤ 248) (hq : rule q s = (t, r)) : serve kind f read rule s = .next (t.answer kind f r) := by
  rw [serve_heard h (hf ▸ hb) hs (hf ▸ hr), hq]

/-- The same for a kind that every link serves. -/
theorem serve_anywhere (hl : s.listens f.link = true) (hf : f.body = b) (hs : ∀ l, served kind l = true) (hr : read b = some q)
    (hb : b.length ≤ 248) (hq : rule q s = (t, r)) : serve kind f read rule s = .next (t.answer kind f r) :=
  serve_body ⟨rfl, hl⟩ hf (hs _) hr hb hq

end

theorem place_le {n : Nat} (k : Fin n) (h : n ≤ 256) : (k : Nat) ≤ 255 := by omega

/-- The marks of a label's optional fields, each bit by its field (11, R190). -/
theorem Label.marks_eq (l : Label) : l.marks =
    (if l.mean = none then 0 else 1) + (if l.highest = none then 0 else 2) + (if l.kiln = none then 0 else 4) +
      (if l.kilnCmc = none then 0 else 8) + (if l.redryLot = none then 0 else 16) := by
  have bit {α : Type} (o : Option α) (n : Nat) : (if o.isSome then n else 0) = if o = none then 0 else n := by cases o <;> rfl
  simp only [Label.marks, bit]

/-- A label read's records, at most six (10, R173). -/
theorem labelsAsked_eq {s : State} {i n : Nat} (h : n ≤ 16) :
    s.labelsAsked i n = (s.labels.drop i).take (if n = 0 ∨ 6 < n then 6 else n) := by
  unfold State.labelsAsked
  rw [List.take_take]
  congr 1
  by_cases zero : n = 0
  · rw [if_pos zero, if_pos (.inl zero)]; rfl
  · rw [if_neg zero]
    split <;> omega

/-- A link that listens and is named takes the frame. -/
theorem heard_of_link {s : State} {f : Request} {l : Link} (hl : s.listens f.link = true) (e : f.link = l) : Heard s f l := ⟨e, e ▸ hl⟩

end Sys2Proof.Machine

open Sys2Proof Sys2Proof.Machine

/-- Settles O18: each read answers its bytes and leaves the state. -/
theorem lotScheduleAndSpeciesReads : Obligations.LotScheduleAndSpeciesReads := by
  intro s f hl
  refine ⟨fun n l hn hf found => ?_, fun n low hn hf => ?_, fun id c office hid hf found => ?_, fun id c office hid hf next => ?_,
    fun code r office hc hf present => ?_, fun code office hc hf absent => ?_⟩
  · exact serve_anywhere hl hf (fun l => by cases l <;> rfl) (readU16_u16 hn) (Nat.le_of_ble_eq_true rfl) (by rw [lotRead, found]; rfl)
  · exact serve_anywhere hl hf (fun l => by cases l <;> rfl) (readU16_u16 hn) (Nat.le_of_ble_eq_true rfl)
      (by rw [lotList, if_neg (by omega)]; rfl)
  · exact serve_body (heard_of_link hl office) hf rfl (readU8U8_u8 hid (by omega)) (Nat.le_of_ble_eq_true rfl)
      (by rw [scheduleRead, if_neg (by omega), if_pos rfl, found]; rfl)
  · exact serve_body (heard_of_link hl office) hf rfl (readU8U8_u8 hid (by omega)) (Nat.le_of_ble_eq_true rfl)
      (by rw [scheduleRead, if_neg (by omega), if_neg Nat.one_ne_zero, next]; rfl)
  · exact serve_body (heard_of_link hl office) hf rfl (readU8_u8 (by omega)) (Nat.le_of_ble_eq_true rfl)
      (by rw [speciesRead, if_neg (by omega), present]; rfl)
  · exact serve_body (heard_of_link hl office) hf rfl (readU8_u8 (by omega)) (Nat.le_of_ble_eq_true rfl)
      (by rw [speciesRead, if_neg (by omega), absent]; rfl)

/-- Settles O19. -/
theorem identClockKilnAndHoldPointReads : Obligations.IdentClockKilnAndHoldPointReads := by
  intro s f hl
  refine ⟨fun hf => ⟨?_, ?_⟩, fun k hf => ?_, fun k hf => ?_, fun office hf => ?_⟩
  · exact serve_anywhere hl hf (fun l => by cases l <;> rfl) (read := readEmpty) rfl (Nat.zero_le _) rfl
  · exact serve_anywhere hl hf (fun l => by cases l <;> rfl) (read := readEmpty) rfl (Nat.zero_le _) rfl
  · exact serve_anywhere hl hf (fun l => by cases l <;> rfl) (readU8Byte_mark (place_le k (by decide)) false)
      (Nat.le_of_ble_eq_true rfl) (by simp only [kilnRead, placeOf_val]; rfl)
  · exact serve_anywhere hl hf (fun l => by cases l <;> rfl) (readU8Byte_mark (place_le k (by decide)) true)
      (Nat.le_of_ble_eq_true rfl) (by simp only [kilnRead, placeOf_val]; rfl)
  · have four : allHoldPoints.flatMap s.holdPointBytes =
        s.holdPointBytes 0 ++ s.holdPointBytes 1 ++ s.holdPointBytes 2 ++ s.holdPointBytes 3 := by
      simp only [allHoldPoints, List.flatMap_cons, List.flatMap_nil, List.append_nil, List.append_assoc]
    exact serve_body (heard_of_link hl office) hf rfl (read := readEmpty) rfl (Nat.zero_le _)
      (show holdPointRead () s = _ by rw [holdPointRead, four]; rfl)

/-- Settles O20; the record's bytes field by field, its optional fields zero when absent. -/
theorem queueStackerAndLabelReads : Obligations.QueueStackerAndLabelReads := by
  refine ⟨fun l reason marks hr hm => ?_, fun s f hl => ⟨fun i hi hf => ?_, fun st hf => ?_, fun i n office hi hn hf => ?_⟩⟩
  · have code : l.reason.code = reason := by rw [hr]; cases l.reason <;> rfl
    have kiln : (l.kiln.map fun k => k.val).getD 0 = ((l.kiln.getD 0 : KilnNo) : Nat) := by cases l.kiln <;> rfl
    rw [← Label.marks_eq] at hm
    have length : l.bytes.length = 35 := by simp [Label.bytes, zeroed, u8, u16, u32]
    refine ⟨?_, length⟩
    rw [Label.bytes, code, zeroed, zeroed, zeroed, zeroed, zeroed, kiln, hm]
  · exact serve_anywhere hl hf (fun l => by cases l <;> rfl) (readU8_u8 (by omega)) (Nat.le_of_ble_eq_true rfl)
      (by rw [queueRead, if_neg (by omega)]; rfl)
  · exact serve_anywhere hl hf (fun l => by cases l <;> rfl) (readU8_u8 (place_le st (by decide))) (Nat.le_of_ble_eq_true rfl)
      (by simp only [stackerRead, placeOf_val]; rfl)
  · exact serve_body (heard_of_link hl office) hf rfl (readU8U8_u8 (by omega) (by omega)) (Nat.le_of_ble_eq_true rfl)
      (by rw [labelRead, if_neg (by omega), labelsAsked_eq hn]; rfl)
end

section
/-! The requests on lots, schedules and species (01, R2 to R7, R16; 02, R26 to R34). -/

namespace Sys2Proof.Machine

/-! ### Lots -/

theorem optOk_some {p : Nat → Bool} {o : Option Nat} (h : ∀ v, o = some v → p v = true) : optOk p (some o) = true := by
  cases o with
  | none => rfl
  | some v => exact h v rfl

theorem optPresent_some (o : Option Nat) : optPresent (some o) = o := by cases o <;> rfl

section
variable {s : State} {n : Nat} {l x : LotRecord} {h : Hold} {ret : Option Nat}

theorem lotRelease_done (found : s.findLot n = some l) (state : l.state = .held h) (released : l.released h (some ret) = some x)
    (free : x.state = .waiting → s.lotOnLine n = false) :
    lotRelease ⟨n, some ret⟩ s = (s.modifyLot n fun _ => x, .done) := by
  simp only [lotRelease, found, state, LotState.hold?, released]
  rw [if_neg]
  rintro ⟨waiting, line⟩
  rw [free waiting] at line
  cases line

theorem lotRelease_inUse (found : s.findLot n = some l) (state : l.state = .held h) (released : l.released h (some ret) = some x)
    (waiting : x.state = .waiting) (line : s.lotOnLine n = true) : lotRelease ⟨n, some ret⟩ s = (s, .refuse .inUse) := by
  simp only [lotRelease, found, state, LotState.hold?, released]
  rw [if_pos ⟨waiting, line⟩]

theorem lotRelease_badField (found : s.findLot n = some l) (state : l.state = .held h) (released : l.released h (some ret) = none) :
    lotRelease ⟨n, some ret⟩ s = (s, .refuse .badField) := by
  simp only [lotRelease, found, state, LotState.hold?, released]

theorem lotRelease_wrongState (found : s.findLot n = some l) (state : ∀ h, l.state ≠ .held h) (r : Option (Option Nat)) :
    lotRelease ⟨n, r⟩ s = (s, .refuse .wrongState) := by
  have none : l.state.hold? = none := by
    unfold LotState.hold?
    split
    next h e => exact absurd e (state h)
    · rfl
  simp only [lotRelease, found, none]

end

/-- A return state carried for an ABORTED hold that is neither WAITING nor DRIED (R5). -/
theorem released_aborted_none {l : LotRecord} {ret : Option Nat} (h0 : ret ≠ some 0) (h2 : ret ≠ some 2) :
    l.released .aborted (some ret) = none := by
  cases ret with
  | none => rfl
  | some c =>
    have n0 : c ≠ 0 := fun e => h0 (congrArg some e)
    have n2 : c ≠ 2 := fun e => h2 (congrArg some e)
    exact (if_neg n0).trans (if_neg n2)

/-- A return state carried for another hold (R5). -/
theorem released_carried_none {l : LotRecord} {h : Hold} {c : Nat} (other : h ≠ .aborted) : l.released h (some (some c)) = none := by
  cases h with
  | aborted => exact absurd rfl other
  | office | redry => rfl

/-! ### Schedules -/

theorem length_schedule (c : Schedule) (h : c.InRange) :
    (u8 c.id ++ text c.text ++ counted ScheduleStep.bytes c.steps).length ≤ 248 := by
  obtain ⟨-, -, chars, -, -, steps, -⟩ := h
  simp only [List.length_append, u8, text, counted, length_steps, List.length_singleton]
  omega

theorem speciesAt_place (s : State) (code : Fin 16) : s.speciesAt code = s.species[code] := by
  unfold State.speciesAt
  rw [Vector.getElem?_eq_getElem code.isLt]
  rfl

end Sys2Proof.Machine

open Sys2Proof Sys2Proof.Machine

/-- Settles O21: no line of R2's table refuses the request. -/
theorem lotCreatePlacesRecord : Obligations.LotCreatePlacesRecord := by
  intro s f n sp th tm tol rl dry hl hf n1 n2 hsp known th1 th2 tm1 tm2 htol hrl fresh room
  refine serve_body hl hf rfl (readLotCreate_bytes dry n2 (by omega) (by omega) (by omega) (by omega) (by omega))
    (Nat.le_of_ble_eq_true rfl) ?_
  have ok : LotCreateBody.fieldsOk ⟨n, sp, th, tm, tol, rl, some dry⟩ = true := by
    simp only [LotCreateBody.fieldsOk, thicknessOk, targetOk, toleranceOk, redryLimitOk, Bool.and_eq_true, decide_eq_true_eq,
      bne_iff_ne, Option.isSome_some]
    exact ⟨⟨⟨⟨⟨⟨by omega, hsp⟩, th1, th2⟩, tm1, tm2⟩, htol⟩, hrl⟩, trivial⟩
  have slots : ¬Config.lotSlots ≤ s.slotsTaken := Nat.not_le.2 room
  unfold lotCreate
  rw [if_neg (by simp [ok]), if_neg (by simpa [Option.isSome_iff_ne_none] using known), if_neg (by simp [fresh]), if_neg slots]
  cases dry <;> rfl

/-- Settles O22: the fields carried are in range, and the state of the lot decides. -/
theorem lotModifyAndHold : Obligations.LotModifyAndHold := by
  intro s f n l hl hn found
  refine ⟨fun sp th tm tol rl hf hsp hth htm htol hrl => ?_, fun r hf state => ?_, fun hf state => ?_⟩
  · have reads := readLotModify_bytes hn (sp := sp) (th := th) (tm := tm) (tol := tol) (rl := rl)
      (fun v h => by have := (hsp v h).1; omega) (fun v h => by have := (hth v h).2; omega)
      (fun v h => by have := (htm v h).2; omega) (fun v h => by have := htol v h; omega) (fun v h => by have := hrl v h; omega)
    have length : (u16 n ++ optU8 sp ++ optU8 th ++ optU16 tm ++ optU8 tol ++ optU16 rl).length ≤ 248 := by
      cases sp <;> cases th <;> cases tm <;> cases tol <;> cases rl <;> exact Nat.le_of_ble_eq_true rfl
    have ok : LotModifyBody.fieldsOk ⟨n, some sp, some th, some tm, some tol, some rl⟩ s = true := by
      simp only [LotModifyBody.fieldsOk, Bool.and_eq_true]
      exact ⟨⟨⟨⟨optOk_some fun v h => by simpa using hsp v h, optOk_some fun v h => by simpa [thicknessOk] using hth v h⟩,
        optOk_some fun v h => by simpa [targetOk] using htm v h⟩, optOk_some fun v h => by simpa [toleranceOk] using htol v h⟩,
        optOk_some fun v h => by simpa [redryLimitOk] using hrl v h⟩
    refine ⟨fun state => serve_body hl hf rfl reads length ?_, fun state => serve_body hl hf rfl reads length ?_⟩
    · have may : l.state.modifiable = true := by obtain e | e | ⟨h, e⟩ := state <;> rw [e] <;> rfl
      simp only [lotModify, found, ok, may, Bool.not_true, Bool.false_eq_true, if_false]
      simp only [LotRecord.retarget, optPresent_some]
      rfl
    · have not : l.state.modifiable = false := by obtain e | e | e := state <;> rw [e] <;> rfl
      simp only [lotModify, found, ok, not, Bool.not_true, Bool.not_false, Bool.false_eq_true, if_false, if_true]
      rfl
  · refine serve_body hl hf rfl (readU16_u16 hn) (Nat.le_of_ble_eq_true rfl) ?_
    have holdable : l.state.holdable = some r := by rw [state]; cases r <;> rfl
    simp only [lotHold, found, holdable]
    rfl
  · refine serve_body hl hf rfl (readU16_u16 hn) (Nat.le_of_ble_eq_true rfl) ?_
    have not : l.state.holdable = none := by obtain e | e | ⟨h, e⟩ := state <;> rw [e] <;> rfl
    simp only [lotHold, found, not]
    rfl

/-- Settles O23: what the hold and the return state carried make of the lot (`LotRecord.released`), and whether it goes to WAITING. -/
theorem lotReleaseByReason : Obligations.LotReleaseByReason := by
  intro s f n l ret hl hn found hf hret
  have served {t : State} {r : Reply} (h : lotRelease ⟨n, some ret⟩ s = (t, r)) : exec (.lotRelease f) s = .next (t.answer 0x13 f r) :=
    serve_body hl hf rfl (readLotRelease_bytes hn hret) (by cases ret <;> exact Nat.le_of_ble_eq_true rfl) h
  have waits (r : ReturnState) (h : r.lotState = .waiting) : r = .waiting := by cases r <;> first | rfl | cases h
  refine ⟨fun r state none free => ?_, fun r state none free => ?_, fun state zero free => ?_, fun state two => ?_, fun held line => ?_,
    fun held => ?_, fun state => ?_⟩
  · subst none
    exact served (lotRelease_done found state rfl fun h => free (waits r h))
  · subst none
    exact served (lotRelease_done found state rfl fun h => free (waits r h))
  · subst zero
    exact served (lotRelease_done found state rfl fun _ => free)
  · subst two
    refine served (lotRelease_done found state rfl fun h => ?_)
    dsimp only at h
    split at h <;> cases h
  · obtain ⟨state | state, rfl⟩ | ⟨state, rfl⟩ := held
    · exact served (lotRelease_inUse found state rfl rfl line)
    · exact served (lotRelease_inUse found state rfl rfl line)
    · exact served (lotRelease_inUse found state rfl rfl line)
  · obtain ⟨⟨r, state⟩, carried⟩ | ⟨state, h0, h2⟩ := held
    · obtain ⟨c, rfl⟩ := Option.ne_none_iff_exists'.1 carried
      obtain state | state := state
      · exact served (lotRelease_badField found state (released_carried_none nofun))
      · exact served (lotRelease_badField found state (released_carried_none nofun))
    · exact served (lotRelease_badField found state (released_aborted_none h0 h2))
  · exact served (lotRelease_wrongState found state _)

/-- Settles O24: each request by the state of its lot, or by the range carried. -/
theorem lotFinishRemoveAndRange : Obligations.LotFinishRemoveAndRange := by
  refine ⟨fun s f n l hl hn hf found => ?_, fun s f first last hl h1 h2 hf => ?_⟩
  · have finish {t : State} {r : Reply} (h : lotFinish n s = (t, r)) : exec (.lotFinish f) s = .next (t.answer 0x14 f r) :=
      serve_body hl hf rfl (readU16_u16 hn) (Nat.le_of_ble_eq_true rfl) h
    have remove {t : State} {r : Reply} (h : lotRemove n s = (t, r)) : exec (.lotRemove f) s = .next (t.answer 0x15 f r) :=
      serve_body hl hf rfl (readU16_u16 hn) (Nat.le_of_ble_eq_true rfl) h
    refine ⟨fun state free => finish ?_, fun state line => finish ?_, fun dried planing => finish ?_, fun state => remove ?_,
      fun waiting closed => remove ?_⟩
    · simp only [lotFinish, found, if_pos state, free, Bool.false_eq_true, if_false]; rfl
    · simp only [lotFinish, found, if_pos state, line, if_true]; rfl
    · simp only [lotFinish, found, if_neg (not_or.2 ⟨dried, planing⟩)]; rfl
    · simp only [lotRemove, found, if_pos state]; rfl
    · simp only [lotRemove, found, if_neg (not_or.2 ⟨waiting, closed⟩)]; rfl
  · have ranged {t : State} {r : Reply} (h : setRedryRange (first, last) s = (t, r)) :
        exec (.redryRange f) s = .next (t.answer 0x16 f r) :=
      serve_body hl hf rfl (readU16U16_u16 h1 h2) (Nat.le_of_ble_eq_true rfl) h
    refine ⟨fun low high => ranged ?_, fun bad => ranged ?_⟩
    · rw [setRedryRange, if_neg (by dsimp only; omega)]; rfl
    · rw [setRedryRange, if_pos bad]; rfl

/-- Settles O25: the schedule passes its checks (`check_schedule`), and the store has its id or not. -/
theorem scheduleWritePlacesWhole : Obligations.ScheduleWritePlacesWhole := by
  intro s f c hl inRange hf
  have served {t : State} {r : Reply}
      (h : scheduleWrite ⟨c.id, c.text.length, c.text, c.steps.length, c.steps.map ScheduleStep.heard⟩ s = (t, r)) :
      exec (.scheduleWrite f) s = .next (t.answer 0x18 f r) :=
    serve_body hl hf rfl (readScheduleWrite_bytes c inRange) (length_schedule c inRange) h
  refine ⟨fun absent room => served ?_, fun present free => served ?_, fun present named => served ?_⟩
  · have few : s.schedules.length < Config.scheduleSlots := room
    simp only [scheduleWrite, check_schedule c inRange, absent, Option.isSome_none, Bool.false_eq_true, if_false, if_pos few]
    rfl
  · simp only [scheduleWrite, check_schedule c inRange, present, if_true, free, List.isEmpty_nil]
    rfl
  · have some : (s.kilnsNaming c.id).isEmpty = false := by simpa using named
    simp only [scheduleWrite, check_schedule c inRange, present, if_true, some, Bool.false_eq_true, if_false]
    rfl

/-- Settles O26: each request by whether its record is present, and whether kilns or lots name it. -/
theorem scheduleDeleteAndSpecies : Obligations.ScheduleDeleteAndSpecies := by
  intro s f hl
  refine ⟨fun id hid hf => ?_, fun code r inRange hf => ?_, fun code hf => ?_⟩
  · have served {t : State} {r : Reply} (h : scheduleDelete id s = (t, r)) : exec (.scheduleDelete f) s = .next (t.answer 0x19 f r) :=
      serve_body hl hf rfl (readU8_u8 hid) (Nat.le_of_ble_eq_true rfl) h
    refine ⟨fun zero => served ?_, fun one absent => served ?_, fun one present free => served ?_, fun one present named => served ?_⟩
    · rw [scheduleDelete, if_pos zero]; rfl
    · rw [scheduleDelete, if_neg (by omega), if_pos (by rw [absent]; rfl)]; rfl
    · have known : ¬(s.findSchedule id).isNone = true := by simpa [Option.isSome_iff_ne_none] using present
      rw [scheduleDelete, if_neg (by omega), if_neg known, if_pos (by rw [free]; rfl)]; rfl
    · have known : ¬(s.findSchedule id).isNone = true := by simpa [Option.isSome_iff_ne_none] using present
      rw [scheduleDelete, if_neg (by omega), if_neg known, if_neg (by simpa using named)]; rfl
  · obtain ⟨n1, n8, chars, fs1, fs2, kt⟩ := inRange
    have length : (u8 code ++ text r.name ++ u16 r.fs ++ u8 r.kt).length ≤ 248 := by
      simp only [List.length_append, u8, u16, text, List.length_cons, List.length_nil]
      omega
    refine serve_body hl hf rfl (readSpeciesWrite_bytes (place_le code (by decide)) (by omega) (by omega) (by omega)) length ?_
    have printed : r.name.all printable = true := List.all_eq_true.2 fun b hb => by simpa [printable] using chars b hb
    unfold speciesWrite
    rw [if_neg]
    · simp only [State.setSpecies, placeOf_val]; rfl
    · have := code.isLt
      dsimp only
      rw [printed]
      rintro (h | h | h | h | h | h | h)
      case inr.inr.inr.inl => cases h
      all_goals omega
  · have served {t : State} {r : Reply} (h : speciesDelete code s = (t, r)) : exec (.speciesDelete f) s = .next (t.answer 0x1C f r) :=
      serve_body hl hf rfl (readU8_u8 (place_le code (by decide))) (Nat.le_of_ble_eq_true rfl) h
    refine ⟨fun present free => served ?_, fun present named => served ?_, fun absent => served ?_⟩
    · have known : ¬(s.speciesAt code).isNone = true := by rw [speciesAt_place]; simpa [Option.isSome_iff_ne_none] using present
      rw [speciesDelete, if_neg known, if_neg (by omega)]
      simp only [State.setSpecies, placeOf_val]
      rfl
    · have known : ¬(s.speciesAt code).isNone = true := by rw [speciesAt_place]; simpa [Option.isSome_iff_ne_none] using present
      rw [speciesDelete, if_neg known, if_pos named]
    · rw [speciesDelete, if_pos (by rw [speciesAt_place, absent]; rfl)]; rfl
end

section
/-! Chapter 3's arithmetic in closed form (03, R37 to R48). -/

namespace Sys2Proof.Machine

/-! ### The rounding divisions (R37) -/

theorem divHalfUp_spec (n : Nat) {d : Nat} (h : 0 < d) :
    2 * d * divHalfUp n d ≤ 2 * n + d ∧ 2 * n + d < 2 * d * (divHalfUp n d + 1) := by
  have low : d * divHalfUp n d ≤ n + d / 2 := Nat.mul_div_le ..
  have high : n + d / 2 < d * (divHalfUp n d + 1) := Nat.lt_mul_div_succ _ h
  rw [Nat.mul_assoc, Nat.mul_assoc]
  omega

theorem divHalfUp_zero {d : Nat} (h : 0 < d) : divHalfUp 0 d = 0 := Nat.div_eq_of_lt (by omega)

theorem divHalfAway_nonneg {z : Int} (h : 0 ≤ z) (d : Nat) : divHalfAway z d = divHalfUp z.toNat d := by
  have : z.natAbs = z.toNat := by omega
  rw [divHalfAway, if_neg (by omega), this]

theorem divHalfAway_neg (z : Int) {d : Nat} (h : 0 < d) : divHalfAway (-z) d = -divHalfAway z d := by
  unfold divHalfAway
  rw [Int.natAbs_neg]
  rcases lt_trichotomy z 0 with neg | rfl | pos
  · rw [if_neg (by omega), if_pos neg, neg_neg]
  · simp [divHalfUp_zero h]
  · rw [if_pos (by omega), if_neg (by omega)]

/-- A dividend at or below zero gives no more than zero. -/
theorem divHalfAway_nonpos {z : Int} (h : z ≤ 0) {d : Nat} (hd : 0 < d) : divHalfAway z d = -(divHalfUp (-z).toNat d : Int) := by
  rw [← divHalfAway_nonneg (by omega) d, divHalfAway_neg z hd, neg_neg]

theorem clampInt_natCast (hi n : Nat) : (clampInt 0 hi n).toNat = min hi n := by
  unfold clampInt
  split_ifs <;> omega

theorem clampInt_neg {hi : Nat} {n : Nat} : (clampInt 0 hi (-(n : Int))).toNat = 0 := by
  unfold clampInt
  split_ifs <;> omega

theorem clampInt_eq {lo hi : Int} (h : lo ≤ hi) (z : Int) : clampInt lo hi z = max lo (min hi z) := by
  unfold clampInt
  split_ifs <;> omega

theorem clampNat_eq {lo hi : Nat} (h : lo ≤ hi) (n : Nat) : clampNat lo hi n = max lo (min hi n) := by
  unfold clampNat
  split_ifs <;> omega

theorem clampNat_fixed {lo hi : Nat} (h : lo ≤ hi) (n : Nat) : clampNat lo hi n = n ↔ lo ≤ n ∧ n ≤ hi := by
  rw [clampNat_eq h]
  omega

/-! ### Weighings (R39) -/

/-- The MC before the clamp, above the ODW and at or below it. -/
theorem weighedMc_above {w odw : Nat} (h : odw ≤ w) : weighedMc w odw = divHalfUp ((w - odw) * 1000) odw := by
  have : ((w : Int) - odw) * 1000 = ((w - odw) * 1000 : Nat) := by push_cast [h]; rfl
  rw [weighedMc, this, divHalfAway_nonneg (Int.natCast_nonneg _), Int.toNat_natCast]

theorem weighedMc_below {w odw : Nat} (h : w ≤ odw) (hd : 0 < odw) : weighedMc w odw = -(divHalfUp ((odw - w) * 1000) odw : Int) := by
  have : -(((w : Int) - odw) * 1000) = ((odw - w) * 1000 : Nat) := by push_cast [h]; ring
  rw [weighedMc, divHalfAway_nonpos (by omega) hd, this, Int.toNat_natCast]

theorem sampleMc_eq {w odw : Nat} (h : 0 < odw) : sampleMc w odw = min 2000 (divHalfUp ((w - odw) * 1000) odw) := by
  unfold sampleMc
  obtain le | le := Nat.le_total odw w
  · rw [weighedMc_above le]; exact clampInt_natCast ..
  · rw [weighedMc_below le h, Nat.sub_eq_zero_of_le le, Nat.zero_mul, divHalfUp_zero h]
    exact clampInt_neg (hi := 2000)

theorem sampleClamped_iff {w odw : Nat} (h : 0 < odw) : sampleClamped w odw = true ↔
    2000 < divHalfUp ((w - odw) * 1000) odw ∨ 1 ≤ divHalfUp ((odw - w) * 1000) odw := by
  simp only [sampleClamped, Bool.or_eq_true, decide_eq_true_eq]
  obtain le | le := Nat.le_total odw w
  · rw [weighedMc_above le, Nat.sub_eq_zero_of_le le, Nat.zero_mul, divHalfUp_zero h]
    omega
  · rw [weighedMc_below le h, Nat.sub_eq_zero_of_le le, Nat.zero_mul, divHalfUp_zero h]
    omega

/-! ### Figures (R40) -/

theorem insertWettest_perm (m : Nat) (l : List Nat) : (insertWettest m l).Perm (m :: l) := by
  induction l with
  | nil => exact .refl _
  | cons x l ih =>
    unfold insertWettest
    split
    · exact .refl _
    · exact (ih.cons x).trans (.swap ..)

theorem insertWettest_falling {m : Nat} {l : List Nat} (h : l.Pairwise fun a b => b ≤ a) :
    (insertWettest m l).Pairwise fun a b => b ≤ a := by
  induction l with
  | nil => exact List.pairwise_singleton ..
  | cons x l ih =>
    obtain ⟨top, rest⟩ := List.pairwise_cons.1 h
    unfold insertWettest
    split
    next le => exact List.pairwise_cons.2 ⟨List.forall_mem_cons.2 ⟨le, fun b hb => Nat.le_trans (top b hb) le⟩, h⟩
    next lt =>
      refine List.pairwise_cons.2 ⟨fun b hb => ?_, ih rest⟩
      obtain rfl | hb := List.mem_cons.1 ((insertWettest_perm m l).mem_iff.1 hb)
      · omega
      · exact top b hb

theorem rankWettest_spec (l : List Nat) : (rankWettest l).Perm l ∧ (rankWettest l).Pairwise fun a b => b ≤ a := by
  induction l with
  | nil => exact ⟨.refl _, .nil⟩
  | cons m l ih => exact ⟨(insertWettest_perm ..).trans (ih.1.cons m), insertWettest_falling ih.2⟩

/-- One ranking from wettest to driest. -/
theorem rankWettest_unique {mcs ranked : List Nat} (perm : ranked.Perm mcs) (falling : ranked.Pairwise fun a b => b ≤ a) :
    rankWettest mcs = ranked := by
  obtain ⟨perm', falling'⟩ := rankWettest_spec mcs
  exact (perm'.trans perm.symm).eq_of_pairwise (fun _ _ _ _ h g => Nat.le_antisymm g h) falling' falling

/-! ### Boards (R43 to R45) -/

theorem correctedMc_over {raw : Nat} {ov : Bool} (h : ov = true ∨ 999 < raw) (tp : Int) (fs kt : Nat) :
    correctedMc raw ov tp fs kt = 999 := by
  rw [correctedMc, if_pos]
  simpa using h

/-- The dividend of the corrected MC. -/
def correctionDividend (raw : Nat) (tp : Int) (fs kt : Nat) : Int := raw * fs + (20 - max (-30) (min 60 tp)) * kt * 100

theorem correctedMc_within {raw : Nat} (h : raw ≤ 999) (tp : Int) (fs kt : Nat) :
    correctedMc raw false tp fs kt = (clampInt 0 999 (divHalfAway (correctionDividend raw tp fs kt) 1000)).toNat := by
  rw [correctedMc, if_neg (by simpa using h), clampTemp, clampInt_eq (show (-30 : Int) ≤ 60 by omega)]
  rfl

theorem correctedMc_neg {raw : Nat} (h : raw ≤ 999) {tp : Int} {fs kt : Nat} (neg : correctionDividend raw tp fs kt < 0) :
    correctedMc raw false tp fs kt = 0 := by
  rw [correctedMc_within h, divHalfAway_nonpos (Int.le_of_lt neg) (by omega)]
  exact clampInt_neg (hi := 999)

theorem correctedMc_nonneg {raw : Nat} (h : raw ≤ 999) {tp : Int} {fs kt : Nat} (nonneg : 0 ≤ correctionDividend raw tp fs kt) :
    correctedMc raw false tp fs kt = min 999 (divHalfUp (correctionDividend raw tp fs kt).toNat 1000) := by
  rw [correctedMc_within h, divHalfAway_nonneg nonneg]
  exact clampInt_natCast ..

theorem dimensionFault_iff (th w len : Nat) : dimensionFault th w len = false ↔
    (4 ≤ th ∧ th ≤ 16) ∧ (8 ≤ w ∧ w ≤ 64) ∧ 4 ≤ len ∧ len ≤ 20 := by
  simp only [dimensionFault, Bool.or_eq_false_iff, bne_eq_false_iff_eq, clampThickness, clampWidth, clampLength, and_assoc,
    clampNat_fixed (show 4 ≤ 16 by omega), clampNat_fixed (show 8 ≤ 64 by omega), clampNat_fixed (show 4 ≤ 20 by omega)]

theorem boardFootage_eq (th w len : Nat) :
    boardFootage th w len = (max 4 (min 16 th) * max 8 (min 64 w) * max 4 (min 20 len) * 100 + 96) / 192 := by
  simp only [boardFootage, divHalfUp, clampThickness, clampWidth, clampLength, clampNat_eq (show 4 ≤ 16 by omega),
    clampNat_eq (show 8 ≤ 64 by omega), clampNat_eq (show 4 ≤ 20 by omega)]

/-! ### Packs (R46 to R48) -/

theorem addBoard_verified (p : Pack) (ft mc : Nat) : p.addBoard ft mc true = { p with
    boards := p.boards + 1, footage := p.footage + ft, verifiedBoards := p.verifiedBoards + 1,
    verifiedFootage := p.verifiedFootage + ft,
    mcSum := if p.saturated then p.mcSum else min 4294967295 (p.mcSum + mc * ft),
    saturated := p.saturated || decide (4294967295 < p.mcSum + mc * ft),
    highest := some (max mc (p.highest.getD 0)) } := by
  have capped : (if Config.mcSumMax < p.mcSum + mc * ft then Config.mcSumMax else p.mcSum + mc * ft) =
      min 4294967295 (p.mcSum + mc * ft) := by
    have most : Config.mcSumMax = 4294967295 := rfl
    rw [most]
    split_ifs <;> omega
  have highest : (match p.highest with | none => some mc | some h => some (if h < mc then mc else h)) =
      some (max mc (p.highest.getD 0)) := by
    cases p.highest with
    | none => simp
    | some h =>
      have larger : (if h < mc then mc else h) = max mc h := by split_ifs <;> omega
      exact congrArg some larger
  simp only [Pack.addBoard, if_true, capped, ← highest]
  rfl

theorem removeBoard_verified (p : Pack) (ft mc : Nat) : p.removeBoard ft mc true = { p with
    boards := p.boards - 1, footage := p.footage - ft, verifiedBoards := p.verifiedBoards - 1,
    verifiedFootage := p.verifiedFootage - ft, mcSum := if p.saturated then p.mcSum else p.mcSum - mc * ft,
    highest := if p.verifiedBoards ≤ 1 then none else p.highest } := by
  simp only [Pack.removeBoard, if_true, Nat.sub_eq_zero_iff_le]

end Sys2Proof.Machine

open Sys2Proof Sys2Proof.Machine

/-- Settles O27: each computation in closed form, on the two divisions that round. -/
theorem chapterThreeArithmetic : Obligations.ChapterThreeArithmetic := by
  refine ⟨fun n d z h => ⟨divHalfUp_spec n h, fun hz => divHalfAway_nonneg hz d, divHalfAway_neg z h⟩,
    fun w odw h => ⟨sampleMc_eq h, sampleClamped_iff h⟩, fun mcs ranked two perm falling => ?_, fun raw ov tp fs kt => ?_,
    fun th w len => ⟨dimensionFault_iff th w len, boardFootage_eq th w len⟩, fun p ft mc => ?_⟩
  · refine ⟨_, rfl, ?_⟩
    rw [figuresOf, if_neg (Nat.not_lt.2 two), rankWettest_unique perm falling]
    rfl
  · refine ⟨fun h => correctedMc_over h tp fs kt, ?_⟩
    rintro rfl within
    exact ⟨_, rfl, fun neg => correctedMc_neg within neg, fun nonneg => correctedMc_nonneg within nonneg⟩
  · refine ⟨rfl, addBoard_verified p ft mc, rfl, removeBoard_verified p ft mc, ?_⟩
    simp only [Pack.mean, divHalfUp, Bool.or_eq_true, decide_eq_true_eq]
end

section
/-! Samples, hold points and charges (04, R55 to R61; 05, R70; 07, R113 to R119). -/

namespace Sys2Proof.Machine

/-! ### Batches (04, R59) -/

/-- A first part of a batch without a failing entry, and the entries after it. -/
theorem applyBatch_append {m : Nat} (es tail : List WeighEntry) : ∀ {l l' : List Sample} {earlier : List Nat},
    applyBatch m l earlier es = (l', es, none) → applyBatch m l earlier (es ++ tail) =
      ((applyBatch m l' ((es.map WeighEntry.id).reverse ++ earlier) tail).1,
        es ++ (applyBatch m l' ((es.map WeighEntry.id).reverse ++ earlier) tail).2.1,
        (applyBatch m l' ((es.map WeighEntry.id).reverse ++ earlier) tail).2.2) := by
  induction es with
  | nil =>
    intro l l' earlier h
    cases h
    rfl
  | cons e es ih =>
    intro l l' earlier h
    unfold applyBatch at h
    cases fault : entryFault l earlier e with
    | some why => rw [fault] at h; cases h
    | none =>
      rw [fault] at h
      dsimp only at h
      generalize h' : applyBatch m (weighIn l e m) (e.id :: earlier) es = after at h
      obtain ⟨samples, rest, failure⟩ := after
      cases h
      rw [List.cons_append, applyBatch, fault]
      dsimp only
      rw [ih h']
      simp

theorem hasSample_map (l : List Sample) (g : Sample → Sample) (h : ∀ x, (g x).id = x.id) (id : Nat) :
    hasSample (l.map g) id = hasSample l id := by
  simp only [hasSample, List.any_map]
  congr 1
  funext x
  simp only [Function.comp, h]

theorem length_flatMap_const {α : Type} {g : α → List Byte} {n : Nat} (h : ∀ a, (g a).length = n) (l : List α) :
    (l.flatMap g).length = n * l.length := by
  induction l with
  | nil => rfl
  | cons a l ih => rw [List.flatMap_cons, List.length_append, h, ih, List.length_cons, Nat.mul_succ, Nat.add_comm]

/-- What the first check that an entry fails is (R59). -/
theorem entryFault_some {samples : List Sample} {earlier : List Nat} {e : WeighEntry} {why : Status}
    (h : (e.id = 0 ∨ 8 < e.id) ∧ why = .badField ∨ (1 ≤ e.id ∧ e.id ≤ 8) ∧
      (hasSample samples e.id = false ∧ why = .noSuchSample ∨ hasSample samples e.id = true ∧
        (e.id ∈ earlier ∧ why = .duplicate ∨ e.id ∉ earlier ∧ (e.weight = 0 ∨ 60000 < e.weight) ∧ why = .badField))) :
    entryFault samples earlier e = some why := by
  unfold entryFault
  obtain ⟨range, rfl⟩ | ⟨range, ⟨none, rfl⟩ | ⟨some, ⟨again, rfl⟩ | ⟨new, weight, rfl⟩⟩⟩ := h
  · rw [if_pos range]
  · rw [if_neg (by omega), if_pos (by rw [none]; rfl)]
  · rw [if_neg (by omega), if_neg (by simp [some]), if_pos (by simpa using again)]
  · rw [if_neg (by omega), if_neg (by simp [some]), if_neg (by simpa using new), if_pos weight]

/-- A batch sent by its layout is short. -/
theorem length_batch (k : KilnNo) (es : List WeighEntry) (h : es.length ≤ 8) :
    (u8 k ++ counted (fun e => u8 e.id ++ u16 e.weight) es).length ≤ 248 := by
  have entries := length_flatMap_const (g := fun e : WeighEntry => u8 e.id ++ u16 e.weight) (n := 3) (fun _ => rfl) es
  simp only [counted, List.length_append, entries]
  simp only [u8, List.length_singleton]
  omega

/-! ### Recomputation (04, R61) -/

/-- At a kiln without a step under way the figures alone change. -/
theorem recompute_figures (s : State) (k : KilnNo) (h : (s.kiln k).state.isOn = false) :
    s.recompute k = s.setKiln k { s.kiln k with figures := figuresOf ((s.kiln k).samples.map fun x => x.mc) } := by
  have none (a b : Option Nat) : s.crossingMatches k a b = [] := if_neg (by rw [h]; exact Bool.false_ne_true)
  unfold State.recompute
  dsimp only
  rw [none, takeMatches_nil]
  refine evaluateNow_other _ _ fun e => ?_
  rw [State.kiln_setKiln_same] at e
  have active : (s.kiln k).state = .running .active := e.1
  rw [active] at h
  cases h

/-! ### Hold points (07, R113, R116 to R119) -/

theorem covers_iff (scope : HoldScope) (k : KilnNo) : scope.covers k = true ↔ scope = .any ∨ scope = .kiln k := by
  cases scope with
  | any => simp [HoldScope.covers]
  | kiln j => simp [HoldScope.covers]

theorem mem_allHoldPoints (h : HoldPointNo) : h ∈ allHoldPoints := by revert h; decide

theorem mem_stepEnterMatches (s : State) (k : KilnNo) (i : Nat) (h : HoldPointNo) : h ∈ s.stepEnterMatches k i ↔
    (s.holdPoint h).enabled = true ∧ ((s.holdPoint h).scope = .any ∨ (s.holdPoint h).scope = .kiln k) ∧
      (s.holdPoint h).kind = .stepEnter i := by
  simp [State.stepEnterMatches, mem_allHoldPoints, covers_iff, and_assoc]

theorem crosses_iff (before after : Option Nat) (v : Nat) : crosses before after v = true ↔
    ∃ a, after = some a ∧ a ≤ v ∧ ∀ b, before = some b → v < b := by
  cases after with
  | none => simp [crosses]
  | some a => cases before <;> simp [crosses]

theorem crossed_iff (kind : HoldKind) (before after : Option Nat) : kind.crossed before after = true ↔
    ∃ v a, kind = .cmcAtOrBelow v ∧ after = some a ∧ a ≤ v ∧ ∀ b, before = some b → v < b := by
  cases kind with
  | stepEnter i => simp [HoldKind.crossed]
  | cmcAtOrBelow v => simp [HoldKind.crossed, crosses_iff]

theorem mem_crossingMatches (s : State) (k : KilnNo) (before after : Option Nat) (h : HoldPointNo) :
    h ∈ s.crossingMatches k before after ↔ (s.kiln k).state.isOn = true ∧ (s.holdPoint h).enabled = true ∧
      ((s.holdPoint h).scope = .any ∨ (s.holdPoint h).scope = .kiln k) ∧
      ∃ v a, (s.holdPoint h).kind = .cmcAtOrBelow v ∧ after = some a ∧ a ≤ v ∧ ∀ b, before = some b → v < b := by
  unfold State.crossingMatches
  split
  next on => simp only [List.mem_filter, mem_allHoldPoints, true_and, Bool.and_eq_true, covers_iff, crossed_iff, and_assoc, on]
  next off => simp [off]

/-- The records after each of a list has been hit (R118). -/
def State.hitPoints (s : State) (k : KilnNo) (l : List HoldPointNo) : State :=
  { s with
    holdPoints := Vector.ofFn fun h : HoldPointNo =>
      if h ∈ l then { s.holdPoint h with
        enabled := (s.holdPoint h).enabled && !(s.holdPoint h).oneShot, hit := some ⟨k, s.minute⟩ }
      else s.holdPoint h }

theorem holdPoints_ext {s t : State} (rest : t = { s with holdPoints := t.holdPoints }) (h : ∀ p, t.holdPoint p = s.holdPoint p) : t = s := by
  have : t.holdPoints = s.holdPoints := Vector.ext fun i hi => h ⟨i, hi⟩
  rw [rest, this]

theorem holdPoint_hitPoints (s : State) (k : KilnNo) (l : List HoldPointNo) (p : HoldPointNo) : (s.hitPoints k l).holdPoint p =
    if p ∈ l then (s.holdPoint p).matched k s.minute else s.holdPoint p := Vector.getElem_ofFn ..

/-- The records of a list each matched once. -/
theorem matched_foldl (k : KilnNo) (l : List HoldPointNo) : ∀ s : State, l.Nodup →
    l.foldl (fun s h => s.setHoldPoint h ((s.holdPoint h).matched k s.minute)) s = s.hitPoints k l := by
  induction l with
  | nil =>
    intro s _
    refine (holdPoints_ext rfl fun p => ?_).symm
    rw [holdPoint_hitPoints, if_neg List.not_mem_nil]
    rfl
  | cons h l ih =>
    intro s nodup
    obtain ⟨out, nodup⟩ := List.nodup_cons.1 nodup
    rw [List.foldl_cons, ih _ nodup]
    refine holdPoints_ext rfl fun p => ?_
    rw [holdPoint_hitPoints, holdPoint_hitPoints]
    obtain rfl | ne := eq_or_ne p h
    · rw [if_neg out, if_pos (List.mem_cons_self ..), State.holdPoint_setHoldPoint_same]
    · rw [State.holdPoint_setHoldPoint_other _ _ ne]
      by_cases mem : p ∈ l
      · rw [if_pos mem, if_pos (List.mem_cons_of_mem _ mem)]
        rfl
      · rw [if_neg mem, if_neg (by simp [ne, mem])]

/-- A RUNNING kiln becomes HELD; its mode changes while the enable is set (R118, R119; 05, R88). -/
theorem holdKiln_running (s : State) (k : KilnNo) (h : (s.kiln k).state.isRunning = true) : s.holdKiln k =
    if s.masterEnable then (s.setKiln k { s.kiln k with state := .held }).raise .setpointChanged
    else s.setKiln k { s.kiln k with state := .held } := by
  obtain ⟨p, running⟩ : ∃ p, (s.kiln k).state = .running p := by
    cases e : (s.kiln k).state with
    | running p => exact ⟨p, rfl⟩
    | empty | loaded | held | finished => rw [e] at h; cases h
  unfold State.holdKiln
  rw [running]
  dsimp only
  cases on : s.masterEnable with
  | true =>
    rw [if_pos rfl]
    refine noteSetpoints_differ k (.inl ?_)
    simp only [State.mode, State.kiln_setKiln_same, State.setKiln_masterEnable, on, running]
    cases (s.kiln k).doorOpen <;> cases p <;> simp
  | false =>
    rw [if_neg Bool.false_ne_true]
    refine noteSetpoints_same fun j => ⟨?_, rfl⟩
    obtain rfl | ne := eq_or_ne j k
    · simp [State.mode, on, running]
    · exact mode_setKiln_other _ _ ne

theorem holdKiln_other (s : State) (k : KilnNo) (h : (s.kiln k).state.isRunning = false) : s.holdKiln k = s := by
  unfold State.holdKiln
  split
  next p running => rw [running] at h; cases h
  · rfl

/-- All the matches of one occasion. -/
theorem takeMatches_cons (s : State) (k : KilnNo) {l : List HoldPointNo} (some : l ≠ []) (nodup : l.Nodup) :
    s.takeMatches k l = ((s.hitPoints k l).holdKiln k).raise .holdHit := by
  unfold State.takeMatches
  split
  · exact absurd rfl some
  · rw [matched_foldl k l s nodup]

theorem nodup_filter_holdPoints (p : HoldPointNo → Bool) : (allHoldPoints.filter p).Nodup := List.Nodup.filter _ (by decide)

theorem crossingMatches_nodup (s : State) (k : KilnNo) (a b : Option Nat) : (s.crossingMatches k a b).Nodup := by
  unfold State.crossingMatches
  split
  · exact nodup_filter_holdPoints _
  · exact .nil

/-- A kiln held by its matches keeps all but its state (R119). -/
theorem kiln_holdKiln (s : State) (k : KilnNo) (on : (s.kiln k).state.isOn = true) :
    (s.holdKiln k).kiln k = { s.kiln k with state := .held } := by
  cases running : (s.kiln k).state.isRunning with
  | true =>
    rw [holdKiln_running s k running]
    split
    · rw [State.kiln_raise, State.kiln_setKiln_same]
    · rw [State.kiln_setKiln_same]
  | false =>
    have held : (s.kiln k).state = .held := by
      cases e : (s.kiln k).state with
      | held => rfl
      | running => rw [e] at running; cases running
      | empty | loaded | finished => rw [e] at on; cases on
    rw [holdKiln_other s k running, ← held]

theorem kiln_takeMatches (s : State) (k : KilnNo) {l : List HoldPointNo} (some : l ≠ []) (nodup : l.Nodup)
    (on : (s.kiln k).state.isOn = true) : (s.takeMatches k l).kiln k = { s.kiln k with state := .held } := by
  rw [takeMatches_cons s k some nodup, State.kiln_raise]
  exact kiln_holdKiln (s.hitPoints k l) k on

end Sys2Proof.Machine

open Sys2Proof Sys2Proof.Machine

/-- Settles O28: the refusals do not apply, and a kiln without a step under way has no hold point to meet and no step to end. -/
theorem sampleEnterAndRemove : Obligations.SampleEnterAndRemove := by
  intro s k
  refine ⟨fun f id w m odw t hl state i1 i8 w1 w2 m1 m2 hf hodw ht => ?_, fun f id t hl state i1 i8 hf has ht => ?_,
    recompute_figures s k⟩
  · subst hodw ht
    refine serve_body hl hf rfl (readSampleEnter_bytes (place_le k (by decide)) (by omega) (by omega) (by omega))
      (Nat.le_of_ble_eq_true rfl) ?_
    simp only [sampleEnter, placeOf_val]
    rw [if_neg (by omega), if_neg state]
    simp only [newSample, odwOf, divHalfUp, Figures.bytes, hasSample, List.append_assoc]
    rfl
  · subst ht
    refine serve_body hl hf rfl (readU8U8_u8 (place_le k (by decide)) (by omega)) (Nat.le_of_ble_eq_true rfl) ?_
    have present : ¬(!hasSample (s.kiln k).samples id) = true := by simpa [hasSample] using has
    simp only [sampleRemove, placeOf_val]
    rw [if_neg (by omega), if_neg state, if_neg present]
    simp only [Figures.bytes, List.append_assoc]
    rfl

/-- Settles O29: the batch that does not fail (`applyBatch_whole`), and the first entry after it that does. -/
theorem batchWeighsUntilAnEntryFails : Obligations.BatchWeighsUntilAnEntryFails := by
  intro s f k es hl state nodup ok
  have whole := applyBatch_whole s.minute es (s.kiln k).samples [] nodup fun e he => by
    obtain ⟨i1, i8, w1, w2, has⟩ := ok e he
    exact ⟨i1, i8, w1, w2, has, List.not_mem_nil⟩
  refine ⟨_, _, rfl, rfl, fun one eight hf => ?_, fun e rest why eight range hf fault => ?_⟩
  · refine serve_body hl hf rfl (readSampleWeigh_bytes (place_le k (by decide)) (by omega) fun e he => ?_) (length_batch k es eight) ?_
    · obtain ⟨i1, i8, w1, w2, -⟩ := ok e he
      omega
    · simp only [sampleWeigh, placeOf_val]
      rw [if_neg (by omega), if_neg state, whole]
      simp only [List.isEmpty_iff]
      rfl
  · have few : (es ++ e :: rest).length = es.length + 1 + rest.length := by simp; omega
    refine serve_body hl hf rfl (readSampleWeigh_bytes (place_le k (by decide)) (by omega) fun x hx => ?_)
      (length_batch k _ (by omega)) ?_
    · obtain hx | hx := List.mem_append.1 hx
      · obtain ⟨i1, i8, w1, w2, -⟩ := ok x hx
        omega
      · exact range x hx
    · have fails : entryFault (applyBatch s.minute (s.kiln k).samples [] es).1 ((es.map WeighEntry.id).reverse ++ []) e = some why := by
        rw [whole]
        refine entryFault_some ?_
        rw [hasSample_map]
        · simp only [List.append_nil, List.mem_reverse]
          exact fault
        · intro x
          split <;> rfl
      have batch := applyBatch_append es (e :: rest) whole
      rw [whole] at fails
      rw [applyBatch, fails] at batch
      simp only [sampleWeigh, placeOf_val]
      rw [if_neg (by omega), if_neg state, batch]
      simp only [List.append_nil, List.isEmpty_iff, few, show es.length + 1 + rest.length - es.length = 1 + rest.length by omega]
      rfl

/-- Settles O30: each record's own conditions; the fold over the matched records; a kiln held by a match has no step to end. -/
theorem holdPointsMatchAndHold : Obligations.HoldPointsMatchAndHold := by
  intro s k
  refine ⟨fun h i => mem_stepEnterMatches s k i h, fun h before after => mem_crossingMatches s k before after h,
    fun l u some nodup hu => ?_, fun g l hg hl => ⟨fun none => ?_, fun some => ?_⟩⟩
  · have hit : u = s.hitPoints k l := hu
    rw [takeMatches_cons s k some nodup, ← hit]
    have kiln : u.kiln k = s.kiln k := by rw [hit]; rfl
    have enable : u.masterEnable = s.masterEnable := by rw [hit]; rfl
    split
    next running => rw [holdKiln_running u k (by rw [kiln]; exact running), kiln, enable]
    next other => rw [holdKiln_other u k (by rw [kiln]; exact Bool.eq_false_iff.2 other)]
  · unfold State.recompute
    dsimp only
    rw [← hg, ← hl, none, takeMatches_nil]
  · have nodup : l.Nodup := hl ▸ crossingMatches_nodup ..
    obtain ⟨h, hh⟩ := List.exists_mem_of_ne_nil l some
    have on := ((mem_crossingMatches ..).1 (hl ▸ hh)).1
    unfold State.recompute
    dsimp only
    rw [← hg, ← hl, kiln_takeMatches s k some nodup on]
    refine evaluateNow_other _ _ fun e => ?_
    rw [State.kiln_setKiln_same] at e
    cases e.1

/-- Settles O31: no check of R70 refuses the charge. -/
theorem kilnChargeLoads : Obligations.KilnChargeLoads := by
  intro s f k id ns hl i1 i2 n1 n4 nodup range waiting empty known hf
  have length : (u8 k ++ u8 id ++ counted u16 ns).length ≤ 248 := by
    have numbers := length_flatMap_const (g := u16) (n := 2) (fun _ => rfl) ns
    simp only [counted, List.length_append, numbers]
    simp only [u8, List.length_singleton]
    omega
  refine serve_body hl hf rfl (readKilnCharge_bytes (place_le k (by decide)) i2 (by omega) fun n hn => (range n hn).2) length ?_
  have zero : ¬ns.contains 0 = true := fun h => by
    have := (range 0 (by simpa using h)).1
    omega
  have valid : ¬(ns.length = 0 ∨ 4 < ns.length ∨ id = 0 ∨ ns.contains 0 = true) := by
    rintro (h | h | h | h)
    case inr.inr.inr => exact zero h
    all_goals omega
  simp only [kilnCharge, placeOf_val]
  rw [if_neg valid, if_neg (not_not.2 empty), if_neg (by simpa [Option.isSome_iff_ne_none] using known),
    repeatedLot_none ns [] nodup fun _ _ => List.not_mem_nil, uncharged_none s ns waiting]
  simp only [State.setLotStates, List.contains_iff_mem]
  rfl
end

section
/-! KILN STOP, KILN UNLOAD, KILN HOLD and the setups (05, R82 to R84; 07, R114, R120; 09, R150). -/

namespace Sys2Proof.Machine

/-- The hit cleared of every record that names a kiln (R121, R123). -/
def State.unhit (s : State) (k : KilnNo) : State :=
  { s with
    holdPoints := Vector.ofFn fun h : HoldPointNo =>
      if (s.holdPoint h).hit.map Hit.kiln = some k then { s.holdPoint h with hit := none } else s.holdPoint h }

theorem holdPoint_unhit (s : State) (k : KilnNo) (h : HoldPointNo) : (s.unhit k).holdPoint h =
    if (s.holdPoint h).hit.map Hit.kiln = some k then { s.holdPoint h with hit := none } else s.holdPoint h :=
  Vector.getElem_ofFn ..

theorem mem_hitsNaming (s : State) (k : KilnNo) (h : HoldPointNo) :
    h ∈ s.hitsNaming k ↔ (s.holdPoint h).hit.map Hit.kiln = some k := by
  simp only [State.hitsNaming, List.mem_filter, mem_allHoldPoints, true_and]
  cases (s.holdPoint h).hit <;> simp

theorem holdPoint_clearFold (l : List HoldPointNo) (h : HoldPointNo) : ∀ s : State,
    (l.foldl (fun s h => s.setHoldPoint h { s.holdPoint h with hit := none }) s).holdPoint h =
      if h ∈ l then { s.holdPoint h with hit := none } else s.holdPoint h := by
  induction l with
  | nil => intro s; rfl
  | cons a l ih =>
    intro s
    rw [List.foldl_cons, ih]
    obtain rfl | ne := eq_or_ne h a
    · rw [State.holdPoint_setHoldPoint_same]
      simp
    · rw [State.holdPoint_setHoldPoint_other _ _ ne]
      simp [ne]

theorem clearHits_eq (s : State) (k : KilnNo) : s.clearHits k = s.unhit k := by
  obtain ⟨points, only⟩ := clearHits_only s k
  refine holdPoints_ext (by rw [only]; rfl) fun h => ?_
  rw [holdPoint_unhit]
  refine (holdPoint_clearFold _ h s).trans ?_
  simp only [mem_hitsNaming]

/-- A stopped kiln that alone may wait gives its heat back to nobody (R82; 06, R97). -/
theorem stopKiln_alone (s : State) (k : KilnNo) (alone : OthersDoNotWait s k) : s.stopKiln k = ((s.setKiln k
    { s.kiln k with
      state := .finished, aborted := true, runEnable := false,
      history := (s.kiln k).history ++ [⟨(s.kiln k).stepIndex, (s.kiln k).stepElapsed, .aborted⟩] }).setHeat k
    ⟨0, .absent⟩).raise .setpointChanged := by
  unfold State.stopKiln State.recordEnd
  simp only [State.kiln_setKiln_same, setKiln_setKiln]
  rw [releaseHeat_alone (s.setKiln k _) k alone]
  rfl

/-- What an unload makes of a lot, with the state and the kiln result named by the kiln's state (R9). -/
theorem unload_eq (l : LotRecord) (k : KilnNo) (c : KilnContext) (m : Nat) {st : LotState}
    {res : Option KilnResult → Option KilnResult}
    (h : c.state = .loaded ∧ st = .waiting ∧ res = id ∨
      c.state = .finished ∧ st = (if c.aborted then .held .aborted else .dried) ∧
        res = fun _ => some ⟨k, c.figures.cmc, c.figures.driest, c.figures.wettest, m, c.aborted⟩) :
    l.unload k c m = { l with state := st, kilnResult := res l.kilnResult } := by
  unfold LotRecord.unload
  obtain ⟨state, rfl, rfl⟩ | ⟨state, rfl, rfl⟩ := h <;> rw [state] <;> rfl

theorem HoldScope.code_le (sc : HoldScope) : sc.code ≤ 8 := by
  cases sc with
  | kiln k => exact Nat.le_of_lt k.isLt
  | any => exact Nat.le_refl 8

theorem HoldScope.ofCode_code (sc : HoldScope) : HoldScope.ofCode sc.code = some sc := by
  cases sc with
  | kiln k => exact dif_pos k.isLt
  | any => rfl

theorem readU8_kiln (k : KilnNo) : readU8 (u8 k) = some k.val := readU8_u8 (place_le k (by decide))

end Sys2Proof.Machine

open Sys2Proof Sys2Proof.Machine

/-- Settles O34: the step's end is recorded, and the heat that comes free finds no kiln waiting. -/
theorem kilnStopAborts : Obligations.KilnStopAborts := by
  intro s f k hl hf on alone
  refine serve_body hl hf rfl (readU8_kiln k) (Nat.le_of_ble_eq_true rfl) ?_
  simp only [kilnStop, placeOf_val]
  rw [if_pos on, stopKiln_alone s k alone]
  rfl

/-- Settles O35: each lot of the charge by the kiln's state (`unload_eq`), then the hits (`clearHits_eq`). -/
theorem kilnUnloadEmpties : Obligations.KilnUnloadEmpties := by
  intro s f k hl hf
  refine ⟨fun st res u by_state hu => ?_, fun n1 n2 => ?_⟩
  · have lots : s.unloadLots k = { s with lots := s.lots.map fun l =>
        if l.number ∈ (s.kiln k).charge then { l with state := st, kilnResult := res l.kilnResult } else l } := by
      simp only [State.unloadLots, List.contains_iff_mem, unload_eq _ _ _ _ by_state]
    have left : (s.kiln k).state = .loaded ∨ (s.kiln k).state = .finished := by_state.imp And.left And.left
    have cleared : ((s.unloadLots k).setKiln k (s.kiln k).unloaded).clearHits k = u := by
      rw [clearHits_eq, hu, lots]
      rfl
    refine serve_body hl hf rfl (readU8_kiln k) (Nat.le_of_ble_eq_true rfl) ?_
    simp only [kilnUnload, placeOf_val]
    rw [if_pos left, cleared]
    have found : (s.unloadLots k).findLot = u.findLot := by rw [hu, lots]; rfl
    simp only [State.unloadBytes, found]
    rfl
  · refine serve_body hl hf rfl (readU8_kiln k) (Nat.le_of_ble_eq_true rfl) ?_
    simp only [kilnUnload, placeOf_val]
    rw [if_neg (not_or.2 ⟨n1, n2⟩)]
    rfl

/-- Settles O36: a valid request passes its checks and writes its record. -/
theorem setupsWriteOneRecord : Obligations.SetupsWriteOneRecord := by
  intro s f hl
  refine ⟨fun k on hf => ?_, fun h en one sc i i11 hf => ?_, fun h en one sc v v2000 hf => ?_,
    fun st c ft p c1 c999 ft5 p48 hf => ?_⟩
  · refine serve_body hl hf rfl (readU8Byte_mark (place_le k (by decide)) on) (Nat.le_of_ble_eq_true rfl) ?_
    simp only [kilnSetup, placeOf_val, flagOf_mark]
    rfl
  · refine serve_body hl hf rfl (readHoldPointSet_bytes en one (place_le h (by decide)) (sc.code_le.trans (by decide)) (by omega) (by omega))
      (Nat.le_of_ble_eq_true rfl) ?_
    simp only [holdPointSet, placeOf_val, HoldScope.ofCode_code, holdKindOf]
    rw [if_pos i11]
    rfl
  · refine serve_body hl hf rfl (readHoldPointSet_bytes en one (place_le h (by decide)) (sc.code_le.trans (by decide)) (by omega) (by omega))
      (Nat.le_of_ble_eq_true rfl) ?_
    simp only [holdPointSet, placeOf_val, HoldScope.ofCode_code, holdKindOf]
    rw [if_pos v2000]
    rfl
  · refine serve_body hl hf rfl (readStackerSetup_bytes (place_le st (by decide)) (by omega) (by omega) (by omega))
      (Nat.le_of_ble_eq_true rfl) ?_
    simp only [stackerSetup, placeOf_val]
    rw [if_neg (by omega)]
    rfl

/-- Settles O38: a RUNNING kiln turns HELD (`holdKiln_running`). -/
theorem kilnHoldStopsTheStep : Obligations.KilnHoldStopsTheStep := by
  intro s f k hl hf
  refine ⟨fun p running => ?_, fun other => ?_⟩
  · have on : (s.kiln k).state.isRunning = true := by rw [running]; rfl
    refine serve_body hl hf rfl (readU8_kiln k) (Nat.le_of_ble_eq_true rfl) ?_
    simp only [kilnHold, placeOf_val]
    rw [if_pos on, holdKiln_running s k on]
    rfl
  · have off : ¬(s.kiln k).state.isRunning = true := by
      cases e : (s.kiln k).state with
      | running p => exact absurd e (other p)
      | empty | loaded | held | finished => exact Bool.false_ne_true
    refine serve_body hl hf rfl (readU8_kiln k) (Nat.le_of_ble_eq_true rfl) ?_
    simp only [kilnHold, placeOf_val]
    rw [if_neg off]
    rfl
end

section
/-! KILN REPORT (05, R85 to R88). -/

namespace Sys2Proof.Machine

theorem readingOk_iff (z : Int) : readingOk z = true ↔ -400 ≤ z ∧ z ≤ 1200 := by
  simp [readingOk]

/-- A report's context: the readings inside the range and the door. -/
theorem readings_eq (c : KilnContext) (dry wet : Int) (door : Bool) : { c.readings dry wet with doorOpen := door } =
    { c with
      lastDry := if -400 ≤ dry ∧ dry ≤ 1200 then some dry else c.lastDry
      lastWet := if -400 ≤ wet ∧ wet ≤ 1200 then some wet else c.lastWet
      suspect := !decide ((-400 ≤ dry ∧ dry ≤ 1200) ∧ -400 ≤ wet ∧ wet ≤ 1200)
      doorOpen := door } := by
  have both : (readingOk dry && readingOk wet) = decide ((-400 ≤ dry ∧ dry ≤ 1200) ∧ -400 ≤ wet ∧ wet ≤ 1200) := by
    rw [Bool.eq_iff_iff, Bool.and_eq_true, readingOk_iff, readingOk_iff, decide_eq_true_eq]
  simp only [KilnContext.readings, readingOk_iff, both]

/-- A door that changes turns the mode of a RUNNING kiln that is not suspended, and of no other (R86, R88). -/
theorem noteSetpoints_door (s : State) (k : KilnNo) (c : KilnContext) (state : c.state = (s.kiln k).state) :
    (s.setKiln k c).noteSetpoints s =
      if (s.kiln k).state.isRunning = true ∧ s.masterEnable = true ∧ (s.kiln k).doorOpen ≠ c.doorOpen then
        (s.setKiln k c).raise .setpointChanged
      else s.setKiln k c := by
  split
  next turned =>
    obtain ⟨running, on, door⟩ := turned
    refine noteSetpoints_differ k (.inl ?_)
    simp only [State.mode, State.kiln_setKiln_same, State.setKiln_masterEnable, state, on]
    cases e : (s.kiln k).state with
    | running p =>
      cases d : (s.kiln k).doorOpen <;> cases d' : c.doorOpen <;> rw [d, d'] at door <;> cases p <;> simp at door ⊢
    | empty | loaded | held | finished => rw [e] at running; cases running
  next same =>
    refine noteSetpoints_same fun j => ⟨?_, rfl⟩
    obtain rfl | ne := eq_or_ne j k
    · simp only [State.mode, State.kiln_setKiln_same, State.setKiln_masterEnable, state]
      cases e : (s.kiln j).state with
      | running p =>
        dsimp only
        cases on : s.masterEnable with
        | false => rfl
        | true =>
          have door : c.doorOpen = (s.kiln j).doorOpen := by
            by_contra ne
            exact same ⟨by rw [e]; rfl, on, Ne.symm ne⟩
          rw [door]
      | empty | loaded | held | finished => rfl
    · exact mode_setKiln_other _ _ ne

theorem reportBytes_empty (s : State) (k : KilnNo) (h : (s.kiln k).state = .empty) :
    s.reportBytes k = [0, 0, 0, 0, 0, 0, 0xFF, 0xFF] ++ mark (s.kiln k).suspect := by
  simp only [State.reportBytes, State.reportedStep, State.mode, h, if_true, true_or, Option.map_none]
  rfl

/-- The answer with a step: what the mode leaves of its setpoints and of the grant (R87). -/
theorem reportBytes_step (s : State) (k : KilnNo) {t : ScheduleStep} (ht : s.currentStep k = some t)
    (used : (s.kiln k).state ≠ .empty) : s.reportBytes k =
      u8 (s.mode k).code ++ u16 (if s.mode k = .idle then 0 else t.dryBulb) ++
        u16 (if s.mode k = .idle then 0 else t.dryBulb - t.depression) ++
        u8 (if s.mode k = .idle ∨ s.suspended k = true then 0 else (s.heatOf k).grant) ++ u8 (s.kiln k).stepIndex ++
        u8 t.kind.code ++ mark (s.kiln k).suspect := by
  simp only [State.reportBytes, State.reportedStep, if_neg used, ht]
  rfl

/-- A kiln with a step under way: the mode is not IDLE, and a suspended one reports no grant (R86, R87). -/
theorem reportBytes_on (s : State) (k : KilnNo) {t : ScheduleStep} {m : Mode} (ht : s.currentStep k = some t)
    (on : (s.kiln k).state.isOn = true) (hm : s.mode k = m) (turning : m ≠ .idle) : s.reportBytes k =
      u8 m.code ++ u16 t.dryBulb ++ u16 (t.dryBulb - t.depression) ++
        u8 (if s.masterEnable = false then 0 else (s.heatOf k).grant) ++ u8 (s.kiln k).stepIndex ++
        u8 t.kind.code ++ mark (s.kiln k).suspect := by
  have used : (s.kiln k).state ≠ .empty := fun e => by rw [e] at on; cases on
  rw [reportBytes_step s k ht used, hm]
  simp [turning, State.suspended, on]

/-- The step that a kiln stands at is read through its schedule and its index. -/
theorem currentStep_setKiln (s : State) (k : KilnNo) (c : KilnContext) (schedule : c.scheduleId = (s.kiln k).scheduleId)
    (index : c.stepIndex = (s.kiln k).stepIndex) : (s.setKiln k c).currentStep k = s.currentStep k := by
  unfold State.currentStep
  rw [State.kiln_setKiln_same, stepAt_setKiln s k k c _ schedule, index]

end Sys2Proof.Machine

open Sys2Proof Sys2Proof.Machine

/-- Settles O37: what the report stores and raises (`noteSetpoints_door`), and the answer by mode. -/
theorem kilnReportStoresAndAnswers : Obligations.KilnReportStoresAndAnswers := by
  intro s f k dry wet door hl d0 d1 w0 w1 hf
  refine ⟨⟨_, _, rfl, rfl, ?_⟩, reportBytes_empty s k, fun t mode d w g ht by_state => ?_⟩
  · set c : KilnContext := { s.kiln k with
      lastDry := if -400 ≤ dry ∧ dry ≤ 1200 then some dry else (s.kiln k).lastDry
      lastWet := if -400 ≤ wet ∧ wet ≤ 1200 then some wet else (s.kiln k).lastWet
      suspect := !decide ((-400 ≤ dry ∧ dry ≤ 1200) ∧ -400 ≤ wet ∧ wet ≤ 1200)
      doorOpen := door } with hc
    set u := if (s.kiln k).state.isRunning = true ∧ s.masterEnable = true ∧ (s.kiln k).doorOpen ≠ door then
        (s.setKiln k c).raise .setpointChanged
      else s.setKiln k c with hu
    have taken : exec (.kilnReport f) s =
        .next ((u.evaluateNow k).answer 0x40 f ⟨.done, (u.evaluateNow k).reportBytes k⟩) := by
      have report : s.takeReport k dry wet door = u.evaluateNow k := by
        unfold State.takeReport
        dsimp only
        rw [readings_eq, ← hc, noteSetpoints_door s k c rfl]
      refine serve_body hl hf rfl (readKilnReport_bytes door (place_le k (by decide)) d0 d1 w0 w1) (Nat.le_of_ble_eq_true rfl) ?_
      simp only [kilnReport, placeOf_val, report]
      rfl
    have kiln : u.kiln k = c := by
      rw [hu]
      split
      · rw [State.kiln_raise, State.kiln_setKiln_same]
      · rw [State.kiln_setKiln_same]
    have enable : u.masterEnable = s.masterEnable := by
      rw [hu]
      split <;> rfl
    have resting (h : (s.kiln k).state ≠ .running .active ∨ s.masterEnable = false) : u.evaluateNow k = u := by
      refine evaluateNow_other u k fun now => ?_
      rw [kiln, enable] at now
      obtain other | off := h
      · exact other now.1
      · rw [off] at now
        exact Bool.false_ne_true now.2
    refine ⟨taken, fun h => ?_, fun empty => ?_, fun t active on shut shut' ht min max => ?_⟩
    · rw [taken, resting h]
    · have kept : u = s.setKiln k c := if_neg fun h => by
        rw [empty] at h
        cases h.1
      have none : (u.kiln k).state = .empty := by rw [kiln]; exact empty
      rw [taken, resting (.inl (by rw [empty]; nofun)), reportBytes_empty u k none, kiln, kept]
    · have kept : u = s.setKiln k c := if_neg fun h => h.2.2 (by rw [shut, shut'])
      have step : u.currentStep k = some t := by rw [kept, currentStep_setKiln s k c rfl rfl, ht]
      have still : u.evaluateNow k = u := evaluateNow_running u k fun t' ht' => by
        cases step.symm.trans ht'
        rw [kiln]
        exact ⟨min, max⟩
      have state : c.state = .running .active := active
      have run : u.mode k = .run := by
        simp only [State.mode, kiln, enable, on, state, show c.doorOpen = false from shut']
        rfl
      have heat : u.heatOf k = s.heatOf k := by rw [kept]; rfl
      rw [taken, still, reportBytes_on u k step (by rw [kiln, state]; rfl) run (by decide), kiln, enable, heat, kept, on]
      rfl
  · obtain ⟨ended, rfl, rfl, rfl, rfl⟩ | ⟨on, rfl, rfl, suspended | enabled⟩ := by_state
    · have idle : s.mode k = .idle := by
        obtain e | e := ended <;> simp only [State.mode, e]
      have used : (s.kiln k).state ≠ .empty := by
        obtain e | e := ended <;> rw [e] <;> nofun
      rw [reportBytes_step s k ht used, idle]
      rfl
    · obtain ⟨off, rfl, rfl⟩ := suspended
      have coast : s.mode k = .coast := by
        cases e : (s.kiln k).state with
        | running p => simp only [State.mode, e, off]; rfl
        | held => simp only [State.mode, e, off]; rfl
        | empty | loaded | finished => rw [e] at on; cases on
      rw [reportBytes_on s k ht on coast (by decide), off]
      rfl
    · obtain ⟨enable, rfl, mode_is⟩ := enabled
      have grant : (if s.masterEnable = false then 0 else (s.heatOf k).grant) = (s.heatOf k).grant := if_neg (by rw [enable]; nofun)
      obtain ⟨held, rfl⟩ | ⟨running, open_, rfl⟩ | ⟨waits, shut, rfl⟩ | ⟨active, shut, rfl⟩ := mode_is
      · have hold : s.mode k = .hold := by simp only [State.mode, held, enable]; rfl
        rw [reportBytes_on s k ht on hold (by decide), grant]
        rfl
      · have coast : s.mode k = .coast := by
          cases e : (s.kiln k).state with
          | running p => simp only [State.mode, e, enable, open_]; rfl
          | empty | loaded | held | finished => rw [e] at running; cases running
        rw [reportBytes_on s k ht on coast (by decide), grant]
        rfl
      · have wait : s.mode k = .wait := by simp only [State.mode, waits, enable, shut]; rfl
        rw [reportBytes_on s k ht on wait (by decide), grant]
        rfl
      · have run : s.mode k = .run := by simp only [State.mode, active, enable, shut]; rfl
        rw [reportBytes_on s k ht on run (by decide), grant]
        rfl
end

section
/-! What a step's entry and end come to while no other kiln waits for heat, hold points and demand included (05, R73, R80, R81;
06, R96, R100; 07, R116, R118). -/

namespace Sys2Proof.Machine

/-! ### Classes raised -/

theorem raise_comm (s : State) (a b : AttnClass) : (s.raise a).raise b = (s.raise b).raise a := by
  unfold State.raise
  generalize a.link = la
  generalize a.set = sa
  generalize b.link = lb
  generalize b.set = sb
  have swap (p x y : ClassSet) : p ||| x ||| y = p ||| y ||| x := by rw [BitVec.or_assoc, BitVec.or_comm x, BitVec.or_assoc]
  cases la <;> cases lb <;> simp only [State.port, State.setPort, swap]

/-- SETPOINT_CHANGED raised anyway: what a change to a mode raised before is in it. -/
theorem noteSetpoints_raise (s b : State) : (s.noteSetpoints b).raise .setpointChanged = s.raise .setpointChanged := by
  unfold State.noteSetpoints
  split
  · exact raise_raise ..
  · rfl

theorem noteSetpoints_only (s b : State) : s.noteSetpoints b = s ∨ s.noteSetpoints b = s.raise .setpointChanged := by
  unfold State.noteSetpoints
  split
  · exact .inr rfl
  · exact .inl rfl

/-! ### A demand handed to the arbiter (06, R96) -/

/-- The heat record a kiln takes with a demand, no other kiln waiting. -/
def State.heatFor (s : State) (k : KilnNo) (d : Nat) : HeatRecord :=
  if d ≤ (s.heatOf k).grant then ⟨d, .absent⟩
  else if s.masterEnable = false then ⟨(s.heatOf k).grant, .dormant d⟩
  else if d - (s.heatOf k).grant ≤ s.freeUnits then ⟨d, .absent⟩
  else ⟨(s.heatOf k).grant, .waiting d ((s.heatOf k).request.since?.getD s.minute)⟩

theorem heatFor_enabled (s : State) (k : KilnNo) (d : Nat) (on : s.masterEnable = true) : s.heatFor k d =
    if d - (s.heatOf k).grant ≤ s.freeUnits then ⟨d, .absent⟩
    else ⟨(s.heatOf k).grant, .waiting d ((s.heatOf k).request.since?.getD s.minute)⟩ := by
  unfold State.heatFor
  rw [on]
  split
  next less => rw [if_pos (by omega)]
  · rfl

theorem pass_setPhase_absent (s : State) (k : KilnNo) (d : Nat) (p : Phase) (b : State) (alone : OthersDoNotWait s k) :
    (((s.setHeat k ⟨d, .absent⟩).setPhase k p).noteSetpoints b).pass =
      (((s.setHeat k ⟨d, .absent⟩).setPhase k p).noteSetpoints b, []) := by
  refine pass_noneWaiting _ fun j => ?_
  have heat : (((s.setHeat k ⟨d, .absent⟩).setPhase k p).noteSetpoints b).heatOf j = (s.setHeat k ⟨d, .absent⟩).heatOf j := by
    unfold State.setPhase
    obtain e | e := noteSetpoints_only _ b <;> rw [e]
    · split <;> rfl
    · rw [State.heatOf_raise]
      split <;> rfl
  rw [heat]
  obtain rfl | ne := eq_or_ne j k
  · rw [State.heatOf_setHeat_same]
    rfl
  · rw [State.heatOf_setHeat_other _ _ ne]
    exact alone j ne

/-- The pass made for a kiln that alone waits. -/
theorem pass_asked (s : State) (k : KilnNo) (d m : Nat) (on : s.masterEnable = true) (alone : OthersDoNotWait s k) :
    (s.setHeat k ⟨(s.heatOf k).grant, .waiting d m⟩).pass =
      if d - (s.heatOf k).grant ≤ s.freeUnits then
        (((s.setHeat k ⟨d, .absent⟩).setPhase k .active).noteSetpoints (s.setHeat k ⟨(s.heatOf k).grant, .waiting d m⟩),
          if (s.kiln k).state = .running .waitHeat then [k] else [])
      else (s.setHeat k ⟨(s.heatOf k).grant, .waiting d m⟩, []) := by
  rw [pass_alone (s.setHeat k _) k d m on (by rw [State.heatOf_setHeat_same]) (alone.setHeat _),
    freeUnits_setHeat s k ⟨(s.heatOf k).grant, .waiting d m⟩ rfl, State.heatOf_setHeat_same, State.grantKiln, setHeat_setHeat]
  rfl

/-- The demand of a HELD kiln: the record alone changes. -/
theorem handDemand_held (s : State) (k : KilnNo) (d : Nat) (held : (s.kiln k).state = .held) (alone : OthersDoNotWait s k) :
    (s.handDemand k d).2 = [] ∧
      (s.handDemand k d).1.raise .setpointChanged = (s.setHeat k (s.heatFor k d)).raise .setpointChanged := by
  have phase (r : HeatRecord) (p : Phase) : (s.setHeat k r).setPhase k p = s.setHeat k r :=
    setPhase_other _ _ _ (by rw [State.kiln_setHeat, held]; rfl)
  unfold State.handDemand State.heatFor
  dsimp only
  by_cases less : d ≤ (s.heatOf k).grant
  · rw [if_pos less, if_pos less, pass_setPhase_absent s k d .active s alone, phase]
    rw [ite_self]
    exact ⟨rfl, noteSetpoints_raise ..⟩
  rw [if_neg less, if_neg less]
  cases on : s.masterEnable with
  | false =>
    rw [if_neg Bool.false_ne_true, if_pos rfl, phase]
    exact ⟨rfl, noteSetpoints_raise ..⟩
  | true =>
    rw [if_pos rfl, if_neg (by simp), pass_asked s k d _ on alone]
    have stays (t : State) (h : (t.kiln k).state = .held) : t.waitUnlessGranted k = t := if_neg (by rw [h]; exact Bool.false_ne_true)
    split
    next fits =>
      rw [phase, if_neg (by rw [held]; nofun), stays _ ?_]
      · exact ⟨rfl, noteSetpoints_raise ..⟩
      · obtain e | e := noteSetpoints_only (s.setHeat k ⟨d, .absent⟩) (s.setHeat k ⟨(s.heatOf k).grant, .waiting d _⟩) <;> rw [e]
        · exact held
        · rw [State.kiln_raise]
          exact held
    next short =>
      rw [stays _ (by exact held)]
      exact ⟨rfl, rfl⟩

/-- The demand of a RUNNING ACTIVE kiln with the enable set: covered, or waiting in WAIT_HEAT with HEAT_WAIT (R101). -/
theorem handDemand_active (s : State) (k : KilnNo) (d : Nat) (active : (s.kiln k).state = .running .active)
    (on : s.masterEnable = true) (alone : OthersDoNotWait s k) :
    (s.handDemand k d).2 = [] ∧ (s.handDemand k d).1.raise .setpointChanged =
      (if d - (s.heatOf k).grant ≤ s.freeUnits then s.setHeat k (s.heatFor k d)
        else (((s.setKiln k { s.kiln k with state := .running .waitHeat }).setHeat k (s.heatFor k d)).raise .heatWait)).raise
          .setpointChanged := by
  have phase (r : HeatRecord) : (s.setHeat k r).setPhase k .active = s.setHeat k r := setPhase_self _ _ _ active
  rw [heatFor_enabled s k d on]
  unfold State.handDemand
  dsimp only
  by_cases less : d ≤ (s.heatOf k).grant
  · have fits : d - (s.heatOf k).grant ≤ s.freeUnits := by omega
    rw [if_pos less, if_pos fits, if_pos fits, pass_setPhase_absent s k d .active s alone, phase, ite_self]
    exact ⟨rfl, noteSetpoints_raise ..⟩
  rw [if_neg less, on, if_pos rfl, pass_asked s k d _ on alone]
  split
  next fits =>
    rw [phase, if_neg (by rw [active]; nofun)]
    have granted (t : State) (h : (t.heatOf k).request = .absent) : t.waitUnlessGranted k = t :=
      if_neg (by simp [State.isWaiting, h, HeatRequest.since?])
    rw [granted _ ?_]
    · exact ⟨rfl, noteSetpoints_raise ..⟩
    · obtain e | e := noteSetpoints_only (s.setHeat k ⟨d, .absent⟩) (s.setHeat k ⟨(s.heatOf k).grant, .waiting d _⟩) <;> rw [e]
      · rw [State.heatOf_setHeat_same]
      · rw [State.heatOf_raise, State.heatOf_setHeat_same]
  next short =>
    refine ⟨rfl, ?_⟩
    unfold State.waitUnlessGranted
    rw [if_pos (by simp [State.isWaiting, active, KilnState.isRunning, HeatRequest.since?])]
    unfold State.setPhase
    rw [State.kiln_setHeat, active]
    dsimp only
    rw [raise_comm, noteSetpoints_raise, raise_comm]
    rfl

/-! ### Steps (05, R73, R80) -/

theorem hitPoints_nil (s : State) (k : KilnNo) : s.hitPoints k [] = s := by
  refine holdPoints_ext rfl fun p => ?_
  rw [holdPoint_hitPoints, if_neg List.not_mem_nil]

theorem stepEnterMatches_nodup (s : State) (k : KilnNo) (i : Nat) : (s.stepEnterMatches k i).Nodup := nodup_filter_holdPoints _

/-- The demand of the step that a context's index names. -/
theorem currentDemand_of (s : State) (k : KilnNo) {i : Nat} {t : ScheduleStep} (index : (s.kiln k).stepIndex = i)
    (step : s.stepAt k i = some t) : s.currentDemand k = t.demand := by
  unfold State.currentDemand State.currentStep
  rw [index, step]

/-- What two states have in common that the arbiter looks at. -/
structure SameArbiter (s t : State) : Prop where
  heat : t.heat = s.heat
  enable : t.masterEnable = s.masterEnable
  capacity : t.capacity = s.capacity
  minute : t.minute = s.minute

theorem SameArbiter.heatOf {s t : State} (h : SameArbiter s t) (k : KilnNo) : t.heatOf k = s.heatOf k := by
  unfold State.heatOf
  rw [h.heat]

theorem SameArbiter.freeUnits {s t : State} (h : SameArbiter s t) : t.freeUnits = s.freeUnits := by
  unfold State.freeUnits State.grantSum
  rw [h.heat, h.capacity]

theorem SameArbiter.heatFor {s t : State} (h : SameArbiter s t) (k : KilnNo) (d : Nat) : t.heatFor k d = s.heatFor k d := by
  unfold State.heatFor
  rw [h.heatOf, h.enable, h.freeUnits, h.minute]

theorem SameArbiter.alone {s t : State} (h : SameArbiter s t) {k : KilnNo} (alone : OthersDoNotWait s k) : OthersDoNotWait t k :=
  fun j hj => by rw [h.heatOf]; exact alone j hj

theorem SameArbiter.raise {s t : State} (h : SameArbiter s t) (c : AttnClass) : SameArbiter s (t.raise c) :=
  ⟨by rw [State.raise_heat, h.heat], by rw [State.raise_masterEnable, h.enable], by rw [State.raise_capacity, h.capacity],
    by rw [State.raise_minute, h.minute]⟩

/-- The context of a kiln at the entry of a step (R73). -/
def KilnContext.entering (c : KilnContext) (i minute : Nat) : KilnContext :=
  { c with stepIndex := i, stepEntered := some minute, stepElapsed := 0 }

/-- The hold points hit and the kiln's context written. -/
def State.hitAndSet (s : State) (k : KilnNo) (l : List HoldPointNo) (c : KilnContext) : State := (s.hitPoints k l).setKiln k c

theorem hitAndSet_sameArbiter (s : State) (k : KilnNo) (l : List HoldPointNo) (c : KilnContext) : SameArbiter s (s.hitAndSet k l c) :=
  ⟨rfl, rfl, rfl, rfl⟩

theorem kiln_hitAndSet (s : State) (k : KilnNo) (l : List HoldPointNo) (c : KilnContext) : (s.hitAndSet k l c).kiln k = c :=
  State.kiln_setKiln_same ..

theorem currentDemand_hitAndSet (s : State) (k : KilnNo) (l : List HoldPointNo) {c : KilnContext} {i : Nat} {t : ScheduleStep}
    (schedule : c.scheduleId = (s.kiln k).scheduleId) (index : c.stepIndex = i) (step : s.stepAt k i = some t) :
    (s.hitAndSet k l c).currentDemand k = t.demand := by
  refine currentDemand_of _ _ (i := i) (by rw [kiln_hitAndSet, index]) ?_
  exact (stepAt_setKiln (s.hitPoints k l) k k c i schedule).trans step

theorem currentDemand_raise (s : State) (a : AttnClass) (k : KilnNo) : (s.raise a).currentDemand k = s.currentDemand k := by
  unfold State.currentDemand State.currentStep
  rw [State.kiln_raise, stepAt_raise]

/-- The matches of a HELD kiln, which stays as it is. -/
theorem takeMatches_held (s : State) (k : KilnNo) {l : List HoldPointNo} {c : KilnContext} (nodup : l.Nodup) (held : c.state = .held) :
    (s.setKiln k c).takeMatches k l = if l = [] then s.hitAndSet k l c else (s.hitAndSet k l c).raise .holdHit := by
  split
  next none =>
    rw [none, takeMatches_nil, State.hitAndSet, hitPoints_nil]
  next some =>
    rw [takeMatches_cons _ k some nodup]
    have other : (s.hitAndSet k l c).holdKiln k = s.hitAndSet k l c := holdKiln_other _ _ (by rw [kiln_hitAndSet, held]; rfl)
    exact congrArg (State.raise · .holdHit) other

/-- The matches of a RUNNING kiln of a mill that runs. -/
theorem takeMatches_running (s : State) (k : KilnNo) {l : List HoldPointNo} {c : KilnContext} (some : l ≠ []) (nodup : l.Nodup)
    (running : c.state.isRunning = true) (on : s.masterEnable = true) : (s.setKiln k c).takeMatches k l =
      ((s.hitAndSet k l { c with state := .held }).raise .setpointChanged).raise .holdHit := by
  rw [takeMatches_cons _ k some nodup]
  have turned : (s.hitAndSet k l c).holdKiln k = (s.hitAndSet k l { c with state := .held }).raise .setpointChanged := by
    rw [holdKiln_running _ _ (by rw [kiln_hitAndSet]; exact running), kiln_hitAndSet, if_pos (show (s.hitAndSet k l c).masterEnable = true from on)]
    unfold State.hitAndSet
    rw [setKiln_setKiln]
  exact congrArg (State.raise · .holdHit) turned

/-- The demand handed by a HELD kiln at a step's entry, and what follows it. -/
theorem settled_held {s v : State} {k : KilnNo} {d : Nat} (same : SameArbiter s v) (held : (v.kiln k).state = .held)
    (alone : OthersDoNotWait s k) (demand : v.currentDemand k = d) :
    settle (v.handDemand k (v.currentDemand k)).2 ((v.handDemand k (v.currentDemand k)).1.raise .setpointChanged) =
      (v.setHeat k (s.heatFor k d)).raise .setpointChanged := by
  obtain ⟨quiet, handed⟩ := handDemand_held v k d held (same.alone alone)
  rw [demand, quiet, settle_nil, handed, same.heatFor]

/-- A step entered by a HELD kiln: its heat, and HOLD_HIT where records match. -/
theorem enterStep_held (s : State) (k : KilnNo) (i : Nat) {t : ScheduleStep} {u : State} (held : (s.kiln k).state = .held)
    (alone : OthersDoNotWait s k) (step : s.stepAt k i = some t)
    (hu : u = (s.hitAndSet k (s.stepEnterMatches k i) ((s.kiln k).entering i s.minute)).setHeat k (s.heatFor k t.demand)) :
    s.enterStep settle k i = (if s.stepEnterMatches k i = [] then u else u.raise .holdHit).raise .setpointChanged := by
  have taken := takeMatches_held s k (c := (s.kiln k).entering i s.minute) (stepEnterMatches_nodup s k i) held
  have demand := currentDemand_hitAndSet s k (s.stepEnterMatches k i) (c := (s.kiln k).entering i s.minute) rfl rfl step
  have same := hitAndSet_sameArbiter s k (s.stepEnterMatches k i) ((s.kiln k).entering i s.minute)
  have kiln := kiln_hitAndSet s k (s.stepEnterMatches k i) ((s.kiln k).entering i s.minute)
  unfold State.enterStep
  dsimp only
  refine (congrArg (fun v => settle (v.handDemand k (v.currentDemand k)).2
    ((v.handDemand k (v.currentDemand k)).1.raise .setpointChanged)) taken).trans ?_
  split
  · rw [settled_held same (by rw [kiln]; exact held) alone demand, hu]
  · rw [settled_held (same.raise _) (by rw [State.kiln_raise, kiln]; exact held) alone (by rw [currentDemand_raise, demand]),
      setHeat_raise, hu]

/-- A step entered by a RUNNING ACTIVE kiln, the enable set: HELD where records match; otherwise ACTIVE when its demand is covered,
and waiting when it is not. -/
theorem enterStep_active (s : State) (k : KilnNo) (i : Nat) {t : ScheduleStep} {u : State} (active : (s.kiln k).state = .running .active)
    (on : s.masterEnable = true) (alone : OthersDoNotWait s k) (step : s.stepAt k i = some t)
    (hu : u = (s.hitAndSet k (s.stepEnterMatches k i)
      { (s.kiln k).entering i s.minute with
        state := if s.stepEnterMatches k i ≠ [] then .held
          else if t.demand - (s.heatOf k).grant ≤ s.freeUnits then .running .active else .running .waitHeat }).setHeat k
      (s.heatFor k t.demand)) :
    s.enterStep settle k i = (if s.stepEnterMatches k i ≠ [] then u.raise .holdHit
      else if t.demand - (s.heatOf k).grant ≤ s.freeUnits then u else u.raise .heatWait).raise .setpointChanged := by
  unfold State.enterStep
  dsimp only
  by_cases none : s.stepEnterMatches k i = []
  · rw [if_neg (not_not.2 none)] at hu ⊢
    have same := hitAndSet_sameArbiter s k [] ((s.kiln k).entering i s.minute)
    have kiln := kiln_hitAndSet s k [] ((s.kiln k).entering i s.minute)
    obtain ⟨quiet, handed⟩ := handDemand_active (s.hitAndSet k [] ((s.kiln k).entering i s.minute)) k t.demand
      (by rw [kiln]; exact active) on (same.alone alone)
    rw [show (s.setKiln k _).stepEnterMatches k i = [] from none, takeMatches_nil]
    have entered : s.setKiln k ((s.kiln k).entering i s.minute) = s.hitAndSet k [] ((s.kiln k).entering i s.minute) := by
      rw [State.hitAndSet, hitPoints_nil]
    refine (congrArg (fun v => settle (v.handDemand k (v.currentDemand k)).2
      ((v.handDemand k (v.currentDemand k)).1.raise .setpointChanged)) entered).trans ?_
    rw [currentDemand_hitAndSet s k [] (c := (s.kiln k).entering i s.minute) rfl rfl step, quiet, settle_nil, handed, same.heatFor,
      same.heatOf, same.freeUnits, hu, none]
    congr 1
    split
    next fits =>
      congr 2
      rw [← active]
      rfl
    next short =>
      rw [kiln, State.hitAndSet, setKiln_setKiln]
      rfl
  · rw [if_pos none] at hu ⊢
    have same := hitAndSet_sameArbiter s k (s.stepEnterMatches k i) { (s.kiln k).entering i s.minute with state := .held }
    have kiln := kiln_hitAndSet s k (s.stepEnterMatches k i) { (s.kiln k).entering i s.minute with state := .held }
    have demand := currentDemand_hitAndSet s k (s.stepEnterMatches k i)
      (c := { (s.kiln k).entering i s.minute with state := .held }) rfl rfl step
    refine (congrArg (fun v => settle (v.handDemand k (v.currentDemand k)).2
      ((v.handDemand k (v.currentDemand k)).1.raise .setpointChanged))
      (takeMatches_running s k (c := (s.kiln k).entering i s.minute) none (stepEnterMatches_nodup s k i)
        (by rw [KilnContext.entering, active]; rfl) on)).trans ?_
    rw [settled_held ((same.raise _).raise _) (by rw [State.kiln_raise, State.kiln_raise, kiln]) alone
      (by rw [currentDemand_raise, currentDemand_raise, demand]), setHeat_raise, setHeat_raise, raise_comm, raise_raise, raise_comm, hu]

end Sys2Proof.Machine
end

section
/-! KILN START of a LOADED kiln, KILN ADVANCE, and the ends of steps (05, R72, R73, R76 to R81; 06, R95 to R101; 07, R116, R118,
R122). -/

namespace Sys2Proof.Machine

/-- The hit records of a list, over a state with the same records. -/
theorem hitAndSet_setKiln (s : State) (k : KilnNo) (l : List HoldPointNo) (c c' : KilnContext) :
    (s.setKiln k c).hitAndSet k l c' = s.hitAndSet k l c' := setKiln_setKiln (s.hitPoints k l) k c c'

/-- A LOADED kiln started: step 0 entered from RUNNING ACTIVE (R72). -/
theorem startKiln_alone (s : State) (k : KilnNo) {t : ScheduleStep} {u : State} (on : s.masterEnable = true)
    (alone : OthersDoNotWait s k) (step : s.stepAt k 0 = some t)
    (hu : u = (s.hitAndSet k (s.stepEnterMatches k 0)
      { s.kiln k with
        state := if s.stepEnterMatches k 0 ≠ [] then .held
          else if t.demand - (s.heatOf k).grant ≤ s.freeUnits then .running .active else .running .waitHeat
        runEnable := true, stepIndex := 0, stepEntered := some s.minute, stepElapsed := 0 }).setHeat k (s.heatFor k t.demand)) :
    s.startKiln k = (if s.stepEnterMatches k 0 ≠ [] then u.raise .holdHit
      else if t.demand - (s.heatOf k).grant ≤ s.freeUnits then u else u.raise .heatWait).raise .setpointChanged := by
  refine enterStep_active _ k 0 (by rw [State.kiln_setKiln_same]) on alone ((stepAt_setKiln s k k _ 0 (by rfl)).trans step) ?_
  rw [hu, hitAndSet_setKiln, State.kiln_setKiln_same]
  rfl

end Sys2Proof.Machine

open Sys2Proof Sys2Proof.Machine

/-- Settles O32: step 0 is entered (`startKiln_alone`); the mill is enabled already. -/
theorem kilnStartEntersStepZero : Obligations.KilnStartEntersStepZero := by
  intro s f k hl hf line on
  have enabled : s.enableMill = s := if_pos on
  have served {t : State} {r : Reply} (h : kilnStart k.val s = (t, r)) : exec (.kilnStart f) s = .next (t.answer 0x25 f r) :=
    serve_body hl hf rfl (readU8_kiln k) (Nat.le_of_ble_eq_true rfl) h
  refine ⟨fun c t entered loaded schedule step heat alone he => ?_, fun isOn => ?_⟩
  · have at0 : s.stepAt k 0 = some t := by
      unfold State.stepAt
      rw [Option.bind_eq_some_iff] at schedule
      obtain ⟨id, hid, hc⟩ := schedule
      simp only [hid, hc, Option.bind_some, step]
    have started := startKiln_alone s k on alone at0 rfl
    have start : kilnStart k.val s = (s.startKiln k, .done (u8 ((s.startKiln k).kiln k).state.code ++ (s.startKiln k).phaseBytes k)) := by
      simp only [kilnStart, placeOf_val, enabled]
      rw [line, if_neg Bool.false_ne_true, if_neg (by rw [loaded]; nofun), if_pos loaded]
    rw [heatFor_enabled s k _ on, heat] at started
    simp only [Nat.sub_zero] at started
    subst he
    have answered {x : State} {st : KilnState} (hx : s.startKiln k = x) (state : (x.kiln k).state = st) :
        exec (.kilnStart f) s = .next (x.answer 0x25 f ⟨.done, u8 st.code ++ optU8 (st.phase?.map Phase.code)⟩) := by
      refine served (start.trans ?_)
      rw [hx, State.phaseBytes, state]
      rfl
    refine ⟨fun none fits => ?_, fun none short => ?_, fun some => ?_⟩
    · rw [none, if_neg (not_not.2 rfl), if_neg (not_not.2 rfl), if_pos fits, if_pos fits, if_pos fits, State.hitAndSet,
        hitPoints_nil] at started
      exact answered started (by rw [State.kiln_raise, State.kiln_setHeat, State.kiln_setKiln_same])
    · have not_fits := Nat.not_le.2 short
      rw [none, if_neg (not_not.2 rfl), if_neg (not_not.2 rfl), if_neg not_fits, if_neg not_fits, if_neg not_fits, State.hitAndSet,
        hitPoints_nil] at started
      exact answered started (by rw [State.kiln_raise, State.kiln_raise, State.kiln_setHeat, State.kiln_setKiln_same])
    · rw [if_pos some, if_pos some] at started
      exact answered started (by rw [State.kiln_raise, State.kiln_raise, State.kiln_setHeat, kiln_hitAndSet])
  · have under_way : ¬((s.kiln k).state = .empty ∨ (s.kiln k).state = .finished) := by
      rintro (e | e) <;> rw [e] at isOn <;> cases isOn
    have not_loaded : (s.kiln k).state ≠ .loaded := fun e => by rw [e] at isOn; cases isOn
    refine served ?_
    simp only [kilnStart, placeOf_val, enabled]
    rw [line, if_neg Bool.false_ne_true, if_neg under_way, if_neg not_loaded]
    rfl

/-- Settles O40: the last step finishes the kiln (`endStep_last`); an earlier one is followed by the next (`enterStep_held`). -/
theorem kilnAdvanceEndsOneStep : Obligations.KilnAdvanceEndsOneStep := by
  intro s f k hl hf
  have served {t : State} {r : Reply} (h : kilnAdvance k.val s = (t, r)) : exec (.kilnAdvance f) s = .next (t.answer 0x2B f r) :=
    serve_body hl hf rfl (readU8_kiln k) (Nat.le_of_ble_eq_true rfl) h
  refine ⟨fun other => served ?_, fun held alone => ?_⟩
  · simp only [kilnAdvance, placeOf_val]
    rw [if_neg other]
    rfl
  have advance : kilnAdvance k.val s = (s.endStep settle k .advanced, .done (s.advanceBytes k)) := by
    simp only [kilnAdvance, placeOf_val]
    rw [if_pos held]
  refine ⟨fun last => served (advance.trans ?_), fun i t l u hi more step matched hu => served (advance.trans ?_)⟩
  · rw [endStep_last s k .advanced alone last, State.advanceBytes]
    dsimp only
    rw [if_neg (by omega)]
    rfl
  · subst hi
    have entered := enterStep_held (s.recordEnd k .advanced) k ((s.kiln k).stepIndex + 1) (u := u)
      (by rw [State.recordEnd, State.kiln_setKiln_same]; exact held) alone
      ((stepAt_setKiln s k k _ _ (by rfl)).trans step) (by
        rw [hu, matched, State.recordEnd, hitAndSet_setKiln, State.kiln_setKiln_same]
        rfl)
    have ended : s.endStep settle k .advanced = (if l = [] then u else u.raise .holdHit).raise .setpointChanged := by
      rw [State.endStep]
      rw [if_pos more, entered, matched]
      rfl
    rw [ended, State.advanceBytes]
    rw [if_pos more, ← matched]
    rfl
end

section
/-! The exits of steps and the aged request (05, R76 to R81; 06, R95, R99). -/

namespace Sys2Proof.Machine

theorem fresh_iff (s : State) (k : KilnNo) : s.fresh k = true ↔
    (s.kiln k).figures.cmc ≠ none ∧ ∀ x ∈ (s.kiln k).samples, s.minute - x.weighMinute ≤ 1440 := by
  simp [State.fresh, freshAt, Option.isSome_iff_ne_none, Config.freshMinutes]

/-- An exit by a figure needs it fresh and past its value (R78). -/
theorem figure_exit {figure : Option Nat} {fresh : Bool} {past : Nat → Bool} :
    (match figure with
      | some m => fresh && past m
      | none => false) = true ↔ fresh = true ∧ ∃ m, figure = some m ∧ past m = true := by
  cases figure <;> simp

theorem reading_exit {reading : Option Int} {suspect : Bool} {past : Int → Bool} :
    (match reading with
      | some z => !suspect && past z
      | none => false) = true ↔ suspect = false ∧ ∃ z, reading = some z ∧ past z = true := by
  cases reading <;> simp

theorem exitHolds_iff (s : State) (k : KilnNo) (t : ScheduleStep) : s.exitHolds k t = true ↔ match t.exit with
    | .time => True
    | .cmcAtOrBelow v => s.fresh k = true ∧ ∃ m, (s.kiln k).figures.cmc = some m ∧ m ≤ v
    | .driestAtOrAbove v => s.fresh k = true ∧ ∃ m, (s.kiln k).figures.driest = some m ∧ v ≤ m
    | .drybulbReached => (s.kiln k).suspect = false ∧ ∃ z, (s.kiln k).lastDry = some z ∧ (t.dryBulb : Int) - 10 ≤ z
    | .drybulbAtOrBelow v => (s.kiln k).suspect = false ∧ ∃ z, (s.kiln k).lastDry = some z ∧ z ≤ (v : Int) := by
  unfold State.exitHolds
  cases t.exit with
  | time => exact iff_of_true rfl trivial
  | cmcAtOrBelow v =>
    refine (figure_exit (past := fun m => decide (m ≤ v))).trans ?_
    simp only [decide_eq_true_eq]
  | driestAtOrAbove v =>
    refine (figure_exit (past := fun m => decide (v ≤ m))).trans ?_
    simp only [decide_eq_true_eq]
  | drybulbReached =>
    refine (reading_exit (past := fun z => decide ((t.dryBulb : Int) - 10 ≤ z))).trans ?_
    simp only [decide_eq_true_eq]
  | drybulbAtOrBelow v =>
    refine (reading_exit (past := fun z => decide (z ≤ (v : Int)))).trans ?_
    simp only [decide_eq_true_eq]

/-- No exit and no maximum: nothing ends. -/
theorem evaluateNow_goes (s : State) (k : KilnNo) {t : ScheduleStep} (step : s.currentStep k = some t)
    (max : (s.kiln k).stepElapsed < t.maxMinutes) (min : (s.kiln k).stepElapsed < t.minMinutes ∨ s.exitHolds k t = false) :
    s.evaluateNow k = s := by
  unfold State.evaluateNow State.evaluate
  split
  · rw [step]
    have stays : ¬(t.minMinutes ≤ (s.kiln k).stepElapsed ∧ s.exitHolds k t = true) := fun ⟨le, holds⟩ =>
      min.elim (fun lt => Nat.not_le.2 lt le) fun not => by rw [not] at holds; cases holds
    dsimp only
    rw [if_neg stays, if_neg (Nat.not_le.2 max)]
  · rfl

/-- The end of a step that is not the last, of a RUNNING ACTIVE kiln. -/
theorem endStep_active (s : State) (k : KilnNo) (cause : EndCause) {n : ScheduleStep} {u : State}
    (active : (s.kiln k).state = .running .active) (on : s.masterEnable = true) (alone : OthersDoNotWait s k)
    (more : (s.kiln k).stepIndex + 1 < s.stepCount k) (step : s.stepAt k ((s.kiln k).stepIndex + 1) = some n)
    (hu : u = (s.hitAndSet k (s.stepEnterMatches k ((s.kiln k).stepIndex + 1))
      { s.kiln k with
        state := if s.stepEnterMatches k ((s.kiln k).stepIndex + 1) ≠ [] then .held
          else if n.demand - (s.heatOf k).grant ≤ s.freeUnits then .running .active else .running .waitHeat
        stepIndex := (s.kiln k).stepIndex + 1, stepEntered := some s.minute, stepElapsed := 0,
        history := (s.kiln k).history ++ [⟨(s.kiln k).stepIndex, (s.kiln k).stepElapsed, cause⟩] }).setHeat k
      (if n.demand - (s.heatOf k).grant ≤ s.freeUnits then ⟨n.demand, .absent⟩
        else ⟨(s.heatOf k).grant, .waiting n.demand ((s.heatOf k).request.since?.getD s.minute)⟩)) :
    s.endStep settle k cause = (if s.stepEnterMatches k ((s.kiln k).stepIndex + 1) ≠ [] then u.raise .holdHit
      else if n.demand - (s.heatOf k).grant ≤ s.freeUnits then u else u.raise .heatWait).raise .setpointChanged := by
  rw [State.endStep, if_pos more]
  refine enterStep_active (s.recordEnd k cause) k ((s.kiln k).stepIndex + 1) (by rw [State.recordEnd, State.kiln_setKiln_same]; exact active)
    on alone ((stepAt_setKiln s k k _ _ (by rfl)).trans step) ?_
  have heat : (s.recordEnd k cause).heatFor k n.demand = s.heatFor k n.demand := rfl
  rw [hu, heat, heatFor_enabled s k _ on, State.recordEnd, hitAndSet_setKiln, State.kiln_setKiln_same]
  rfl

end Sys2Proof.Machine

open Sys2Proof Sys2Proof.Machine

/-- Settles O45: the exit conditions; an evaluation's two ends, each a last step or one with a next; the pass over one aged kiln. -/
theorem stepEndsAndAgedRequest : Obligations.StepEndsAndAgedRequest := by
  refine ⟨fun s k t fresh hf => ?_, fun s k => ⟨fun none => ?_, fun t cause v active on alone step end_ => ?_,
    fun running active on ⟨t, step, max⟩ => ?_, fun none => ?_⟩, fun s k running on alone => ⟨fun d m held waits old fits new => ?_,
    fun d m waits old short => ?_⟩⟩
  · obtain rfl : (s.fresh k = true) = fresh := propext ((fresh_iff s k).trans hf.symm)
    exact exitHolds_iff s k t
  · obtain other | off | ⟨t, step, max, min⟩ := none
    · exact evaluateNow_other s k fun now => other now.1
    · exact evaluateNow_other s k fun now => by rw [off] at now; exact Bool.false_ne_true now.2
    · exact evaluateNow_goes s k step max min
  · have evaluated : s.evaluateNow k = v.endStep settle k cause := by
      unfold State.evaluateNow State.evaluate
      rw [if_pos ⟨active, on⟩, step]
      dsimp only
      obtain ⟨min, holds, rfl, rfl⟩ | ⟨min, max, rfl, rfl⟩ := end_
      · rw [if_pos ⟨min, holds⟩]
      · have stays : ¬(t.minMinutes ≤ (s.kiln k).stepElapsed ∧ s.exitHolds k t = true) := fun ⟨le, holds⟩ =>
          min.elim (fun lt => Nat.not_le.2 lt le) fun not => by rw [not] at holds; cases holds
        rw [if_neg stays, if_pos max]
    have base : v = s ∨ v = s.raise .stepForced := end_.imp (fun h => h.2.2.2) fun h => h.2.2.2
    refine ⟨fun last => ?_, fun i n l u hi more next hl hu => ?_⟩
    · rw [evaluated]
      obtain rfl | rfl := base
      · exact endStep_last v k cause alone last
      · exact endStep_last (s.raise .stepForced) k cause alone last
    · subst hi hl
      rw [evaluated]
      obtain rfl | rfl := base
      · exact endStep_active v k cause active on alone more next hu
      · exact endStep_active (s.raise .stepForced) k cause active on alone more next hu
  · refine (whileRunning_running (event := fun s => if s.maximumCounted k then s.evaluateNow k else s) running).trans ?_
    rw [if_pos (by simp [State.maximumCounted, active, on, step, max])]
  · by_cases running : s.condition = .running
    · refine (whileRunning_running (event := fun s => if s.maximumCounted k then s.evaluateNow k else s) running).trans ?_
      rw [if_neg]
      obtain stopped | other | off | ⟨t, step, max⟩ := none
      · exact absurd running stopped
      · simp [State.maximumCounted, other]
      · simp [State.maximumCounted, off]
      · simp [State.maximumCounted, step, max]
    · exact whileRunning_stopped running
  · have aged : s.aged k = true := by rw [State.aged, waits]; exact decide_eq_true old
    refine (whileRunning_running (event := fun s => if s.aged k then s.passAndSettle else s) running).trans ?_
    have granted : s.grantKiln k d = (s.setHeat k ⟨d, .absent⟩).raise .setpointChanged := by
      rw [State.grantKiln, setPhase_other _ _ _ (by rw [State.kiln_setHeat, held]; rfl), noteSetpoints_setHeat, if_neg new]
    rw [if_pos aged, State.passAndSettle, pass_alone s k d m on waits alone, if_pos fits, if_neg (by rw [held]; nofun), granted]
    rfl
  · have aged : s.aged k = true := by rw [State.aged, waits]; exact decide_eq_true old
    refine (whileRunning_running (event := fun s => if s.aged k then s.passAndSettle else s) running).trans ?_
    rw [if_pos aged, State.passAndSettle, pass_alone s k d m on waits alone, if_neg (Nat.not_le.2 short)]
    rfl
end

section
/-! KILN RELEASE and the mill stop (05, R86, R88; 06, R106, R107; 07, R121). -/

namespace Sys2Proof.Machine

/-- A HELD kiln that runs again: its mode changes while the enable is set (R88). -/
theorem noteSetpoints_released (s : State) (k : KilnNo) (p : Phase) (held : (s.kiln k).state = .held) :
    (s.setKiln k { s.kiln k with state := .running p }).noteSetpoints s =
      if s.masterEnable = false then s.setKiln k { s.kiln k with state := .running p }
      else (s.setKiln k { s.kiln k with state := .running p }).raise .setpointChanged := by
  split
  next off =>
    refine noteSetpoints_same fun j => ⟨?_, rfl⟩
    obtain rfl | ne := eq_or_ne j k
    · simp [State.mode, off, held]
    · exact mode_setKiln_other _ _ ne
  next on =>
    refine noteSetpoints_differ k (.inl ?_)
    simp only [State.mode, State.kiln_setKiln_same, State.setKiln_masterEnable, held, Bool.of_not_eq_false on]
    cases (s.kiln k).doorOpen <;> cases p <;> simp

theorem releaseKiln_phase (s : State) (k : KilnNo) {p : Phase} {w : State} (hp : (s.unhit k).releasePhase k = p)
    (hw : ((s.unhit k).setKiln k { s.kiln k with state := .running p }).noteSetpoints (s.unhit k) = w) :
    s.releaseKiln k = if p = .active then w.evaluateNow k else if w.masterEnable then (w.raise .heatWait).passAndSettle else w := by
  unfold State.releaseKiln
  dsimp only
  rw [clearHits_eq, hp, show (s.unhit k).kiln k = s.kiln k from rfl, hw]
  cases p <;> rfl

/-- A hold that ends, by the phase the kiln takes (R121). -/
theorem releaseKiln_eq (s : State) (k : KilnNo) {p : Phase} {u : State} (held : (s.kiln k).state = .held)
    (hp : p = (s.unhit k).releasePhase k) (hu : u = (s.unhit k).setKiln k { s.kiln k with state := .running p }) :
    s.releaseKiln k = if s.masterEnable = false then u
      else if p = .active then (u.raise .setpointChanged).evaluateNow k
      else ((u.raise .setpointChanged).raise .heatWait).passAndSettle := by
  have enable : u.masterEnable = s.masterEnable := by rw [hu]; rfl
  rw [releaseKiln_phase s k hp.symm (noteSetpoints_released (s.unhit k) k p held), show (s.unhit k).masterEnable = s.masterEnable from rfl,
    show (s.unhit k).kiln k = s.kiln k from rfl, ← hu]
  cases on : s.masterEnable with
  | false =>
    have still : u.evaluateNow k = u := evaluateNow_other u k fun now => by rw [enable, on] at now; exact Bool.false_ne_true now.2
    rw [if_pos rfl, if_pos rfl, still, enable, on, if_neg Bool.false_ne_true, ite_self]
  | true =>
    simp only [Bool.true_eq_false, if_false, State.raise_masterEnable, enable, on, if_true]

theorem hitsNaming_eq (s : State) (k : KilnNo) :
    s.hitsNaming k = (List.finRange 4).filter fun h => (s.holdPoint h).hit.map Hit.kiln == some k := by
  rw [State.hitsNaming, show allHoldPoints = List.finRange 4 from by decide]
  refine List.filter_congr fun h _ => ?_
  cases (s.holdPoint h).hit <;> rfl

/-! ### The mill stop -/

theorem mode_enabled (s : State) (k : KilnNo) (on : s.masterEnable = true) :
    s.mode k = .coast ↔ (s.kiln k).state.isRunning = true ∧ (s.kiln k).doorOpen = true := by
  unfold State.mode
  rw [on]
  cases (s.kiln k).state with
  | empty | loaded | finished | held => simp [KilnState.isRunning]
  | running p => cases (s.kiln k).doorOpen <;> cases p <;> simp [KilnState.isRunning]

theorem mode_disabled (s : State) (k : KilnNo) (off : s.masterEnable = false) :
    s.mode k = if (s.kiln k).state.isOn then .coast else .idle := by
  unfold State.mode
  rw [off]
  cases (s.kiln k).state <;> rfl

theorem mode_idle (s : State) (k : KilnNo) (h : (s.kiln k).state.isOn = false) : s.mode k = .idle := by
  unfold State.mode
  cases e : (s.kiln k).state with
  | empty | loaded | finished => rfl
  | held | running => rw [e] at h; cases h

/-- A kiln whose mode turns to COAST when the enable goes: HELD, or RUNNING behind a closed door (R86). -/
theorem mode_stops (s : State) (k : KilnNo) : s.mode k ≠ (if (s.kiln k).state.isOn then .coast else .idle) ↔
    s.masterEnable = true ∧ ((s.kiln k).state = .held ∨ (s.kiln k).state.isRunning = true ∧ (s.kiln k).doorOpen = false) := by
  cases on : s.masterEnable with
  | false => simp [mode_disabled s k on]
  | true =>
    cases e : (s.kiln k).state with
    | empty | loaded | finished => simp [mode_idle s k (by rw [e]; rfl), KilnState.isOn, KilnState.isRunning]
    | held => simp [State.mode, e, on, KilnState.isOn]
    | running p => simpa [e, KilnState.isOn, KilnState.isRunning] using not_congr (mode_enabled s k on)

/-- Two classes that join a pending set one after the other. -/
theorem joins_both (pending a b mask : ClassSet) :
    pending ||| (a &&& ~~~mask) ||| (b &&& ~~~mask) = pending ||| ((b ||| a) &&& ~~~mask) := by
  rw [BitVec.or_assoc, BitVec.or_comm b]
  congr 1
  ext i hi
  simp only [BitVec.getElem_or, BitVec.getElem_and, Bool.and_or_distrib_right]

/-- The records after the mill stop, before its classes are raised (R106). -/
def State.heatDropped (s : State) : State := allKilns.foldl State.dropHeat { s with millStopLine := true, masterEnable := false }

theorem heatDropped_spec (s : State) : ∃ hv kv,
    s.heatDropped = { s with millStopLine := true, masterEnable := false, heat := hv, kilns := kv } ∧
      (∀ k, s.heatDropped.heatOf k = ⟨0, .absent⟩) ∧
      ∀ k, s.heatDropped.kiln k = { s.kiln k with
        state := match (s.kiln k).state with
          | .running _ => .running (if 0 < s.currentDemand k then .waitHeat else .active)
          | st => st } := by
  obtain ⟨hv, kv, rest, heat, kiln⟩ := dropHeat_fold allKilns (by decide) { s with millStopLine := true, masterEnable := false }
  exact ⟨hv, kv, rest, fun k => (heat k).trans (if_pos (mem_allKilns k)), fun k => (kiln k).trans (if_pos (mem_allKilns k))⟩

/-- When the mill stop changes a mode or a grant (R88; log 11). -/
theorem setpointsDiffer_heatDropped (s : State) : setpointsDiffer s s.heatDropped = true ↔
    ∃ k, (s.heatOf k).grant ≠ 0 ∨ s.masterEnable = true ∧
      ((s.kiln k).state = .held ∨ (s.kiln k).state.isRunning = true ∧ (s.kiln k).doorOpen = false) := by
  obtain ⟨hv, kv, rest, heat, kiln⟩ := heatDropped_spec s
  have mode (k : KilnNo) : s.heatDropped.mode k = if (s.kiln k).state.isOn then .coast else .idle := by
    rw [mode_disabled _ k (by rw [rest]), kiln]
    cases e : (s.kiln k).state <;> rfl
  have each (k : KilnNo) : (s.heatDropped.mode k != s.mode k || (s.heatDropped.heatOf k).grant != (s.heatOf k).grant) = true ↔
      (s.heatOf k).grant ≠ 0 ∨ s.masterEnable = true ∧
        ((s.kiln k).state = .held ∨ (s.kiln k).state.isRunning = true ∧ (s.kiln k).doorOpen = false) := by
    rw [Bool.or_eq_true, bne_iff_ne, bne_iff_ne, mode, heat, ← mode_stops, ne_comm, ne_comm (a := 0), or_comm]
  simp only [setpointsDiffer, List.any_eq_true, mem_allKilns, true_and, each]

end Sys2Proof.Machine

open Sys2Proof Sys2Proof.Machine

/-- Settles O39: the phase that the kiln's heat gives, and what each phase brings (`releaseKiln_eq`). -/
theorem kilnReleaseRuns : Obligations.KilnReleaseRuns := by
  intro s u f k p hl hf held hp hu
  refine ⟨_, rfl, ?_⟩
  refine serve_body hl hf rfl (readU8_kiln k) (Nat.le_of_ble_eq_true rfl) ?_
  simp only [kilnRelease, placeOf_val]
  rw [if_pos held, releaseKiln_eq s k held hp hu, hitsNaming_eq]
  rfl

/-- Settles O43: the heat dropped from every kiln (`heatDropped_spec`), then the classes raised. -/
theorem millStopTakesAllHeat : Obligations.MillStopTakesAllHeat := by
  intro s
  refine ⟨fun running line => ?_, rfl⟩
  · have taken : execMillStop s = .next s.stopMill := by
      unfold execMillStop
      rw [if_pos ⟨running, line⟩]
    refine ⟨s.stopMill, taken, ?_⟩
    obtain ⟨hv, kv, rest, heat, kiln⟩ := heatDropped_spec s
    have differ := setpointsDiffer_heatDropped s
    have stopped : s.stopMill = ((s.heatDropped.noteSetpoints s).raise .officeMillStop).raise .kilnMillStop := rfl
    have kept : (∀ k, (s.heatDropped.noteSetpoints s).kiln k = s.heatDropped.kiln k) ∧
        ∀ k, (s.heatDropped.noteSetpoints s).heatOf k = s.heatDropped.heatOf k := by
      obtain e | e := noteSetpoints_only s.heatDropped s <;> rw [e]
      · exact ⟨fun _ => rfl, fun _ => rfl⟩
      · exact ⟨fun _ => State.kiln_raise .., fun _ => State.heatOf_raise ..⟩
    refine ⟨?_, fun k => ?_, fun k => ?_, fun l => ?_, ?_, ?_⟩
    · rw [stopped]
      obtain e | e := noteSetpoints_only s.heatDropped s <;> rw [e, rest] <;> rfl
    · rw [stopped, State.heatOf_raise, State.heatOf_raise, kept.2, heat]
    · have same : s.stopMill.kiln k = s.heatDropped.kiln k := by rw [stopped, State.kiln_raise, State.kiln_raise, kept.1]
      exact same.trans (kiln k)
    · rw [stopped]
      obtain e | e := noteSetpoints_only s.heatDropped s <;> rw [e, rest] <;> cases l <;> exact ⟨rfl, rfl⟩
    · rw [stopped]
      obtain e | e := noteSetpoints_only s.heatDropped s <;> rw [e, rest] <;> rfl
    · rw [stopped]
      unfold State.noteSetpoints
      split
      next changed =>
        rw [if_pos (differ.1 changed), rest]
        exact joins_both s.kilnHousePort.pending AttnClass.setpointChanged.set AttnClass.kilnMillStop.set s.kilnHousePort.mask
      next same =>
        rw [if_neg (fun h => same (differ.2 h)), rest]
        rfl
end

section
/-! The arbitration pass over any number of waiting kilns (06, R98 to R100). -/

namespace Sys2Proof.Machine

/-! ### The order of a pass (R99) -/

theorem insertAged_perm (s : State) (k : KilnNo) (l : List KilnNo) : (s.insertAged k l).Perm (k :: l) := by
  induction l with
  | nil => exact .refl _
  | cons j l ih =>
    unfold State.insertAged
    split
    · exact .refl _
    · exact (ih.cons j).trans (.swap k j l)

theorem agedOrder_perm (s : State) (l : List KilnNo) : (s.agedOrder l).Perm l := by
  induction l with
  | nil => exact .refl _
  | cons k l ih => exact (insertAged_perm s k _).trans (ih.cons k)

/-- By wait-since, equals by number. -/
def State.WaitsBefore (s : State) (a b : KilnNo) : Prop := s.waitSince a < s.waitSince b ∨ s.waitSince a = s.waitSince b ∧ a < b

theorem insertAged_sorted (s : State) (k : KilnNo) (l : List KilnNo) (lower : ∀ j ∈ l, k < j) (sorted : l.Pairwise s.WaitsBefore) :
    (s.insertAged k l).Pairwise s.WaitsBefore := by
  induction l with
  | nil => exact List.pairwise_singleton ..
  | cons j l ih =>
    obtain ⟨first, rest⟩ := List.pairwise_cons.1 sorted
    unfold State.insertAged
    split
    next le =>
      refine List.pairwise_cons.2 ⟨fun i hi => ?_, sorted⟩
      have kj : k < j := lower j (List.mem_cons_self ..)
      obtain rfl | hi := List.mem_cons.1 hi
      · exact (Nat.lt_or_eq_of_le le).imp id fun e => ⟨e, kj⟩
      · obtain before | ⟨same, num⟩ := first i hi
        · exact .inl (Nat.lt_of_le_of_lt le before)
        · exact (Nat.lt_or_eq_of_le le).imp (fun lt => same ▸ lt) fun e => ⟨e.trans same, kj.trans num⟩
    next gt =>
      refine List.pairwise_cons.2 ⟨fun i hi => ?_, ih (fun i hi => lower i (List.mem_cons_of_mem _ hi)) rest⟩
      obtain rfl | hi := (mem_insertAged ..).1 hi
      · exact .inl (Nat.not_le.1 gt)
      · exact first i hi

theorem agedOrder_sorted (s : State) (l : List KilnNo) (ascending : l.Pairwise (· < ·)) :
    (s.agedOrder l).Pairwise s.WaitsBefore := by
  induction l with
  | nil => exact .nil
  | cons k l ih =>
    obtain ⟨lower, rest⟩ := List.pairwise_cons.1 ascending
    exact insertAged_sorted s k _ (fun j hj => lower j ((mem_agedOrder ..).1 hj)) (ih rest)

theorem filter_ascending (p : KilnNo → Bool) : (allKilns.filter p).Pairwise (· < ·) :=
  List.Pairwise.filter p (by decide)

theorem passOrder_nodup (s : State) : s.passOrder.Nodup := by
  have nodup (p : KilnNo → Bool) : (allKilns.filter p).Nodup := (filter_ascending p).imp Fin.ne_of_lt
  refine List.nodup_append.2 ⟨(agedOrder_perm ..).nodup_iff.2 (nodup _), nodup _, fun a ha b hb e => ?_⟩
  simp only [mem_agedOrder, List.mem_filter, Bool.and_eq_true, Bool.not_eq_true'] at ha hb
  rw [e, hb.2.2] at ha
  exact Bool.false_ne_true ha.2.2

theorem passOrder_pairwise (s : State) : s.passOrder.Pairwise s.PassesBefore := by
  have aged_of {p : KilnNo → Bool} {k : KilnNo} (h : k ∈ allKilns.filter fun k => s.isWaiting k && p k) : p k = true := by
    simp only [List.mem_filter, Bool.and_eq_true] at h
    exact h.2.2
  have not_aged {k : KilnNo} (h : k ∈ allKilns.filter fun k => s.isWaiting k && !s.aged k) : s.aged k = false := by
    simpa using aged_of (p := fun k => !s.aged k) h
  refine List.pairwise_append.2 ⟨?_, ?_, fun a ha b hb => ?_⟩
  · refine (agedOrder_sorted s _ (filter_ascending _)).imp_of_mem fun {a b} ha hb before => ?_
    unfold State.PassesBefore
    rw [if_pos (aged_of ((mem_agedOrder ..).1 ha))]
    exact fun _ => before
  · refine (filter_ascending _).imp_of_mem fun {a b} ha hb lt => ?_
    unfold State.PassesBefore
    rw [if_neg (by rw [not_aged ha]; exact Bool.false_ne_true)]
    exact ⟨not_aged hb, lt⟩
  · unfold State.PassesBefore
    rw [if_pos (aged_of ((mem_agedOrder ..).1 ha))]
    exact fun aged => absurd aged (by rw [not_aged hb]; exact Bool.false_ne_true)

theorem isWaiting_iff (s : State) (k : KilnNo) : s.isWaiting k = true ↔ ∃ d m, (s.heatOf k).request = .waiting d m := by
  unfold State.isWaiting
  cases (s.heatOf k).request <;> simp [HeatRequest.since?]

/-! ### What a pass grants (R100) -/

/-- The heat records and phases once the requests of a list of kilns are granted. -/
def State.served (s : State) (l : List KilnNo) : State :=
  { s with
    heat := Vector.ofFn fun k : KilnNo => if k ∈ l then ⟨(s.heatOf k).request.demand?.getD 0, .absent⟩ else s.heatOf k
    kilns := Vector.ofFn fun k : KilnNo =>
      if k ∈ l ∧ (s.kiln k).state = .running .waitHeat then { s.kiln k with state := .running .active } else s.kiln k }

theorem heatOf_served (s : State) (l : List KilnNo) (k : KilnNo) : (s.served l).heatOf k =
    if k ∈ l then ⟨(s.heatOf k).request.demand?.getD 0, .absent⟩ else s.heatOf k := Vector.getElem_ofFn ..

theorem kiln_served (s : State) (l : List KilnNo) (k : KilnNo) : (s.served l).kiln k =
    if k ∈ l ∧ (s.kiln k).state = .running .waitHeat then { s.kiln k with state := .running .active } else s.kiln k :=
  Vector.getElem_ofFn ..

/-- States with the same kilns and heat records, and the rest the same. -/
theorem kilnsHeat_ext {s t : State} (rest : t = { s with kilns := t.kilns, heat := t.heat }) (kiln : ∀ k, t.kiln k = s.kiln k)
    (heat : ∀ k, t.heatOf k = s.heatOf k) : t = s := by
  have kilns : t.kilns = s.kilns := Vector.ext fun i hi => kiln ⟨i, hi⟩
  have heats : t.heat = s.heat := Vector.ext fun i hi => heat ⟨i, hi⟩
  rw [rest, kilns, heats]

theorem kiln_served_out (s : State) {l : List KilnNo} {k : KilnNo} (out : k ∉ l) : (s.served l).kiln k = s.kiln k := by
  rw [kiln_served, if_neg fun h => out h.1]

theorem heatOf_served_out (s : State) {l : List KilnNo} {k : KilnNo} (out : k ∉ l) : (s.served l).heatOf k = s.heatOf k := by
  rw [heatOf_served, if_neg out]

theorem served_nil (s : State) : s.served [] = s :=
  kilnsHeat_ext rfl (fun k => by rw [kiln_served, if_neg (by simp)]) fun k => by rw [heatOf_served, if_neg List.not_mem_nil]

theorem setPhase_raise (s : State) (k : KilnNo) (p : Phase) (c : AttnClass) :
    (s.raise c).setPhase k p = (s.setPhase k p).raise c := by
  unfold State.setPhase
  rw [State.kiln_raise]
  split
  · exact setKiln_raise ..
  · rfl

theorem setPhase_only (s : State) (k : KilnNo) (p : Phase) : s.setPhase k p = { s with kilns := (s.setPhase k p).kilns } := by
  unfold State.setPhase
  split <;> rfl

theorem kiln_setPhase_other (s : State) {k j : KilnNo} (p : Phase) (h : j ≠ k) : (s.setPhase k p).kiln j = s.kiln j := by
  unfold State.setPhase
  split
  · exact State.kiln_setKiln_other _ _ h
  · rfl

theorem kiln_setPhase_active (s : State) (k : KilnNo) : (s.setPhase k .active).kiln k =
    if (s.kiln k).state = .running .waitHeat then { s.kiln k with state := .running .active } else s.kiln k := by
  split
  next waits =>
    unfold State.setPhase
    rw [waits]
    exact State.kiln_setKiln_same ..
  next other =>
    cases e : (s.kiln k).state with
    | empty | loaded | held | finished => rw [setPhase_other s k _ (by rw [e]; rfl)]
    | running p =>
      cases p with
      | waitHeat => exact absurd e other
      | active => rw [setPhase_self s k _ e]

/-- One more kiln's request granted. -/
theorem served_snoc (s : State) (l : List KilnNo) {k : KilnNo} {d m : Nat} (out : k ∉ l)
    (waits : (s.heatOf k).request = .waiting d m) :
    ((s.served l).setHeat k ⟨d, .absent⟩).setPhase k .active = s.served (l ++ [k]) := by
  have heat : (((s.served l).setHeat k ⟨d, .absent⟩).setPhase k .active).heat = ((s.served l).setHeat k ⟨d, .absent⟩).heat := by
    rw [setPhase_only]
  refine kilnsHeat_ext (by rw [setPhase_only]; rfl) (fun j => ?_) fun j => ?_
  · rw [kiln_served]
    obtain rfl | ne := eq_or_ne j k
    · rw [kiln_setPhase_active, State.kiln_setHeat, kiln_served_out s out]
      simp
    · rw [kiln_setPhase_other _ _ ne, State.kiln_setHeat, kiln_served]
      simp [ne]
  · rw [heatOf_served, State.heatOf, heat]
    obtain rfl | ne := eq_or_ne j k
    · exact (State.heatOf_setHeat_same ..).trans (by simp [waits, HeatRequest.demand?])
    · exact (State.heatOf_setHeat_other _ _ ne).trans (by rw [heatOf_served]; simp [ne])

/-! ### When SETPOINT_CHANGED is raised on the way (05, R88) -/

theorem setpointsDiffer_iff (b a : State) : setpointsDiffer b a = true ↔
    ∃ k, a.mode k ≠ b.mode k ∨ (a.heatOf k).grant ≠ (b.heatOf k).grant := by
  simp [setpointsDiffer, mem_allKilns]

theorem raise_noteSetpoints (s b : State) : (s.raise .setpointChanged).noteSetpoints b = s.raise .setpointChanged := by
  obtain e | e := noteSetpoints_only (s.raise .setpointChanged) b
  · exact e
  · rw [e, raise_raise]

/-- Two changes one after the other, the second of one kiln that the first left alone: raised when either alters a mode or a grant,
which is when both together do. -/
theorem setpointsDiffer_next {s g g' : State} {k : KilnNo} (others : ∀ j, j ≠ k → g'.mode j = g.mode j ∧ g'.heatOf j = g.heatOf j)
    (first : g.mode k = s.mode k ∧ g.heatOf k = s.heatOf k) :
    setpointsDiffer s g' = true ↔ setpointsDiffer s g = true ∨ setpointsDiffer g g' = true := by
  simp only [setpointsDiffer_iff, ← exists_or]
  refine exists_congr fun j => ?_
  obtain rfl | ne := eq_or_ne j k
  · rw [first.1, first.2]
    simp
  · rw [(others j ne).1, (others j ne).2]
    simp

theorem mode_of_kiln {s t : State} {k : KilnNo} (enable : t.masterEnable = s.masterEnable) (kiln : t.kiln k = s.kiln k) :
    t.mode k = s.mode k := by
  unfold State.mode
  rw [kiln, enable]

theorem mode_served_out (s : State) {l : List KilnNo} {k : KilnNo} (out : k ∉ l) : (s.served l).mode k = s.mode k :=
  mode_of_kiln rfl (kiln_served_out s out)

/-- One kiln's request granted in the course of a pass. -/
theorem grantKiln_served (s : State) (l : List KilnNo) {k : KilnNo} {d m : Nat} (out : k ∉ l)
    (waits : (s.heatOf k).request = .waiting d m) :
    ((s.served l).noteSetpoints s).grantKiln k d = (s.served (l ++ [k])).noteSetpoints s := by
  have next := served_snoc s l out waits
  have either : setpointsDiffer s (s.served (l ++ [k])) = true ↔
      setpointsDiffer s (s.served l) = true ∨ setpointsDiffer (s.served l) (s.served (l ++ [k])) = true := by
    refine setpointsDiffer_next (k := k) (fun j ne => ?_) ⟨mode_served_out s out, heatOf_served_out s out⟩
    have kiln : (s.served (l ++ [k])).kiln j = (s.served l).kiln j := by rw [kiln_served, kiln_served]; simp [ne]
    have heat : (s.served (l ++ [k])).heatOf j = (s.served l).heatOf j := by rw [heatOf_served, heatOf_served]; simp [ne]
    exact ⟨mode_of_kiln rfl kiln, heat⟩
  unfold State.grantKiln
  by_cases before : setpointsDiffer s (s.served l) = true
  · have raised : (s.served l).noteSetpoints s = (s.served l).raise .setpointChanged := if_pos before
    have raised' : (s.served (l ++ [k])).noteSetpoints s = (s.served (l ++ [k])).raise .setpointChanged := if_pos (either.2 (.inl before))
    rw [raised, raised', setHeat_raise, setPhase_raise, next, raise_noteSetpoints]
  · have quiet : (s.served l).noteSetpoints s = s.served l := if_neg before
    rw [quiet, next]
    by_cases now : setpointsDiffer (s.served l) (s.served (l ++ [k])) = true
    · exact (if_pos now).trans (if_pos (either.2 (.inr now))).symm
    · exact (if_neg now).trans (if_neg fun h => (either.1 h).elim before now).symm

/-! ### The whole pass (R99) -/

theorem noteSetpoints_sameArbiter (s b : State) : SameArbiter s (s.noteSetpoints b) := by
  obtain e | e := noteSetpoints_only s b <;> rw [e]
  · exact ⟨rfl, rfl, rfl, rfl⟩
  · exact SameArbiter.raise ⟨rfl, rfl, rfl, rfl⟩ _

theorem SameArbiter.aged {s t : State} (h : SameArbiter s t) (k : KilnNo) : t.aged k = s.aged k := by
  unfold State.aged
  rw [h.heatOf, h.minute]

theorem kiln_noteSetpoints (s b : State) (k : KilnNo) : (s.noteSetpoints b).kiln k = s.kiln k := by
  obtain e | e := noteSetpoints_only s b <;> rw [e]
  exact State.kiln_raise ..

/-- The free units once one more request is granted. -/
theorem grantSum_served_snoc (s : State) (l : List KilnNo) {k : KilnNo} {d m : Nat} (out : k ∉ l)
    (waits : (s.heatOf k).request = .waiting d m) :
    (s.served (l ++ [k])).grantSum + (s.heatOf k).grant = (s.served l).grantSum + d := by
  have sum := grantSum_setHeat (s.served l) k ⟨d, .absent⟩
  rw [heatOf_served_out s out] at sum
  have same : (s.served (l ++ [k])).grantSum = ((s.served l).setHeat k ⟨d, .absent⟩).grantSum := by
    rw [← served_snoc s l out waits, setPhase_only]
    rfl
  rw [same, sum]

theorem passOver_served (s : State) (ks : List KilnNo) : ∀ l : List KilnNo, ks.Nodup → (∀ k ∈ ks, k ∉ l) →
    (∀ k ∈ ks, ∃ d m, (s.heatOf k).request = .waiting d m) → (s.served l).grantSum ≤ s.capacity →
    ((s.served l).noteSetpoints s).passOver ks =
      ((s.served (l ++ servedFrom (s.served l).freeUnits (ks.map s.asking))).noteSetpoints s,
        (servedFrom (s.served l).freeUnits (ks.map s.asking)).filter fun k => (s.kiln k).state = .running .waitHeat) := by
  induction ks with
  | nil =>
    intro l _ _ _ _
    simp only [State.passOver, List.map_nil, servedFrom, List.append_nil, List.filter_nil]
  | cons k ks ih =>
    intro l nodup out waiting sum
    obtain ⟨once, nodup⟩ := List.nodup_cons.1 nodup
    have out_k := out k (List.mem_cons_self ..)
    obtain ⟨d, m, waits⟩ := waiting k (List.mem_cons_self ..)
    have out' : ∀ j ∈ ks, j ∉ l := fun j hj => out j (List.mem_cons_of_mem _ hj)
    have waiting' : ∀ j ∈ ks, ∃ d m, (s.heatOf j).request = .waiting d m := fun j hj => waiting j (List.mem_cons_of_mem _ hj)
    have same := noteSetpoints_sameArbiter (s.served l) s
    have heat : ((s.served l).noteSetpoints s).heatOf k = s.heatOf k := (same.heatOf k).trans (heatOf_served_out s out_k)
    have kiln : ((s.served l).noteSetpoints s).kiln k = s.kiln k := (kiln_noteSetpoints ..).trans (kiln_served_out s out_k)
    have aged : ((s.served l).noteSetpoints s).aged k = s.aged k := by
      rw [same.aged]
      unfold State.aged
      rw [heatOf_served_out s out_k]
      rfl
    have ask : s.asking k = ⟨k, (s.heatOf k).grant, d, s.aged k⟩ := by
      unfold State.asking
      rw [waits]
      rfl
    rw [List.map_cons, ask, servedFrom, State.passOver, heat, waits]
    dsimp only
    rw [same.freeUnits, aged, kiln]
    split
    next fits =>
      have grown := grantSum_served_snoc s l out_k waits
      have free : (s.served (l ++ [k])).freeUnits = (s.served l).freeUnits + (s.heatOf k).grant - d := by
        have cap : (s.served (l ++ [k])).capacity = s.capacity := rfl
        have cap' : (s.served l).capacity = s.capacity := rfl
        unfold State.freeUnits at fits ⊢
        omega
      have within : (s.served (l ++ [k])).grantSum ≤ s.capacity := by
        have cap' : (s.served l).capacity = s.capacity := rfl
        unfold State.freeUnits at fits
        omega
      have rest := ih (l ++ [k]) nodup (fun j hj h => by
        obtain h | h := List.mem_append.1 h
        · exact out' j hj h
        · exact once (List.mem_singleton.1 h ▸ hj)) waiting' within
      rw [grantKiln_served s l out_k waits, rest, free, List.append_assoc, List.singleton_append, List.filter_cons]
      simp only [decide_eq_true_eq]
    next short =>
      split
      · simp only [List.append_nil, List.filter_nil]
      · exact ih l nodup out' waiting' sum

theorem evaluate_running (settles : List KilnNo → State → State) (s : State) (k : KilnNo)
    (h : ∀ t, s.currentStep k = some t → (s.kiln k).stepElapsed < t.minMinutes ∧ (s.kiln k).stepElapsed < t.maxMinutes) :
    s.evaluate settles k = s := by
  unfold State.evaluate
  split
  · split
    · rfl
    next t ht =>
      obtain ⟨min, max⟩ := h t ht
      rw [if_neg fun e => Nat.not_le.2 min e.1, if_neg (Nat.not_le.2 max)]
  · rfl

/-- No step ends in the evaluations that follow a pass. -/
theorem settle_running (ks : List KilnNo) (s : State)
    (h : ∀ k ∈ ks, ∀ t, s.currentStep k = some t → (s.kiln k).stepElapsed < t.minMinutes ∧ (s.kiln k).stepElapsed < t.maxMinutes) :
    settle ks s = s := by
  have all : ∀ l : List KilnNo, (∀ k ∈ l, k ∈ ks) → l.foldl (fun s k => s.evaluate (evaluateAll 96) k) s = s := by
    intro l hl
    induction l with
    | nil => rfl
    | cons k l ih =>
      rw [List.foldl_cons, evaluate_running _ _ _ (h k (hl k (List.mem_cons_self ..)))]
      exact ih fun j hj => hl j (List.mem_cons_of_mem _ hj)
  exact all ks fun _ hk => hk

end Sys2Proof.Machine

open Sys2Proof Sys2Proof.Machine

/-- Settles O41: the pass over its order (`passOver_served`), and evaluations that end no step (`settle_running`). -/
theorem passServesAgedFirst : Obligations.PassServesAgedFirst := by
  intro s on sum
  have waiting (k : KilnNo) : k ∈ s.passOrder ↔ ∃ d m, (s.heatOf k).request = .waiting d m :=
    (mem_passOrder ..).trans (isWaiting_iff ..)
  refine ⟨s.passOrder, _, _, passOrder_nodup s, waiting, passOrder_pairwise s, rfl, rfl, ?_⟩
  set granted := servedFrom s.freeUnits (s.passOrder.map s.asking) with hg
  have none : s.noteSetpoints s = s := noteSetpoints_same fun _ => ⟨rfl, rfl⟩
  have passed : s.pass = ((s.served granted).noteSetpoints s, granted.filter fun k => (s.kiln k).state = .running .waitHeat) := by
    have whole := passOver_served s s.passOrder [] (passOrder_nodup s) (fun _ _ => List.not_mem_nil) (fun k hk => (waiting k).1 hk)
      (by rw [served_nil]; exact sum)
    rw [served_nil, none, List.nil_append, ← hg] at whole
    exact (if_pos on).trans whole
  refine ⟨passed, fun h => ?_, fun k running aged => ?_⟩
  · unfold State.passAndSettle
    rw [passed]
    refine settle_running _ _ fun k hk t ht => ?_
    obtain ⟨mem, waits⟩ : k ∈ granted ∧ (s.kiln k).state = .running .waitHeat := by simpa using List.mem_filter.1 hk
    have kiln : ((s.served granted).noteSetpoints s).kiln k = { s.kiln k with state := .running .active } := by
      rw [kiln_noteSetpoints, kiln_served, if_pos ⟨mem, waits⟩]
    have step : s.currentStep k = some t := by
      have schedules : ((s.served granted).noteSetpoints s).schedules = s.schedules := by
        obtain e | e := noteSetpoints_only (s.served granted) s <;> rw [e]
        · rfl
        · rw [State.raise_schedules]
          rfl
      unfold State.currentStep State.stepAt State.findSchedule at ht
      rw [kiln, schedules] at ht
      exact ht
    rw [kiln]
    exact h k t mem waits step
  · refine (whileRunning_running (event := fun s => if s.aged k then s.passAndSettle else s) running).trans ?_
    rw [if_pos aged]
end

section
/-! BOILER CAPACITY (06, R102 to R104). -/

namespace Sys2Proof.Machine

/-- The request that a kiln's whole grant lost leaves (R104). -/
def State.requestRevoked (s : State) (k : KilnNo) : HeatRequest :=
  match (s.kiln k).state with
  | .running .active => .waiting (s.currentDemand k) s.minute
  | .held => .waiting (s.currentDemand k) ((s.heatOf k).request.since?.getD s.minute)
  | _ => (s.heatOf k).request

/-- The records once a list of kilns has lost its grants. -/
def State.revoked (s : State) (l : List KilnNo) : State :=
  { s with
    heat := Vector.ofFn fun k : KilnNo => if k ∈ l then ⟨0, s.requestRevoked k⟩ else s.heatOf k
    kilns := Vector.ofFn fun k : KilnNo =>
      if k ∈ l ∧ (s.kiln k).state = .running .active then { s.kiln k with state := .running .waitHeat } else s.kiln k }

theorem heatOf_revoked (s : State) (l : List KilnNo) (k : KilnNo) : (s.revoked l).heatOf k =
    if k ∈ l then ⟨0, s.requestRevoked k⟩ else s.heatOf k := Vector.getElem_ofFn ..

theorem kiln_revoked (s : State) (l : List KilnNo) (k : KilnNo) : (s.revoked l).kiln k =
    if k ∈ l ∧ (s.kiln k).state = .running .active then { s.kiln k with state := .running .waitHeat } else s.kiln k :=
  Vector.getElem_ofFn ..

theorem heatOf_revoked_out (s : State) {l : List KilnNo} {k : KilnNo} (out : k ∉ l) : (s.revoked l).heatOf k = s.heatOf k := by
  rw [heatOf_revoked, if_neg out]

theorem kiln_revoked_out (s : State) {l : List KilnNo} {k : KilnNo} (out : k ∉ l) : (s.revoked l).kiln k = s.kiln k := by
  rw [kiln_revoked, if_neg fun h => out h.1]

theorem currentDemand_revoked_out (s : State) {l : List KilnNo} {k : KilnNo} (out : k ∉ l) :
    (s.revoked l).currentDemand k = s.currentDemand k := by
  unfold State.currentDemand State.currentStep State.stepAt
  rw [kiln_revoked_out s out]
  rfl

/-- One kiln's grant lost, its classes aside. -/
def State.loseGrant (s : State) (k : KilnNo) : State :=
  if (s.kiln k).state = .running .active then
    (s.setHeat k ⟨0, s.requestRevoked k⟩).setKiln k { s.kiln k with state := .running .waitHeat }
  else s.setHeat k ⟨0, s.requestRevoked k⟩

theorem revokeKiln_eq (s : State) (k : KilnNo) : s.revokeKiln k =
    (if (s.kiln k).state = .running .active then (s.loseGrant k).raise .heatWait else s.loseGrant k).raise .setpointChanged := by
  unfold State.revokeKiln State.loseGrant State.requestRevoked
  dsimp only
  rw [noteSetpoints_raise]
  cases e : (s.kiln k).state with
  | empty | loaded | held | finished => rfl
  | running p =>
    cases p with
    | waitHeat => rfl
    | active =>
      rw [if_pos rfl, if_pos rfl]
      unfold State.setPhase
      rw [State.kiln_setHeat, e]

theorem requestRevoked_raise (s : State) (c : AttnClass) (k : KilnNo) : (s.raise c).requestRevoked k = s.requestRevoked k := by
  unfold State.requestRevoked
  rw [State.kiln_raise, State.heatOf_raise, State.raise_minute, currentDemand_raise]

theorem loseGrant_raise (s : State) (c : AttnClass) (k : KilnNo) : (s.raise c).loseGrant k = (s.loseGrant k).raise c := by
  unfold State.loseGrant
  rw [State.kiln_raise, requestRevoked_raise, setHeat_raise, setKiln_raise]
  split <;> rfl

theorem loseGrant_only (s : State) (k : KilnNo) :
    s.loseGrant k = { s with kilns := (s.loseGrant k).kilns, heat := (s.loseGrant k).heat } := by
  unfold State.loseGrant
  split <;> rfl

theorem heatOf_loseGrant (s : State) (k j : KilnNo) :
    (s.loseGrant k).heatOf j = (s.setHeat k ⟨0, s.requestRevoked k⟩).heatOf j := by
  unfold State.loseGrant
  split <;> rfl

theorem kiln_loseGrant (s : State) (k j : KilnNo) : (s.loseGrant k).kiln j =
    if j = k ∧ (s.kiln k).state = .running .active then { s.kiln k with state := .running .waitHeat } else s.kiln j := by
  unfold State.loseGrant
  split
  next active =>
    obtain rfl | ne := eq_or_ne j k
    · rw [State.kiln_setKiln_same, if_pos ⟨rfl, active⟩]
    · rw [State.kiln_setKiln_other _ _ ne, if_neg fun h => ne h.1]
      rfl
  next other => rw [if_neg fun h => other h.2]; rfl

theorem loseGrant_revoked (s : State) (l : List KilnNo) {k : KilnNo} (out : k ∉ l) : (s.revoked l).loseGrant k = s.revoked (l ++ [k]) := by
  have request : (s.revoked l).requestRevoked k = s.requestRevoked k := by
    unfold State.requestRevoked
    rw [kiln_revoked_out s out, heatOf_revoked_out s out, currentDemand_revoked_out s out]
    rfl
  refine kilnsHeat_ext (by rw [loseGrant_only]; rfl) (fun j => ?_) fun j => ?_
  · rw [kiln_loseGrant, kiln_revoked_out s out, kiln_revoked s (l ++ [k])]
    obtain rfl | ne := eq_or_ne j k
    · rw [kiln_revoked_out s out]
      simp
    · rw [kiln_revoked]
      simp [ne]
  · rw [heatOf_loseGrant, request, heatOf_revoked s (l ++ [k])]
    obtain rfl | ne := eq_or_ne j k
    · rw [State.heatOf_setHeat_same]
      simp
    · rw [State.heatOf_setHeat_other _ _ ne, heatOf_revoked]
      simp [ne]

/-- The records and the classes of a revocation (R101, R104). -/
def State.revocation (s : State) (l : List KilnNo) : State :=
  if l = [] then s
  else (if ∃ k ∈ l, (s.kiln k).state = .running .active then (s.revoked l).raise .heatWait else s.revoked l).raise .setpointChanged

theorem revoked_nil (s : State) : s.revoked [] = s :=
  kilnsHeat_ext rfl (fun _ => kiln_revoked_out s List.not_mem_nil) fun _ => heatOf_revoked_out s List.not_mem_nil

/-- The classes that a revocation has raised so far. -/
theorem revocation_cases (s : State) (l : List KilnNo) :
    s.revocation l = s.revoked l ∧ (∀ k ∈ l, (s.kiln k).state ≠ .running .active) ∨
      s.revocation l = (s.revoked l).raise .setpointChanged ∧ (∀ k ∈ l, (s.kiln k).state ≠ .running .active) ∨
      s.revocation l = ((s.revoked l).raise .heatWait).raise .setpointChanged ∧ ∃ k ∈ l, (s.kiln k).state = .running .active := by
  unfold State.revocation
  split
  next none => exact .inl ⟨by rw [none, revoked_nil], by simp [none]⟩
  · split
    next some => exact .inr (.inr ⟨rfl, some⟩)
    next none => exact .inr (.inl ⟨rfl, fun k hk e => none ⟨k, hk, e⟩⟩)

theorem revocation_snoc (s : State) (l : List KilnNo) (k : KilnNo) : s.revocation (l ++ [k]) =
    (if (∃ j ∈ l, (s.kiln j).state = .running .active) ∨ (s.kiln k).state = .running .active then
      (s.revoked (l ++ [k])).raise .heatWait else s.revoked (l ++ [k])).raise .setpointChanged := by
  unfold State.revocation
  rw [if_neg (by simp)]
  simp only [List.mem_append, List.mem_singleton, or_and_right, exists_or, exists_eq_left]

/-- A kiln's grant lost in the course of a revocation. -/
theorem revokeKiln_revocation (s : State) (l : List KilnNo) {k : KilnNo} (out : k ∉ l) :
    (s.revocation l).revokeKiln k = s.revocation (l ++ [k]) := by
  have state : ((s.revocation l).kiln k).state = (s.kiln k).state := by
    obtain ⟨e, -⟩ | ⟨e, -⟩ | ⟨e, -⟩ := revocation_cases s l <;> rw [e]
    · rw [kiln_revoked_out s out]
    · rw [State.kiln_raise, kiln_revoked_out s out]
    · rw [State.kiln_raise, State.kiln_raise, kiln_revoked_out s out]
  rw [revokeKiln_eq, revocation_snoc, state]
  have next := loseGrant_revoked s l out
  obtain ⟨e, none⟩ | ⟨e, none⟩ | ⟨e, some⟩ := revocation_cases s l <;> rw [e]
  · have not_before : ¬∃ j ∈ l, (s.kiln j).state = .running .active := fun ⟨j, hj, h⟩ => none j hj h
    simp only [next, not_before, false_or]
  · have not_before : ¬∃ j ∈ l, (s.kiln j).state = .running .active := fun ⟨j, hj, h⟩ => none j hj h
    simp only [loseGrant_raise, next, not_before, false_or]
    split
    · rw [raise_comm, raise_raise, raise_comm]
    · rw [raise_raise]
  · simp only [loseGrant_raise, next, some, true_or, if_true]
    split
    · rw [raise_comm, raise_raise, raise_comm, raise_raise, raise_comm]
    · rw [raise_raise]

theorem revocation_sums (s : State) (l : List KilnNo) :
    (s.revocation l).grantSum = (s.revoked l).grantSum ∧ (s.revocation l).capacity = s.capacity ∧
      ∀ k, (s.revocation l).heatOf k = (s.revoked l).heatOf k := by
  obtain ⟨e, -⟩ | ⟨e, -⟩ | ⟨e, -⟩ := revocation_cases s l <;> rw [e]
  · exact ⟨rfl, rfl, fun _ => rfl⟩
  · exact ⟨by rw [State.grantSum, State.raise_heat]; rfl, State.raise_capacity .., fun _ => State.heatOf_raise ..⟩
  · exact ⟨by rw [State.grantSum, State.raise_heat, State.raise_heat]; rfl, by rw [State.raise_capacity, State.raise_capacity]; rfl,
      fun _ => by rw [State.heatOf_raise, State.heatOf_raise]⟩

theorem grantSum_revoked_snoc (s : State) (l : List KilnNo) {k : KilnNo} (out : k ∉ l) :
    (s.revoked (l ++ [k])).grantSum + (s.heatOf k).grant = (s.revoked l).grantSum := by
  have sum := grantSum_setHeat (s.revoked l) k ⟨0, (s.revoked l).requestRevoked k⟩
  rw [heatOf_revoked_out s out] at sum
  have same : (s.revoked (l ++ [k])).grantSum = ((s.revoked l).setHeat k ⟨0, (s.revoked l).requestRevoked k⟩).grantSum := by
    rw [← loseGrant_revoked s l out]
    unfold State.loseGrant
    split <;> rfl
  rw [same, sum]
  rfl

/-- The kilns of a revocation, in the order given (R104). -/
theorem revokeOver_revocation (s : State) (ks : List KilnNo) : ∀ l : List KilnNo, ks.Nodup → (∀ k ∈ ks, k ∉ l) →
    (s.revocation l).revokeOver ks =
      (s.revocation (l ++ revokedFrom ((s.revoked l).grantSum - s.capacity) (ks.map fun k => (k, (s.heatOf k).grant))),
        revokedFrom ((s.revoked l).grantSum - s.capacity) (ks.map fun k => (k, (s.heatOf k).grant))) := by
  induction ks with
  | nil =>
    intro l _ _
    simp only [State.revokeOver, List.map_nil, revokedFrom, List.append_nil]
  | cons k ks ih =>
    intro l nodup out
    obtain ⟨once, nodup⟩ := List.nodup_cons.1 nodup
    have out_k := out k (List.mem_cons_self ..)
    have out' : ∀ j ∈ ks, j ∉ l := fun j hj => out j (List.mem_cons_of_mem _ hj)
    obtain ⟨sum, capacity, heat⟩ := revocation_sums s l
    rw [List.map_cons, revokedFrom, State.revokeOver, sum, capacity, heat, heatOf_revoked_out s out_k]
    by_cases within : (s.revoked l).grantSum ≤ s.capacity
    · rw [if_pos within, if_pos (Nat.sub_eq_zero_of_le within), List.append_nil]
    have excess : ¬(s.revoked l).grantSum - s.capacity = 0 := by omega
    rw [if_neg within, if_neg excess]
    by_cases none : (s.heatOf k).grant = 0
    · rw [if_pos none, if_pos none]
      exact ih l nodup out'
    rw [if_neg none, if_neg none]
    have less := grantSum_revoked_snoc s l out_k
    have rest := ih (l ++ [k]) nodup fun j hj h => by
      obtain h | h := List.mem_append.1 h
      · exact out' j hj h
      · exact once (List.mem_singleton.1 h ▸ hj)
    have left : (s.revoked (l ++ [k])).grantSum - s.capacity = (s.revoked l).grantSum - s.capacity - (s.heatOf k).grant := by omega
    rw [revokeKiln_revocation s l out_k, rest, left, List.append_assoc, List.singleton_append]

theorem revokedFrom_ne_nil {excess : Nat} (some : 0 < excess) (l : List (KilnNo × Nat)) (h : ∃ x ∈ l, x.2 ≠ 0) :
    revokedFrom excess l ≠ [] := by
  induction l with
  | nil => simp at h
  | cons x l ih =>
    obtain ⟨k, g⟩ := x
    rw [revokedFrom, if_neg (by omega)]
    split
    next zero =>
      obtain ⟨y, hy, ne⟩ := h
      obtain rfl | hy := List.mem_cons.1 hy
      · exact absurd zero ne
      · exact ih ⟨y, hy, ne⟩
    · nofun

/-- Grants above the capacity: some kiln loses its grant. -/
theorem revokedFrom_some (s : State) {n : Nat} (above : n < s.grantSum) : revokedFrom (s.grantSum - n) s.grantsDown ≠ [] := by
  refine revokedFrom_ne_nil (by omega) _ ?_
  by_contra none
  refine absurd (grantSum_eq_zero s fun k => ?_) (by omega)
  by_contra ne
  exact none ⟨(k, (s.heatOf k).grant), List.mem_map.2 ⟨k, List.mem_reverse.2 (mem_allKilns k), rfl⟩, ne⟩

end Sys2Proof.Machine

open Sys2Proof Sys2Proof.Machine

/-- Settles O42: the four ways of `State.setCapacity`, the last by `revokeOver_revocation`. -/
theorem boilerCapacityStores : Obligations.BoilerCapacityStores := by
  intro s f hl
  have served {v : Option Nat} {t : State} {r : Reply} (hf : f.body = optU8 v) (hv : ∀ n, v = some n → n ≤ 255)
      (h : boilerCapacity (some v) s = (t, r)) : exec (.boilerCapacity f) s = .next (t.answer 0x2E f r) :=
    serve_body hl hf rfl (readCapacity_optU8 hv) (by cases v <;> exact Nat.le_of_ble_eq_true rfl) h
  have taken {n : Nat} {t : State} {l : List KilnNo} (n1 : 1 ≤ n) (n64 : n ≤ 64) (hf : f.body = optU8 (some n))
      (h : s.setCapacity n = (t, l)) : exec (.boilerCapacity f) s = .next (t.answer 0x2E f ⟨.done, t.heatBytes l⟩) := by
    refine served hf (fun m hm => by cases hm; omega) ?_
    rw [boilerCapacity, if_neg (by omega), h]
    rfl
  refine ⟨fun hf => served hf nofun rfl, fun n n1 n64 hf fits low => taken n1 n64 hf ?_,
    fun n t n1 n64 hf raised on ht => taken n1 n64 hf ?_, fun n l u v t n1 n64 hf above within hl hu hv ht => taken n1 n64 hf ?_,
    fun n range hf => served hf (fun m hm => by cases hm; omega) ?_⟩
  · unfold State.setCapacity
    split
    next same => rw [same]
    · dsimp only
      split
      next up =>
        have off : s.masterEnable = false := low.resolve_left (by omega)
        have still : State.passAndSettle { s with capacity := n } = { s with capacity := n } := by
          unfold State.passAndSettle State.pass
          rw [if_neg (by rw [show State.masterEnable { s with capacity := n } = false from off]; exact Bool.false_ne_true)]
          rfl
        rw [still]
      · rw [if_pos (show State.grantSum { s with capacity := n } ≤ n from fits)]
  · unfold State.setCapacity
    rw [if_neg (by omega)]
    dsimp only
    rw [if_pos raised, ht]
  · have some : l ≠ [] := hl ▸ revokedFrom_some s above
    have revoked : State.revokeOver { s with capacity := n } allKilns.reverse = (v, l) := by
      have whole := revokeOver_revocation { s with capacity := n } allKilns.reverse [] (by decide) fun _ _ => List.not_mem_nil
      rw [revoked_nil, List.nil_append] at whole
      refine whole.trans ?_
      have l_eq : revokedFrom (State.grantSum { s with capacity := n } - n) (State.grantsDown { s with capacity := n }) = l := hl.symm
      refine (congrArg (fun l => (State.revocation { s with capacity := n } l, l)) l_eq).trans ?_
      rw [hv, hu, State.revocation, if_neg some]
      rfl
    unfold State.setCapacity
    rw [if_neg (by omega)]
    dsimp only
    rw [if_neg (by omega), if_neg (show ¬State.grantSum { s with capacity := n } ≤ n from Nat.not_le.2 above), revoked, ht]
  · rw [boilerCapacity, if_pos (by omega)]
    rfl
end

section
/-! The resumption of the mill at KILN START (05, R72, R88; 06, R105, R109). -/

namespace Sys2Proof.Machine

/-- The heat record with which a kiln comes to the resumption's pass (R109, items 1 and 2). -/
def State.heatSubmitted (s : State) (k : KilnNo) : HeatRecord :=
  if (s.kiln k).state.isOn ∧ (s.kiln k).runEnable then ⟨0, .waiting (s.currentDemand k) s.minute⟩
  else match (s.heatOf k).request with
    | .dormant _ => ⟨(s.heatOf k).grant, .absent⟩
    | _ => s.heatOf k

/-- The context with which a kiln comes to the resumption's pass. -/
def KilnContext.submitted (c : KilnContext) : KilnContext :=
  match c.state, c.runEnable with
  | .running _, true => { c with state := .running .waitHeat }
  | _, _ => c

theorem submitted_other {c : KilnContext} (h : ¬(c.state.isRunning = true ∧ c.runEnable = true)) : c.submitted = c := by
  unfold KilnContext.submitted
  split
  next state enable => exact absurd ⟨by rw [state]; rfl, enable⟩ h
  · rfl

theorem submitRequest_only (s : State) (k : KilnNo) :
    s.submitRequest k = { s with kilns := (s.submitRequest k).kilns, heat := (s.submitRequest k).heat } := by
  unfold State.submitRequest
  split
  · rw [setPhase_only]
    rfl
  · split <;> rfl

theorem kiln_setPhase_waitHeat (s : State) (k : KilnNo) : (s.setPhase k .waitHeat).kiln k =
    if (s.kiln k).state.isRunning then { s.kiln k with state := .running .waitHeat } else s.kiln k := by
  unfold State.setPhase
  cases e : (s.kiln k).state with
  | running p => exact State.kiln_setKiln_same ..
  | empty | loaded | held | finished => rfl

theorem kiln_submitRequest (s : State) (k j : KilnNo) :
    (s.submitRequest k).kiln j = if j = k then (s.kiln k).submitted else s.kiln j := by
  unfold State.submitRequest
  split
  next resumes =>
    obtain ⟨-, enable⟩ : (s.kiln k).state.isOn = true ∧ (s.kiln k).runEnable = true := by simpa using resumes
    obtain rfl | ne := eq_or_ne j k
    · rw [if_pos rfl, kiln_setPhase_waitHeat, State.kiln_setHeat]
      split
      next running =>
        unfold KilnContext.submitted
        cases e : (s.kiln j).state with
        | running p => simp only [enable]
        | empty | loaded | held | finished => rw [e] at running; cases running
      next other => rw [submitted_other fun h => other h.1]
    · rw [if_neg ne, kiln_setPhase_other _ _ ne, State.kiln_setHeat]
  next rests =>
    have kept : (s.kiln k).submitted = s.kiln k := submitted_other fun ⟨running, enable⟩ => rests (by
      cases e : (s.kiln k).state with
      | running p => rw [enable]; rfl
      | empty | loaded | held | finished => rw [e] at running; cases running)
    have same : (if j = k then (s.kiln k).submitted else s.kiln j) = s.kiln j := by
      rw [kept]
      split
      next e => rw [e]
      · rfl
    rw [same]
    split <;> rfl

theorem heatOf_submitRequest (s : State) (k j : KilnNo) :
    (s.submitRequest k).heatOf j = if j = k then s.heatSubmitted k else s.heatOf j := by
  have written (r : HeatRecord) : (s.setHeat k r).heatOf j = if j = k then r else s.heatOf j := by
    split
    next e => rw [e, State.heatOf_setHeat_same]
    next ne => rw [State.heatOf_setHeat_other _ _ ne]
  have unchanged {r : HeatRecord} (h : r = s.heatOf k) : s.heatOf j = if j = k then r else s.heatOf j := by
    split
    next e => rw [h, e]
    · rfl
  unfold State.submitRequest State.heatSubmitted
  simp only [Bool.and_eq_true]
  split
  · rw [setPhase_only]
    exact written _
  · cases e : (s.heatOf k).request with
    | dormant d => exact written _
    | waiting d m => exact unchanged rfl
    | absent => exact unchanged rfl

/-- The requests of a list of kilns submitted. -/
theorem submitRequest_fold (l : List KilnNo) : ∀ s : State, l.Nodup →
    l.foldl State.submitRequest s = { s with
      kilns := (l.foldl State.submitRequest s).kilns, heat := (l.foldl State.submitRequest s).heat } ∧
      (∀ k, (l.foldl State.submitRequest s).kiln k = if k ∈ l then (s.kiln k).submitted else s.kiln k) ∧
      ∀ k, (l.foldl State.submitRequest s).heatOf k = if k ∈ l then s.heatSubmitted k else s.heatOf k := by
  induction l with
  | nil => exact fun s _ => ⟨rfl, fun k => by simp, fun k => by simp⟩
  | cons a l ih =>
    intro s nodup
    obtain ⟨once, nodup⟩ := List.nodup_cons.1 nodup
    obtain ⟨rest, kiln, heat⟩ := ih (s.submitRequest a) nodup
    rw [List.foldl_cons]
    refine ⟨by rw [rest, submitRequest_only], fun k => ?_, fun k => ?_⟩
    · rw [kiln, kiln_submitRequest]
      obtain rfl | ne := eq_or_ne k a
      · simp [once]
      · simp [ne]
    · rw [heat, heatOf_submitRequest]
      obtain rfl | ne := eq_or_ne k a
      · simp [once]
      · have own : (s.submitRequest a).heatSubmitted k = s.heatSubmitted k := by
          have kiln' : (s.submitRequest a).kiln k = s.kiln k := by rw [kiln_submitRequest, if_neg ne]
          have heat' : (s.submitRequest a).heatOf k = s.heatOf k := by rw [heatOf_submitRequest, if_neg ne]
          have minute : (s.submitRequest a).minute = s.minute := by rw [submitRequest_only]
          have demand : (s.submitRequest a).currentDemand k = s.currentDemand k := by
            unfold State.currentDemand State.currentStep State.stepAt
            rw [kiln', submitRequest_only]
            rfl
          unfold State.heatSubmitted
          rw [kiln', heat', minute, demand]
        simp [ne, own]

/-- The state that the resumption's pass begins with. -/
def State.submitted (s : State) : State :=
  { s with
    masterEnable := true
    heat := Vector.ofFn fun k : KilnNo => s.heatSubmitted k
    kilns := Vector.ofFn fun k : KilnNo => (s.kiln k).submitted }

theorem kiln_submitted (s : State) (k : KilnNo) : s.submitted.kiln k = (s.kiln k).submitted := Vector.getElem_ofFn ..

theorem heatOf_submitted (s : State) (k : KilnNo) : s.submitted.heatOf k = s.heatSubmitted k := Vector.getElem_ofFn ..

theorem submitRequest_all (s : State) : allKilns.foldl State.submitRequest { s with masterEnable := true } = s.submitted := by
  obtain ⟨rest, kiln, heat⟩ := submitRequest_fold allKilns { s with masterEnable := true } (by decide)
  generalize allKilns.foldl State.submitRequest { s with masterEnable := true } = t at rest kiln heat ⊢
  refine kilnsHeat_ext rest (fun k => ?_) fun k => ?_
  · rw [kiln, if_pos (mem_allKilns k), kiln_submitted]
    rfl
  · rw [heat, if_pos (mem_allKilns k), heatOf_submitted]
    rfl

theorem someResumes_iff (s : State) : s.someResumes = true ↔ ∃ j, (s.kiln j).state.isOn = true ∧ (s.kiln j).runEnable = true := by
  simp [State.someResumes, mem_allKilns]

theorem someRunningWaits_iff (s : State) : s.someRunningWaits = true ↔ ∃ j, (s.kiln j).state = .running .waitHeat := by
  simp [State.someRunningWaits, mem_allKilns]

theorem noteResumed_eq (s b : State) [Decidable (∃ j, (b.kiln j).state.isOn = true ∧ (b.kiln j).runEnable = true)] :
    s.noteResumed b = if ∃ j, (b.kiln j).state.isOn = true ∧ (b.kiln j).runEnable = true then s.raise .setpointChanged
      else s.noteSetpoints b := by
  unfold State.noteResumed
  rw [noteSetpoints_raise]
  split
  next some => rw [if_pos ((someResumes_iff b).1 some)]
  next none => rw [if_neg fun h => none ((someResumes_iff b).2 h)]

end Sys2Proof.Machine

open Sys2Proof Sys2Proof.Machine

/-- Settles O33: the pass begins with every request submitted (`submitRequest_all`); one HELD kiln alone is its `pass_alone`. -/
theorem kilnStartResumesTheMill : Obligations.KilnStartResumesTheMill := by
  intro s f k hl hf off
  have served {t : State} {r : Reply} (h : kilnStart k.val s = (t, r)) : exec (.kilnStart f) s = .next (t.answer 0x25 f r) :=
    serve_body hl hf rfl (readU8_kiln k) (Nat.le_of_ble_eq_true rfl) h
  have enabled : s.enableMill = s.resume := if_neg (by rw [off]; exact Bool.false_ne_true)
  have on_way {x : State} (line : s.millStopLine = false) (hx : s.resume = x) (isOn : (s.kiln k).state.isOn = true) :
      exec (.kilnStart f) s = .next (x.answer 0x25 f
        ⟨.done, u8 (x.kiln k).state.code ++ optU8 ((x.kiln k).state.phase?.map Phase.code)⟩) := by
    have under_way : ¬((s.kiln k).state = .empty ∨ (s.kiln k).state = .finished) := by
      rintro (e | e) <;> rw [e] at isOn <;> cases isOn
    have not_loaded : (s.kiln k).state ≠ .loaded := fun e => by rw [e] at isOn; cases isOn
    refine served ?_
    simp only [kilnStart, placeOf_val, enabled, hx]
    rw [line, if_neg Bool.false_ne_true, if_neg under_way, if_neg not_loaded]
    rfl
  refine ⟨fun line => served ?_, fun u v w x line hu hv hw hx => ?_, fun line held run others none covered => ?_⟩
  · simp only [kilnStart, placeOf_val]
    rw [if_pos line]
    rfl
  · have begun : s.submitted = u := hu.symm
    have resumed : s.resume = x := by
      unfold State.resume
      dsimp only
      rw [submitRequest_all, begun, noteResumed_eq, ← hv, hx, hw]
      congr 1
      simp only [someRunningWaits_iff]
    refine ⟨on_way line resumed, fun loaded => served ?_⟩
    simp only [kilnStart, placeOf_val, enabled, resumed]
    rw [line, if_neg Bool.false_ne_true, if_neg (by rw [loaded]; nofun), if_pos loaded]
    rfl
  · set base : State := { s with masterEnable := true } with hb
    have sole : ∀ j, j ≠ k → s.submitted.heatOf j = s.heatOf j := fun j ne => by
      rw [heatOf_submitted, State.heatSubmitted, if_neg (by rw [(others j ne).1]; simp), (others j ne).2]
    have begun : s.submitted = base.setHeat k ⟨0, .waiting (s.currentDemand k) s.minute⟩ := by
      refine kilnsHeat_ext rfl (fun j => ?_) fun j => ?_
      · rw [kiln_submitted, submitted_other]
        · rfl
        · rintro ⟨running, -⟩
          obtain rfl | ne := eq_or_ne j k
          · rw [held] at running
            cases running
          · have isOff := (others j ne).1
            cases e : (s.kiln j).state with
            | running p => rw [e] at isOff; cases isOff
            | empty | loaded | held | finished => rw [e] at running; cases running
      · obtain rfl | ne := eq_or_ne j k
        · rw [State.heatOf_setHeat_same, heatOf_submitted, State.heatSubmitted, if_pos ⟨by rw [held]; rfl, run⟩]
        · rw [State.heatOf_setHeat_other _ _ ne, sole j ne]
          rfl
    have grant : (s.heatOf k).grant = 0 := Nat.le_zero.1 (none ▸ grant_le_grantSum s k)
    have alone : OthersDoNotWait base k := fun j ne => by
      rw [show base.heatOf j = s.heatOf j from rfl, (others j ne).2]
      rfl
    have fits : s.currentDemand k - (base.heatOf k).grant ≤ base.freeUnits := by
      have free : base.freeUnits = s.capacity - s.grantSum := rfl
      omega
    have passed := pass_asked base k (s.currentDemand k) s.minute rfl alone
    rw [show (base.heatOf k).grant = 0 from grant, if_pos (grant ▸ fits), setPhase_other _ _ _ (by rw [State.kiln_setHeat]; exact held ▸ rfl),
      if_neg (by rw [show base.kiln k = s.kiln k from rfl, held]; nofun)] at passed
    have quiet : State.someRunningWaits s.submitted.pass.1 = false := by
      rw [Bool.eq_false_iff, ne_eq, someRunningWaits_iff, begun, passed]
      rintro ⟨j, waits⟩
      rw [kiln_noteSetpoints] at waits
      obtain rfl | ne := eq_or_ne j k
      · cases held.symm.trans waits
      · have isOff := (others j ne).1
        rw [show (s.kiln j).state = .running .waitHeat from waits] at isOff
        cases isOff
    have resumed : s.resume = (((base.setHeat k ⟨s.currentDemand k, .absent⟩).raise .setpointChanged).raise .officeMillResume).raise
        .kilnMillResume := by
      unfold State.resume
      dsimp only
      have resumes : ∃ j, (s.kiln j).state.isOn = true ∧ (s.kiln j).runEnable = true := ⟨k, by rw [held]; rfl, run⟩
      rw [submitRequest_all, quiet, if_neg Bool.false_ne_true, noteResumed_eq, if_pos resumes, begun, passed, noteSetpoints_raise]
      rfl
    refine (on_way line resumed (by rw [held]; rfl)).trans ?_
    have still : ((((base.setHeat k ⟨s.currentDemand k, .absent⟩).raise .setpointChanged).raise .officeMillResume).raise
        .kilnMillResume).kiln k = s.kiln k := by
      rw [State.kiln_raise, State.kiln_raise, State.kiln_raise]
      rfl
    rw [still, held]
    rfl
end

section
/-! The counting of a minute by the kilns (05, R69, R74, R76). -/

namespace Sys2Proof.Machine

theorem counts_iff (s : State) (k : KilnNo) : s.counts k = true ↔ s.masterEnable = true ∧ (s.kiln k).doorOpen = false ∧
    ((s.kiln k).state = .running .active ∨ (s.kiln k).state = .held ∧ (s.kiln k).holdCounts = true ∧
      ∃ t, s.currentStep k = some t ∧ (s.kiln k).stepElapsed < t.maxMinutes) := by
  unfold State.counts
  dsimp only
  rw [Bool.and_eq_true, Bool.and_eq_true, Bool.not_eq_true', and_assoc]
  refine and_congr_right fun _ => and_congr_right fun _ => ?_
  cases (s.kiln k).state with
  | empty | loaded | finished => simp
  | running p => cases p <;> simp
  | held => cases s.currentStep k <;> simp

/-- A RUNNING kiln that counts is ACTIVE. -/
theorem counts_running {s : State} {k : KilnNo} (counts : s.counts k = true) :
    (s.kiln k).state.isRunning = true ↔ (s.kiln k).state = .running .active := by
  obtain ⟨-, -, active | ⟨held, -⟩⟩ := (counts_iff s k).1 counts
  · rw [active]
    exact iff_of_true rfl rfl
  · rw [held]
    exact iff_of_false Bool.false_ne_true nofun

/-- An exit looks at the kiln's figures, samples and readings alone. -/
theorem exitHolds_congr {s u : State} {k : KilnNo} (minute : u.minute = s.minute) (figures : (u.kiln k).figures = (s.kiln k).figures)
    (samples : (u.kiln k).samples = (s.kiln k).samples) (dry : (u.kiln k).lastDry = (s.kiln k).lastDry)
    (suspect : (u.kiln k).suspect = (s.kiln k).suspect) (t : ScheduleStep) : u.exitHolds k t = s.exitHolds k t := by
  have fresh : u.fresh k = s.fresh k := by
    unfold State.fresh
    rw [minute, figures, samples]
  unfold State.exitHolds
  dsimp only
  rw [figures, dry, suspect, fresh]

/-- No kiln that counts comes to the end of its step with this minute. -/
def State.GoesOn (x : State) : Prop :=
  ∀ k t, (x.kiln k).state = .running .active → x.counts k = true → x.currentStep k = some t →
    (x.kiln k).stepElapsed + 1 < t.maxMinutes ∧ ((x.kiln k).stepElapsed + 1 < t.minMinutes ∨ x.exitHolds k t = false)

/-- The kilns of a list that count have counted. -/
def State.minuteCounted (x : State) (l : List KilnNo) : State :=
  { x with kilns := Vector.ofFn fun k : KilnNo => if k ∈ l ∧ x.counts k = true then (x.kiln k).counted else x.kiln k }

theorem kiln_minuteCounted (x : State) (l : List KilnNo) (k : KilnNo) :
    (x.minuteCounted l).kiln k = if k ∈ l ∧ x.counts k = true then (x.kiln k).counted else x.kiln k := Vector.getElem_ofFn ..

theorem kiln_minuteCounted_out (x : State) {l : List KilnNo} {k : KilnNo} (out : k ∉ l) : (x.minuteCounted l).kiln k = x.kiln k := by
  rw [kiln_minuteCounted, if_neg fun h => out h.1]

theorem minuteCounted_nil (x : State) : x.minuteCounted [] = x :=
  kilnsHeat_ext rfl (fun _ => kiln_minuteCounted_out x List.not_mem_nil) fun _ => rfl

theorem currentStep_of_kiln {s u : State} {k : KilnNo} (schedules : u.schedules = s.schedules) (kiln : u.kiln k = s.kiln k) :
    u.currentStep k = s.currentStep k := by
  unfold State.currentStep State.stepAt State.findSchedule
  rw [schedules, kiln]

theorem countKiln_minuteCounted (x : State) (l : List KilnNo) {k : KilnNo} (out : k ∉ l) (goes : x.GoesOn) :
    (x.minuteCounted l).countKiln k = x.minuteCounted (l ++ [k]) := by
  have kiln := kiln_minuteCounted_out x out
  have step : (x.minuteCounted l).currentStep k = x.currentStep k := currentStep_of_kiln rfl kiln
  have counts : (x.minuteCounted l).counts k = x.counts k := by
    unfold State.counts
    rw [kiln, step]
    rfl
  have written : (if x.counts k = true then (x.minuteCounted l).setKiln k (x.kiln k).counted else x.minuteCounted l) =
      x.minuteCounted (l ++ [k]) := by
    refine kilnsHeat_ext (by split <;> rfl) (fun j => ?_) fun j => by split <;> rfl
    rw [kiln_minuteCounted]
    obtain rfl | ne := eq_or_ne j k
    · split
      next yes => rw [State.kiln_setKiln_same]; simp [yes]
      next no => rw [kiln, if_neg fun h => no h.2]
    · have same : (x.minuteCounted l).kiln j = if j ∈ l ++ [k] ∧ x.counts j = true then (x.kiln j).counted else x.kiln j := by
        rw [kiln_minuteCounted]
        simp [ne]
      split
      · rw [State.kiln_setKiln_other _ _ ne, same]
      · exact same
  rw [← written]
  unfold State.countKiln
  rw [counts, kiln]
  dsimp only
  split
  next yes =>
    split
    next running =>
      have active := (counts_running yes).1 running
      have own : ((x.minuteCounted l).setKiln k (x.kiln k).counted).kiln k = (x.kiln k).counted := State.kiln_setKiln_same ..
      have at_step : ((x.minuteCounted l).setKiln k (x.kiln k).counted).currentStep k = x.currentStep k :=
        (currentStep_setKiln (x.minuteCounted l) k (x.kiln k).counted (by rw [kiln]; rfl) (by rw [kiln]; rfl)).trans step
      have holds (t : ScheduleStep) : ((x.minuteCounted l).setKiln k (x.kiln k).counted).exitHolds k t = x.exitHolds k t := by
        refine exitHolds_congr ?_ ?_ ?_ ?_ ?_ t
        · rfl
        all_goals rw [own]; rfl
      cases ht : x.currentStep k with
      | none => exact evaluateNow_running _ k fun t h => by rw [at_step, ht] at h; cases h
      | some t =>
        obtain ⟨max, min⟩ := goes k t active yes ht
        exact evaluateNow_goes _ k (at_step.trans ht) (by rw [own]; exact max) (by rw [own, holds]; exact min)
    · rfl
  · rfl

/-- The whole count, while no step ends. -/
theorem countKilns_goesOn (x : State) (goes : x.GoesOn) : x.countKilns = { x with
    kilns := Vector.ofFn fun k : KilnNo => if x.counts k then (x.kiln k).counted else x.kiln k } := by
  have onward (l : List KilnNo) : ∀ done : List KilnNo, l.Nodup → (∀ k ∈ l, k ∉ done) →
      l.foldl State.countKiln (x.minuteCounted done) = x.minuteCounted (done ++ l) := by
    induction l with
    | nil => intro done _ _; rw [List.append_nil]; rfl
    | cons k l ih =>
      intro done nodup out
      obtain ⟨once, nodup⟩ := List.nodup_cons.1 nodup
      rw [List.foldl_cons, countKiln_minuteCounted x done (out k (List.mem_cons_self ..)) goes, ih _ nodup, List.append_assoc,
        List.singleton_append]
      intro j hj h
      obtain h | h := List.mem_append.1 h
      · exact out j (List.mem_cons_of_mem _ hj) h
      · exact once (List.mem_singleton.1 h ▸ hj)
  have whole := onward allKilns [] (by decide) fun _ _ => List.not_mem_nil
  rw [minuteCounted_nil] at whole
  refine whole.trans (kilnsHeat_ext rfl (fun k => ?_) fun _ => rfl)
  rw [kiln_minuteCounted, List.nil_append]
  refine Eq.trans ?_ (Vector.getElem_ofFn ..).symm
  simp only [mem_allKilns, true_and]

/-- The count of the kilns, written out. -/
theorem countKilns_eq (x : State) : x.countKilns = (List.finRange 8).foldl (fun (y : State) (k : KilnNo) =>
    if y.counts k then
      let z := y.setKiln k
        { y.kiln k with stepElapsed := (y.kiln k).stepElapsed + 1, runMinutes := (y.kiln k).runMinutes + 1 }
      if (y.kiln k).state = .running .active then z.evaluateNow k else z
    else y) x := by
  have each : State.countKiln = fun (y : State) (k : KilnNo) =>
      if y.counts k then
        let z := y.setKiln k
          { y.kiln k with stepElapsed := (y.kiln k).stepElapsed + 1, runMinutes := (y.kiln k).runMinutes + 1 }
        if (y.kiln k).state = .running .active then z.evaluateNow k else z
      else y := by
    funext y k
    unfold State.countKiln
    split
    next counts =>
      dsimp only
      simp only [counts_running counts]
      rfl
    · rfl
  unfold State.countKilns
  rw [show allKilns = List.finRange 8 from by decide, each]

end Sys2Proof.Machine
end

section
/-! Closes and idle closes: the requirements in order, completion of a stacker with no idle close due, and the idle counting of the
stackers one after the other or all first (09, R155, R160, R163, R164). -/

namespace Sys2Proof.Machine

/-! ### The requirements of a close (R155) -/

theorem labelSlotFree_iff (s : State) : s.labelSlotFree = true ↔ s.labels.length + s.labelsReserved < 16 := decide_eq_true_iff

theorem isRedry_iff (p : Pack) : p.isRedry = true ↔ p.bin = 14 := beq_iff_eq

theorem isRedry_false_iff (p : Pack) : p.isRedry = false ↔ p.bin ≠ 14 := beq_eq_false_iff_ne

theorem judgeClose_grants {s : State} {st : StackerNo} {redry : Bool} {n : Option Nat} (prior : (s.stacker st).closing = none)
    (label : s.labels.length + s.labelsReserved < 16)
    (lot : redry = false ∧ n = none ∨
      redry = true ∧ s.lots.length + s.reservations.length < 64 ∧ n.isSome = true ∧ s.redrySearch = n) :
    s.judgeClose st redry = .granted n := by
  unfold State.judgeClose
  rw [prior, if_neg (by simp), (labelSlotFree_iff s).2 label, if_neg (by simp)]
  obtain ⟨rfl, rfl⟩ | ⟨rfl, slots, some, found⟩ := lot
  · rfl
  · obtain ⟨m, rfl⟩ := Option.isSome_iff_exists.1 some
    rw [if_pos rfl, State.judgeReservation, if_neg (show ¬Config.lotSlots ≤ s.slotsTaken from Nat.not_le.2 slots), found]

theorem judgeClose_fails {s : State} {st : StackerNo} {redry : Bool} {why : BlockReason}
    (h : (s.stacker st).closing.isSome = true ∧ why = .prior ∨
      (s.stacker st).closing = none ∧ 16 ≤ s.labels.length + s.labelsReserved ∧ why = .labels ∨
      (s.stacker st).closing = none ∧ s.labels.length + s.labelsReserved < 16 ∧ redry = true ∧
        (64 ≤ s.lots.length + s.reservations.length ∧ why = .lots ∨
          s.lots.length + s.reservations.length < 64 ∧ s.redrySearch = none ∧ why = .numbers)) :
    s.judgeClose st redry = .fails why := by
  unfold State.judgeClose
  obtain ⟨prior, rfl⟩ | ⟨prior, full, rfl⟩ | ⟨prior, label, rfl, lot⟩ := h
  · rw [if_pos prior]
  · have taken : s.labelSlotFree = false := Bool.eq_false_iff.2 fun free => Nat.not_lt.2 full ((labelSlotFree_iff s).1 free)
    rw [prior, if_neg (by simp), taken, if_pos (by simp)]
  · rw [prior, if_neg (by simp), (labelSlotFree_iff s).2 label, if_neg (by simp), if_pos rfl, State.judgeReservation]
    obtain ⟨slots, rfl⟩ | ⟨slots, none, rfl⟩ := lot
    · exact if_pos slots
    · rw [if_neg (show ¬Config.lotSlots ≤ s.slotsTaken from Nat.not_le.2 slots), none]

/-! ### Completion without an idle close due -/

/-- A stacker without an idle close due has none to retry. -/
theorem retryIdleClose_notDue {s : State} {st : StackerNo}
    (h : (s.stacker st).openPack = none ∨ (s.stacker st).idleDue = false) : s.retryIdleClose st = s := by
  unfold State.retryIdleClose
  split
  next p opened =>
    rw [opened] at h
    rw [if_neg (by simpa using h)]
  · rfl

theorem stacker_judgeBlock (s : State) (p : BlockReason → Bool) (st j : StackerNo) : ((s.judgeBlock p st).1.stacker j).openPack =
    (s.stacker j).openPack ∧ ((s.judgeBlock p st).1.stacker j).idleDue = (s.stacker j).idleDue := by
  unfold State.judgeBlock State.unblock
  split
  · obtain rfl | ne := eq_or_ne j st
    · simp
    · rw [State.stacker_setStacker_other _ _ ne]
      exact ⟨rfl, rfl⟩
  · exact ⟨rfl, rfl⟩

theorem complete_eq {s : State} {st : StackerNo} (c : ClosingPack)
    (h : (s.stacker st).openPack = none ∨ (s.stacker st).idleDue = false) : s.complete st c = s.completeAndJudge st c := by
  have kept : ((s.completePack st c).stacker st).openPack = (s.stacker st).openPack ∧
      ((s.completePack st c).stacker st).idleDue = (s.stacker st).idleDue := by
    rw [completePack_stacker, if_pos rfl]
    exact ⟨rfl, rfl⟩
  have judged := stacker_judgeBlock (s.completePack st c) (fun reason => reason == .prior) st st
  have still := retryIdleClose_notDue (s := ((s.completePack st c).judgeBlock (fun reason => reason == .prior) st).1) (st := st)
    (by rw [judged.1, judged.2, kept.1, kept.2]; exact h)
  unfold State.complete State.completeAndJudge State.reexamine
  simp only [State.examineOver, still, Bool.or_false]

end Sys2Proof.Machine

open Sys2Proof Sys2Proof.Machine

/-- Settles O46: the judgement of the close decides; the pack closed leaves no OPEN pack whose idle close could be due. -/
theorem idleCloseAttempted : Obligations.IdleCloseAttempted := by
  intro s st
  refine ⟨fun p running line opened idle => ?_, fun none => ?_⟩
  · have attempt : exec (.idleClose st) s = .next (s.attemptIdleClose st p) := by
      refine (whileRunning_running (event := fun s => s.idleClose st) running).trans ?_
      unfold State.idleClose
      rw [opened]
      dsimp only
      rw [line, idle, if_pos (by simp)]
    refine ⟨fun redry u prior label lot hu => ?_, fun short => ?_⟩
    · have judged : s.judgeClose st p.isRedry = .granted redry := judgeClose_grants prior label
        (lot.imp (And.imp_left (isRedry_false_iff p).2) (And.imp_left (isRedry_iff p).2))
      have closed : s.makeClose st p .idle redry = u := by
        rw [hu]
        cases redry <;> rfl
      have no_open : (u.stacker st).openPack = none := by rw [← closed, makeClose_stacker]
      rw [attempt, complete_eq _ (.inl no_open)]
      unfold State.attemptIdleClose
      rw [judged]
      dsimp only
      rw [closed]
    · obtain ⟨why, judged⟩ : ∃ why, s.judgeClose st p.isRedry = .fails why := by
        cases prior : (s.stacker st).closing with
        | some c => exact ⟨.prior, judgeClose_fails (.inl ⟨by rw [prior]; rfl, rfl⟩)⟩
        | none =>
          rw [prior] at short
          by_cases label : s.labels.length + s.labelsReserved < 16
          · obtain h | h | ⟨bin, lot⟩ := short
            · cases h
            · omega
            have is_redry := (isRedry_iff p).2 bin
            by_cases slots : s.lots.length + s.reservations.length < 64
            · have none := lot.resolve_left (by omega)
              exact ⟨.numbers, judgeClose_fails (.inr (.inr ⟨prior, label, is_redry, .inr ⟨slots, none, rfl⟩⟩))⟩
            · exact ⟨.lots, judgeClose_fails (.inr (.inr ⟨prior, label, is_redry, .inl ⟨by omega, rfl⟩⟩))⟩
          · exact ⟨.labels, judgeClose_fails (.inr (.inl ⟨prior, by omega, rfl⟩))⟩
      rw [attempt]
      unfold State.attemptIdleClose
      rw [judged]
  · have still : s.idleClose st = s := by
      unfold State.idleClose
      split
      next p opened =>
        obtain held | other := none
        · rw [held]
          rfl
        · rw [if_neg]
          simp [other p opened]
      · rfl
    by_cases running : s.condition = .running
    · refine (whileRunning_running (event := fun s => s.idleClose st) running).trans ?_
      rw [still]
    · exact whileRunning_stopped (event := fun s => s.idleClose st) running
end

section
/-! The minute event's idle counting: stacker after stacker, or all of them first and then the closes (05, R69; 09, R160). -/

namespace Sys2Proof.Machine

/-! ### A change of one stacker beside the close of another -/

/-- One stacker's record changed by a function. -/
def State.mapStacker (s : State) (b : StackerNo) (f : Stacker → Stacker) : State := s.setStacker b (f (s.stacker b))

theorem setStacker_comm (s : State) {a b : StackerNo} (ne : a ≠ b) (r r' : Stacker) :
    (s.setStacker a r).setStacker b r' = (s.setStacker b r').setStacker a r := by
  unfold State.setStacker
  congr 1
  exact Vector.set_comm _ _ (fun e => ne (Fin.ext e))

section
variable {f : Stacker → Stacker} {a b : StackerNo} (ne : a ≠ b)
include ne

theorem stacker_mapStacker_other (s : State) : (s.mapStacker b f).stacker a = s.stacker a := State.stacker_setStacker_other _ _ ne

theorem mapStacker_setStacker (s : State) (r : Stacker) : (s.mapStacker b f).setStacker a r = (s.setStacker a r).mapStacker b f := by
  unfold State.mapStacker
  rw [State.stacker_setStacker_other _ _ ne.symm, setStacker_comm s ne.symm]

theorem mapStacker_judgeBlock (s : State) (p : BlockReason → Bool) (prior : p = fun reason => reason == .prior) :
    (s.mapStacker b f).judgeBlock p a = ((s.judgeBlock p a).1.mapStacker b f, (s.judgeBlock p a).2) := by
  have freed : (s.mapStacker b f).freedBy p a = s.freedBy p a := by
    unfold State.freedBy
    rw [stacker_mapStacker_other ne, prior]
    cases h : (s.stacker a).blocked with
    | none => rfl
    | some r =>
      cases r with
      | prior => simp only [State.stillBlocked, stacker_mapStacker_other ne]
      | labels | lots | numbers => rfl
  unfold State.judgeBlock State.unblock
  rw [freed, stacker_mapStacker_other ne]
  split
  · rw [mapStacker_setStacker ne]
  · rfl

end

theorem mapStacker_raise (s : State) (b : StackerNo) (f : Stacker → Stacker) (c : AttnClass) :
    (s.raise c).mapStacker b f = (s.mapStacker b f).raise c := by
  unfold State.mapStacker
  rw [State.stacker_raise, setStacker_raise]

theorem mapStacker_raiseFreed (s : State) (b : StackerNo) (f : Stacker → Stacker) (freed : Bool) :
    (s.raiseFreed freed).mapStacker b f = (s.mapStacker b f).raiseFreed freed := by
  unfold State.raiseFreed
  split
  · exact mapStacker_raise ..
  · rfl

theorem mapStacker_pushLabel (s : State) (b : StackerNo) (f : Stacker → Stacker) (a : StackerNo) (c : ClosingPack) (lot : Option LotRecord) :
    (s.pushLabel a c lot).mapStacker b f = (s.mapStacker b f).pushLabel a c lot := by
  have serial : (s.mapStacker b f).serial = s.serial := rfl
  unfold State.pushLabel
  rw [serial]
  split <;> rfl

theorem mapStacker_completePack (s : State) {a b : StackerNo} (ne : a ≠ b) (f : Stacker → Stacker) (c : ClosingPack) :
    (s.mapStacker b f).completePack a c = (s.completePack a c).mapStacker b f := by
  have emptied (u : State) : (u.mapStacker b f).setStacker a { (u.mapStacker b f).stacker a with closing := none } =
      (u.setStacker a { u.stacker a with closing := none }).mapStacker b f := by
    rw [stacker_mapStacker_other ne, mapStacker_setStacker ne]
  have labelled (u : State) (lot : Option LotRecord) :
      let v := (u.mapStacker b f).pushLabel a c lot
      let w := u.pushLabel a c lot
      ((v.setStacker a { v.stacker a with closing := none }).raise .labelReady).raise .packClosed =
        (((w.setStacker a { w.stacker a with closing := none }).raise .labelReady).raise .packClosed).mapStacker b f := by
    dsimp only
    rw [← mapStacker_pushLabel, emptied, mapStacker_raise, mapStacker_raise]
  unfold State.completePack
  have found : (s.mapStacker b f).findLot c.pack.lot = s.findLot c.pack.lot := rfl
  rw [found]
  cases c.redryLot with
  | none => exact labelled s _
  | some n =>
    cases s.findLot c.pack.lot with
    | none => exact labelled s _
    | some l => exact labelled (s.insertLot _) _

/-- The judgement of a close does not look at the other stackers' packs that stand OPEN. -/
theorem mapStacker_judgeClose (s : State) {a b : StackerNo} (ne : a ≠ b) {f : Stacker → Stacker} (hf : ∀ r, (f r).closing = r.closing)
    (redry : Bool) : (s.mapStacker b f).judgeClose a redry = s.judgeClose a redry := by
  have same : SamePlaces s (s.mapStacker b f) := samePlaces_setStacker s b _ (by rw [hf]) (by rw [hf])
  have slots : (s.mapStacker b f).slotsTaken = s.slotsTaken := by
    unfold State.slotsTaken
    rw [same.reserved]
    rfl
  have label : (s.mapStacker b f).labelSlotFree = s.labelSlotFree := by
    unfold State.labelSlotFree State.labelsReserved
    rw [same.closing]
    rfl
  have search : (s.mapStacker b f).redrySearch = s.redrySearch := by
    have taken : (s.mapStacker b f).numberInUse = s.numberInUse := by
      funext n
      unfold State.numberInUse
      rw [same.reserved]
      rfl
    unfold State.redrySearch
    rw [taken]
    rfl
  unfold State.judgeClose State.judgeReservation
  rw [stacker_mapStacker_other ne, label, slots, search]

theorem mapStacker_makeClose (s : State) {a b : StackerNo} (ne : a ≠ b) (f : Stacker → Stacker) (p : Pack) (why : CloseReason)
    (n : Option Nat) : (s.mapStacker b f).makeClose a p why n = (s.makeClose a p why n).mapStacker b f := by
  unfold State.makeClose
  dsimp only
  rw [stacker_mapStacker_other ne, mapStacker_setStacker ne]
  cases n <;> rfl

theorem mapStacker_attemptIdleClose (s : State) {a b : StackerNo} (ne : a ≠ b) {f : Stacker → Stacker}
    (hf : ∀ r, (f r).closing = r.closing) (p : Pack) :
    (s.mapStacker b f).attemptIdleClose a p = (s.attemptIdleClose a p).mapStacker b f := by
  have completed (u : State) (c : ClosingPack) : (u.mapStacker b f).completeAndJudge a c = (u.completeAndJudge a c).mapStacker b f := by
    unfold State.completeAndJudge
    dsimp only
    rw [mapStacker_completePack u ne, mapStacker_judgeBlock ne _ _ rfl, mapStacker_raiseFreed]
  have minute : (s.mapStacker b f).minute = s.minute := rfl
  unfold State.attemptIdleClose
  rw [mapStacker_judgeClose s ne hf]
  cases s.judgeClose a p.isRedry with
  | fails r =>
    dsimp only
    rw [stacker_mapStacker_other ne, mapStacker_setStacker ne]
  | granted n =>
    dsimp only
    rw [mapStacker_makeClose s ne, minute, completed]
    split <;> rfl

theorem mapStacker_idleClose (s : State) {a b : StackerNo} (ne : a ≠ b) {f : Stacker → Stacker}
    (hf : ∀ r, (f r).closing = r.closing) : (s.mapStacker b f).idleClose a = (s.idleClose a).mapStacker b f := by
  have held : (s.mapStacker b f).lineHeld = s.lineHeld := rfl
  unfold State.idleClose
  rw [stacker_mapStacker_other ne, held]
  cases (s.stacker a).openPack with
  | none => rfl
  | some p =>
    dsimp only
    split
    · exact mapStacker_attemptIdleClose s ne hf p
    · rfl

/-! ### Idle counting in two parts (R160) -/

/-- The idle minute of a stacker. -/
def Stacker.ticked (r : Stacker) : Stacker :=
  match r.openPack with
  | some p => if r.idleMinutes < p.idleTime then { r with idleMinutes := r.idleMinutes + 1 } else r
  | none => r

/-- The minute brings the stacker to an idle close: its idle time, or one that is due. -/
def Stacker.comesDue (r : Stacker) : Bool :=
  match r.openPack with
  | some p => decide (r.idleMinutes + 1 = p.idleTime ∨ r.idleMinutes = p.idleTime ∧ r.idleDue = true)
  | none => false

theorem ticked_closing (r : Stacker) : r.ticked.closing = r.closing := by
  unfold Stacker.ticked
  split
  · split <;> rfl
  · rfl

/-- The minute event at one stacker is its idle minute, and then the close that is due. -/
theorem idleStacker_eq (s : State) (st : StackerNo) (line : s.lineHeld = false) : s.idleStacker st =
    if (s.stacker st).comesDue then (s.mapStacker st Stacker.ticked).idleClose st else s.mapStacker st Stacker.ticked := by
  have held (r : Stacker) : (s.setStacker st r).lineHeld = false := line
  unfold State.idleStacker Stacker.comesDue State.mapStacker Stacker.ticked State.idleClose
  cases opened : (s.stacker st).openPack with
  | none =>
    dsimp only
    rw [if_neg Bool.false_ne_true, setStacker_self s st rfl]
  | some p =>
    dsimp only
    by_cases below : (s.stacker st).idleMinutes < p.idleTime
    · have not_there : ¬((s.stacker st).idleMinutes = p.idleTime ∧ (s.stacker st).idleDue = true) := fun h => by omega
      simp only [if_pos below, State.stacker_setStacker_same, held, opened, not_there, or_false, decide_eq_true_eq]
      split
      next full => simp [full]
      · rfl
    · have not_yet : ¬(s.stacker st).idleMinutes + 1 = p.idleTime := by omega
      simp only [if_neg below, setStacker_self s st rfl, not_yet, false_or, decide_eq_true_eq, line, opened]
      split
      next due => simp [due.1]
      · rfl

theorem stacker_idleClose_other (s : State) {a j : StackerNo} (ne : j ≠ a) : (s.idleClose a).stacker j = s.stacker j := by
  have made (p : Pack) (n : Option Nat) : (s.makeClose a p .idle n).stacker j = s.stacker j := by
    unfold State.makeClose
    cases n <;> exact State.stacker_setStacker_other _ _ ne
  have completed (u : State) (c : ClosingPack) : (u.completeAndJudge a c).stacker j = u.stacker j := by
    have judged (v : State) (p : BlockReason → Bool) : (v.judgeBlock p a).1.stacker j = v.stacker j := by
      unfold State.judgeBlock State.unblock
      split
      · exact State.stacker_setStacker_other _ _ ne
      · rfl
    have freed (v : State) (f : Bool) : (v.raiseFreed f).stacker j = v.stacker j := by
      unfold State.raiseFreed
      split
      · exact State.stacker_raise ..
      · rfl
    unfold State.completeAndJudge
    rw [freed, judged, completePack_stacker, if_neg ne]
  have attempted (p : Pack) : (s.attemptIdleClose a p).stacker j = s.stacker j := by
    unfold State.attemptIdleClose
    split
    · exact State.stacker_setStacker_other _ _ ne
    · dsimp only
      split
      · rw [completed, made]
      · exact made ..
  unfold State.idleClose
  split
  · split
    · exact attempted ..
    · rfl
  · rfl

theorem idleClose_lineHeld (s : State) (st : StackerNo) : (s.idleClose st).lineHeld = s.lineHeld := by
  rw [(onlyPacks_idleClose s st).rest]

theorem idleClose_condition (s : State) (st : StackerNo) : (s.idleClose st).condition = s.condition := by
  rw [(onlyPacks_idleClose s st).rest]

/-- The idle minute of each stacker of a list. -/
def State.tickAll (s : State) (l : List StackerNo) : State := l.foldl (fun s st => s.mapStacker st Stacker.ticked) s

theorem tickAll_idleClose (l : List StackerNo) : ∀ (s : State) {a : StackerNo}, a ∉ l → (s.idleClose a).tickAll l = (s.tickAll l).idleClose a := by
  induction l with
  | nil => exact fun _ _ _ => rfl
  | cons b l ih =>
    intro s a out
    have ne : a ≠ b := fun e => out (e ▸ List.mem_cons_self ..)
    unfold State.tickAll
    rw [List.foldl_cons, List.foldl_cons, ← mapStacker_idleClose s ne ticked_closing]
    exact ih _ fun h => out (List.mem_cons_of_mem _ h)

/-- The stackers one after the other, each with its close, are the idle minutes of all and then the closes. -/
theorem idleStacker_foldl (x : State) (l : List StackerNo) : ∀ s : State, l.Nodup → s.lineHeld = false →
    (∀ st ∈ l, s.stacker st = x.stacker st) →
    l.foldl State.idleStacker s = (l.filter fun st => (x.stacker st).comesDue).foldl State.idleClose (s.tickAll l) := by
  induction l with
  | nil => exact fun _ _ _ _ => rfl
  | cons a l ih =>
    intro s nodup line same
    obtain ⟨once, nodup⟩ := List.nodup_cons.1 nodup
    have other (j : StackerNo) (hj : j ∈ l) : j ≠ a := fun e => once (e ▸ hj)
    have same' (j : StackerNo) (hj : j ∈ l) : (s.mapStacker a Stacker.ticked).stacker j = x.stacker j :=
      (stacker_mapStacker_other (other j hj) s).trans (same j (List.mem_cons_of_mem _ hj))
    rw [List.foldl_cons, idleStacker_eq s a line, same a (List.mem_cons_self ..), List.filter_cons]
    split
    · rw [ih _ nodup (by rw [idleClose_lineHeld]; exact line)
        (fun j hj => by rw [stacker_idleClose_other _ (other j hj), same' j hj]), tickAll_idleClose l _ once]
      rfl
    · exact ih _ nodup line same'

theorem stacker_tickAll (l : List StackerNo) (j : StackerNo) : ∀ s : State, l.Nodup →
    (s.tickAll l).stacker j = if j ∈ l then (s.stacker j).ticked else s.stacker j := by
  induction l with
  | nil => exact fun _ _ => (if_neg List.not_mem_nil).symm
  | cons a l ih =>
    intro s nodup
    obtain ⟨once, nodup⟩ := List.nodup_cons.1 nodup
    refine (ih _ nodup).trans ?_
    obtain rfl | ne := eq_or_ne j a
    · rw [if_neg once, if_pos (List.mem_cons_self ..)]
      exact State.stacker_setStacker_same ..
    · rw [stacker_mapStacker_other ne]
      simp [ne]

theorem tickAll_only (l : List StackerNo) : ∀ s : State, s.tickAll l = { s with stackers := (s.tickAll l).stackers } := by
  induction l with
  | nil => exact fun _ => rfl
  | cons a l ih => exact fun s => (ih _).trans rfl

theorem stackers_ext {s t : State} (rest : t = { s with stackers := t.stackers }) (h : ∀ st, t.stacker st = s.stacker st) : t = s := by
  have : t.stackers = s.stackers := Vector.ext fun i hi => h ⟨i, hi⟩
  rw [rest, this]

/-- The idle minute of every stacker. -/
def State.ticked (x : State) : State := { x with stackers := Vector.ofFn fun st : StackerNo => (x.stacker st).ticked }

theorem stacker_ticked (x : State) (st : StackerNo) : x.ticked.stacker st = (x.stacker st).ticked := Vector.getElem_ofFn ..

theorem idleStackers_eq (x : State) (line : x.lineHeld = false) : x.idleStackers =
    ((List.finRange 6).filter fun st => (x.stacker st).comesDue).foldl State.idleClose x.ticked := by
  have ticked : x.tickAll allStackers = x.ticked := stackers_ext (tickAll_only allStackers x) fun st => by
    rw [stacker_tickAll _ _ _ (by decide), if_pos (mem_allStackers st), stacker_ticked]
  have counted : x.idleStackers = allStackers.foldl State.idleStacker x := if_neg (by rw [line]; exact Bool.false_ne_true)
  rw [counted, idleStacker_foldl x allStackers x (by decide) line fun _ _ => rfl, ticked,
    show allStackers = List.finRange 6 from by decide]

/-- IDLE_CLOSE as a command, one stacker after the other. -/
theorem exec_idleClose_foldl (l : List StackerNo) : ∀ y : State, y.condition = .running →
    l.foldl (fun (o : Host.Outcome State Fault Refusal) st =>
      match o with
      | .next z => exec (.idleClose st) z
      | stop => stop) (.next y) = .next (l.foldl State.idleClose y) := by
  induction l with
  | nil => exact fun _ _ => rfl
  | cons a l ih =>
    intro y running
    have first : exec (.idleClose a) y = .next (y.idleClose a) := whileRunning_running (event := fun s => s.idleClose a) running
    rw [List.foldl_cons, List.foldl_cons, ← ih _ ((idleClose_condition y a).trans running), ← first]

end Sys2Proof.Machine

open Sys2Proof Sys2Proof.Machine

/-- Settles O44: the kilns' count (`countKilns_goesOn`), the pass without a request, and the stackers (`idleStackers_eq`). -/
theorem minuteEventCounts : Obligations.MinuteEventCounts := by
  have event (s : State) (running : s.condition = .running) (more : s.minute < 4294967295) : exec .minuteEvent s =
      .next (State.minuteWith (Config.agingPassFirst s.choices) { s with choices := s.choices + 1 }) := by
    refine (whileRunning_running (event := fun s => if s.minute < Config.minuteMax then
      State.minuteWith (Config.agingPassFirst s.choices) { s with choices := s.choices + 1 } else s) running).trans ?_
    rw [if_pos (show s.minute < Config.minuteMax from more)]
  refine ⟨fun counting hc => ?_, fun x y running line hy => ?_, fun s => ⟨fun running more none goes => ?_, counts_iff s, rfl, fun max => ?_⟩⟩
  · obtain rfl : counting = State.countKilns := funext fun x => (hc x).trans (countKilns_eq x).symm
    refine ⟨fun s v running more hv => ?_, fun x goes => countKilns_goesOn x goes⟩
    rw [event s running more, hv]
    rfl
  · have ticked : y = x.ticked := hy
    rw [idleStackers_eq x line, ← ticked]
    exact exec_idleClose_foldl _ y (by rw [hy]; exact running)
  · set v : State := { s with minute := s.minute + 1, choices := s.choices + 1 } with hv
    have counted := countKilns_goesOn v goes
    set u : State := { v with kilns := Vector.ofFn fun k : KilnNo => if v.counts k then (v.kiln k).counted else v.kiln k } with hu
    have quiet (x : State) (same : x.heat = s.heat) : x.passAndSettle = x :=
      passAndSettle_noneWaiting x fun k => by rw [State.heatOf, same]; exact none k
    have either : (if Config.agingPassFirst s.choices then v.passAndSettle.countKilns else v.countKilns.passAndSettle) = u := by
      rw [quiet v rfl, counted, quiet u rfl, ite_self]
    refine ⟨u, ?_, rfl, fun k => Vector.getElem_ofFn .., fun held => if_pos held, fun line no_close => ?_⟩
    · rw [event s running more]
      exact congrArg (fun x : State => Host.Outcome.next x.idleStackers) either
    · have none_due : (List.finRange 6).filter (fun st => (u.stacker st).comesDue) = [] := by
        refine List.filter_eq_nil_iff.2 fun st _ => ?_
        have same : u.stacker st = s.stacker st := rfl
        rw [same, Stacker.comesDue]
        cases opened : (s.stacker st).openPack with
        | none => exact Bool.false_ne_true
        | some p =>
          obtain ⟨not_yet, not_due⟩ := no_close st p opened
          simpa [not_yet] using not_due
      rw [idleStackers_eq u line, none_due]
      rfl
  · by_cases running : s.condition = .running
    · refine (whileRunning_running (event := fun s => if s.minute < Config.minuteMax then
        State.minuteWith (Config.agingPassFirst s.choices) { s with choices := s.choices + 1 } else s) running).trans ?_
      rw [if_neg (show ¬s.minute < Config.minuteMax from by rw [max]; exact Nat.lt_irrefl _)]
    · exact whileRunning_stopped (event := fun s => if s.minute < Config.minuteMax then
        State.minuteWith (Config.agingPassFirst s.choices) { s with choices := s.choices + 1 } else s) running
end

section
/-! The supply and RESET lines, CLEAR ALL, PACK CLOSE and the completion of a pack (09, R161, R164; 11, R187 to R189). -/

namespace Sys2Proof.Machine

theorem kilnsEmpty_iff (s : State) : s.kilnsEmpty = true ↔ ∀ k, (s.kiln k).state = .empty := by
  simp [State.kilnsEmpty, mem_allKilns]

theorem packStands_iff (s : State) : s.packStands = true ↔
    ∃ st, (s.stacker st).openPack.isSome = true ∨ (s.stacker st).closing.isSome = true := by
  simp [State.packStands, mem_allStackers]

/-- A start-up judged lost: every record at its value after reset (R187). -/
theorem startUp_lost (s : State) (p : Straps) : s.startUp .powerLost p =
    { State.reset with
      resetLine := s.resetLine, lineRate := lineRateOf p, millStopLine := s.millStopLine, completionMarker := s.completionMarker,
      choices := s.choices, pending := s.pending } := rfl

/-- The lots after a completion: with the redry lot of a redry pack (09, R164). -/
def lotsCompleted (s : State) (c : ClosingPack) (l : LotRecord) : List LotRecord :=
  match c.redryLot with
  | some n => insertByNumber (redryLotOf l n c.pack.boards c.pack.footage s.minute) s.lots
  | none => s.lots

theorem completePack_whole {s : State} {c : ClosingPack} {l : LotRecord} {m : Nat} (st : StackerNo)
    (found : s.findLot c.pack.lot = some l) (serial : s.serial = some m) :
    s.completePack st c = ((State.setStacker
      { s with lots := lotsCompleted s c l, labels := s.labels ++ [labelOf m st c (some l)], serial := serialAfter m } st
      { s.stacker st with closing := none }).raise .labelReady).raise .packClosed := by
  obtain ⟨pack, reason, minute, redry⟩ := c
  unfold State.completePack State.pushLabel lotsCompleted
  rw [found]
  cases redry <;> simp only [State.insertLot, serial] <;> rfl

end Sys2Proof.Machine

open Sys2Proof Sys2Proof.Machine

/-- Settles O58: the refusal's marks, and the records cleared. -/
theorem clearAllEmptiesThePart : Obligations.ClearAllEmptiesThePart := by
  intro s f hl hf
  have served {t : State} {r : Reply} (h : clearAll () s = (t, r)) : exec (.clearAll f) s = .next (t.answer 0x3F f r) :=
    serve_body hl hf rfl rfl (Nat.le_of_ble_eq_true rfl) h
  have kilns : (!s.kilnsEmpty) = decide (∃ k, (s.kiln k).state ≠ .empty) := by
    rw [Bool.eq_iff_iff, Bool.not_eq_true', decide_eq_true_eq, ← not_forall, ← kilnsEmpty_iff, Bool.not_eq_true]
  have boards : (!s.queue.isEmpty) = decide (s.queue ≠ []) := by
    rw [Bool.eq_iff_iff, Bool.not_eq_true', decide_eq_true_eq, List.isEmpty_eq_false_iff]
  have packs : s.packStands = decide (∃ st, (s.stacker st).openPack.isSome = true ∨ (s.stacker st).closing.isSome = true) := by
    rw [Bool.eq_iff_iff, decide_eq_true_eq, packStands_iff]
  refine ⟨fun busy => served ?_, fun empty none bare => ?_⟩
  · have refused : (!s.kilnsEmpty || !s.queue.isEmpty || s.packStands) = true := by
      rw [kilns, boards, packs]
      simpa [or_assoc] using busy
    rw [clearAll, if_pos refused, kilns, boards, packs]
  · have accepted : ¬(!s.kilnsEmpty || !s.queue.isEmpty || s.packStands) = true := by
      have all_empty := (kilnsEmpty_iff s).2 empty
      have no_pack : s.packStands = false := Bool.eq_false_iff.2 fun h => by
        obtain ⟨st, h⟩ := (packStands_iff s).1 h
        simp [bare st] at h
      simp [all_empty, none, no_pack]
    have link : f.link = .office := hl.1
    refine (served (t := s.cleared) (r := .done) (by rw [clearAll, if_neg accepted])).trans ?_
    unfold State.answer State.setReceiver
    rw [link]
    rfl

/-- Settles O59: the events of supply and RESET, a start-up judged lost by `startUp_lost`. -/
theorem supplyAndResetLines : Obligations.SupplyAndResetLines := by
  intro s
  refine ⟨fun running => ?_, fun running => ?_, fun held p stopped line lost => ?_, fun held p stopped line => ?_, fun p held => ?_⟩
  · have taken : execPowerLoss s = .next { s with condition := .stopped, completionMarker := true } := by
      unfold execPowerLoss
      rw [running]
    exact taken
  · have taken : execResetAsserted s = .next
        { ((State.setReceiver { s with resetLine := true } .office .hunting).setReceiver .kilnHouse .hunting).setReceiver .planer .hunting with
          condition := .held .reset } := by
      unfold execResetAsserted
      rw [if_pos running]
    exact ⟨_, taken, rfl, fun l => by cases l <;> exact ⟨rfl, rfl⟩⟩
  · have judged : s.judgePower held = .powerLost := by
      unfold State.judgePower
      obtain e | e := lost <;> rw [e] <;> simp
    have taken : execPowerOn held p s = .next (State.startUp { s with completionMarker := false } .powerLost p) := by
      unfold execPowerOn
      rw [if_pos stopped]
      dsimp only
      rw [line, if_neg Bool.false_ne_true, judged]
    refine taken.trans ?_
    rw [startUp_lost, show State.resetLine { s with completionMarker := false } = false from line]
    rfl
  · have judged : s.judgePower held = if s.completionMarker && held then .powerIntact else .powerLost := rfl
    have taken : execPowerOn held p s = .next { s with completionMarker := false, condition := .held (s.judgePower held) } := by
      unfold execPowerOn
      rw [if_pos stopped, if_pos line]
    rw [← judged]
    exact taken
  · have taken : execResetReleased p s = .next (State.startUp { s with resetLine := false } .powerLost p) := by
      unfold execResetReleased
      rw [held]
    exact taken

/-- Settles O56: the judgement of the close, by `judgeClose_fails` and `judgeClose_grants`. -/
theorem packCloseReserves : Obligations.PackCloseReserves := by
  refine ⟨fun s f st hl hf none => ?_, fun s f st p hl hf opened => ?_⟩
  · refine serve_body hl hf rfl (readU8_u8 (place_le st (by decide))) (Nat.le_of_ble_eq_true rfl) ?_
    simp only [packClose, placeOf_val, none]
    rfl
  have served {t : State} {r : Reply} (h : packClose st.val s = (t, r)) : exec (.packClose f) s = .next (t.answer 0x57 f r) :=
    serve_body hl hf rfl (readU8_u8 (place_le st (by decide))) (Nat.le_of_ble_eq_true rfl) h
  have refused {why : BlockReason} (judged : s.judgeClose st p.isRedry = .fails why) :
      exec (.packClose f) s = .next (s.answer 0x57 f ⟨.notReservable, u8 why.code⟩) := by
    refine served ?_
    simp only [packClose, placeOf_val, opened, judged]
  have made {redry : Option Nat} (judged : s.judgeClose st p.isRedry = .granted redry) : packClose st.val s =
      (if p.outstanding = 0 then (s.makeClose st p .operator redry).complete st ⟨p, .operator, s.minute, redry⟩
        else s.makeClose st p .operator redry, .done (u16 p.number ++ optU16 redry ++ mark (p.outstanding == 0))) := by
    simp only [packClose, placeOf_val, opened, judged]
  refine ⟨fun prior => refused (judgeClose_fails (.inl ⟨prior, rfl⟩)),
    fun prior full => refused (judgeClose_fails (.inr (.inl ⟨prior, full, rfl⟩))),
    fun prior label redry => ⟨fun full => ?_, fun slots none => ?_⟩, fun redry t prior label lot out ht => ?_,
    fun out prior label bin => ?_, fun n out prior label bin slots found => ?_⟩
  · exact refused (judgeClose_fails (.inr (.inr ⟨prior, label, (isRedry_iff p).2 redry, .inl ⟨full, rfl⟩⟩)))
  · exact refused (judgeClose_fails (.inr (.inr ⟨prior, label, (isRedry_iff p).2 redry, .inr ⟨slots, none, rfl⟩⟩)))
  · have judged : s.judgeClose st p.isRedry = .granted redry := judgeClose_grants prior label
      (lot.imp (And.imp_left (isRedry_false_iff p).2) (And.imp_left (isRedry_iff p).2))
    refine served ((made judged).trans ?_)
    rw [if_pos out, out, ht]
    cases redry <;> rfl
  · have judged : s.judgeClose st p.isRedry = .granted none := judgeClose_grants prior label (.inl ⟨(isRedry_false_iff p).2 bin, rfl⟩)
    refine served ((made judged).trans ?_)
    rw [if_neg (by omega), beq_eq_false_iff_ne.2 (by omega : p.outstanding ≠ 0), List.append_assoc]
    rfl
  · have judged : s.judgeClose st p.isRedry = .granted (some n) := judgeClose_grants prior label
      (.inr ⟨(isRedry_iff p).2 bin, slots, rfl, found⟩)
    refine served ((made judged).trans ?_)
    rw [if_neg (by omega), beq_eq_false_iff_ne.2 (by omega : p.outstanding ≠ 0)]
    rfl

/-- Settles O54: the completion's items in turn; the CLOSING place emptied is the place that the label and the redry lot take. -/
theorem completionQueuesLabelAndLot : Obligations.CompletionQueuesLabelAndLot := by
  intro s st c l m closing found serial range
  obtain ⟨count, same, less⟩ := empty_closing s st { s.stacker st with closing := none } c closing rfl
  have whole := completePack_whole st found serial
  have counts : (s.completePack st c).closingCount + 1 = s.closingCount := by
    rw [whole]
    exact count
  have left : (s.completePack st c).serialsLeft = s.serialsLeft - 1 := by
    rw [whole]
    by_cases last : m = 4294967295
    · simp [State.serialsLeft, serial, serialAfter, Config.serialMax, last]
    · simp only [State.serialsLeft, serial, serialAfter, Config.serialMax, last, State.raise_serial, State.setStacker_serial]
      simp only [if_false]
      omega
  have labels : (s.completePack st c).labels.length = s.labels.length + 1 := by
    rw [whole]
    simp
  have some_left : 0 < s.serialsLeft := by
    simp only [State.serialsLeft, serial, Config.serialMax]
    omega
  refine ⟨?_, ?_, ?_⟩
  · rw [whole]
    rfl
  · simp only [State.labelsReserved, labels, left, Config.labelSlots]
    omega
  · have lots : (s.completePack st c).lots = lotsCompleted s c l := by rw [whole]; simp
    have reserved : (s.completePack st c).reservations =
        (s.setStacker st { s.stacker st with closing := none }).reservations := by
      rw [whole]
      rfl
    rw [lots, reserved]
    unfold lotsCompleted
    cases hr : c.redryLot with
    | none => rw [same hr]
    | some n =>
      have gone := (less n hr).length_eq
      simp only [length_insertByNumber, List.length_cons] at gone ⊢
      omega
end

section
/-! The re-examinations of the stackers, no idle close being due, as one judgement of each stacker on the state before the first
(09, R159), and the order of the search of R17. -/

namespace Sys2Proof.Machine

/-! ### What a requirement looks at -/

/-- The requirements of a close look at the places taken, and of a stacker at its CLOSING pack alone. -/
theorem stillBlocked_of_samePlaces {s u : State} (rest : u = { s with stackers := u.stackers }) (same : SamePlaces s u)
    {st : StackerNo} (closing : (u.stacker st).closing = (s.stacker st).closing) (why : BlockReason) :
    u.stillBlocked st why = s.stillBlocked st why := by
  have lots : u.lots = s.lots := by rw [rest]
  cases why with
  | prior => exact congrArg Option.isSome closing
  | labels =>
    have label : u.labelSlotFree = s.labelSlotFree := by
      unfold State.labelSlotFree State.labelsReserved State.serialsLeft
      rw [same.closing, same.labels, same.serial]
    exact congrArg not label
  | lots =>
    have slots : u.slotsTaken = s.slotsTaken := by
      unfold State.slotsTaken
      rw [same.reserved, lots]
    exact congrArg (fun n => decide (Config.lotSlots ≤ n)) slots
  | numbers =>
    have search : u.redrySearch = s.redrySearch := by
      have taken : u.numberInUse = s.numberInUse := by
        funext n
        unfold State.numberInUse State.findLot
        rw [same.reserved, lots]
      have first : u.redryFirst = s.redryFirst := by rw [rest]
      have last : u.redryLast = s.redryLast := by rw [rest]
      have next : u.redryNext = s.redryNext := by rw [rest]
      unfold State.redrySearch
      rw [taken, first, last, next]
    exact congrArg Option.isNone search

/-- A stacker's reason is gone when the event concerns it and its requirement is met (R159). -/
theorem freedBy_iff (s : State) (p : BlockReason → Bool) (st : StackerNo) : s.freedBy p st = true ↔
    ∃ why, (s.stacker st).blocked = some why ∧ p why = true ∧ s.stillBlocked st why = false := by
  unfold State.freedBy
  cases (s.stacker st).blocked with
  | none => simp
  | some why => simp

/-! ### A re-examination with no idle close due -/

/-- Each stacker of the list is judged as it stands before the first is freed. -/
theorem examineOver_notDue (p : StackerNo → BlockReason → Bool) (s : State) (l : List StackerNo) : ∀ u : State, l.Nodup →
    u = { s with stackers := u.stackers } → SamePlaces s u → (∀ j, (u.stacker j).idleDue = false) →
    (∀ j ∈ l, u.stacker j = s.stacker j) →
    (State.examineOver p u l).2 = l.any (fun j => s.freedBy (p j) j) ∧
      (State.examineOver p u l).1 = { s with stackers := (State.examineOver p u l).1.stackers } ∧
      ∀ j, (State.examineOver p u l).1.stacker j =
        if j ∈ l ∧ s.freedBy (p j) j = true then { u.stacker j with blocked := none } else u.stacker j := by
  induction l with
  | nil => exact fun u _ rest _ _ _ => ⟨rfl, rest, fun j => (if_neg fun h => absurd h.1 List.not_mem_nil).symm⟩
  | cons a l ih =>
    intro u nodup rest same notDue untouched
    obtain ⟨once, nodup⟩ := List.nodup_cons.1 nodup
    have here := untouched a (List.mem_cons_self ..)
    have freed : u.freedBy (p a) a = s.freedBy (p a) a := by
      rw [Bool.eq_iff_iff, freedBy_iff, freedBy_iff, here]
      simp only [stillBlocked_of_samePlaces rest same (congrArg Stacker.closing here)]
    have due := stacker_judgeBlock u (p a) a
    obtain ⟨v, hv⟩ : ∃ v, v = (u.judgeBlock (p a) a).1 := ⟨_, rfl⟩
    have judged : v = (if s.freedBy (p a) a then u.unblock a else u) ∧ (u.judgeBlock (p a) a).2 = s.freedBy (p a) a := by
      rw [hv]
      unfold State.judgeBlock
      rw [freed]
      split
      next h => exact ⟨rfl, h.symm⟩
      next h => exact ⟨rfl, (Bool.eq_false_iff.2 h).symm⟩
    have other j (ne : j ≠ a) : v.stacker j = u.stacker j := by
      rw [judged.1]
      split
      · exact State.stacker_setStacker_other _ _ ne
      · rfl
    have own : v.stacker a = if s.freedBy (p a) a = true then { u.stacker a with blocked := none } else u.stacker a := by
      rw [judged.1]
      split
      · exact State.stacker_setStacker_same ..
      · rfl
    have vrest : v = { s with stackers := v.stackers } := by
      rw [judged.1]
      split
      · exact congrArg (State.unblock · a) rest
      · exact rest
    have still : v.retryIdleClose a = v := retryIdleClose_notDue (.inr (by rw [hv, (due a).2, notDue]))
    obtain ⟨any, trest, each⟩ := ih v nodup vrest (same.trans (hv ▸ samePlaces_judgeBlock u (p a) a))
      (fun j => by rw [hv, (due j).2, notDue])
      (fun j hj => (other j fun e => once (e ▸ hj)).trans (untouched j (List.mem_cons_of_mem _ hj)))
    have next : State.examineOver p u (a :: l) = ((State.examineOver p v l).1, s.freedBy (p a) a || (State.examineOver p v l).2) := by
      rw [State.examineOver, ← hv, still, judged.2]
    rw [next]
    refine ⟨?_, trest, fun j => ?_⟩
    · rw [List.any_cons, any]
    · rw [each j]
      obtain rfl | ne := eq_or_ne j a
      · rw [if_neg fun h => once h.1, own]
        simp
      · rw [other j ne]
        simp only [List.mem_cons, ne, false_or]

/-- The state after a re-examination before STACKER_FREED: each stacker that the event frees is not blocked. -/
theorem examined {s : State} (notDue : ∀ j, (s.stacker j).idleDue = false) {l : List StackerNo} (nodup : l.Nodup)
    (p : StackerNo → BlockReason → Bool) : ∃ t : State, State.examineOver p s l = (t, l.any fun j => s.freedBy (p j) j) ∧
      t = { s with stackers := t.stackers } ∧
      ∀ j, t.stacker j = if j ∈ l ∧ s.freedBy (p j) j = true then { s.stacker j with blocked := none } else s.stacker j := by
  obtain ⟨any, rest, each⟩ := examineOver_notDue p s l s nodup rfl (.refl s) notDue fun _ _ => rfl
  exact ⟨_, Prod.ext rfl any, rest, each⟩

/-- A re-examination of stackers none of which is blocked changes nothing. -/
theorem reexamine_unblocked {s : State} (clear : ∀ j, (s.stacker j).blocked = none ∧ (s.stacker j).idleDue = false)
    {l : List StackerNo} (nodup : l.Nodup) (p : StackerNo → BlockReason → Bool) : s.reexamine l p = s := by
  have none_freed j : s.freedBy (p j) j = false := by
    unfold State.freedBy
    rw [(clear j).1]
  obtain ⟨t, eq, rest, each⟩ := examined (fun j => (clear j).2) nodup p
  have same : t = s := stackers_ext rest fun j => by rw [each, none_freed, if_neg (by simp)]
  have not_any : (l.any fun j => s.freedBy (p j) j) = false := by simp [none_freed]
  unfold State.reexamine
  rw [eq, not_any, same]
  rfl

/-! ### The search of R17 -/

theorem numberInUse_iff (s : State) (n : Nat) : s.numberInUse n = true ↔ (∃ l ∈ s.lots, l.number = n) ∨ n ∈ s.reservations := by
  simp [State.numberInUse, State.findLot]

/-- A search looks at every number of its range. -/
theorem looked_index {first last cur n : Nat} (lo : first ≤ cur) (hi : cur ≤ last) (from_first : first ≤ n) (to_last : n ≤ last) :
    ∃ i < last + 1 - first, looked first last cur i = n := by
  by_cases h : cur ≤ n
  · refine ⟨n - cur, by omega, ?_⟩
    unfold looked
    rw [if_pos (by omega)]
    omega
  · refine ⟨n + (last + 1 - first) - cur, by omega, ?_⟩
    unfold looked
    rw [if_neg (by omega)]
    omega

/-- The reason of a stacker has gone: its requirement is met (R155, R159). -/
def State.requirementMet (s : State) (st : StackerNo) : BlockReason → Prop
  | .labels => s.labels.length + s.labelsReserved < 16
  | .lots => s.lots.length + s.reservations.length < 64
  | .numbers => s.redrySearch ≠ none
  | .prior => (s.stacker st).closing = none

theorem stillBlocked_false_iff (s : State) (st : StackerNo) (why : BlockReason) :
    s.stillBlocked st why = false ↔ s.requirementMet st why := by
  cases why with
  | labels => simp [State.stillBlocked, State.requirementMet, labelSlotFree_iff]
  | lots => exact decide_eq_false_iff_not.trans Nat.not_le
  | numbers => simp [State.stillBlocked, State.requirementMet, Option.ne_none_iff_isSome]
  | prior => simp [State.stillBlocked, State.requirementMet]

theorem raiseFreed_any {s t : State} {l : List StackerNo} {p : StackerNo → BlockReason → Bool}
    (eq : State.examineOver p s l = (t, l.any fun j => s.freedBy (p j) j)) :
    ((∃ st, st ∈ l ∧ s.freedBy (p st) st = true) → s.reexamine l p = t.raise .stackerFreed) ∧
      ((∀ st, ¬(st ∈ l ∧ s.freedBy (p st) st = true)) → s.reexamine l p = t) := by
  unfold State.reexamine
  rw [eq]
  dsimp only
  refine ⟨fun some => ?_, fun none => ?_⟩
  · rw [List.any_eq_true.2 some]
    rfl
  · rw [Bool.eq_false_iff.2 fun any => (List.any_eq_true.1 any).elim none]
    rfl

theorem nodup_allStackers : allStackers.Nodup := by decide

end Sys2Proof.Machine

open Sys2Proof Sys2Proof.Machine

/-- Settles O57: every re-examination is `examined` over its stackers and reasons; the search of R17 by `looked`. -/
theorem reexaminationsFreeStackers : Obligations.ReexaminationsFreeStackers := by
  refine ⟨fun s u f n hl range hf hu => ?_, fun s u concerns freed startUp notDue event hfreed => ?_, fun s lo hi => ?_⟩
  · have served {t r} (h : labelRelease n s = (t, r)) : exec (.labelRelease f) s = .next (t.answer 0x35 f r) :=
      serve_body hl hf rfl (readU8_u8 range) (Nat.le_of_ble_eq_true rfl) h
    refine ⟨fun one most => ?_, fun wrong => ?_⟩
    · refine served ?_
      rw [labelRelease, if_neg (by omega), hu]
      rfl
    · refine served ?_
      rw [labelRelease, if_pos (by omega)]
      rfl
  · have by_list (l : List StackerNo) (p : StackerNo → BlockReason → Bool) (nodup : l.Nodup)
        (hp : ∀ st why, concerns st why ↔ st ∈ l ∧ p st why = true) :
        ∃ t : State, State.examineOver p s l = (t, l.any fun j => s.freedBy (p j) j) ∧ t = { s with stackers := t.stackers } ∧
          (∀ st, freed st ↔ st ∈ l ∧ s.freedBy (p st) st = true) ∧
          ∀ st, (freed st → t.stacker st = { s.stacker st with blocked := none }) ∧
            (¬freed st → t.stacker st = s.stacker st) := by
      obtain ⟨t, eq, rest, each⟩ := examined notDue nodup p
      have frees st : freed st ↔ st ∈ l ∧ s.freedBy (p st) st = true := by
        rw [freedBy_iff]
        simp only [stillBlocked_false_iff]
        constructor
        · intro h
          obtain ⟨why, blocked, concerned, met⟩ := (hfreed st).1 h
          obtain ⟨mem, applies⟩ := (hp st why).1 concerned
          exact ⟨mem, why, blocked, applies, met⟩
        · rintro ⟨mem, why, blocked, applies, met⟩
          exact (hfreed st).2 ⟨why, blocked, (hp st why).2 ⟨mem, applies⟩, met⟩
      refine ⟨t, eq, rest, frees, fun st => ⟨fun h => ?_, fun h => ?_⟩⟩
      · rw [each, if_pos ((frees st).1 h)]
      · rw [each, if_neg fun g => h ((frees st).2 g)]
    have by_event (l : List StackerNo) (p : StackerNo → BlockReason → Bool) (nodup : l.Nodup) (no : ¬startUp)
        (hp : ∀ st why, concerns st why ↔ st ∈ l ∧ p st why = true) (hu : u = s.reexamine l p) :
        ∃ t : State, t = { s with stackers := t.stackers } ∧
          (∀ st, (freed st → t.stacker st = { s.stacker st with blocked := none }) ∧
            (¬freed st → t.stacker st = s.stacker st)) ∧
          (¬startUp → (∃ st, freed st) → u = t.raise .stackerFreed) ∧ (startUp ∨ (∀ st, ¬freed st) → u = t) := by
      obtain ⟨t, eq, rest, frees, each⟩ := by_list l p nodup hp
      obtain ⟨raised, quiet⟩ := raiseFreed_any eq
      refine ⟨t, rest, each, fun _ some => hu.trans (raised ?_), fun none => hu.trans (quiet ?_)⟩
      · obtain ⟨st, h⟩ := some
        exact ⟨st, (frees st).1 h⟩
      · exact fun st h => none.resolve_left no st ((frees st).2 h)
    have over_all (p : BlockReason → Bool) (hp : ∀ st why, concerns st why ↔ p why = true) (st : StackerNo) (why : BlockReason) :
        concerns st why ↔ st ∈ allStackers ∧ p why = true := by
      rw [hp]
      exact (and_iff_right (mem_allStackers st)).symm
    obtain ⟨no, kind⟩ | ⟨yes, hu, all⟩ := event
    · obtain ⟨hu, hc⟩ | ⟨hu, hc⟩ | ⟨hu, hc⟩ | ⟨r, own, c, hs, hu, hc⟩ | ⟨r, own, hs, hu, hc⟩ := kind
      · refine by_event allStackers _ nodup_allStackers no (over_all _ fun st why => ?_) hu
        rw [hc, beq_iff_eq]
      · refine by_event allStackers _ nodup_allStackers no (over_all _ fun st why => ?_) hu
        rw [hc, Bool.or_eq_true, beq_iff_eq, beq_iff_eq]
      · refine by_event allStackers _ nodup_allStackers no (over_all _ fun st why => ?_) hu
        rw [hc, beq_iff_eq]
      · refine by_event [own] _ (List.nodup_singleton own) no (fun st why => ?_) (hu.trans (congrArg (fun x => State.reexamine x _ _) hs.symm))
        rw [hc, List.mem_singleton, beq_iff_eq, and_comm]
      · refine by_event allStackers _ nodup_allStackers no (fun st why => ?_) (hu.trans (congrArg (fun x => State.reexamine x _ _) hs.symm))
        rw [hc]
        cases why <;> simp [mem_allStackers]
    · obtain ⟨t, eq, rest, frees, each⟩ := by_list allStackers (fun _ _ => true) nodup_allStackers fun st why =>
        ⟨fun _ => ⟨mem_allStackers st, rfl⟩, fun _ => all st why⟩
      refine ⟨t, rest, each, fun no => absurd yes no, fun _ => ?_⟩
      rw [hu, State.reexamineAll, eq]
  · have not_taken {n} (found : s.redrySearch = some n) : s.numberInUse n = false := searchFree_some found
    refine ⟨numberInUse_iff s, ⟨fun none n from_first to_last => ?_, fun all => ?_⟩, fun n found => ?_⟩
    · obtain ⟨i, hi, rfl⟩ := looked_index lo hi from_first to_last
      exact searchFree_eq_none (Nat.le_refl _) none i hi
    · cases found : s.redrySearch with
      | none => rfl
      | some n =>
        obtain ⟨i, less, eq, -⟩ := searchFree_eq_some (Nat.le_refl _) found
        obtain ⟨from_first, to_last⟩ := looked_range lo hi less
        have taken := all n (eq ▸ from_first) (eq ▸ to_last)
        rw [not_taken found] at taken
        cases taken
    · obtain ⟨i, less, rfl, before⟩ := searchFree_eq_some (Nat.le_refl _) found
      refine ⟨looked_range lo hi less, not_taken found, fun m from_first to_last free => ?_⟩
      obtain ⟨k, in_range, rfl⟩ := looked_index lo hi from_first to_last
      have later : i ≤ k := Nat.le_of_not_lt fun earlier => by
        rw [before k earlier] at free
        cases free
      unfold looked
      split_ifs <;> omega

end

section
/-! The boards of a lot and of a pack: what a counted board and a lost one do to a lot record, and what becomes of a pack that one of
its queued boards leaves (01, R10 to R14; 09, R162). -/

namespace Sys2Proof.Machine

/-! ### A lot's boards (01, R10 to R14) -/

theorem count_eq (l : LotRecord) (d : Disposition) (ft mc : Nat) (v : Bool) : l.count d ft mc v = { l with
    measured := ⟨l.measured.boards + 1, l.measured.footage + ft⟩
    passed := if d = .pass then ⟨l.passed.boards + 1, l.passed.footage + ft⟩ else l.passed
    redry := if d = .redry then ⟨l.redry.boards + 1, l.redry.footage + ft⟩ else l.redry
    rejected := if d = .reject then ⟨l.rejected.boards + 1, l.rejected.footage + ft⟩ else l.rejected
    heldBack := if d = .holdback then ⟨l.heldBack.boards + 1, l.heldBack.footage + ft⟩ else l.heldBack
    verifiedBoards := if (d = .pass ∨ d = .redry) ∧ v = true then l.verifiedBoards + 1 else l.verifiedBoards
    verifiedMcSum := if (d = .pass ∨ d = .redry) ∧ v = true then l.verifiedMcSum + mc else l.verifiedMcSum } := by
  cases v with
  | true => cases d <;> rfl
  | false => cases d <;> rfl

theorem loseBoard_eq (l : LotRecord) (d : Disposition) (ft mc : Nat) (v : Bool) : l.loseBoard d ft mc v = { l with
    lost := ⟨l.lost.boards + 1, l.lost.footage + ft⟩
    passed := if d = .pass then ⟨l.passed.boards - 1, l.passed.footage - ft⟩ else l.passed
    redry := if d = .redry then ⟨l.redry.boards - 1, l.redry.footage - ft⟩ else l.redry
    rejected := if d = .reject then ⟨l.rejected.boards - 1, l.rejected.footage - ft⟩ else l.rejected
    heldBack := if d = .holdback then ⟨l.heldBack.boards - 1, l.heldBack.footage - ft⟩ else l.heldBack
    verifiedBoards := if (d = .pass ∨ d = .redry) ∧ v = true then l.verifiedBoards - 1 else l.verifiedBoards
    verifiedMcSum := if (d = .pass ∨ d = .redry) ∧ v = true then l.verifiedMcSum - mc else l.verifiedMcSum } := by
  cases v with
  | true => cases d <;> rfl
  | false => cases d <;> rfl

theorem redryFails_iff (l : LotRecord) : l.redryFails = true ↔ l.state = .planing ∧ 0 < l.redryLimit ∧ l.waived = false ∧
    20000 ≤ l.passed.footage + l.redry.footage ∧
      l.redryLimit < l.redry.footage * 1000 / (l.passed.footage + l.redry.footage) := by
  simp only [LotRecord.redryFails, redryFractionAbove, Bool.and_eq_true, beq_iff_eq, decide_eq_true_eq, Bool.not_eq_true', and_assoc]
  rfl

/-- A board of another disposition than REDRY begins PLANING and holds no lot (R10). -/
theorem afterBoard_state_of_ne (l : LotRecord) {d : Disposition} (ft mc : Nat) (v : Bool) (h : d ≠ .redry) :
    (l.afterBoard d ft mc v).state = planingBegun l.state := by
  unfold LotRecord.afterBoard
  dsimp only
  rw [if_neg fun both => h both.1, count_eq]
  rfl

/-- Whether the REDRY board counted takes its lot over its limit (R11). -/
def LotRecord.overLimit (l : LotRecord) (ft : Nat) : Prop :=
  0 < l.redryLimit ∧ l.waived = false ∧ 20000 ≤ l.passed.footage + (l.redry.footage + ft) ∧
    l.redryLimit < (l.redry.footage + ft) * 1000 / (l.passed.footage + (l.redry.footage + ft))

/-- A REDRY board counted in a DRIED or PLANING lot holds it when its limit is passed (R10, R11). -/
theorem afterBoard_redry_state (l : LotRecord) (ft mc : Nat) (v : Bool) (h : l.state = .dried ∨ l.state = .planing) :
    (l.overLimit ft → (l.afterBoard .redry ft mc v).state = .held (.redry .planing)) ∧
      (¬l.overLimit ft → (l.afterBoard .redry ft mc v).state = .planing) := by
  have begun : planingBegun l.state = .planing := by obtain h | h := h <;> rw [h] <;> rfl
  have fails : ((l.count .redry ft mc v).withState (planingBegun (l.count .redry ft mc v).state)).redryFails = true ↔ l.overLimit ft := by
    rw [redryFails_iff, count_eq]
    exact and_iff_right begun
  unfold LotRecord.afterBoard
  dsimp only
  refine ⟨fun held => ?_, fun stays => ?_⟩
  · rw [if_pos ⟨rfl, fails.2 held⟩]
    rfl
  · rw [if_neg fun both => stays (fails.1 both.2), count_eq]
    exact begun

/-! ### A pack that a queued board leaves (09, R162) -/

/-- The board leaves its OPEN pack, which is dissolved when it holds no board. -/
theorem leavePack_open {v : State} {b : Board} {f : Pack → Pack} {st : StackerNo} {p : Pack} (dest : b.destination = .stacker st)
    (own : b.pack = some p.number) (opened : (v.stacker st).openPack = some p)
    (apart : ∀ c, (v.stacker st).closing = some c → c.pack.number ≠ p.number) (number : (f p).number = p.number) :
    v.leavePack b f = (v.setStacker st (if (f p).boards = 0 then
        { v.stacker st with openPack := none, idleMinutes := 0, idleDue := false }
      else { v.stacker st with openPack := some { f p with outstanding := p.outstanding - 1 } }), .none) := by
  have closing : ((v.stacker st).closing.map fun c => if c.pack.number = p.number then
      { c with pack := { f c.pack with outstanding := c.pack.outstanding - 1 } } else c) = (v.stacker st).closing := by
    cases h : (v.stacker st).closing with
    | none => rfl
    | some c => rw [Option.map_some, if_neg (apart c h)]
  have changed : (v.stacker st).changed p.number (fun q => { f q with outstanding := q.outstanding - 1 }) =
      { v.stacker st with openPack := some { f p with outstanding := p.outstanding - 1 } } := by
    unfold Stacker.changed
    rw [closing, opened, Option.map_some, if_pos rfl]
  unfold State.leavePack
  rw [own, dest]
  dsimp only
  rw [onPack_eq v st p.number _ fun q c hq hc => by
    rw [opened] at hq
    cases hq
    exact (apart c hc).symm]
  rw [changed]
  have settled (u : State) (hu : ∀ c, (u.stacker st).closing = some c → c.pack.number ≠ p.number) :
      u.settlePack st p.number = (u.dissolveEmpty st p.number, .none) := by
    unfold State.settlePack
    split
    next c hc => rw [if_neg (hu c hc)]
    · rfl
  rw [settled _ (by rw [State.stacker_setStacker_same]; exact apart)]
  unfold State.dissolveEmpty
  rw [State.stacker_setStacker_same]
  dsimp only
  by_cases empty : (f p).boards = 0
  · rw [if_pos ⟨number, empty⟩, if_pos empty, setStacker_setStacker]
  · rw [if_neg fun both => empty both.2, if_neg empty]

/-- The board leaves its CLOSING pack, which ends when it was the last outstanding one. -/
theorem leavePack_closing {v : State} {b : Board} {f : Pack → Pack} {st : StackerNo} {c : ClosingPack}
    (dest : b.destination = .stacker st) (own : b.pack = some c.pack.number) (closing : (v.stacker st).closing = some c)
    (apart : ∀ p, (v.stacker st).openPack = some p → p.number ≠ c.pack.number) (number : (f c.pack).number = c.pack.number) :
    v.leavePack b f = (v.setStacker st
      { v.stacker st with
        closing := some { c with pack := { f c.pack with outstanding := c.pack.outstanding - 1 } } }).endClosing st
      { c with pack := { f c.pack with outstanding := c.pack.outstanding - 1 } } := by
  have opened : ((v.stacker st).openPack.map fun p => if p.number = c.pack.number then
      { f p with outstanding := p.outstanding - 1 } else p) = (v.stacker st).openPack := by
    cases h : (v.stacker st).openPack with
    | none => rfl
    | some p => rw [Option.map_some, if_neg (apart p h)]
  have changed : (v.stacker st).changed c.pack.number (fun q => { f q with outstanding := q.outstanding - 1 }) =
      { v.stacker st with
        closing := some { c with pack := { f c.pack with outstanding := c.pack.outstanding - 1 } } } := by
    unfold Stacker.changed
    rw [opened, closing, Option.map_some, if_pos rfl]
  unfold State.leavePack
  rw [own, dest]
  dsimp only
  rw [onPack_eq v st c.pack.number _ fun q d hq hd => by
    rw [closing] at hd
    cases hd
    exact apart q hq]
  rw [changed]
  unfold State.settlePack
  rw [State.stacker_setStacker_same]
  dsimp only
  rw [if_pos number]

theorem endClosing_outstanding {v : State} {st : StackerNo} {c : ClosingPack} (h : c.pack.outstanding ≠ 0) :
    v.endClosing st c = (v, .none) := if_neg h

theorem endClosing_completes {v : State} {st : StackerNo} {c : ClosingPack} (h : c.pack.outstanding = 0) (boards : 0 < c.pack.boards) :
    v.endClosing st c = (v.complete st c, .completed) := (if_pos h).trans (if_pos boards)

theorem endClosing_discards {v : State} {st : StackerNo} {c : ClosingPack} (h : c.pack.outstanding = 0) (boards : c.pack.boards = 0) :
    v.endClosing st c = (v.discard st, .discarded) := (if_pos h).trans (if_neg (by omega))

theorem Destination.ofCode_code (d : Destination) : Destination.ofCode d.code = some d := by
  cases d with
  | stacker st => exact dif_pos st.isLt
  | reject => rfl
  | holdback => rfl

theorem Destination.code_le (d : Destination) : d.code ≤ 255 := by
  cases d with
  | stacker st => exact place_le st (by decide)
  | reject => decide
  | holdback => decide

end Sys2Proof.Machine

open Sys2Proof Sys2Proof.Machine

/-- Settles O52: the counted record by `count_eq`, the lot's state by `afterBoard_redry_state`. -/
theorem redryCheckHoldsTheLot : Obligations.RedryCheckHoldsTheLot := by
  refine ⟨fun l d ft mc v => ⟨?_, fun other => ?_⟩, fun l ft mc v state => ?_⟩
  · obtain ⟨st, -, eq | eq⟩ := afterBoard_eq l d ft mc v <;> rw [eq, count_eq] <;> rfl
  · rw [afterBoard_state_of_ne l ft mc v other]
    rfl
  · obtain ⟨held, stays⟩ := afterBoard_redry_state l ft mc v state
    refine ⟨⟨fun is_held => ?_, held⟩, fun not_held => ?_⟩
    · by_contra below
      rw [stays below] at is_held
      cases is_held
    · exact stays fun above => not_held (held above)

/-- Settles O53: the board leaves the queue, and its pack by `leavePack_open` or `leavePack_closing`. -/
theorem dropTakesOldestBoard : Obligations.DropTakesOldestBoard := by
  refine ⟨fun s f code hl beyond range hf => ?_, fun s f d hl hf none => ?_, fun s f d b hl hf found => ?_⟩
  · refine serve_body hl hf rfl (readU8_u8 range) (Nat.le_of_ble_eq_true rfl) ?_
    have no_code : Destination.ofCode code = none := by
      unfold Destination.ofCode
      rw [dif_neg (by omega), if_neg (by omega), if_neg (by omega)]
    unfold drop
    rw [no_code]
    rfl
  · refine serve_body hl hf rfl (readU8_u8 d.code_le) (Nat.le_of_ble_eq_true rfl) ?_
    have no_board : (s.queue.find? fun b => b.destination == d) = .none := by simpa using none
    unfold drop
    rw [d.ofCode_code]
    dsimp only
    rw [no_board]
    rfl
  have dest : b.destination = d := by simpa using List.find?_some found
  have dropped : drop d.code s = (((s.dequeue b.seq).leavePack b id).1,
      .done (u16 b.seq ++ u16 b.lot ++ optU16 b.pack ++ mark (((s.dequeue b.seq).leavePack b id).2 == .completed) ++
        u8 ((s.dequeue b.seq).leavePack b id).1.queue.length)) := by
    unfold drop
    rw [d.ofCode_code]
    dsimp only
    rw [found]
  have served {t r} (h : (s.dequeue b.seq).leavePack b id = (t, r)) : exec (.drop f) s = .next (t.answer 0x51 f
      (.done (u16 b.seq ++ u16 b.lot ++ optU16 b.pack ++ mark (r == .completed) ++ u8 t.queue.length))) :=
    serve_body hl hf rfl (readU8_u8 d.code_le) (Nat.le_of_ble_eq_true rfl) (dropped.trans (by rw [h]))
  refine ⟨fun none => ?_, fun st p hd own opened boards apart => ?_, fun st c hd own closing many apart => ?_,
    fun st c hd own closing last boards apart => ?_⟩
  · have left : (s.dequeue b.seq).leavePack b id = (s.dequeue b.seq, .none) := by
      unfold State.leavePack
      rw [none]
    refine (served left).trans ?_
    rw [none]
    rfl
  · have left := leavePack_open (v := s.dequeue b.seq) (f := id) (dest.trans hd) own opened apart rfl
    rw [if_neg (show ¬(id p).boards = 0 from Nat.ne_of_gt boards)] at left
    refine (served left).trans ?_
    rw [own]
    rfl
  · have left := leavePack_closing (v := s.dequeue b.seq) (f := id) (dest.trans hd) own closing apart rfl
    refine (served (left.trans (endClosing_outstanding (show c.pack.outstanding - 1 ≠ 0 by omega)))).trans ?_
    rw [own]
    rfl
  · have left := leavePack_closing (v := s.dequeue b.seq) (f := id) (dest.trans hd) own closing apart rfl
    rw [last] at left
    refine ⟨_, _, rfl, rfl, (served (left.trans (endClosing_completes rfl boards))).trans ?_⟩
    rw [own]
    rfl

/-- Settles O55: the lot by `loseBoard_eq`, the pack by `leavePack_open` or `leavePack_closing`, a discard by `reexamine_unblocked`
and `empty_closing`. -/
theorem lostRetractsTheBoard : Obligations.LostRetractsTheBoard := by
  refine ⟨fun s u f b hl one range hf found hu => ?_, loseBoard_eq⟩
  have lose : s.loseBoard b = u.leavePack b fun p => p.removeBoard b.footage b.mc b.verified := by
    rw [hu]
    rfl
  have stacker j : u.stacker j = s.stacker j := by
    rw [hu]
    rfl
  have served {t r} (h : u.leavePack b (fun p => p.removeBoard b.footage b.mc b.verified) = (t, r)) :
      exec (.lost f) s = .next (t.answer 0x52 f (.done (u16 b.seq ++ u16 b.lot ++ u8 b.disposition.code ++
        u8 b.destination.code ++ optU16 b.pack ++ u8 r.code))) := by
    refine serve_body hl hf rfl (readU16_u16 range) (Nat.le_of_ble_eq_true rfl) ?_
    unfold lost
    rw [if_neg (by omega), found]
    dsimp only
    rw [lose, h]
  have kept p := removeBoard_kept p b.footage b.mc b.verified
  refine ⟨fun none => ?_, fun st p dest own opened apart => ?_, fun st c c' dest own closing apart hc' => ?_⟩
  · have left : u.leavePack b (fun p => p.removeBoard b.footage b.mc b.verified) = (u, .none) := by
      unfold State.leavePack
      rw [none]
    refine (served left).trans ?_
    rw [none, List.append_assoc _ _ (u8 _)]
    rfl
  · rw [← stacker] at opened apart
    have left := leavePack_open (f := fun p => p.removeBoard b.footage b.mc b.verified) dest own opened apart (kept p).1
    refine (served left).trans ?_
    rw [own, stacker]
    by_cases only : p.boards ≤ 1
    · rw [if_pos only, if_pos (show (p.removeBoard b.footage b.mc b.verified).boards = 0 by rw [(kept p).2.2]; omega)]
      rfl
    · rw [if_neg only, if_neg (show ¬(p.removeBoard b.footage b.mc b.verified).boards = 0 by rw [(kept p).2.2]; omega)]
      rfl
  · rw [← stacker] at closing apart
    have left := leavePack_closing (f := fun p => p.removeBoard b.footage b.mc b.verified) dest own closing apart (kept c.pack).1
    rw [← hc', stacker] at left
    have outstanding : c'.pack.outstanding = c.pack.outstanding - 1 := by rw [hc']
    have boards : c'.pack.boards = c.pack.boards - 1 := by
      rw [hc']
      exact (kept c.pack).2.2
    have answered {t r} (h : (u.setStacker st { s.stacker st with closing := some c' }).endClosing st c' = (t, r)) :
        exec (.lost f) s = .next (t.answer 0x52 f ⟨.done, u16 b.seq ++ u16 b.lot ++ u8 b.disposition.code ++
          u8 b.destination.code ++ optU16 (some c.pack.number) ++ [byteOf r.code]⟩) := by
      rw [← own]
      exact served (left.trans h)
    by_cases more : 2 ≤ c.pack.outstanding
    · exact ⟨_, _, answered (endClosing_outstanding (by omega)), fun _ => ⟨rfl, rfl⟩, fun h => by omega, fun h => by omega⟩
    by_cases holds : 2 ≤ c.pack.boards
    · exact ⟨_, _, answered (endClosing_completes (by omega) (by omega)), fun h => by omega, fun _ _ => ⟨rfl, rfl⟩,
        fun _ h => by omega⟩
    have emptied : (∀ j, (s.stacker j).blocked = none ∧ (s.stacker j).idleDue = false) →
        (u.setStacker st { s.stacker st with closing := some c' }).discard st =
          u.setStacker st { s.stacker st with closing := none } := fun clear => by
      unfold State.discard
      rw [State.stacker_setStacker_same, setStacker_setStacker]
      refine reexamine_unblocked (fun j => ?_) nodup_allStackers _
      obtain rfl | ne := eq_or_ne j st
      · rw [State.stacker_setStacker_same]
        exact clear j
      · rw [State.stacker_setStacker_other _ _ ne, stacker]
        exact clear j
    refine ⟨_, _, answered (endClosing_discards (by omega) (by omega)), fun h => by omega, fun _ h => by omega,
      fun _ _ => ⟨rfl, emptied, fun clear table m reserved => ?_⟩⟩
    rw [emptied clear]
    have places : SamePlaces s u := by
      rw [hu]
      exact (samePlaces_dequeue ..).trans (samePlaces_modifyLot _ _ _ fun l e => (loseBoard_number ..).trans e)
    have perm := (empty_closing u st { s.stacker st with closing := none } c closing rfl).2.2 m reserved
    rw [places.reserved] at perm
    obtain ⟨-, nodup, apart_lots, -⟩ := table
    have not_reserved := (List.nodup_cons.1 (perm.nodup_iff.1 nodup)).1
    have not_lot := apart_lots m (perm.mem_iff.2 (List.mem_cons_self ..))
    rw [← places.numbers] at not_lot
    refine Bool.eq_false_iff.2 fun used => ?_
    obtain ⟨l, mem, number⟩ | mem := (numberInUse_iff _ m).1 used
    · exact not_lot (List.mem_map.2 ⟨l, mem, number⟩)
    · exact not_reserved mem

end

section
/-! A start-up with retention intact, as one record of the part: what the blocks keep, and the purge of the boards queued as a fold over
each lot (11, R187; 01, R22; 08, R147). -/

namespace Sys2Proof.Machine

/-! ### The lots under a purge (08, R147) -/

/-- The lot of a number after a queued board is handled as lost. -/
theorem findLot_loseBoard {s : State} (table : TableSound s) {n : Nat} {l : LotRecord} (found : s.findLot n = some l) (b : Board) :
    (s.loseBoard b).1.findLot n =
      some (if b.lot = n then l.loseBoard b.disposition b.footage b.mc b.verified else l) := by
  obtain ⟨mem, number⟩ := findLot_mem found
  have lost_mem : b.lostFrom l ∈ (s.lostFromLot b).lots := by
    rw [lostFromLot_lots]
    exact List.mem_map.2 ⟨l, mem, rfl⟩
  have left_mem : b.lostFrom l ∈ (s.loseBoard b).1.lots := (lotsKept_leavePack ..).lots _ lost_mem
  have there := ((kept_loseBoard s b).1 table).findLot left_mem
  rw [lostFrom_number, number] at there
  rw [there, Board.lostFrom, number]
  simp only [eq_comm]

/-- Each board lost in turn takes its tally out of its lot. -/
theorem findLot_losses (q : List Board) : ∀ {s : State}, TableSound s → ∀ {n : Nat} {l : LotRecord}, s.findLot n = some l →
    (q.foldl (fun s b => (s.loseBoard b).1) s).findLot n =
      some (q.foldl (fun l b => if b.lot = n then l.loseBoard b.disposition b.footage b.mc b.verified else l) l) := by
  induction q with
  | nil => exact fun _ _ _ found => found
  | cons b q ih => exact fun table _ _ found => ih ((kept_loseBoard _ b).1 table) (findLot_loseBoard table found b)

theorem findLot_reexamineAll {s : State} (table : TableSound s) {n : Nat} {l : LotRecord} (found : s.findLot n = some l) :
    s.reexamineAll.findLot n = some l := by
  obtain ⟨mem, number⟩ := findLot_mem found
  have kept : LotsKept s s.reexamineAll := lotsKept_examineOver (fun _ _ => true) allStackers s
  have places : PlacesKept s s.reexamineAll := kept_examineOver (fun _ _ => true) allStackers s
  have there := (places.1 table).findLot (kept.lots l mem)
  rwa [number] at there

/-! ### The part after the start-up -/

/-- The kilns and the heat of a start-up with retention intact (05, R91; 06, R111). -/
theorem keptRecords_rest (s : State) : ∃ kilns heat, s.keptRecords = { s.restarted with kilns := kilns, heat := heat } ∧
    (∀ k, s.keptRecords.heatOf k = ⟨0, if (s.kiln k).state.isOn then .dormant (s.currentDemand k) else .absent⟩) ∧
    ∀ k, s.keptRecords.kiln k = { s.kiln k with
      doorOpen := false,
      state := match (s.kiln k).state with
        | .running _ => .running .waitHeat
        | st => st } := by
  obtain ⟨kilns, heat, rest, heats, each⟩ := dormant_fold allKilns (by decide) s.restarted
  refine ⟨kilns, heat, rest, fun k => ?_, fun k => ?_⟩
  · exact (heats k).trans (if_pos (mem_allKilns k))
  · exact (each k).trans (if_pos (mem_allKilns k))

/-- The records of the packs and lots after the start-up: purged and re-examined. -/
def State.recovered (s : State) : State := s.keptRecords.purge.reexamineAll

theorem startUp_intact (s : State) {kind : StartUpKind} (p : Straps) (intact : kind.lost = false) : ∃ kilns heat,
    s.keptRecords = { s.restarted with kilns := kilns, heat := heat } ∧
    s.startUp kind p = { s with
      condition := .running, startUpKind := kind, lineRate := lineRateOf p, officePort := ⟨.hunting, 0x0200, 0⟩,
      kilnHousePort := ⟨.hunting, 0, 0⟩, planerPort := ⟨.hunting, 0, 0⟩, queue := [], lineHeld := false, shadow := false,
      masterEnable := false, kilns := kilns, heat := heat, lots := s.recovered.lots, redryNext := s.recovered.redryNext,
      stackers := s.recovered.stackers, labels := s.recovered.labels, serial := s.recovered.serial } := by
  obtain ⟨kilns, heat, rest, -, -⟩ := keptRecords_rest s
  have examined : NumbersKept s.keptRecords.purge s.recovered := numbersKept_examineOver (fun _ _ => true) allStackers _
  have whole := ((numbersKept_purge s.keptRecords).trans examined).rest
  refine ⟨kilns, heat, rest, ?_⟩
  have records : s.startUpRecords kind.lost = s.recovered := by rw [State.startUpRecords, intact]; rfl
  unfold State.startUp
  rw [records, intact]
  generalize s.recovered = r at whole ⊢
  rw [whole, rest]
  rfl

/-! ### The stackers with no board queued and no idle close due (09, R168) -/

/-- The reason left after the re-examination of a start-up. -/
def reasonLeft (s : State) (st : StackerNo) : Option BlockReason :=
  match (s.stacker st).blocked with
  | some .labels => if s.labels.length + s.labelsReserved < 16 then none else some .labels
  | some .lots => if s.lots.length + s.reservations.length < 64 then none else some .lots
  | some .numbers => if s.redrySearch.isSome then none else some .numbers
  | some .prior => if (s.stacker st).closing = none then none else some .prior
  | none => none

theorem reasonLeft_eq (s : State) (st : StackerNo) :
    reasonLeft s st = if s.freedBy (fun _ => true) st = true then none else (s.stacker st).blocked := by
  have freed := freedBy_iff s (fun _ => true) st
  simp only [stillBlocked_false_iff, true_and] at freed
  unfold reasonLeft
  cases blocked : (s.stacker st).blocked with
  | none => simp
  | some why =>
    have met : s.freedBy (fun _ => true) st = true ↔ s.requirementMet st why := by simp [freed, blocked]
    by_cases gone : s.requirementMet st why
    · rw [if_pos (met.2 gone)]
      cases why with
      | labels => exact if_pos gone
      | lots => exact if_pos gone
      | numbers => exact if_pos (Option.ne_none_iff_isSome.1 gone)
      | prior => exact if_pos gone
    · rw [if_neg fun freed => gone (met.1 freed)]
      cases why with
      | labels => exact if_neg gone
      | lots => exact if_neg gone
      | numbers => exact if_neg fun some => gone (Option.ne_none_iff_isSome.2 some)
      | prior => exact if_neg gone

theorem restarted_notDue {r : Stacker} (h : r.idleDue = false) : r.restarted = { r with idleMinutes := 0 } := by
  obtain ⟨countLimit, footageLimit, idleParam, openPack, closing, blocked, idleMinutes, idleDue⟩ := r
  cases h
  cases openPack <;> rfl

theorem recovered_calm {s : State} (queue : s.queue = []) (notDue : ∀ st, (s.stacker st).idleDue = false) :
    (∃ v, s.recovered = { s.keptRecords with stackers := v }) ∧
      ∀ st, s.recovered.stacker st = { s.stacker st with idleMinutes := 0, blocked := reasonLeft s st } := by
  obtain ⟨kilns, heat, rest, -, -⟩ := keptRecords_rest s
  have purged : s.keptRecords.purge = s.keptRecords := by
    have none : s.keptRecords.queue = [] := by rw [rest]; exact queue
    rw [State.purge, none]
    exact List.foldl_nil
  have stacker st : s.keptRecords.stacker st = { s.stacker st with idleMinutes := 0 } := by
    rw [rest]
    exact (restarted_stacker s st).trans (restarted_notDue (notDue st))
  have judged st : s.keptRecords.freedBy (fun _ => true) st = s.freedBy (fun _ => true) st := by
    have still why : s.keptRecords.stillBlocked st why = s.stillBlocked st why := by
      rw [rest]
      refine (stillBlocked_of_samePlaces (s := s) (u := { s with stackers := s.restarted.stackers }) rfl
        ⟨rfl, (samePlaces_restarted s).reserved, (samePlaces_restarted s).closing, rfl, rfl⟩ (st := st) ?_ why)
      have closing : (s.restarted.stacker st).closing = (s.stacker st).closing := by
        rw [restarted_stacker]
        rfl
      exact closing
    rw [Bool.eq_iff_iff, freedBy_iff, freedBy_iff, stacker]
    simp only [still]
  obtain ⟨t, eq, trest, each⟩ := examined (s := s.keptRecords) (fun j => by rw [stacker]; exact notDue j) nodup_allStackers
    fun _ _ => true
  have recovered : s.recovered = t := by
    unfold State.recovered State.reexamineAll
    rw [purged, eq]
  refine ⟨⟨t.stackers, recovered.trans trest⟩, fun st => ?_⟩
  rw [recovered, each, reasonLeft_eq, stacker]
  simp only [mem_allStackers, true_and, judged]
  split <;> rfl

end Sys2Proof.Machine

open Sys2Proof Sys2Proof.Machine

/-- Settles O60: the part after the start-up by `startUp_intact`, its stackers by `recovered_calm`, its lots by `findLot_losses`. -/
theorem intactStartUpKeepsRecords : Obligations.IntactStartUpKeepsRecords := by
  intro s p c kind start
  obtain ⟨marker, line, taken, intact⟩ : ∃ marker line, exec c s =
      .next (State.startUp { s with completionMarker := marker, resetLine := line } kind p) ∧ kind.lost = false := by
    obtain ⟨rfl, rfl, stopped, line, marker⟩ | ⟨rfl, kinds, held⟩ := start
    · refine ⟨false, s.resetLine, ?_, rfl⟩
      have judged : s.judgePower true = .powerIntact := by rw [State.judgePower, marker]; rfl
      have taken : execPowerOn true p s = .next (State.startUp { s with completionMarker := false } (s.judgePower true) p) := by
        unfold execPowerOn
        rw [if_pos stopped]
        dsimp only
        rw [line, if_neg Bool.false_ne_true]
      rw [← judged]
      exact taken
    · refine ⟨s.completionMarker, false, ?_, by obtain rfl | rfl := kinds <;> rfl⟩
      have taken : execResetReleased p s = .next (State.startUp { s with resetLine := false } kind p) := by
        unfold execResetReleased
        rw [held]
      exact taken
  obtain ⟨x, hx⟩ : ∃ x : State, x = { s with completionMarker := marker, resetLine := line } := ⟨_, rfl⟩
  rw [← hx] at taken
  obtain ⟨kilns, heat, rest, whole⟩ := startUp_intact x p intact
  obtain ⟨_, _, _, heats, each⟩ := keptRecords_rest x
  rw [whole] at taken
  obtain ⟨v, hv⟩ : ∃ v, v = x.recovered := ⟨_, rfl⟩
  rw [← hv] at taken
  rw [hx] at taken
  refine ⟨_, taken, rfl, rfl, rfl, rfl, rfl, rfl, rfl, rfl, rfl, rfl, rfl, rfl, rfl, rfl, rfl, rfl, rfl, rfl, rfl, rfl, rfl,
    fun k => ?_, fun k => ?_, fun queue notDue => ?_, fun table n l found => ?_⟩
  · have := heats k
    rw [rest, hx] at this
    exact this
  · have := each k
    rw [rest, hx] at this
    exact this
  · obtain ⟨⟨w, calm⟩, stackers⟩ := recovered_calm (s := x) (by rw [hx]; exact queue) (fun st => by rw [hx]; exact notDue st)
    have records : v.lots = s.lots ∧ v.labels = s.labels ∧ v.serial = s.serial ∧ v.redryNext = s.redryNext := by
      rw [hv, calm, rest, hx]
      exact ⟨rfl, rfl, rfl, rfl⟩
    obtain ⟨lots, labels, serial, next⟩ := records
    refine ⟨lots, labels, serial, next, fun st => ?_⟩
    have := stackers st
    rw [← hv, hx] at this
    exact this
  · have kept : TableSound x.keptRecords := by
      rw [rest, hx]
      exact (samePlaces_restarted s).kept.1 table
    have there : x.keptRecords.findLot n = some l := by
      rw [rest, hx]
      exact found
    have queue : x.keptRecords.queue = s.queue := by
      rw [rest, hx]
      rfl
    have lost := findLot_losses s.queue kept there
    have purged : x.keptRecords.purge.findLot n = some (s.queue.foldl
        (fun l b => if b.lot = n then l.loseBoard b.disposition b.footage b.mc b.verified else l) l) := by
      rw [State.purge, queue]
      exact lost
    have recovered := findLot_reexamineAll ((kept_purge x.keptRecords).1 kept) purged
    rw [show x.keptRecords.purge.reexamineAll = v from hv.symm] at recovered
    exact recovered

end

section
/-! The placement of a board, by what it calls for: what `State.place` answers in each case of `CloseNeed` (09, R152 to R156, R163). -/

namespace Sys2Proof.Machine

/-! ### What a board calls for (R153, R154) -/

theorem beforeReason_none {p : Pack} {b : Placing} (lot : p.lot = b.lot) (bin : p.bin = b.bin) (count : p.boards ≠ p.countLimit)
    (footage : p.footageLimit = 0 ∨ p.footage + b.footage ≤ p.footageLimit) : beforeReason p b = none := by
  unfold beforeReason
  rw [if_neg (not_not.2 lot), if_neg (not_not.2 bin), if_neg count, if_neg (by omega)]

theorem beforeReason_some {p : Pack} {b : Placing} {why : CloseReason}
    (h : p.lot ≠ b.lot ∧ why = .lotChange ∨ p.lot = b.lot ∧ p.bin ≠ b.bin ∧ why = .binChange ∨
      p.lot = b.lot ∧ p.bin = b.bin ∧ p.boards = p.countLimit ∧ why = .count ∨
      p.lot = b.lot ∧ p.bin = b.bin ∧ p.boards ≠ p.countLimit ∧ 0 < p.footageLimit ∧
        p.footageLimit < p.footage + b.footage ∧ why = .footage) : beforeReason p b = some why := by
  unfold beforeReason
  obtain ⟨lot, rfl⟩ | ⟨lot, bin, rfl⟩ | ⟨lot, bin, count, rfl⟩ | ⟨lot, bin, count, limited, beyond, rfl⟩ := h
  · rw [if_pos lot]
  · rw [if_neg (not_not.2 lot), if_pos bin]
  · rw [if_neg (not_not.2 lot), if_neg (not_not.2 bin), if_pos count]
  · rw [if_neg (not_not.2 lot), if_neg (not_not.2 bin), if_neg count, if_pos ⟨limited, beyond⟩]

section
variable {s : State} {st : StackerNo} {b : Placing}

theorem closeNeed_eq_before {p : Pack} {why : CloseReason} (opened : (s.stacker st).openPack = some p)
    (reason : beforeReason p b = some why) : s.closeNeed st b = .before p why := by
  unfold State.closeNeed
  rw [opened]
  dsimp only
  rw [reason]

theorem closeNeed_eq_afterJoin {p : Pack} (opened : (s.stacker st).openPack = some p) (reason : beforeReason p b = none)
    (full : p.boards + 1 = p.countLimit) : s.closeNeed st b = .afterJoin p := by
  unfold State.closeNeed
  rw [opened]
  dsimp only
  rw [reason]
  exact if_pos full

theorem closeNeed_eq_noneJoin {p : Pack} (opened : (s.stacker st).openPack = some p) (reason : beforeReason p b = none)
    (room : p.boards + 1 ≠ p.countLimit) : s.closeNeed st b = .noneJoin p := by
  unfold State.closeNeed
  rw [opened]
  dsimp only
  rw [reason]
  exact if_neg room

theorem closeNeed_eq_afterOpen (opened : (s.stacker st).openPack = none) (one : (s.stacker st).countLimit = 1) :
    s.closeNeed st b = .afterOpen := by
  unfold State.closeNeed
  rw [opened]
  exact if_pos one

theorem closeNeed_eq_noneOpen (opened : (s.stacker st).openPack = none) (room : (s.stacker st).countLimit ≠ 1) :
    s.closeNeed st b = .noneOpen := by
  unfold State.closeNeed
  rw [opened]
  exact if_neg room

/-! ### What the placement answers (R156) -/

theorem place_blocked (h : (s.stacker st).blocked.isSome = true) : s.place st b = (s, none) := if_pos h

variable (free : (s.stacker st).blocked = none)
include free

theorem place_fails {why : BlockReason} (judged : s.needJudged st b (s.closeNeed st b) = .fails why) :
    s.place st b = (s.blockStacker st why, none) := by
  unfold State.place
  rw [free, if_neg (by simp), judged]

theorem place_noneOpen (opened : (s.stacker st).openPack = none) (room : (s.stacker st).countLimit ≠ 1) :
    s.place st b = (s.numberGiven.standOpen st (s.openedPack st b), some (s.openedPack st b).number) := by
  unfold State.place
  rw [free, if_neg (by simp), closeNeed_eq_noneOpen opened room]
  rfl

theorem place_noneJoin {p : Pack} (opened : (s.stacker st).openPack = some p) (reason : beforeReason p b = none)
    (room : p.boards + 1 ≠ p.countLimit) :
    s.place st b = (s.standOpen st (p.addBoard b.footage b.mc b.verified), some p.number) := by
  unfold State.place
  rw [free, if_neg (by simp), closeNeed_eq_noneJoin opened reason room]
  rfl

theorem place_afterOpen {n : Option Nat} (need : s.closeNeed st b = .afterOpen)
    (judged : s.needJudged st b (s.closeNeed st b) = .granted n) :
    s.place st b = (s.numberGiven.makeClose st (s.openedPack st b) .count n, some (s.openedPack st b).number) := by
  unfold State.place
  rw [free, if_neg (by simp), judged, need]

theorem place_afterJoin {p : Pack} {n : Option Nat} (need : s.closeNeed st b = .afterJoin p)
    (judged : s.needJudged st b (s.closeNeed st b) = .granted n) :
    s.place st b = (s.makeClose st (p.addBoard b.footage b.mc b.verified) .count n, some p.number) := by
  unfold State.place
  rw [free, if_neg (by simp), judged, need]

theorem place_before {p : Pack} {why : CloseReason} {n : Option Nat} (need : s.closeNeed st b = .before p why)
    (judged : s.needJudged st b (s.closeNeed st b) = .granted n) :
    s.place st b = (if p.outstanding = 0 then (s.closedAndOpened st p why n b).complete st ⟨p, why, s.minute, n⟩
      else s.closedAndOpened st p why n b, some ((s.makeClose st p why n).openedPack st b).number) := by
  unfold State.place
  rw [free, if_neg (by simp), judged, need]
  rfl

end

/-! ### The pack opened beside one just closed (R152) -/

/-- A pack that closes keeps its number standing. -/
theorem makeClose_holds {s : State} {st : StackerNo} {p : Pack} (opened : (s.stacker st).openPack = some p)
    (prior : (s.stacker st).closing = none) (why : CloseReason) (n : Option Nat) (j : StackerNo) (m : Nat) :
    ((s.makeClose st p why n).stacker j).Holds m ↔ (s.stacker j).Holds m := by
  obtain rfl | ne := eq_or_ne j st
  · rw [makeClose_stacker]
    simp [Stacker.Holds, opened, prior]
  · have other : (s.makeClose st p why n).stacker j = s.stacker j := by
      unfold State.makeClose
      cases n <;> exact State.stacker_setStacker_other _ _ ne
    rw [other]

theorem makeClose_openedPack {s : State} {st : StackerNo} {p : Pack} (opened : (s.stacker st).openPack = some p)
    (prior : (s.stacker st).closing = none) (why : CloseReason) (n : Option Nat) (b : Placing) :
    (s.makeClose st p why n).freePackNumber = s.freePackNumber ∧
      (s.makeClose st p why n).openedPack st b = s.openedPack st b := by
  have taken : (s.makeClose st p why n).packNumberTaken = s.packNumberTaken := by
    funext m
    rw [Bool.eq_iff_iff, packNumberTaken_iff, packNumberTaken_iff]
    simp only [makeClose_holds opened prior]
  have next : (s.makeClose st p why n).nextPack = s.nextPack := by cases n <;> rfl
  have minute : (s.makeClose st p why n).minute = s.minute := by cases n <;> rfl
  have number : (s.makeClose st p why n).freePackNumber = s.freePackNumber := by
    unfold State.freePackNumber
    rw [taken, next]
  refine ⟨number, ?_⟩
  unfold State.openedPack
  rw [number, makeClose_stacker, minute]

theorem addBoard_bin (p : Pack) (ft mc : Nat) (v : Bool) : (p.addBoard ft mc v).bin = p.bin := by cases v <;> rfl

theorem closedAndOpened_eq {s : State} {st : StackerNo} {p : Pack} (opened : (s.stacker st).openPack = some p)
    (prior : (s.stacker st).closing = none) (why : CloseReason) (n : Option Nat) (b : Placing) :
    s.closedAndOpened st p why n b = State.setStacker
      { s.numberGiven with redryNext := (n.map (following s.redryFirst s.redryLast)).getD s.redryNext } st
      { s.stacker st with
        openPack := some (s.openedPack st b), closing := some ⟨p, why, s.minute, n⟩, idleMinutes := 0, idleDue := false } := by
  obtain ⟨same_number, same_pack⟩ := makeClose_openedPack opened prior why n b
  have given : (s.makeClose st p why n).numberGiven =
      { s.makeClose st p why n with nextPack := following 1 65535 s.freePackNumber } := by
    unfold State.numberGiven
    rw [same_number]
  have stacker : (s.makeClose st p why n).numberGiven.stacker st = _ := makeClose_stacker ..
  unfold State.closedAndOpened State.standOpen
  rw [stacker, given, same_pack]
  cases n with
  | none => exact setStacker_setStacker s.numberGiven st _ _
  | some m => exact setStacker_setStacker { s.numberGiven with redryNext := following s.redryFirst s.redryLast m } st _ _

theorem openedPack_bin (s : State) (st : StackerNo) (b : Placing) : (s.openedPack st b).bin = b.bin := addBoard_bin ..

end Sys2Proof.Machine

open Sys2Proof Sys2Proof.Machine

/-- Settles O50: the placement by what the board calls for, its close by `judgeClose_grants` and `judgeClose_fails`. -/
theorem placementOpensAndCloses : Obligations.PlacementOpensAndCloses := by
  intro s st b m fresh opening hm hfresh hopening
  have fresh_eq : fresh = s.openedPack st b := by
    rw [hfresh, hm]
    rfl
  have opening_eq : opening s = s.numberGiven := by
    rw [hopening, hm]
    rfl
  have number : (s.openedPack st b).number = m := (openedPack_number s st b).1.trans hm.symm
  refine ⟨fun lo hi => ?_, place_blocked, fun free opened room => ?_, fun p free opened lot bin count room footage => ?_,
    fun closing reason after given kind free => ?_⟩
  · rw [hm]
    exact ⟨(freePackNumber_range s lo hi).1, (freePackNumber_range s lo hi).2, not_holds_freePackNumber s⟩
  · rw [place_noneOpen free opened room, number, opening_eq, fresh_eq]
    rfl
  · rw [place_noneJoin free opened (beforeReason_none lot bin count footage) room]
    rfl
  have judged : s.needJudged st b (s.closeNeed st b) = s.judgeClose st closing.isRedry := by
    obtain ⟨opened, one, rfl, rfl, rfl, rfl⟩ | ⟨p, opened, lot, bin, count, full, footage, rfl, rfl, rfl, rfl⟩ |
      ⟨opened, rfl, rfl, why⟩ := kind
    · rw [closeNeed_eq_afterOpen opened one, fresh_eq]
      exact congrArg (fun n => s.judgeClose st (n == redryBin)) (openedPack_bin s st b).symm
    · rw [closeNeed_eq_afterJoin opened (beforeReason_none lot bin count footage) full]
      exact congrArg (fun n => s.judgeClose st (n == redryBin)) (addBoard_bin ..).symm
    · rw [closeNeed_eq_before opened (beforeReason_some why)]
      rfl
  refine ⟨fun redry u prior label slot hu => ?_, fun why short => ?_⟩
  · have granted : s.needJudged st b (s.closeNeed st b) = .granted redry := judged.trans (judgeClose_grants prior label
      (slot.imp (And.imp_left (isRedry_false_iff closing).2) (And.imp_left (isRedry_iff closing).2)))
    obtain ⟨opened, one, rfl, rfl, rfl, rfl⟩ | ⟨p, opened, lot, bin, count, full, footage, rfl, rfl, rfl, rfl⟩ |
      ⟨opened, rfl, rfl, why⟩ := kind
    · rw [place_afterOpen free (closeNeed_eq_afterOpen opened one) granted, number, if_neg (by simp), hu, opened, opening_eq, fresh_eq]
      cases redry <;> rfl
    · rw [place_afterJoin free (closeNeed_eq_afterJoin opened (beforeReason_none lot bin count footage) full) granted,
        if_neg (by simp), hu, opened]
      cases redry <;> rfl
    · obtain ⟨same_number, same_pack⟩ := makeClose_openedPack opened prior reason redry b
      have closed : s.closedAndOpened st closing reason redry b = u := by
        rw [closedAndOpened_eq opened prior, hu, opening_eq, fresh_eq, opened]
        cases redry <;> rfl
      rw [place_before free (closeNeed_eq_before opened (beforeReason_some why)) granted, closed, same_pack, number]
      simp only [true_and]
  · refine place_fails free (judged.trans (judgeClose_fails ?_))
    simpa only [isRedry_iff] using short

end

section
/-! MEASURE in its parts: the refusals, the figures, the decision, and what the counting of a board does to queue, pack and lot
(08, R131 to R140; 01, R10 to R13). -/

namespace Sys2Proof.Machine

/-! ### The refusals of a MEASURE (R131) -/

theorem measurable_iff (st : LotState) : st.measurable = true ↔ st = .dried ∨ st = .planing ∨ ∃ h, st = .held h := by
  cases st <;> simp [LotState.measurable]

theorem isFull_iff (l : LotRecord) (ft : Nat) :
    l.isFull ft = true ↔ 999999 ≤ l.measured.boards ∨ 9999999999 < l.measured.footage + ft := by
  simp only [LotRecord.isFull, Bool.or_eq_true, decide_eq_true_eq]
  rfl

section
variable {s : State} {q : MeasureBody} {bin : BinNo} {ov : Bool} (hbin : placeOf 16 q.bin = some bin) (hov : q.overRange = some ov)
  (hlot : q.lot ≠ 0)
include hbin hov hlot

theorem takeMeasure_lineHeld (line : s.lineHeld = true) : takeMeasure q s = (s, ⟨.wrongState, u8 1 ++ u8 0xFF⟩) := by
  unfold takeMeasure
  rw [hbin, hov]
  dsimp only
  rw [if_neg hlot, if_pos line]

variable (line : s.lineHeld = false)
include line

theorem takeMeasure_queueFull (shadow : s.shadow = false) (full : 48 ≤ s.queue.length) : takeMeasure q s = (s, .refuse .queueFull) := by
  have no_room : (!s.shadow && decide (Config.queueSlots ≤ s.queue.length)) = true := by
    rw [shadow, decide_eq_true (show Config.queueSlots ≤ s.queue.length from full)]
    rfl
  unfold takeMeasure
  rw [hbin, hov]
  dsimp only
  rw [if_neg hlot, line, if_neg Bool.false_ne_true, if_pos no_room]

variable (room : s.shadow = true ∨ s.queue.length < 48)
include room

theorem takeMeasure_lot : takeMeasure q s = match s.findLot q.lot with
    | none => (s, .refuse .noSuchLot)
    | some l =>
      if !l.state.measurable then (s, ⟨.wrongState, u8 2 ++ u8 l.state.code⟩)
      else if !s.shadow && l.isFull (boardFootage q.thickness q.width q.length) then (s, .refuse .lotFull)
      else measureBoard q ov bin l s := by
  have has_room : ¬(!s.shadow && decide (Config.queueSlots ≤ s.queue.length)) = true := by
    rw [Bool.and_eq_true, decide_eq_true_eq]
    rintro ⟨counted, full⟩
    obtain shadow | short := room
    · rw [shadow] at counted
      cases counted
    · exact absurd short (Nat.not_lt.2 full)
  unfold takeMeasure
  rw [hbin, hov]
  dsimp only
  exact (if_neg hlot).trans ((if_neg (by rw [line]; exact Bool.false_ne_true)).trans (if_neg has_room))

variable {l : LotRecord} (found : s.findLot q.lot = some l)
include found

theorem takeMeasure_lotState (other : l.state.measurable = false) : takeMeasure q s = (s, ⟨.wrongState, u8 2 ++ u8 l.state.code⟩) := by
  rw [takeMeasure_lot hbin hov hlot line room, found]
  dsimp only
  rw [other]
  rfl

theorem takeMeasure_lotFull (measurable : l.state.measurable = true) (shadow : s.shadow = false)
    (full : l.isFull (boardFootage q.thickness q.width q.length) = true) : takeMeasure q s = (s, .refuse .lotFull) := by
  rw [takeMeasure_lot hbin hov hlot line room, found]
  dsimp only
  rw [measurable, shadow, full]
  rfl

theorem takeMeasure_accepted (measurable : l.state.measurable = true)
    (fits : s.shadow = true ∨ l.isFull (boardFootage q.thickness q.width q.length) = false) :
    takeMeasure q s = measureBoard q ov bin l s := by
  have has_room : (!s.shadow && l.isFull (boardFootage q.thickness q.width q.length)) = false := by
    obtain shadow | short := fits
    · rw [shadow]
      rfl
    · rw [short, Bool.and_false]
  rw [takeMeasure_lot hbin hov hlot line room, found]
  dsimp only
  rw [measurable, has_room]
  rfl

end

/-! ### The figures and the decision (R132 to R136) -/

theorem verifiedAt_eq (t : Int) : verifiedAt t = decide (0 ≤ t) := by
  refine decide_eq_decide.2 ?_
  unfold clampTemp clampInt
  omega

theorem passesUnverified_iff (l : LotRecord) : l.passesUnverified = true ↔
    ∃ r m, l.kilnResult = some r ∧ r.aborted = false ∧ r.finalCmc = some m ∧ m ≤ l.targetMc + l.tolerance := by
  unfold LotRecord.passesUnverified LotRecord.dryLimit
  cases l.kilnResult with
  | none => simp
  | some r => cases hm : r.finalCmc <;> simp [hm]

/-- A board taken as dry, by its own figure or by its lot's kiln result (R134, R135). -/
def LotRecord.takesAsDry (l : LotRecord) (r : Reading) : Prop :=
  r.verified = true ∧ r.mc ≤ l.dryLimit ∨ r.verified = false ∧ l.passesUnverified = true

theorem takesAsDry_iff (l : LotRecord) {r : Reading} {tp : Int} (verified : r.verified = decide (0 ≤ tp)) :
    l.takesAsDry r ↔ if 0 ≤ tp then r.mc ≤ l.targetMc + l.tolerance
      else ∃ k m, l.kilnResult = some k ∧ k.aborted = false ∧ k.finalCmc = some m ∧ m ≤ l.targetMc + l.tolerance := by
  unfold LotRecord.takesAsDry
  rw [verified]
  by_cases warm : 0 ≤ tp
  · rw [if_pos warm, decide_eq_true warm]
    simp [LotRecord.dryLimit]
  · rw [if_neg warm, decide_eq_false warm, passesUnverified_iff]
    simp

section
variable {s : State} {l : LotRecord} {r : Reading} {bin : BinNo}

theorem decideBoard_held (h : ∃ h, l.state = .held h) : s.decideBoard l r bin = ⟨bin, holdBack .lotHeld⟩ := by
  obtain ⟨h, state⟩ := h
  unfold State.decideBoard
  rw [state]
  rfl

variable (free : ∀ h, l.state ≠ .held h)
include free

theorem hold_none : l.state.hold? = none := by
  cases state : l.state with
  | held h => exact absurd state (free h)
  | waiting | inKiln | dried | planing | closed => rfl

theorem decideBoard_reject (h : r.fault = true ∨ bin = 15) : s.decideBoard l r bin = ⟨bin, .aside .reject .reject none⟩ := by
  unfold State.decideBoard
  rw [hold_none free, if_neg (by simp), if_pos (by simpa using h)]

variable (fault : r.fault = false) (sound : bin ≠ 15)
include fault sound

theorem decideBoard_sound : s.decideBoard l r bin =
    if !r.verified then (if l.passesUnverified then ⟨bin, s.routePass bin⟩ else ⟨bin, holdBack .unverified⟩)
    else if l.dryLimit < r.mc then ⟨redryBin, s.routeBin .redry redryBin⟩ else ⟨bin, s.routePass bin⟩ := by
  unfold State.decideBoard
  rw [hold_none free, if_neg (by simp), if_neg (by simp [fault, sound])]

theorem decideBoard_dry (dry : l.takesAsDry r) : s.decideBoard l r bin = ⟨bin, s.routePass bin⟩ := by
  rw [decideBoard_sound free fault sound]
  obtain ⟨verified, below⟩ | ⟨unverified, passes⟩ := dry
  · rw [verified, if_neg (by simp), if_neg (by omega)]
  · rw [unverified, if_pos (by simp), if_pos passes]

theorem decideBoard_wet (wet : ¬l.takesAsDry r) (verified : r.verified = true) :
    s.decideBoard l r bin = ⟨redryBin, s.routeBin .redry redryBin⟩ := by
  have above : l.dryLimit < r.mc := Nat.lt_of_not_le fun below => wet (.inl ⟨verified, below⟩)
  rw [decideBoard_sound free fault sound, verified, if_neg (by simp), if_pos above]

theorem decideBoard_unverified (wet : ¬l.takesAsDry r) (unverified : r.verified = false) :
    s.decideBoard l r bin = ⟨bin, holdBack .unverified⟩ := by
  rw [decideBoard_sound free fault sound, unverified, if_pos (by simp), if_neg fun passes => wet (.inr ⟨unverified, passes⟩)]

end

/-! ### What the counting of a board does (R138; 01, R10 to R13) -/

theorem afterBoard_of_ne (l : LotRecord) {d : Disposition} (ft mc : Nat) (v : Bool) (h : d ≠ .redry) :
    l.afterBoard d ft mc v = (l.count d ft mc v).withState (planingBegun l.state) := by
  unfold LotRecord.afterBoard
  dsimp only
  rw [if_neg fun both => h both.1, count_eq]

/-- A board rejected or held back adds to the measured pair and to its own. -/
theorem afterBoard_aside (l : LotRecord) {d : Disposition} (ft mc : Nat) (v : Bool) (h : d = .reject ∨ d = .holdback) :
    l.afterBoard d ft mc v = { l with
      measured := ⟨l.measured.boards + 1, l.measured.footage + ft⟩
      rejected := if d = .reject then ⟨l.rejected.boards + 1, l.rejected.footage + ft⟩ else l.rejected
      heldBack := if d = .holdback then ⟨l.heldBack.boards + 1, l.heldBack.footage + ft⟩ else l.heldBack
      state := planingBegun l.state } := by
  obtain rfl | rfl := h
  · rw [afterBoard_of_ne l ft mc v (by decide), count_eq]
    rfl
  · rw [afterBoard_of_ne l ft mc v (by decide), count_eq]
    rfl

/-- In a lot that is DRIED or PLANING, LOT_HELD is raised exactly when the board counted leaves the lot held. -/
theorem heldByBoard_iff {l : LotRecord} (h : l.state = .dried ∨ l.state = .planing) (d : Disposition) (ft mc : Nat) (v : Bool) :
    l.heldByBoard d ft mc v = true ↔ (l.afterBoard d ft mc v).state = .held (.redry .planing) := by
  have begun : planingBegun (l.count d ft mc v).state = .planing := by
    rw [count_eq]
    obtain h | h := h <;> rw [h] <;> rfl
  unfold LotRecord.heldByBoard LotRecord.afterBoard
  dsimp only
  rw [begun, Bool.and_eq_true, beq_iff_eq]
  split
  next holds => exact ⟨fun _ => rfl, fun _ => holds⟩
  next stays => exact ⟨fun holds => absurd holds stays, fun state => by cases state⟩

theorem countBoard_of_ne (s : State) (l : LotRecord) {p : Placed} (r : Reading) (h : p.disposition ≠ .redry) :
    s.countBoard l p r = s.modifyLot l.number fun x => x.afterBoard p.disposition r.footage r.mc r.verified := by
  have quiet : l.heldByBoard p.disposition r.footage r.mc r.verified = false := by
    unfold LotRecord.heldByBoard
    rw [beq_eq_false_iff_ne.2 h]
    rfl
  unfold State.countBoard
  rw [quiet]
  rfl

theorem countBoard_eq (s : State) {l : LotRecord} (p : Placed) (r : Reading) (h : l.state = .dried ∨ l.state = .planing) :
    s.countBoard l p r =
      if (l.afterBoard p.disposition r.footage r.mc r.verified).state = .held (.redry .planing) then
        (s.modifyLot l.number fun x => x.afterBoard p.disposition r.footage r.mc r.verified).raiseLotHeld
      else s.modifyLot l.number fun x => x.afterBoard p.disposition r.footage r.mc r.verified := by
  unfold State.countBoard
  simp only [heldByBoard_iff h]

/-! ### A MEASURE carried out, and one in shadow mode (R138 to R140) -/

theorem measureBoard_counted {s : State} (q : MeasureBody) (ov : Bool) {bin : BinNo} {l : LotRecord} {r : Reading} {d : Decision}
    {c : State × Placed} (shadow : s.shadow = false) (reading : readingOf q ov (s.speciesAt l.species) = r)
    (decided : s.decideBoard l r bin = d)
    (carried : s.carryOut ⟨l.number, d.bin, r.footage, r.mc, r.verified⟩ d.route = c) : measureBoard q ov bin l s =
      ((c.1.joinQueue (boardOf q ov s.freeSeq d.bin r c.2 s.minute)).countBoard l c.2 r,
        .done (measureBytes s.freeSeq c.2 r false)) := by
  unfold measureBoard
  rw [shadow, if_neg Bool.false_ne_true, reading, decided, carried]
  rfl

theorem measureBoard_shadow {s : State} (q : MeasureBody) (ov : Bool) {bin : BinNo} {l : LotRecord} {r : Reading} {d : Decision}
    (shadow : s.shadow = true) (reading : readingOf q ov (s.speciesAt l.species) = r) (decided : s.decideBoard l r bin = d) :
    measureBoard q ov bin l s =
      (s, .done (measureBytes 0 (s.judgeRoute ⟨l.number, d.bin, r.footage, r.mc, r.verified⟩ d.route) r true)) := by
  unfold measureBoard
  rw [shadow, if_pos rfl, reading, decided]

/-- The figures of a board of a lot whose species has a record. -/
theorem readingOf_eq {n th w len raw : Nat} {bin : Nat} {ov : Bool} {tp : Int} {sp : Species} {ft mc : Nat}
    (hft : ft = boardFootage th w len) (hmc : mc = correctedMc raw ov tp sp.fs sp.kt) :
    readingOf ⟨n, th, w, len, bin, raw, some ov, tp⟩ ov (some sp) =
      ⟨clampThickness th, clampWidth w, clampLength len, ft, dimensionFault th w len, clampTemp tp, mc, decide (0 ≤ tp)⟩ := by
  rw [hft, hmc, ← verifiedAt_eq]
  rfl

/-- A board that goes to no stacker joins the queue without a pack. -/
theorem measureBoard_aside {s : State} (q : MeasureBody) (ov : Bool) {bin recorded : BinNo} {l : LotRecord} {r : Reading}
    {d : Disposition} {dest : Destination} {why : Option HoldCause} (shadow : s.shadow = false)
    (reading : readingOf q ov (s.speciesAt l.species) = r)
    (decided : s.decideBoard l r bin = ⟨recorded, .aside d dest why⟩) (other : d ≠ .redry) : measureBoard q ov bin l s =
      (State.modifyLot
        { s with
          queue := s.queue ++ [boardOf q ov s.freeSeq recorded r ⟨d, dest, none, why⟩ s.minute]
          nextSeq := following 1 65535 s.freeSeq } l.number fun x => x.afterBoard d r.footage r.mc r.verified,
        .done (measureBytes s.freeSeq ⟨d, dest, none, why⟩ r false)) := by
  rw [measureBoard_counted q ov shadow reading decided rfl]
  exact congrArg (·, _) (countBoard_of_ne _ l (p := ⟨d, dest, none, why⟩) r other)

/-- The bytes answered for a board without a pack. -/
theorem measureBytes_none (seq : Nat) (d : Disposition) (dest : Destination) (why : Option HoldCause) (r : Reading) :
    measureBytes seq ⟨d, dest, none, why⟩ r false = u16 seq ++ [byteOf d.code, byteOf dest.code, 0, 0] ++ u16 r.mc ++
      mark r.verified ++ [0, byteOf (HoldCause.code why)] := by
  unfold measureBytes
  simp only [List.append_assoc, u8, Option.getD_none, List.cons_append, List.nil_append]
  rfl

theorem measureBytes_placed (seq : Nat) (d : Disposition) (st : StackerNo) (m : Nat) (r : Reading) :
    measureBytes seq ⟨d, .stacker st, some m, none⟩ r false = u16 seq ++ [byteOf d.code, byteOf st] ++ u16 m ++ u16 r.mc ++
      mark r.verified ++ [0, 0] := by
  unfold measureBytes
  simp only [List.append_assoc, u8, Option.getD_some, List.cons_append, List.nil_append]
  rfl

theorem routePass_redryBin (s : State) {bin : BinNo} (h : bin = 14) : s.routePass bin = holdBack .notGradeBin := if_pos h

theorem routePass_of_ne (s : State) {bin : BinNo} (h : bin ≠ 14) : s.routePass bin = s.routeBin .pass bin := if_neg h

/-! ### A MEASURE heard -/

section
variable {s : State} {f : Request} {n th w len raw : Nat} {bin : BinNo} {ov : Bool} {tp : Int} (hl : Heard s f .planer)
  (hn : n ≤ 65535) (hth : th ≤ 255) (hw : w ≤ 255) (hlen : len ≤ 255) (hraw : raw ≤ 65535) (t0 : -128 ≤ tp) (t1 : tp ≤ 127)
  (hf : f.body = u16 n ++ u8 th ++ u8 w ++ u8 len ++ u8 bin ++ u16 raw ++ mark ov ++ i8 tp)
include hl hn hth hw hlen hraw t0 t1 hf

theorem measure_heard {t : State} {r : Reply} (h : takeMeasure ⟨n, th, w, len, bin, raw, some ov, tp⟩ s = (t, r)) :
    exec (.measure f) s = .next (t.answer 0x50 f r) :=
  serve_body hl hf rfl (readMeasure_bytes ov hn hth hw hlen (place_le bin (by decide)) hraw t0 t1) (Nat.le_of_ble_eq_true rfl) h

theorem measure_accepted (one : 1 ≤ n) (line : s.lineHeld = false) {l : LotRecord} (found : s.findLot n = some l)
    (states : l.state = .dried ∨ l.state = .planing ∨ ∃ h, l.state = .held h)
    (room : s.shadow = true ∨
      s.queue.length < 48 ∧ l.measured.boards < 999999 ∧ l.measured.footage + boardFootage th w len ≤ 9999999999)
    {t : State} {r : Reply} (h : measureBoard ⟨n, th, w, len, bin, raw, some ov, tp⟩ ov bin l s = (t, r)) :
    exec (.measure f) s = .next (t.answer 0x50 f r) := by
  have fits (less : l.measured.boards < 999999 ∧ l.measured.footage + boardFootage th w len ≤ 9999999999) :
      l.isFull (boardFootage th w len) = false := Bool.eq_false_iff.2 fun full => by
    have := (isFull_iff l _).1 full
    omega
  refine measure_heard hl hn hth hw hlen hraw t0 t1 hf (Eq.trans ?_ h)
  exact takeMeasure_accepted (placeOf_val bin) rfl (show n ≠ 0 by omega) line (room.imp_right And.left) found
    ((measurable_iff _).2 states) (room.imp_right fun less => fits less.2)

end

end Sys2Proof.Machine

open Sys2Proof Sys2Proof.Machine

/-- Settles O48: the decision by the lemmas on `State.decideBoard`, the counting by `measureBoard_aside`. -/
theorem measureSendsAside : Obligations.MeasureSendsAside := by
  intro s f n th w len raw bin recorded ov tp l sp ft mc d dest cause dry hl one hn hth hw hlen hraw t0 t1 hf line shadow room found
    states species boards hft hmc footage hdry kind
  obtain ⟨r, hr⟩ : ∃ r : Reading,
      r = ⟨clampThickness th, clampWidth w, clampLength len, ft, dimensionFault th w len, clampTemp tp, mc, decide (0 ≤ tp)⟩ := ⟨_, rfl⟩
  have reading : readingOf ⟨n, th, w, len, bin, raw, some ov, tp⟩ ov (s.speciesAt l.species) = r := by
    rw [species, hr, readingOf_eq hft hmc]
  have verified : r.verified = decide (0 ≤ tp) := by rw [hr]
  have dry_iff : l.takesAsDry r ↔ dry := by
    rw [takesAsDry_iff l verified, hdry, hr]
  have fault : r.fault = dimensionFault th w len := by rw [hr]
  obtain ⟨why, decided, hcause, aside⟩ : ∃ why, s.decideBoard l r bin = ⟨recorded, .aside d dest why⟩ ∧
      cause = HoldCause.code why ∧ (d = .reject ∨ d = .holdback) := by
    obtain ⟨held, rfl, rfl, rfl, rfl⟩ | ⟨free, reject, rfl, rfl, rfl, rfl⟩ | ⟨free, sound, grade, goes⟩ := kind
    · exact ⟨_, decideBoard_held held, rfl, .inr rfl⟩
    · exact ⟨_, decideBoard_reject free (fault ▸ reject), rfl, .inl rfl⟩
    rw [← fault] at sound
    obtain ⟨cold, wet, rfl, rfl, rfl, rfl⟩ | ⟨is_dry, bin14, rfl, rfl, rfl, rfl⟩ | ⟨is_dry, other, map, rfl, rfl, rfl, rfl⟩ |
      ⟨is_dry, other, map, rfl, rfl, rfl, rfl⟩ | ⟨warm, wet, map, rfl, rfl, rfl, rfl⟩ := goes
    · exact ⟨_, decideBoard_unverified free sound grade (fun h => wet (dry_iff.1 h)) (by rw [verified]; simpa using cold), rfl, .inr rfl⟩
    · refine ⟨some .notGradeBin, ?_, rfl, .inr rfl⟩
      rw [decideBoard_dry free sound grade (dry_iff.2 is_dry), routePass_redryBin s bin14]
      rfl
    · refine ⟨none, ?_, rfl, .inl rfl⟩
      rw [decideBoard_dry free sound grade (dry_iff.2 is_dry), routePass_of_ne s other, State.routeBin, map]
    · refine ⟨some .unmapped, ?_, rfl, .inr rfl⟩
      rw [decideBoard_dry free sound grade (dry_iff.2 is_dry), routePass_of_ne s other, State.routeBin, map]
      rfl
    · refine ⟨some .unmapped, ?_, rfl, .inr rfl⟩
      rw [decideBoard_wet free sound grade (fun h => wet (dry_iff.1 h)) (by rw [verified]; simpa using warm), State.routeBin,
        show s.binMap[redryBin] = .unmapped from map]
      rfl
  have counted := measureBoard_aside ⟨n, th, w, len, bin, raw, some ov, tp⟩ ov shadow reading decided
    (by obtain rfl | rfl := aside <;> decide)
  refine (measure_accepted hl hn hth hw hlen hraw t0 t1 hf one line found states (.inr ⟨room, boards, hft ▸ footage⟩) counted).trans ?_
  rw [hcause, findLot_number found, measureBytes_none, hr]
  simp only [afterBoard_aside _ _ _ _ aside]
  rfl

end

section
/-! MEASURE of a board that goes to a stacker: placed and counted outstanding, or turned away (08, R134 to R139; 09, R156). -/

namespace Sys2Proof.Machine

/-- The part with a board placed: the board queued, counted outstanding by its pack, and counted by its lot. -/
def State.withPlaced (u s : State) (board : Board) (st : StackerNo) (m : Nat) (d : Disposition) : State :=
  (State.onPack { u with queue := s.queue ++ [board], nextSeq := following 1 65535 board.seq } st m fun p =>
    { p with outstanding := p.outstanding + 1 }).modifyLot board.lot fun x => x.afterBoard d board.footage board.mc board.verified

section
variable {s u : State} (q : MeasureBody) (ov : Bool) {bin routed : BinNo} {l : LotRecord} {r : Reading} {d : Disposition}
  {st : StackerNo} (shadow : s.shadow = false) (reading : readingOf q ov (s.speciesAt l.species) = r)
  (decided : s.decideBoard l r bin = ⟨routed, .stacker d st⟩)
include shadow reading decided

theorem measureBoard_placed {m : Nat} (lot : q.lot = l.number) (states : l.state = .dried ∨ l.state = .planing)
    (placed : s.place st ⟨l.number, routed, r.footage, r.mc, r.verified⟩ = (u, some m)) : measureBoard q ov bin l s =
      (let v := u.withPlaced s (boardOf q ov s.freeSeq routed r ⟨d, .stacker st, some m, none⟩ s.minute) st m d
        if (l.afterBoard d r.footage r.mc r.verified).state = .held (.redry .planing) then v.raiseLotHeld else v,
        .done (measureBytes s.freeSeq ⟨d, .stacker st, some m, none⟩ r false)) := by
  have carried : s.carryOut ⟨l.number, routed, r.footage, r.mc, r.verified⟩ (.stacker d st) =
      (u, ⟨d, .stacker st, some m, none⟩) := by
    unfold State.carryOut
    dsimp only
    rw [placed]
  have queue : u.queue = s.queue := by
    have := place_queue s st ⟨l.number, routed, r.footage, r.mc, r.verified⟩
    rwa [placed] at this
  rw [measureBoard_counted q ov shadow reading decided carried, countBoard_eq _ _ _ states]
  unfold State.joinQueue boardOf State.withPlaced
  rw [lot, queue]

theorem measureBoard_turnedAway (placed : s.place st ⟨l.number, routed, r.footage, r.mc, r.verified⟩ = (u, none)) :
    measureBoard q ov bin l s = (State.modifyLot
        { u with
          queue := s.queue ++ [boardOf q ov s.freeSeq routed r turnedAway s.minute]
          nextSeq := following 1 65535 s.freeSeq } l.number fun x => x.afterBoard .holdback r.footage r.mc r.verified,
        .done (measureBytes s.freeSeq turnedAway r false)) := by
  have carried : s.carryOut ⟨l.number, routed, r.footage, r.mc, r.verified⟩ (.stacker d st) = (u, turnedAway) := by
    unfold State.carryOut
    dsimp only
    rw [placed]
  have queue : u.queue = s.queue := by
    have := place_queue s st ⟨l.number, routed, r.footage, r.mc, r.verified⟩
    rwa [placed] at this
  rw [measureBoard_counted q ov shadow reading decided carried, countBoard_of_ne _ _ _ (p := turnedAway) (by decide)]
  unfold State.joinQueue
  rw [queue]
  rfl

end

theorem onPack_open {s : State} {st : StackerNo} {p : Pack} (opened : (s.stacker st).openPack = some p) (f : Pack → Pack) :
    s.onPack st p.number f = s.setStacker st { s.stacker st with openPack := some (f p) } := by
  unfold State.onPack
  dsimp only
  rw [opened]
  cases (s.stacker st).closing <;> exact if_pos rfl

/-- The pack that a board has joined counts it outstanding. -/
theorem onPack_standOpen (s : State) (queue : List Board) (nextSeq : Nat) (st : StackerNo) {p : Pack} {n : Nat} (number : p.number = n)
    (f : Pack → Pack) : State.onPack { s.standOpen st p with queue := queue, nextSeq := nextSeq } st n f =
      State.setStacker { s with queue := queue, nextSeq := nextSeq } st
        { s.stacker st with openPack := some (f p), idleMinutes := 0, idleDue := false } := by
  have stacker : State.stacker { s.standOpen st p with queue := queue, nextSeq := nextSeq } st =
      { s.stacker st with openPack := some p, idleMinutes := 0, idleDue := false } := standOpen_stacker s st p
  have opened : (State.stacker { s.standOpen st p with queue := queue, nextSeq := nextSeq } st).openPack = some p := by rw [stacker]
  rw [← number, onPack_open opened, stacker]
  exact setStacker_setStacker { s with queue := queue, nextSeq := nextSeq } st _ _

/-- A verified PASS board counted (R13). -/
theorem afterBoard_pass (l : LotRecord) (ft mc : Nat) : l.afterBoard .pass ft mc true = { l with
    measured := ⟨l.measured.boards + 1, l.measured.footage + ft⟩
    passed := ⟨l.passed.boards + 1, l.passed.footage + ft⟩
    verifiedBoards := l.verifiedBoards + 1, verifiedMcSum := l.verifiedMcSum + mc
    state := planingBegun l.state } := by
  rw [afterBoard_of_ne l ft mc true (by decide), count_eq]
  rfl

end Sys2Proof.Machine

open Sys2Proof Sys2Proof.Machine

/-- Settles O49: the decision by the lemmas on `State.decideBoard`, the counting by `measureBoard_placed` and
`measureBoard_turnedAway`; in closed form the board joins the OPEN pack by `place_noneJoin`. -/
theorem measurePlacesOnStacker : Obligations.MeasurePlacesOnStacker := by
  refine have general := ?_; ⟨general, ?_⟩
  · intro s f n th w len raw bin routed ov tp l sp ft mc d dry st u v board hl one hn hth hw hlen hraw t0 t1 hf line shadow room found
      states species boards hft hmc footage sound grade hdry goes map hboard
    obtain ⟨r, hr⟩ : ∃ r : Reading,
        r = ⟨clampThickness th, clampWidth w, clampLength len, ft, dimensionFault th w len, clampTemp tp, mc, decide (0 ≤ tp)⟩ := ⟨_, rfl⟩
    have reading : readingOf ⟨n, th, w, len, bin, raw, some ov, tp⟩ ov (s.speciesAt l.species) = r := by
      rw [species, hr, readingOf_eq hft hmc]
    have verified : r.verified = decide (0 ≤ tp) := by rw [hr]
    have dry_iff : l.takesAsDry r ↔ dry := by
      rw [takesAsDry_iff l verified, hdry, hr]
    have fault : r.fault = false := by rw [hr]; exact sound
    have free h : l.state ≠ .held h := by obtain e | e := states <;> rw [e] <;> exact LotState.noConfusion
    have number : l.number = n := findLot_number found
    have decided : s.decideBoard l r bin = ⟨routed, .stacker d st⟩ := by
      obtain ⟨is_dry, rfl, other, rfl⟩ | ⟨warm, wet, rfl, rfl⟩ := goes
      · rw [decideBoard_dry free fault grade (dry_iff.2 is_dry), routePass_of_ne s other, State.routeBin, map]
      · rw [decideBoard_wet free fault grade (fun h => wet (dry_iff.1 h)) (by rw [verified]; simpa using warm), State.routeBin,
          show s.binMap[redryBin] = .stacker st from map]
        rfl
    have served {t : State} {reply : Reply} (h : measureBoard ⟨n, th, w, len, bin, raw, some ov, tp⟩ ov bin l s = (t, reply)) :
        exec (.measure f) s = .next (t.answer 0x50 f reply) :=
      measure_accepted hl hn hth hw hlen hraw t0 t1 hf one line found (states.imp_right .inl) (.inr ⟨room, boards, hft ▸ footage⟩) h
    refine ⟨fun m placed hv => ?_, fun placed => ?_⟩
    · rw [← number, show ft = r.footage by rw [hr], show mc = r.mc by rw [hr], ← verified] at placed
      refine (served (measureBoard_placed _ ov shadow reading decided number.symm states placed)).trans ?_
      rw [measureBytes_placed, hv, hboard, hr]
      rfl
    · rw [← number, show ft = r.footage by rw [hr], show mc = r.mc by rw [hr], ← verified] at placed
      refine (served (measureBoard_turnedAway _ ov shadow reading decided placed)).trans ?_
      rw [turnedAway, measureBytes_none, number, hboard, hr]
      simp only [afterBoard_aside _ _ _ _ (.inr rfl)]
      rfl
  · intro s f n th w len raw bin ov tp l sp st p ft mc hl one hn hth hw hlen hraw t0 t1 hf line shadow room found states species
      boards hft hmc footage sound grade warm dry map free opened lot same_bin count limit
    rw [verifiedAt_eq] at warm
    have verified : decide (0 ≤ tp) = true := warm
    have not14 : bin ≠ 14 := fun e => by rw [e] at grade; exact absurd grade (by decide)
    have not15 : bin ≠ 15 := fun e => by rw [e] at grade; exact absurd grade (by decide)
    have joined : s.place st ⟨n, bin, ft, mc, decide (0 ≤ tp)⟩ = (s.standOpen st (p.addBoard ft mc true), some p.number) := by
      rw [verified]
      exact place_noneJoin free opened (beforeReason_none lot same_bin (by omega) limit) (by omega)
    have is_dry : True ↔ if 0 ≤ tp then mc ≤ l.targetMc + l.tolerance
        else ∃ r m, l.kilnResult = some r ∧ r.aborted = false ∧ r.finalCmc = some m ∧ m ≤ l.targetMc + l.tolerance := by
      rw [if_pos (of_decide_eq_true verified)]
      exact (iff_true_left trivial).2 dry
    refine ((general s f n th w len raw bin bin ov tp l sp ft mc .pass True st _ _ _ hl one hn hth hw hlen hraw t0 t1 hf line shadow
      room found states species boards hft hmc footage sound not15 is_dry (.inl ⟨trivial, rfl, not14, rfl⟩) map rfl).1
        p.number joined rfl).trans ?_
    have stays : (l.afterBoard .pass ft mc true).state ≠ .held (.redry .planing) := by
      rw [afterBoard_state_of_ne l ft mc true (by decide)]
      obtain e | e := states <;> rw [e] <;> exact LotState.noConfusion
    rw [verified, if_neg stays]
    simp only [afterBoard_pass]
    rw [onPack_standOpen s _ _ st (addBoard_kept p ft mc true).1]
    rfl

end

section
/-! Line hold and shadow mode: the four settings, the refusals of a MEASURE in order, and a shadow MEASURE beside the counted one
(08, R129 to R132, R140; 09, R157). -/

namespace Sys2Proof.Machine

/-- A placement would hold the board back exactly when it does (09, R157). -/
theorem wouldHoldBack_iff (s : State) (st : StackerNo) (b : Placing) : s.wouldHoldBack st b = true ↔ (s.place st b).2 = none := by
  unfold State.wouldHoldBack State.place
  cases blocked : (s.stacker st).blocked.isSome with
  | true => simp
  | false =>
    rw [if_neg Bool.false_ne_true, Bool.false_or]
    cases judged : s.needJudged st b (s.closeNeed st b) with
    | fails why => simp
    | granted n => cases s.closeNeed st b <;> simp

/-- The final disposition, destination and hold cause of a route (R137, R140). -/
def State.outcomeOf (s : State) (b : Placing) : Route → Disposition × Destination × Option HoldCause
  | .aside d dest cause => (d, dest, cause)
  | .stacker d st => if (s.place st b).2 = none then (.holdback, .holdback, some .stackerBlocked) else (d, .stacker st, none)

/-- A shadow MEASURE has no pack. -/
theorem judgeRoute_eq (s : State) (b : Placing) (route : Route) : s.judgeRoute b route =
    ⟨(s.outcomeOf b route).1, (s.outcomeOf b route).2.1, none, (s.outcomeOf b route).2.2⟩ := by
  cases route with
  | aside d dest cause => rfl
  | stacker d st =>
    unfold State.judgeRoute State.outcomeOf
    dsimp only
    by_cases h : (s.place st b).2 = none
    · rw [if_pos h, if_pos ((wouldHoldBack_iff s st b).2 h)]
      rfl
    · rw [if_neg h, if_neg fun g => h ((wouldHoldBack_iff s st b).1 g)]

theorem carryOut_eq (s : State) (b : Placing) (route : Route) : ∃ pack, (s.carryOut b route).2 =
    ⟨(s.outcomeOf b route).1, (s.outcomeOf b route).2.1, pack, (s.outcomeOf b route).2.2⟩ := by
  cases route with
  | aside d dest cause => exact ⟨none, rfl⟩
  | stacker d st =>
    unfold State.carryOut State.outcomeOf
    dsimp only
    cases h : (s.place st b).2 with
    | none => exact ⟨none, rfl⟩
    | some m => exact ⟨some m, rfl⟩

/-- Shadow mode does not change whether a placement turns the board away. -/
theorem outcomeOf_shadow (s : State) (on : Bool) (b : Placing) (route : Route) :
    State.outcomeOf { s with shadow := on } b route = s.outcomeOf b route := by
  cases route with
  | aside d dest cause => rfl
  | stacker d st =>
    have same : (State.place { s with shadow := on } st b).2 = none ↔ (s.place st b).2 = none := by
      rw [← wouldHoldBack_iff, ← wouldHoldBack_iff]
      exact Iff.rfl
    unfold State.outcomeOf
    simp only [same]

/-- The body of a MEASURE whose bin or flag may be outside its codes. -/
theorem readMeasure_any {n th w len bin raw : Nat} {flag : Byte} {tp : Int} (hn : n ≤ 65535) (ht : th ≤ 255) (hw : w ≤ 255)
    (hl : len ≤ 255) (hb : bin ≤ 255) (hr : raw ≤ 65535) (t0 : -128 ≤ tp) (t1 : tp ≤ 127) :
    readMeasure (u16 n ++ u8 th ++ u8 w ++ u8 len ++ u8 bin ++ u16 raw ++ [flag] ++ i8 tp) =
      some ⟨n, th, w, len, bin, raw, flagOf flag, tp⟩ := by
  simp [u8, i8, u16, readMeasure, n16_byteOf, z8_i8, *]

theorem flagOf_none {b : Byte} (h : 2 ≤ b.toNat) : flagOf b = none := by
  unfold flagOf
  rw [if_neg fun e => by rw [e] at h; exact absurd h (by decide), if_neg fun e => by rw [e] at h; exact absurd h (by decide)]

/-- Lot number 0, a bin above 15 or a flag outside its codes (R131). -/
theorem takeMeasure_badField (s : State) {q : MeasureBody} (h : q.lot = 0 ∨ 16 ≤ q.bin ∨ q.overRange = none) :
    takeMeasure q s = (s, .refuse .badField) := by
  unfold takeMeasure
  split
  next bin ov hbin hov =>
    have zero : q.lot = 0 := by
      obtain zero | beyond | none := h
      · exact zero
      · rw [placeOf, dif_neg (by omega)] at hbin
        cases hbin
      · rw [none] at hov
        cases hov
    rw [if_pos zero]
  · rfl

/-- The eleven bytes of a MEASURE by its parts. -/
theorem measureBytes_eq (seq : Nat) (d : Disposition) (dest : Destination) (pack : Option Nat) (why : Option HoldCause) (r : Reading)
    (shadow : Bool) : measureBytes seq ⟨d, dest, pack, why⟩ r shadow = u16 seq ++ u8 d.code ++ u8 dest.code ++ u16 (pack.getD 0) ++
      u16 r.mc ++ mark r.verified ++ mark shadow ++ u8 (HoldCause.code why) := rfl

theorem measureBytes_shadow (d : Disposition) (dest : Destination) (why : Option HoldCause) (r : Reading) :
    measureBytes 0 ⟨d, dest, none, why⟩ r true = [0, 0] ++ (u8 d.code ++ u8 dest.code ++ [0, 0] ++ u16 r.mc ++ mark r.verified ++
      [1] ++ u8 (HoldCause.code why)) := by
  rw [measureBytes_eq]
  simp only [List.append_assoc]
  rfl

end Sys2Proof.Machine

open Sys2Proof Sys2Proof.Machine

/-- Settles O51: the refusals by the lemmas on `takeMeasure`; shadow and counted answers by `judgeRoute_eq` and `carryOut_eq`, which
name the same outcome. -/
theorem lineHoldAndShadow : Obligations.LineHoldAndShadow := by
  refine ⟨fun s f hl hf => ?_, fun s f n th w len raw bin flag tp hl hn hth hw hlen hbin hraw t0 t1 hf bad => ?_, ?_⟩
  · exact ⟨serve_body hl hf rfl rfl (Nat.le_of_ble_eq_true rfl) rfl, serve_body hl hf rfl rfl (Nat.le_of_ble_eq_true rfl) rfl,
      serve_body hl hf rfl rfl (Nat.le_of_ble_eq_true rfl) rfl, serve_body hl hf rfl rfl (Nat.le_of_ble_eq_true rfl) rfl⟩
  · exact serve_body hl hf rfl (readMeasure_any hn hth hw hlen hbin hraw t0 t1) (Nat.le_of_ble_eq_true rfl)
      (takeMeasure_badField s (bad.imp_right (Or.imp_right flagOf_none)))
  intro s f n th w len raw bin ov tp hl one hn hth hw hlen hraw t0 t1 hf
  have hbin : placeOf 16 bin.val = some bin := placeOf_val bin
  have served {t r} (h : takeMeasure ⟨n, th, w, len, bin, raw, some ov, tp⟩ s = (t, r)) : exec (.measure f) s = .next (t.answer 0x50 f r) :=
    measure_heard hl hn hth hw hlen hraw t0 t1 hf h
  have number : n ≠ 0 := by omega
  refine ⟨fun line => ?_, fun line shadow full => ?_, fun line room => ⟨fun none => ?_, fun l found => ⟨fun code state => ?_,
    fun states shadow full => ?_⟩⟩, fun l line shadow found states => ?_⟩
  · exact served (takeMeasure_lineHeld (by exact hbin) rfl number line)
  · exact served (takeMeasure_queueFull (by exact hbin) rfl number line shadow full)
  · refine served ((takeMeasure_lot (by exact hbin) rfl number line room).trans ?_)
    dsimp only
    rw [none]
    rfl
  · have other : l.state.measurable = false ∧ l.state.code = code := by
      obtain ⟨state, rfl⟩ | ⟨state, rfl⟩ | ⟨state, rfl⟩ := state <;> rw [state] <;> exact ⟨rfl, rfl⟩
    obtain ⟨measured, rfl⟩ := other
    exact served (takeMeasure_lotState (by exact hbin) rfl number line room found measured)
  · exact served (takeMeasure_lotFull (by exact hbin) rfl number line room found ((measurable_iff _).2 states) shadow
      ((isFull_iff l _).2 full))
  · have shadowed {t r} (h : measureBoard ⟨n, th, w, len, bin, raw, some ov, tp⟩ ov bin l s = (t, r)) :
        exec (.measure f) s = .next (t.answer 0x50 f r) :=
      measure_accepted hl hn hth hw hlen hraw t0 t1 hf one line found states (.inl shadow) h
    refine ⟨?_, fun sp ft mc decision d dest cause species hft hmc hdecision kind => ?_⟩
    · have answered := shadowed (measureBoard_shadow _ ov shadow rfl rfl)
      rw [judgeRoute_eq, measureBytes_shadow] at answered
      exact ⟨_, answered, rfl, rfl, rfl, rfl⟩
    obtain ⟨r, hr⟩ : ∃ r : Reading,
        r = ⟨clampThickness th, clampWidth w, clampLength len, ft, dimensionFault th w len, clampTemp tp, mc, decide (0 ≤ tp)⟩ := ⟨_, rfl⟩
    have reading : readingOf ⟨n, th, w, len, bin, raw, some ov, tp⟩ ov (s.speciesAt l.species) = r := by
      rw [species, hr, readingOf_eq hft hmc]
    rw [← hr] at hdecision
    obtain ⟨why, outcome, hcause⟩ : ∃ why, s.outcomeOf ⟨l.number, decision.bin, r.footage, r.mc, r.verified⟩ decision.route =
        (d, dest, why) ∧ cause = HoldCause.code why := by
      rw [findLot_number found, hr]
      obtain ⟨why, route, hcause⟩ | ⟨e, st, route, placed⟩ := kind
      · exact ⟨why, by rw [route]; rfl, hcause⟩
      · rw [route]
        unfold State.outcomeOf
        dsimp only
        split at placed
        next away =>
          obtain ⟨rfl, rfl, rfl⟩ := placed
          exact ⟨_, if_pos away, rfl⟩
        next placed_there =>
          obtain ⟨rfl, rfl, rfl⟩ := placed
          exact ⟨_, if_neg placed_there, rfl⟩
    refine ⟨?_, fun room boards footage => ?_⟩
    · refine (shadowed (measureBoard_shadow _ ov shadow reading hdecision.symm)).trans ?_
      rw [judgeRoute_eq, outcome, measureBytes_shadow, hcause, hr]
      simp only [List.append_assoc]
      rfl
    · obtain ⟨pack, placed⟩ := carryOut_eq { s with shadow := false } ⟨l.number, decision.bin, r.footage, r.mc, r.verified⟩ decision.route
      rw [outcomeOf_shadow, outcome] at placed
      have counted := measureBoard_counted (s := { s with shadow := false }) ⟨n, th, w, len, bin, raw, some ov, tp⟩ ov rfl reading
        hdecision.symm rfl
      rw [placed] at counted
      obtain ⟨t, answered⟩ : ∃ t : State, exec (.measure f) { s with shadow := false } =
          .next (t.answer 0x50 f (.done (measureBytes s.freeSeq ⟨d, dest, pack, why⟩ r false))) :=
        ⟨_, measure_accepted (s := { s with shadow := false }) hl hn hth hw hlen hraw t0 t1 hf one line found states
          (.inr ⟨room, boards, hft ▸ footage⟩) counted⟩
      rw [measureBytes_eq, hr] at answered
      rw [hcause]
      exact ⟨t, pack.getD 0, answered⟩

end
